-- ==== Sys2Proof/Word.lean ====
section
/-!
DEFINITION. The words the HCC's host registers and streams are made of (spec/10_state.md R32, R42, R51;
spec/20_memory.md R73).
-/

namespace Sys2Proof

/-- A host-visible register: 32 bits (spec/10_state.md R32). -/
abbrev Word := BitVec 32

/-- A 64-bit register: BITS_SAVED, BITS_WRITTEN or IPOS (spec/10_state.md R42, R43, R46, R63). -/
abbrev DWord := BitVec 64

/-- A node reference: 16 bits (spec/10_state.md R51, R58). -/
abbrev NodeRef := BitVec 16

/-- NIL, the reference that denotes "absent" (spec/00_scope.md R10). -/
abbrev NIL : NodeRef := 0xFFFF#16

/-- One bit of a stream or of a path; `true` is 1 (spec/00_scope.md R13, spec/20_memory.md R73). -/
abbrev Bit := Bool

end Sys2Proof
end

