-- ==== Sys2Proof/Config.lean ====
section
/-!
DEFINITION. The implementation parameters of the HCC (spec/00_scope.md R9, spec/20_memory.md R81) and the free
values the spec leaves open (spec/10_state.md R49, spec/60_exceptions.md R252, spec/93_implementation_defined.md I5, I6, I10).

A model "takes every parameter as an argument of its configuration" (R9): the parameters are one record, which State
carries unchanged, so every statement is about every parameter set.
-/

namespace Sys2Proof

/-- The parameters of spec/00_scope.md R9 and the platform's base address HCC_BASE of spec/20_memory.md R81. -/
structure Config where
  /-- SW, bits per natural symbol -/
  sw : Nat
  /-- IW, bits per header integer -/
  iw : Nat
  /-- NCAP, records of the node pool -/
  ncap : Nat
  /-- MAGIC, an IW-bit value -/
  magic : Nat
  /-- SEL_COUNTS, the selector of the flat-table header, an IW-bit value -/
  selCounts : Nat
  /-- SEL_TREE, the selector of the tree-shape header, an IW-bit value -/
  selTree : Nat
  /-- FREQ_PLACEHOLDER, the OPEN FW-bit frequency of reconstructed records -/
  freqPlaceholder : Nat
  /-- SYM_PLACEHOLDER, the OPEN (SW+1)-bit symbol of internal records -/
  symPlaceholder : Nat
  /-- HCC_BASE, where the platform puts the register space -/
  hccBase : Nat
  deriving DecidableEq, Repr

namespace Config

/-- ALPH, the number of natural symbols (spec/00_scope.md R9). -/
abbrev alph (c : Config) : Nat := 2 ^ c.sw

/-- EOFSYM, the PSEUDO_EOF sentinel (spec/00_scope.md R9). -/
abbrev eofsym (c : Config) : Nat := 2 ^ c.sw

/-- FW, the width of a frequency field (spec/00_scope.md R9). -/
abbrev fw (c : Config) : Nat := c.iw + c.sw + 1

/-- QCAP, the capacity of the queue (spec/00_scope.md R9). -/
abbrev qcap (c : Config) : Nat := c.ncap

/-- PATHMAX, the bits of storage of a path table entry (spec/00_scope.md R9). -/
abbrev pathmax (c : Config) : Nat := c.ncap

/-- A word whose value the spec leaves open: a register read while BUSY = 1 (spec/10_state.md R49), a result register
after a fault (spec/60_exceptions.md R252). Free: it has no body, and the argument is the draw's number. -/
opaque freeWord : Nat → Word

/-- The OPEN value FREQ_PLACEHOLDER of the reset configuration (spec/00_scope.md R9, spec/92_eei_decisions.md D16). Free. -/
opaque openFreqPlaceholder : Nat

/-- The OPEN value SYM_PLACEHOLDER of the reset configuration (spec/00_scope.md R9, spec/92_eei_decisions.md D16). Free. -/
opaque openSymPlaceholder : Nat

/-- The default parameter set (spec/00_scope.md R9, R11), its two OPEN parameters free within their widths (FW = 41 and
SW+1 = 9 bits). HCC_BASE: DESIGN CHOICE 0 (log 1). MAGIC and the selectors: the spec's own defaults, which it marks as
general knowledge (log 15). -/
def default : Config where
  sw := 8
  iw := 32
  ncap := 513
  magic := 0xFACE8200
  selCounts := 0
  selTree := 1
  freqPlaceholder := openFreqPlaceholder % 2 ^ 41
  symPlaceholder := openSymPlaceholder % 2 ^ 9
  hccBase := 0

end Config

end Sys2Proof
end

