-- ==== Sys2Proof/Syntax.lean ====
section
/-!
DEFINITION. The command set: one constructor per row of spec/opcode_table.json (spec/30_encoding.md R92).
-/

namespace Sys2Proof

/-- The header format PLAN selects with FMT and STATUS.PFMT holds (spec/30_encoding.md R93, spec/10_state.md R39). -/
inductive HeaderFormat where
  /-- 0: flat-table header, STORE_COUNTS -/
  | counts
  /-- 1: tree-shape header, STORE_TREE -/
  | tree
  deriving DecidableEq, Repr

/-- The commands of the HCC. Operands are the latched registers LARG0 and LARG1 (spec/30_encoding.md R95), so only the
two flags of the command word are arguments. -/
inductive Instr where
  /-- PLAN, with FMT (spec/45_driver.md R212) -/
  | plan (fmt : HeaderFormat)
  /-- COMPRESS, with OVR (spec/45_driver.md R216) -/
  | compress (ovr : Bool)
  /-- DECOMPRESS (spec/45_driver.md R220) -/
  | decompress
  /-- SOFT_RESET (spec/45_driver.md R226) -/
  | softReset
  /-- NODE_LEAF (spec/40_node_queue.md R120) -/
  | nodeLeaf
  /-- NODE_INFO (spec/40_node_queue.md R121) -/
  | nodeInfo
  /-- Q_ENQUEUE (spec/40_node_queue.md R122) -/
  | qEnqueue
  /-- Q_DEQUEUE (spec/40_node_queue.md R123) -/
  | qDequeue
  /-- Q_FRONT (spec/40_node_queue.md R124) -/
  | qFront
  /-- Q_ISEMPTY (spec/40_node_queue.md R125) -/
  | qIsEmpty
  /-- Q_SIZE (spec/40_node_queue.md R126) -/
  | qSize
  /-- T_CREATE (spec/41_tree_build.md R140) -/
  | tCreate
  /-- T_TRAVEL (spec/42_path_table.md R150) -/
  | tTravel
  /-- PATH_READ (spec/42_path_table.md R153) -/
  | pathRead
  /-- T_EMIT (spec/42_path_table.md R156) -/
  | tEmit
  /-- T_COUNT_BITS (spec/43_serialize.md R170) -/
  | tCountBits
  /-- T_WRITE (spec/43_serialize.md R171) -/
  | tWrite
  /-- T_RECREATE (spec/43_serialize.md R172) -/
  | tRecreate
  /-- T_DECODE (spec/44_decode.md R191) -/
  | tDecode
  /-- FREQ_READ (spec/45_driver.md R224) -/
  | freqRead
  /-- IN_REWIND (spec/45_driver.md R225) -/
  | inRewind
  deriving DecidableEq, Repr

end Sys2Proof
end

