-- ==== Sys2Proof/WellFormed.lean ====
section
/-!
DEFINITION. What makes a parameter set, a host access and a command well formed (spec/00_scope.md R9,
spec/20_memory.md R71, spec/30_encoding.md R91).
-/

namespace Sys2Proof

/-- The constraint column of spec/00_scope.md R9, one check per parameter constraint. -/
def Config.valid (c : Config) : Bool :=
  decide (1 ≤ c.sw) && decide (c.sw ≤ 14) &&
  decide (8 ≤ c.iw) && decide (c.iw ≤ 32) &&
  decide (c.ncap * (c.sw + 2) < 2 ^ c.iw) && decide (c.iw + c.sw + 2 ≤ 64) &&
  decide (2 ^ (c.sw + 1) + 1 ≤ c.ncap) && decide (c.ncap ≤ 0xFFFE) &&
  decide (c.magic < 2 ^ c.iw) && decide (c.selCounts < 2 ^ c.iw) && decide (c.selTree < 2 ^ c.iw) &&
  decide (c.selCounts ≠ c.selTree) &&
  decide (c.freqPlaceholder < 2 ^ c.fw) && decide (c.symPlaceholder < 2 ^ (c.sw + 1))

/-- A host access the HCC gives a meaning: 32 bits (4 bytes), at a multiple of 4 inside the 256-byte register space
(spec/20_memory.md R71). `addr` is the address in the host's map. -/
def Config.accessOk (c : Config) (addr size : Nat) : Bool :=
  decide (size = 4) && decide (c.hccBase ≤ addr) && decide (addr - c.hccBase ≤ 0xFC) && decide ((addr - c.hccBase) % 4 = 0)

/-- A command is well formed as such: its flags are typed, and it has no operand field that could be out of range
(spec/30_encoding.md R91, R95; the words that are no command are what the decoder refuses). -/
def Instr.wf (i : Instr) : Bool :=
  match i with
  | .plan _ | .compress _ | .decompress | .softReset | .nodeLeaf | .nodeInfo | .qEnqueue | .qDequeue | .qFront
  | .qIsEmpty | .qSize | .tCreate | .tTravel | .pathRead | .tEmit | .tCountBits | .tWrite | .tRecreate | .tDecode
  | .freqRead | .inRewind => true

end Sys2Proof
end

