-- ==== Sys2Proof/Decode.lean ====
section
/-!
DEFINITION. Decoding of the command word, total on every 32-bit word (spec/30_encoding.md R91, R92, R96, R101), and after
it the encoder and the rows of the opcode table.
-/

namespace Sys2Proof

/-- Why a word is ILLEGAL (spec/30_encoding.md R96). -/
inductive DecodeError where
  /-- RSV = w[31:10] is not 0 -/
  | reservedBits
  /-- OP is not in the table of R92 -/
  | reservedOpcode
  /-- OVR = 1 on a command other than COMPRESS -/
  | overrideNotAllowed
  /-- FMT = 1 on a command other than PLAN -/
  | formatNotAllowed
  deriving DecidableEq, Repr

/-- OP, w[7:0] (R91). -/
def fieldOp (w : Word) : BitVec 8 := w.extractLsb' 0 8

/-- OVR, w[8] (R91). -/
def fieldOvr (w : Word) : Bool := w.getLsbD 8

/-- FMT, w[9] (R91). -/
def fieldFmt (w : Word) : Bool := w.getLsbD 9

/-- RSV, w[31:10] (R91). -/
def fieldRsv (w : Word) : BitVec 22 := w.extractLsb' 10 22

/-- The header format FMT selects (R93): 0 flat table, 1 tree shape. -/
def formatOfBit (b : Bool) : HeaderFormat := if b then .tree else .counts

/-- The FMT bit of a header format (R93). -/
def bitOfFormat (f : HeaderFormat) : Bool :=
  match f with
  | .counts => false
  | .tree => true

/-- The opcode map of R92, with the flags of the word. -/
def commandOf (op : BitVec 8) (ovr fmt : Bool) : Option Instr :=
  match op.toNat with
  | 0x01 => some (.plan (formatOfBit fmt))
  | 0x02 => some (.compress ovr)
  | 0x03 => some .decompress
  | 0x04 => some .softReset
  | 0x10 => some .nodeLeaf
  | 0x11 => some .nodeInfo
  | 0x18 => some .qEnqueue
  | 0x19 => some .qDequeue
  | 0x1A => some .qFront
  | 0x1B => some .qIsEmpty
  | 0x1C => some .qSize
  | 0x20 => some .tCreate
  | 0x28 => some .tTravel
  | 0x29 => some .pathRead
  | 0x2A => some .tEmit
  | 0x30 => some .tCountBits
  | 0x31 => some .tWrite
  | 0x32 => some .tRecreate
  | 0x38 => some .tDecode
  | 0x40 => some .freqRead
  | 0x41 => some .inRewind
  | _ => none

/-- The decoding procedure of R101, its checks in its order. -/
def decode (w : Word) : Except DecodeError Instr :=
  if fieldRsv w ≠ 0 then .error .reservedBits
  else match commandOf (fieldOp w) (fieldOvr w) (fieldFmt w) with
    | none => .error .reservedOpcode
    | some i =>
      if fieldOvr w = true ∧ fieldOp w ≠ 0x02 then .error .overrideNotAllowed
      else if fieldFmt w = true ∧ fieldOp w ≠ 0x01 then .error .formatNotAllowed
      else .ok i

/-- The command a word of the opcode table's numbering decodes to: the word is the one 32-bit unit a host writes to CMD
(R90, R98), and the bits above `nbits` are 0. -/
def decodeTableWord (nbits w : Nat) : Option Instr :=
  if nbits ≤ 32 ∧ w < 2 ^ nbits then
    match decode (BitVec.ofNat 32 w) with
    | .ok i => some i
    | .error _ => none
  else none

/-- The opcode of a command (R92). -/
def opcodeOf (i : Instr) : BitVec 8 :=
  match i with
  | .plan _ => 0x01
  | .compress _ => 0x02
  | .decompress => 0x03
  | .softReset => 0x04
  | .nodeLeaf => 0x10
  | .nodeInfo => 0x11
  | .qEnqueue => 0x18
  | .qDequeue => 0x19
  | .qFront => 0x1A
  | .qIsEmpty => 0x1B
  | .qSize => 0x1C
  | .tCreate => 0x20
  | .tTravel => 0x28
  | .pathRead => 0x29
  | .tEmit => 0x2A
  | .tCountBits => 0x30
  | .tWrite => 0x31
  | .tRecreate => 0x32
  | .tDecode => 0x38
  | .freqRead => 0x40
  | .inRewind => 0x41

/-- The OVR bit of a command (R94): only COMPRESS may set it. -/
def ovrOf (i : Instr) : Bool :=
  match i with
  | .compress ovr => ovr
  | .plan _ | .decompress | .softReset | .nodeLeaf | .nodeInfo | .qEnqueue | .qDequeue | .qFront | .qIsEmpty | .qSize
  | .tCreate | .tTravel | .pathRead | .tEmit | .tCountBits | .tWrite | .tRecreate | .tDecode | .freqRead | .inRewind => false

/-- The FMT bit of a command (R93): only PLAN may set it. -/
def fmtOf (i : Instr) : Bool :=
  match i with
  | .plan fmt => bitOfFormat fmt
  | .compress _ | .decompress | .softReset | .nodeLeaf | .nodeInfo | .qEnqueue | .qDequeue | .qFront | .qIsEmpty | .qSize
  | .tCreate | .tTravel | .pathRead | .tEmit | .tCountBits | .tWrite | .tRecreate | .tDecode | .freqRead | .inRewind => false

/-- The command word of a command: RSV = 0, FMT, OVR, OP (R91, R99). -/
def encode (i : Instr) : Word :=
  (0 : BitVec 22) ++ BitVec.ofBool (fmtOf i) ++ BitVec.ofBool (ovrOf i) ++ opcodeOf i

/-- One row of spec/opcode_table.json: a word is the row's command exactly when its bits under `mask` are `bits`. -/
structure TableRow where
  mnemonic : String
  bits : Word
  mask : Word
  deriving DecidableEq, Repr

/-- spec/opcode_table.json, its match and mask columns. -/
def opcodeTable : List TableRow :=
  [ ⟨"PLAN", 0x00000001, 0xFFFFFDFF⟩, ⟨"COMPRESS", 0x00000002, 0xFFFFFEFF⟩, ⟨"DECOMPRESS", 0x00000003, 0xFFFFFFFF⟩,
    ⟨"SOFT_RESET", 0x00000004, 0xFFFFFFFF⟩ ] ++
  [ ⟨"NODE_LEAF", 0x00000010, 0xFFFFFFFF⟩, ⟨"NODE_INFO", 0x00000011, 0xFFFFFFFF⟩, ⟨"Q_ENQUEUE", 0x00000018, 0xFFFFFFFF⟩,
    ⟨"Q_DEQUEUE", 0x00000019, 0xFFFFFFFF⟩, ⟨"Q_FRONT", 0x0000001A, 0xFFFFFFFF⟩, ⟨"Q_ISEMPTY", 0x0000001B, 0xFFFFFFFF⟩,
    ⟨"Q_SIZE", 0x0000001C, 0xFFFFFFFF⟩ ] ++
  [ ⟨"T_CREATE", 0x00000020, 0xFFFFFFFF⟩, ⟨"T_TRAVEL", 0x00000028, 0xFFFFFFFF⟩, ⟨"PATH_READ", 0x00000029, 0xFFFFFFFF⟩,
    ⟨"T_EMIT", 0x0000002A, 0xFFFFFFFF⟩, ⟨"T_COUNT_BITS", 0x00000030, 0xFFFFFFFF⟩, ⟨"T_WRITE", 0x00000031, 0xFFFFFFFF⟩,
    ⟨"T_RECREATE", 0x00000032, 0xFFFFFFFF⟩, ⟨"T_DECODE", 0x00000038, 0xFFFFFFFF⟩, ⟨"FREQ_READ", 0x00000040, 0xFFFFFFFF⟩,
    ⟨"IN_REWIND", 0x00000041, 0xFFFFFFFF⟩ ]

/-- The word is the row's command (the match and mask columns of the table). -/
def TableRow.matches (r : TableRow) (w : Word) : Bool := w &&& r.mask == r.bits

/-- The mnemonic of a command, as the table spells it (R92). -/
def mnemonicOf (i : Instr) : String :=
  match i with
  | .plan _ => "PLAN"
  | .compress _ => "COMPRESS"
  | .decompress => "DECOMPRESS"
  | .softReset => "SOFT_RESET"
  | .nodeLeaf => "NODE_LEAF"
  | .nodeInfo => "NODE_INFO"
  | .qEnqueue => "Q_ENQUEUE"
  | .qDequeue => "Q_DEQUEUE"
  | .qFront => "Q_FRONT"
  | .qIsEmpty => "Q_ISEMPTY"
  | .qSize => "Q_SIZE"
  | .tCreate => "T_CREATE"
  | .tTravel => "T_TRAVEL"
  | .pathRead => "PATH_READ"
  | .tEmit => "T_EMIT"
  | .tCountBits => "T_COUNT_BITS"
  | .tWrite => "T_WRITE"
  | .tRecreate => "T_RECREATE"
  | .tDecode => "T_DECODE"
  | .freqRead => "FREQ_READ"
  | .inRewind => "IN_REWIND"

/-- The kind column of R92, used by R97: Driver command, state-changing component command, read-only component command. -/
inductive CommandKind where
  | driver
  | changing
  | readOnly
  deriving DecidableEq, Repr

/-- The kind of a command (R92). -/
def kindOf (i : Instr) : CommandKind :=
  match i with
  | .plan _ | .compress _ | .decompress | .softReset => .driver
  | .nodeLeaf | .qEnqueue | .qDequeue | .tCreate | .tTravel | .tEmit | .tWrite | .tRecreate | .tDecode | .inRewind => .changing
  | .nodeInfo | .qFront | .qIsEmpty | .qSize | .pathRead | .tCountBits | .freqRead => .readOnly

end Sys2Proof
end

