-- ==== Sys2Proof/Machine/State.lean ====
section
/-!
DEFINITION. The state of the HCC: the record of spec/10_state.md R65 with the ports and the host beside it, the state right
after reset (spec/70_reset_and_hazards.md R280), and the reasons the model itself stops.
-/

namespace Sys2Proof.Machine

/-- Why the machine stops with a fault of the MODEL. The HCC's own faults (`FaultCode`) are recorded in STATUS and are next
states (spec/60_exceptions.md R252). No state that a run reaches raises one of these. -/
inductive Fault where
  /-- Raised where a rule's own recursion or loop would never end because the state is malformed: a record pool in which
  LEFT and RIGHT lead back to a record (excluded by spec/10_state.md R53 (d)), a symbol width of 0 (excluded by
  spec/00_scope.md R9), or a port IN of 2^64 bits or more (never attached, log 10). Safe: the model stops where the spec's rule never ends. -/
  | runaway
  /-- Raised by `step` and by the decoder when a decode is to go on but BUSY or CUR says that none is in flight
  (spec/10_state.md R60). Safe: no run reaches such a state. -/
  | noDecodeInFlight
  deriving DecidableEq, Repr

/-- Why the machine refuses. -/
inductive Refusal where
  /-- An instruction without a meaning, raised by `exec`'s own arm only. Safe. -/
  | notModelled (mnemonic : String)
  /-- A host access of another size, alignment or address than spec/20_memory.md R71 supports, raised by the host port:
  "the HCC gives it no meaning and a model refuses it". Safe. -/
  | unsupportedAccess
  /-- A read of a record at or above NEXT, raised by `nodeRead` (spec/93_implementation_defined.md I7: refuse any read).
  Safe: every command checks its references first, so no run without a malformed start reaches it. -/
  | freeRecord
  /-- The host attaches another input stream while a command executes, raised by the host port: outside premise STABLE_INPUT
  (spec/70_reset_and_hazards.md R288, R290). Safe: claims take the premise. -/
  | unstableInput
  /-- The host attaches an input stream of 2^64 bits or more, raised by the host port: the bits consumed would not fit IPOS,
  which is 64 bits wide (spec/10_state.md R46, R63; log 10). Safe: no rule says what a count that does not fit becomes. -/
  | streamTooLong
  deriving DecidableEq, Repr

/-- The faults of the HCC (spec/60_exceptions.md R253). Their codes are `FaultCode.code`. -/
inductive FaultCode where
  | illegalCmd
  | nullNode
  | badRef
  | emptyQueue
  | dupNode
  | poolFull
  | noTree
  | noPath
  | badSymbol
  | notPlanned
  | notClean
  | inputExhausted
  | nullChild
  | badFormat
  | treeSizeMismatch
  | inputTooLong
  | cmdWhileBusy
  | freqOverflow
  deriving DecidableEq, Repr

/-- STATUS.DSTATE, the Driver's session state (spec/10_state.md R34, R38). -/
inductive DState where
  | clean
  | planned
  | used
  deriving DecidableEq, Repr

/-- STATUS.OUTCOME, how the last command ended (spec/10_state.md R34, R37). -/
inductive CmdOutcome where
  | none
  | ok
  | refused
  | badMagic
  | faulted
  deriving DecidableEq, Repr

/-- KIND of a node record (spec/10_state.md R51): 1 leaf, 0 internal. -/
inductive NodeKind where
  | leaf
  | internal
  deriving DecidableEq, Repr

/-- A node record (spec/10_state.md R51). SYM has SW+1 bits and FREQ has FW bits; both are parameters, so the fields are
numbers and the widths are part of the invariant (`State.Inv`). -/
structure NodeRec where
  kind : NodeKind
  sym : Nat
  freq : Nat
  left : NodeRef
  right : NodeRef
  owned : Bool
  deriving DecidableEq, Repr

/-- State of one entry of the reconstruction stack (spec/10_state.md R61). -/
inductive AwaitSide where
  | leftChild
  | rightChild
  deriving DecidableEq, Repr

/-- Something the host does (spec/00_scope.md R8, spec/20_memory.md R71, R73, spec/70_reset_and_hazards.md R280, R284). -/
inductive HostAct where
  /-- MemWrite(addr, size, value), with size in bytes -/
  | write (addr size : Nat) (value : Word)
  /-- MemRead(addr, size) -/
  | read (addr size : Nat)
  /-- the reset input -/
  | hardReset
  /-- port IN presents these bits from now on -/
  | attach (bits : List Bit)
  deriving DecidableEq, Repr

/-- A coming act of the host and when it lands if a command is executing then: `some k`, at the engine point after `k`
more points of the command; `none`, not before BUSY = 0, which is the host's WAIT (spec/30_encoding.md R99). Premise HOST_WAITS
(spec/70_reset_and_hazards.md R290) asks it of the CMD writes only (`State.hostWaits`). -/
structure HostEvent where
  gap : Option Nat
  act : HostAct
  deriving DecidableEq, Repr

/-- The state (spec/10_state.md R65; INVENTORY.md lists each field with its rule). -/
structure State where
  /-- the parameters (launch; spec/00_scope.md R9) -/
  cfg : Config
  /-- STATUS.BUSY (R35) -/
  busy : Bool
  /-- STATUS.FAULT and STATUS.FCODE: FAULT = 1 exactly when a fault is recorded (R36) -/
  fault : Option FaultCode
  /-- STATUS.OUTCOME (R37) -/
  outcome : CmdOutcome
  /-- STATUS.DSTATE (R38) -/
  dstate : DState
  /-- STATUS.PFMT (R39) -/
  pfmt : HeaderFormat
  /-- ARG0 (R40) -/
  arg0 : Word
  /-- ARG1 (R40) -/
  arg1 : Word
  /-- RES0 (R41) -/
  res0 : Word
  /-- RES1 (R41) -/
  res1 : Word
  /-- RES2 (R41) -/
  res2 : Word
  /-- RES3 (R41) -/
  res3 : Word
  /-- BITS_SAVED, two's complement (R42) -/
  bitsSaved : DWord
  /-- BITS_WRITTEN, unsigned (R43) -/
  bitsWritten : DWord
  /-- the allocated records NODES[0..NEXT) (R50, R52) -/
  nodes : List NodeRec
  /-- the ordered queue, its front first (R54) -/
  queue : List NodeRef
  /-- the path table, entry by symbol: `none` when PRESENT = 0 (R56) -/
  pt : List (Option (List Bit))
  /-- the frequency table, count by symbol (R57) -/
  freq : List Nat
  /-- ROOTREF (R58) -/
  rootRef : NodeRef
  /-- LCMD (R62) -/
  lcmd : Word
  /-- LARG0 (R62) -/
  larg0 : Word
  /-- LARG1 (R62) -/
  larg1 : Word
  /-- IPOS, 64 bits (R46, R63) -/
  ipos : DWord
  /-- CUR, during a decode only (R60) -/
  cursor : Option NodeRef
  /-- m, the symbols the running decode has emitted (spec/44_decode.md R190) -/
  decoded : Nat
  /-- the reconstruction stack, innermost first, during a reconstruction only (R61) -/
  stack : List (NodeRef × AwaitSide)
  /-- port IN (launch; spec/20_memory.md R73) -/
  input : List Bit
  /-- OLOG, the bits sent to port OUT, oldest first (R63) -/
  olog : List Bit
  /-- the host's coming acts, next first (the model's own field) -/
  host : List HostEvent
  /-- what the host has read, oldest first (the model's own field) -/
  seen : List (Nat × Word)
  /-- how many free values have been drawn (the model's own field) -/
  draws : Nat
  deriving DecidableEq, Repr

/-- NEXT, the pool's allocation counter (R52): the records are handed out in order, so it is how many there are. -/
abbrev State.next (s : State) : Nat := s.nodes.length

/-- IPOS as a number: the index of the next bit of port IN (R63, spec/20_memory.md R73). -/
abbrev State.pos (s : State) : Nat := s.ipos.toNat

/-- The machine right after reset (spec/70_reset_and_hazards.md R280, spec/10_state.md R32), at the default parameters, with
OLOG empty (R290 CLEAN_LAUNCH), port IN presenting nothing yet (log 13) and the host having nothing to do yet (log 5). -/
def State.reset : State where
  cfg := Config.default
  busy := false
  fault := none
  outcome := .none
  dstate := .clean
  pfmt := .counts
  arg0 := 0
  arg1 := 0
  res0 := 0
  res1 := 0
  res2 := 0
  res3 := 0
  bitsSaved := 0
  bitsWritten := 0
  nodes := []
  queue := []
  pt := List.replicate (Config.default.eofsym + 1) none
  freq := List.replicate (Config.default.eofsym + 1) 0
  rootRef := NIL
  lcmd := 0
  larg0 := 0
  larg1 := 0
  ipos := 0
  cursor := none
  decoded := 0
  stack := []
  input := []
  olog := []
  host := []
  seen := []
  draws := 0

end Sys2Proof.Machine
end

