-- ==== Sys2Proof/Machine/Bits.lean ====
section
/-!
DEFINITION. Bit fields: numbers as bit sequences, most significant bit first (spec/20_memory.md R74, R76, R78), and the
adapters' packing of a stream into bytes (R77), which no rule of the HCC depends on.
-/

namespace Sys2Proof.Machine

/-- The `n` low bits of `v`, most significant first (R76). -/
def toBits : Nat → Nat → List Bit
  | 0, _ => []
  | n + 1, v => v.testBit n :: toBits n v

/-- The value of a bit sequence whose first bit is the most significant (R74). -/
def ofBits (bits : List Bit) : Nat := bits.foldl (fun acc b => 2 * acc + b.toNat) 0

/-- Σ of `f s` for s in 0 .. n-1. -/
def sumTo (n : Nat) (f : Nat → Nat) : Nat :=
  match n with
  | 0 => 0
  | k + 1 => sumTo k f + f k

/-- The bytes of a stream, `k` of them: stream bit i is bit 7 - (i mod 8) of byte i / 8, and the last byte is completed with
0 bits (R77). -/
def packBytesN : Nat → List Bit → List (BitVec 8)
  | 0, _ => []
  | k + 1, bits => BitVec.ofNat 8 (ofBits ((bits ++ List.replicate 8 false).take 8)) :: packBytesN k (bits.drop 8)

/-- The bytes of a whole stream (R77). -/
def packBytes (bits : List Bit) : List (BitVec 8) := packBytesN ((bits.length + 7) / 8) bits

/-- The bit sequence of a byte sequence (R77). -/
def unpackBytes (bytes : List (BitVec 8)) : List Bit := bytes.flatMap fun b => toBits 8 b.toNat

end Sys2Proof.Machine
end

