-- ==== Sys2Proof/Machine/Flags.lean ====
section
/-!
DEFINITION. The flags of the HCC are the STATUS fields (spec/10_state.md R34, R64): their codes, the STATUS word, and what
each command's end does to them (spec/60_exceptions.md R251).
-/

namespace Sys2Proof.Machine

/-- The 8-bit codes of spec/60_exceptions.md R253. -/
def FaultCode.code (f : FaultCode) : BitVec 8 :=
  match f with
  | .illegalCmd => 0x01
  | .nullNode => 0x02
  | .badRef => 0x03
  | .emptyQueue => 0x04
  | .dupNode => 0x05
  | .poolFull => 0x06
  | .noTree => 0x07
  | .noPath => 0x08
  | .badSymbol => 0x09
  | .notPlanned => 0x0A
  | .notClean => 0x0B
  | .inputExhausted => 0x0C
  | .nullChild => 0x0D
  | .badFormat => 0x0E
  | .treeSizeMismatch => 0x0F
  | .inputTooLong => 0x10
  | .cmdWhileBusy => 0x11
  | .freqOverflow => 0x12

/-- The codes of DSTATE (R34). -/
def DState.code (d : DState) : BitVec 2 :=
  match d with
  | .clean => 0
  | .planned => 1
  | .used => 2

/-- The codes of OUTCOME (R34, R37). -/
def CmdOutcome.code (o : CmdOutcome) : BitVec 3 :=
  match o with
  | .none => 0
  | .ok => 1
  | .refused => 2
  | .badMagic => 3
  | .faulted => 4

/-- FCODE: the code of the recorded fault, 0 when there is none (R34). -/
def fcodeOf (f : Option FaultCode) : BitVec 8 :=
  match f with
  | none => 0
  | some c => c.code

/-- The STATUS word (R34): bits 31:24 zero, FCODE, bits 15:11 zero, OUTCOME, bits 7:5 zero, PFMT, DSTATE, FAULT, BUSY. -/
def State.status (s : State) : Word :=
  (0 : BitVec 8) ++ fcodeOf s.fault ++ (0 : BitVec 5) ++ s.outcome.code ++ (0 : BitVec 3)
    ++ BitVec.ofBool (bitOfFormat s.pfmt) ++ s.dstate.code ++ BitVec.ofBool s.fault.isSome ++ BitVec.ofBool s.busy

/-- The bits of STATUS that a field occupies, BUSY left out (R34): FCODE, OUTCOME, PFMT, DSTATE, FAULT. -/
def statusFieldMask : Word := 0x00FF071E

/-- STATUS as read while BUSY = 1: BUSY reads 1, the other fields are unspecified (R49), and the bits no field occupies read
0 (R34). `free` is the free word drawn for the read. -/
def busyStatus (free : Word) : Word := (free &&& statusFieldMask) ||| 1

/-- `done(outcome)` (spec/60_exceptions.md R251): OUTCOME and BUSY, nothing else. -/
def State.endWith (s : State) (o : CmdOutcome) : State := { s with outcome := o, busy := false }

/-- DSTATE (R38). -/
def State.setDState (s : State) (d : DState) : State := { s with dstate := d }

/-- PFMT (R39). -/
def State.setPfmt (s : State) (f : HeaderFormat) : State := { s with pfmt := f }

/-- A decoder's state, derived from CUR (R60). -/
structure DecoderState where
  atRoot : Bool
  atLeaf : Bool
  atInternal : Bool
  deriving DecidableEq, Repr

/-- AT_ROOT, AT_LEAF and AT_INTERNAL as R60 derives them from CUR, ROOTREF and the pool; none outside a decode. AT_ROOT and
AT_LEAF both hold when the root is a leaf. -/
def State.decoderAt (s : State) : Option DecoderState :=
  match s.cursor with
  | none => none
  | some cur =>
    let root := cur == s.rootRef
    let leaf := match s.nodes[cur.toNat]? with
      | some n => n.kind == .leaf
      | none => false
    some ⟨root, leaf, !root && !leaf⟩

end Sys2Proof.Machine
end

