-- ==== Sys2Proof/Machine/Ops.lean ====
section
/-!
DEFINITION. The named operations every command is written over: updates of one piece of state, the register space, what a
host access does while a command executes, taking a fault (spec/60_exceptions.md R252) and the return from one
(spec/70_reset_and_hazards.md R280), the ports (spec/20_memory.md R74 to R76), and the node and queue primitives
(spec/40_node_queue.md R110 to R116).

A command is a `Cmd`: the pseudocode of its rule over State, which ends normally or with a `Stop`, and keeps the state it
has reached either way (R252: the state is the one the pseudocode reaches at the `raise`).
-/

namespace Sys2Proof.Machine

/-! ### Updates of one piece of state -/

/-- IPOS, 64 bits (spec/10_state.md R46, R63). -/
def State.setIpos (s : State) (n : Nat) : State := { s with ipos := BitVec.ofNat 64 n }
/-- OLOG, more bits at its end (spec/20_memory.md R76). -/
def State.send (s : State) (bits : List Bit) : State := { s with olog := s.olog ++ bits }
/-- The node pool (spec/10_state.md R50). -/
def State.setNodes (s : State) (ns : List NodeRec) : State := { s with nodes := ns }
/-- The queue (spec/10_state.md R54). -/
def State.setQueue (s : State) (q : List NodeRef) : State := { s with queue := q }
/-- The path table (spec/10_state.md R56). -/
def State.setPt (s : State) (pt : List (Option (List Bit))) : State := { s with pt := pt }
/-- The frequency table (spec/10_state.md R57). -/
def State.setFreq (s : State) (f : List Nat) : State := { s with freq := f }
/-- ROOTREF (spec/10_state.md R58). -/
def State.setRoot (s : State) (r : NodeRef) : State := { s with rootRef := r }
/-- RES0 (spec/10_state.md R41). -/
def State.setRes0 (s : State) (v : Word) : State := { s with res0 := v }
/-- RES1 (spec/10_state.md R41). -/
def State.setRes1 (s : State) (v : Word) : State := { s with res1 := v }
/-- RES2 (spec/10_state.md R41). -/
def State.setRes2 (s : State) (v : Word) : State := { s with res2 := v }
/-- RES3 (spec/10_state.md R41). -/
def State.setRes3 (s : State) (v : Word) : State := { s with res3 := v }
/-- BITS_SAVED (spec/10_state.md R42). -/
def State.setBitsSaved (s : State) (v : DWord) : State := { s with bitsSaved := v }
/-- BITS_WRITTEN (spec/10_state.md R43). -/
def State.setBitsWritten (s : State) (v : DWord) : State := { s with bitsWritten := v }
/-- CUR and the count of symbols the running decode has emitted (spec/10_state.md R60, spec/44_decode.md R190). -/
def State.setDecode (s : State) (cur : Option NodeRef) (m : Nat) : State := { s with cursor := cur, decoded := m }
/-- The reconstruction stack (spec/10_state.md R61). -/
def State.setStack (s : State) (st : List (NodeRef × AwaitSide)) : State := { s with stack := st }
/-- ARG0 (spec/10_state.md R40). -/
def State.setArg0 (s : State) (v : Word) : State := { s with arg0 := v }
/-- ARG1 (spec/10_state.md R40). -/
def State.setArg1 (s : State) (v : Word) : State := { s with arg1 := v }
/-- A stream whose bits IPOS can count: fewer than 2^64 of them (spec/10_state.md R46, R63; log 10). -/
def countableBits (bits : List Bit) : Bool := decide (bits.length < 2 ^ 64)

/-- What port IN presents (spec/20_memory.md R73). -/
def State.setInput (s : State) (bits : List Bit) : State := { s with input := bits }
/-- The host's coming acts (the model's own field). -/
def State.setHost (s : State) (h : List HostEvent) : State := { s with host := h }
/-- The host has read `v` at `addr` (the model's own field). -/
def State.noteRead (s : State) (addr : Nat) (v : Word) : State := { s with seen := s.seen ++ [(addr, v)] }
/-- `k` more free values have been drawn (the model's own field). -/
def State.draw (s : State) (k : Nat) : State := { s with draws := s.draws + k }

/-- Latching a command word (spec/30_encoding.md R90): LCMD, LARG0, LARG1, and BUSY <- 1. -/
def State.latch (s : State) (w : Word) : State := { s with lcmd := w, larg0 := s.arg0, larg1 := s.arg1, busy := true }

/-! ### Taking a fault, and the return from one -/

/-- `raise F` (spec/60_exceptions.md R252): FAULT <- 1 and FCODE <- code of F, OUTCOME <- FAULTED, BUSY <- 0. RES0 to RES3
and BITS_WRITTEN are unspecified from then on: free values (log 4). The decoder cursor and the reconstruction stack have no
value outside a decode or a reconstruction (spec/10_state.md R60, R61; log 19). Everything else stays as it is. -/
def takeFault (f : FaultCode) (s : State) : State :=
  { s with
    fault := some f
    outcome := .faulted
    busy := false
    res0 := Config.freeWord s.draws
    res1 := Config.freeWord (s.draws + 1)
    res2 := Config.freeWord (s.draws + 2)
    res3 := Config.freeWord (s.draws + 3)
    bitsWritten := Config.freeWord (s.draws + 4) ++ Config.freeWord (s.draws + 5)
    draws := s.draws + 6
    cursor := none
    decoded := 0
    stack := [] }

/-- Reset, hard or soft (spec/70_reset_and_hazards.md R280): every register and internal store takes its reset value. The
parameters, port IN, OLOG (R281) and the model's own fields (host, seen, draws) stay. This is also the only return from a
fault (spec/60_exceptions.md R259). -/
def resetHcc (s : State) : State :=
  { s with
    busy := false
    fault := none
    outcome := .none
    dstate := .clean
    pfmt := .counts
    arg0 := 0
    arg1 := 0
    res0 := 0
    res1 := 0
    res2 := 0
    res3 := 0
    bitsSaved := 0
    bitsWritten := 0
    nodes := []
    queue := []
    pt := List.replicate (s.cfg.eofsym + 1) none
    freq := List.replicate (s.cfg.eofsym + 1) 0
    rootRef := NIL
    lcmd := 0
    larg0 := 0
    larg1 := 0
    ipos := 0
    cursor := none
    decoded := 0
    stack := [] }

/-! ### The register space -/

/-- The byte offset of a supported access, or none for one the HCC gives no meaning (spec/20_memory.md R71). -/
def offsetOf (c : Config) (addr size : Nat) : Option Nat :=
  if c.accessOk addr size then some (addr - c.hccBase) else none

/-- CONFIG: {NCAP[15:0], IW[7:0], SW[7:0]} (spec/10_state.md R47). -/
def configWord (c : Config) : Word := BitVec.ofNat 16 c.ncap ++ BitVec.ofNat 8 c.iw ++ BitVec.ofNat 8 c.sw

/-- The value of a register read while BUSY = 0 (spec/10_state.md R32 to R48). -/
def regRead (s : State) (off : Nat) : Word :=
  match off with
  | 0x00 => 0
  | 0x04 => s.status
  | 0x08 => s.arg0
  | 0x0C => s.arg1
  | 0x10 => s.res0
  | 0x14 => s.res1
  | 0x18 => s.res2
  | 0x1C => s.res3
  | 0x20 => s.bitsSaved.extractLsb' 0 32
  | 0x24 => s.bitsSaved.extractLsb' 32 32
  | 0x28 => s.bitsWritten.extractLsb' 0 32
  | 0x2C => s.bitsWritten.extractLsb' 32 32
  | 0x30 => s.rootRef.setWidth 32
  | 0x34 => BitVec.ofNat 32 s.queue.length
  | 0x38 => s.ipos.extractLsb' 0 32
  | 0x3C => configWord s.cfg
  | _ => 0

/-- The value of a register read while BUSY = 1 (spec/10_state.md R49): STATUS shows BUSY with its other fields unspecified;
RES0 to RES3, BITS_SAVED, BITS_WRITTEN, ROOT, QLEN and INPOS are unspecified, so the read gives the free word of its draw
(log 3); CMD, ARG0, ARG1, CONFIG and the reserved offsets read as always. -/
def regReadBusy (s : State) (off : Nat) : Word :=
  if off = 0x04 then busyStatus (Config.freeWord s.draws)
  else if 0x10 ≤ off ∧ off ≤ 0x38 then Config.freeWord s.draws
  else regRead s off

/-- A register write other than to CMD: ARG0 and ARG1 take the value; read-only registers and reserved offsets ignore it
(spec/10_state.md R32, R40, R48). -/
def regWrite (s : State) (off : Nat) (v : Word) : State :=
  match off with
  | 0x08 => s.setArg0 v
  | 0x0C => s.setArg1 v
  | _ => s

/-! ### Commands -/

/-- How a command's rule may stop before its end. -/
inductive Stop where
  /-- `raise F` (spec/60_exceptions.md R252) -/
  | raised (f : FaultCode)
  /-- the reset input (spec/70_reset_and_hazards.md R282) -/
  | resetInput
  /-- the model stops with a fault of its own -/
  | stuck (f : Fault)
  /-- the model refuses -/
  | refuse (r : Refusal)
  deriving DecidableEq, Repr

/-- A piece of a command's pseudocode. -/
abbrev Cmd := EStateM Stop State

/-- A host act that lands while a command executes. A CMD write is CMD_WHILE_BUSY and its word is discarded
(spec/60_exceptions.md R256); another write only changes its register, the operands being latched (spec/10_state.md R40); a
read gives what R49 says and changes nothing else; the reset input stops the command (spec/70_reset_and_hazards.md R282);
another input stream is outside premise STABLE_INPUT (R288). -/
def landBusy (act : HostAct) : Cmd Unit := fun s =>
  match act with
  | .hardReset => .error .resetInput s
  | .attach _ => .error (.refuse .unstableInput) s
  | .read addr size =>
    match offsetOf s.cfg addr size with
    | none => .error (.refuse .unsupportedAccess) s
    | some off => .ok () ((s.noteRead addr (regReadBusy s off)).draw 1)
  | .write addr size v =>
    match offsetOf s.cfg addr size with
    | none => .error (.refuse .unsupportedAccess) s
    | some 0 => .error (.raised .cmdWhileBusy) s
    | some off => .ok () (regWrite s off v)

/-- A point of the executing command at which a host act may land: one stands before every change the host can see and
before every end (log 6). The next act lands here when its gap says so. -/
def point : Cmd Unit := fun s =>
  if s.busy then
    match s.host with
    | ⟨some 0, act⟩ :: rest => landBusy act (s.setHost rest)
    | ⟨some (k + 1), act⟩ :: rest => .ok () (s.setHost (⟨some k, act⟩ :: rest))
    | ⟨none, _⟩ :: _ => .ok () s
    | [] => .ok () s
  else .ok () s

/-- No host act lands inside the command that executes: the host has nothing to do, or its next act is made only once
BUSY = 0, and the others after it. -/
def State.hostQuiet (s : State) : Bool :=
  match s.host with
  | [] => true
  | e :: _ => e.gap.isNone

/-- The act is a write of CMD (spec/30_encoding.md R90). -/
def HostAct.isCmdWrite (c : Config) (act : HostAct) : Bool :=
  match act with
  | .write addr size _ => offsetOf c addr size == some 0
  | .read _ _ => false
  | .hardReset => false
  | .attach _ => false

/-- Premise HOST_WAITS (spec/70_reset_and_hazards.md R287, R290): the host writes CMD only once BUSY reads 0. Of every act to
come, a CMD write waits; reads (polls of STATUS), writes of ARG0 and ARG1, and the reset input may land inside a command. -/
def State.hostWaits (s : State) : Bool := s.host.all fun e => !e.act.isCmdWrite s.cfg || e.gap.isNone

/-- The act is one a host that waits may make inside a command without ending it: a supported read, or a supported write other
than to CMD (spec/10_state.md R40, R49). -/
def HostAct.passes (c : Config) (act : HostAct) : Bool :=
  match act with
  | .read addr size => (offsetOf c addr size).isSome
  | .write addr size _ => (offsetOf c addr size).isSome && !act.isCmdWrite c
  | .hardReset => false
  | .attach _ => false

/-- Every act to come that does not wait for BUSY = 0 is one that passes: what HOST_WAITS and STABLE_INPUT leave, but for the
reset input (spec/70_reset_and_hazards.md R282, R288, R290). -/
def State.hostPasses (s : State) : Bool := s.host.all fun e => e.gap.isNone || e.act.passes s.cfg

/-- `raise F`: the command stops here. -/
def raise {α : Type} (f : FaultCode) : Cmd α := do
  point
  throw (.raised f)

/-- A change the host can see. -/
def change (f : State → State) : Cmd Unit := do
  point
  modify f

/-- `done(outcome)` (spec/60_exceptions.md R251). -/
def done (o : CmdOutcome) : Cmd Unit := change (·.endWith o)

/-- The end of a C command: DSTATE <- USED ; done(OK) (spec/30_encoding.md R97). -/
def doneUsed : Cmd Unit := do
  change (·.setDState .used)
  done .ok

/-- How a command ended (spec/60_exceptions.md R250): by its own end, by a fault, by the reset input, or by a stop of the model. -/
def settle (r : EStateM.Result Stop State Unit) : Host.Outcome State Fault Refusal :=
  match r with
  | .ok _ t => .next t
  | .error (.raised f) t => .next (takeFault f t)
  | .error .resetInput t => .next (resetHcc t)
  | .error (.stuck f) _ => .fault f
  | .error (.refuse r) _ => .refused r

/-- Run a command's rule and settle how it ended. The first point stands before anything the rule does. -/
def runCmd (c : Cmd Unit) (s : State) : Host.Outcome State Fault Refusal :=
  settle ((do
    point
    c) s)

/-! ### The ports -/

/-- `InRead(n)` (spec/20_memory.md R74): `none` is EOF. -/
def inRead (n : Nat) : Cmd (Option Nat) := do
  point
  let s ← get
  if s.pos + n > s.input.length then
    pure none
  else
    set (s.setIpos (s.pos + n))
    pure (some (ofBits ((s.input.drop s.pos).take n)))

/-- `InRewind()` (spec/20_memory.md R75). -/
def inRewind : Cmd Unit := change (·.setIpos 0)

/-- `OutWrite(n, v)` (spec/20_memory.md R76). -/
def outWrite (n v : Nat) : Cmd Unit := change (·.send (toBits n v))

/-! ### Node primitives -/

/-- `NodeRead(r)` (spec/10_state.md R53); a free record is not read (spec/93_implementation_defined.md I7). -/
def nodeRead (r : NodeRef) : Cmd NodeRec := fun s =>
  match s.nodes[r.toNat]? with
  | some n => .ok n s
  | none => .error (.refuse .freeRecord) s

/-- An assignment to fields of an allocated record. -/
def nodeWrite (r : NodeRef) (f : NodeRec → NodeRec) : Cmd Unit :=
  modify fun s => s.setNodes (s.nodes.modify r.toNat f)

/-- `Alloc(kind, sym, freq)` (spec/40_node_queue.md R110). -/
def alloc (kind : NodeKind) (sym freq : Nat) : Cmd NodeRef := do
  let s ← get
  if s.next < s.cfg.ncap then
    set (s.setNodes (s.nodes ++ [⟨kind, sym, freq, NIL, NIL, false⟩]))
    pure (BitVec.ofNat 16 s.next)
  else
    raise .poolFull

/-- `MkInternal(a, b)` (spec/40_node_queue.md R111). -/
def mkInternal (a b : NodeRef) : Cmd NodeRef := do
  let na ← nodeRead a
  let nb ← nodeRead b
  let s ← get
  if na.freq + nb.freq ≥ 2 ^ s.cfg.fw then
    raise .freqOverflow
  else
    let r ← alloc .internal s.cfg.symPlaceholder (na.freq + nb.freq)
    nodeWrite r fun n => { n with left := a, right := b }
    nodeWrite a fun n => { n with owned := true }
    nodeWrite b fun n => { n with owned := true }
    pure r

/-! ### Queue primitives -/

/-- A queue with `r`, of frequency `f`, inserted before the first entry of greater frequency (spec/40_node_queue.md R113). -/
def insertByFreq (r : NodeRef) (f : Nat) : List NodeRef → Cmd (List NodeRef)
  | [] => pure [r]
  | q :: qs => do
    let n ← nodeRead q
    if n.freq > f then
      pure (r :: q :: qs)
    else
      let rest ← insertByFreq r f qs
      pure (q :: rest)

/-- `Enqueue(r)` (spec/40_node_queue.md R113). -/
def enqueue (r : NodeRef) : Cmd Unit := do
  let n ← nodeRead r
  let s ← get
  let q ← insertByFreq r n.freq s.queue
  change (·.setQueue q)

/-- `Dequeue()` (spec/40_node_queue.md R116). -/
def dequeue : Cmd NodeRef := do
  let s ← get
  match s.queue with
  | [] => raise .emptyQueue
  | r :: q =>
    change (·.setQueue q)
    pure r

/-- inQueue(r) (spec/40_node_queue.md R121). -/
def State.inQueue (s : State) (r : NodeRef) : Bool := s.queue.contains r

/-! ### Table accesses -/

/-- `FREQ[sym]` (spec/10_state.md R57). -/
def State.freqAt (s : State) (sym : Nat) : Nat := s.freq.getD sym 0

/-- `PT[sym]` (spec/10_state.md R56): `none` when PRESENT = 0. -/
def State.pathAt (s : State) (sym : Nat) : Option (List Bit) := s.pt.getD sym none

/-- `PT[sym].LEN` (spec/10_state.md R56): 0 when PRESENT = 0. -/
def State.pathLen (s : State) (sym : Nat) : Nat := ((s.pathAt sym).getD []).length

end Sys2Proof.Machine
end

