-- ==== Sys2Proof/Machine/Operands.lean ====
section
/-!
DEFINITION. The operand forms of the commands (spec/30_encoding.md R95): what a command reads from LARG0 and LARG1, and
the checks its rule makes on it first.
-/

namespace Sys2Proof.Machine

/-- A symbol operand: LARG0[15:0]; bits 31:16 are ignored. -/
def State.symOperand (s : State) : Nat := (s.larg0.extractLsb' 0 16).toNat

/-- A node-reference operand: LARG0[15:0]; bits 31:16 are ignored. -/
def State.refOperand (s : State) : NodeRef := s.larg0.extractLsb' 0 16

/-- NODE_LEAF's frequency operand: trunc_IW(LARG1) (spec/40_node_queue.md R120). -/
def State.freqOperand (s : State) : Nat := s.larg1.toNat % 2 ^ s.cfg.iw

/-- PATH_READ's bit offset: LARG1 (spec/42_path_table.md R153). -/
def State.offsetOperand (s : State) : Nat := s.larg1.toNat

/-- A reference is valid exactly when it is below NEXT (spec/10_state.md R52). -/
def State.validRef (s : State) (r : NodeRef) : Bool := decide (r.toNat < s.next)

/-- The symbol operand, checked: above EOFSYM raises BAD_SYMBOL (R120, R153, R156, R224). -/
def takeSymbol : Cmd Nat := do
  let s ← get
  if s.symOperand > s.cfg.eofsym then raise .badSymbol else pure s.symOperand

/-- A node operand, checked: NIL raises NULL_NODE, an invalid reference BAD_REF, in this order (R121, R122). -/
def takeNode : Cmd NodeRef := do
  let s ← get
  if s.refOperand = NIL then raise .nullNode
  else if s.validRef s.refOperand = false then raise .badRef
  else pure s.refOperand

end Sys2Proof.Machine
end

