-- ==== Sys2Proof/Machine/PathTable.lean ====
section
/-!
DEFINITION. T_TRAVEL, PATH_READ, T_EMIT and EmitPath, which COMPRESS uses (spec/42_path_table.md R150 to R156).
-/

namespace Sys2Proof.Machine

/-- Travel(n, p) (R150): the left subtree, then the right. `fuel` bounds the depth: a tree of the pool is no deeper than
the pool has records, and a pool in which it runs out is no pool a run reaches (`Fault.runaway`). -/
def travel : Nat → NodeRef → List Bit → Cmd Unit
  | 0, _, _ => throw (.stuck .runaway)
  | fuel + 1, r, p => do
    let n ← nodeRead r
    match n.kind with
    | .leaf => modify fun s => s.setPt (s.pt.set n.sym (some p))
    | .internal =>
      travel fuel n.left (p ++ [false])
      travel fuel n.right (p ++ [true])

/-- BuildTable() (R150): every entry is cleared first, then the tree is travelled. -/
def buildTable : Cmd Unit := do
  let s ← get
  if s.rootRef = NIL then
    raise .noTree
  else
    modify fun s => s.setPt (List.replicate (s.cfg.eofsym + 1) none)
    travel s.next s.rootRef []

/-- T_TRAVEL (spec/42_path_table.md R150). -/
def execTTravel (s : State) : Host.Outcome State Fault Refusal :=
  runCmd (do
    buildTable
    doneUsed) s

/-- RES0 of PATH_READ (R153): the length, 0xFFFFFFFF for an absent entry. -/
def pathLengthWord (e : Option (List Bit)) : Word :=
  match e with
  | none => 0xFFFFFFFF
  | some bits => BitVec.ofNat 32 bits.length

/-- RES1 of PATH_READ (R153): the 32 path bits from bit `k` on, left-aligned; 0 past the path's end and for an absent entry. -/
def pathWindow (e : Option (List Bit)) (k : Nat) : Word :=
  match e with
  | none => 0
  | some bits => BitVec.ofNat 32 (ofBits ((List.range 32).map fun j => bits.getD (k + j) false))

/-- PATH_READ (spec/42_path_table.md R153). -/
def execPathRead (s : State) : Host.Outcome State Fault Refusal :=
  runCmd (do
    let sym ← takeSymbol
    change (·.setRes0 (pathLengthWord (s.pathAt sym)))
    change (·.setRes1 (pathWindow (s.pathAt sym) s.offsetOperand))
    done .ok) s

/-- The bits of a path, one `OutWrite(1, bit)` each, root side first (R155). -/
def sendPath : List Bit → Cmd Unit
  | [] => pure ()
  | b :: bs => do
    outWrite 1 b.toNat
    sendPath bs

/-- EmitPath(s) (spec/42_path_table.md R155): the number of bits sent. -/
def emitPath (sym : Nat) : Cmd Nat := do
  let s ← get
  match s.pathAt sym with
  | none => raise .noPath
  | some bits =>
    sendPath bits
    pure bits.length

/-- T_EMIT (spec/42_path_table.md R156). -/
def execTEmit (s : State) : Host.Outcome State Fault Refusal :=
  runCmd (do
    let sym ← takeSymbol
    let n ← emitPath sym
    change (·.setBitsWritten (BitVec.ofNat 64 n))
    doneUsed) s

end Sys2Proof.Machine
end

