-- ==== Sys2Proof/Machine/Payload.lean ====
section
/-!
DEFINITION. The payload decoder DecodePayload and T_DECODE (spec/44_decode.md R190 to R194).

The decoder's position is state (CUR, spec/10_state.md R60), so a decode that has not ended when `exec` answers is still the
executing command: BUSY stays 1 and `step` goes on with it (R193; log 7).
-/

namespace Sys2Proof.Machine

/-- One turn of the loop of DecodePayload (R190): true when the EOF leaf is reached. -/
def decodeTurn : Cmd Bool := do
  point
  let s ← get
  match s.cursor with
  | none => throw (.stuck .noDecodeInFlight)
  | some cur =>
    let n ← nodeRead cur
    match n.kind with
    | .leaf =>
      if n.sym = s.cfg.eofsym then
        pure true
      else
        outWrite s.cfg.sw n.sym
        change fun t => t.setDecode (some t.rootRef) (t.decoded + 1)
        pure false
    | .internal =>
      match ← inRead 1 with
      | none => raise .inputExhausted
      | some b =>
        let child := if b = 0 then n.left else n.right
        if child = NIL then
          raise .nullChild
        else
          change fun t => t.setDecode (some child) t.decoded
          pure false

/-- Turns of the loop until it ends or `fuel` turns have been made: true when it has ended. -/
def decodeTurns : Nat → Cmd Bool
  | 0 => pure false
  | fuel + 1 => do
    if ← decodeTurn then
      pure true
    else
      decodeTurns fuel

/-- Turns enough for every decode that ends: with an internal root each emitted symbol costs at least one bit of port IN,
so at most one turn a bit, one turn a symbol and a last one (R194). -/
def decodeFuel (s : State) : Nat := 2 * (s.input.length - s.pos) + 1

/-- Enter DecodePayload (R190): m <- 0, CUR <- ROOTREF. -/
def decodeStart : Cmd Unit := change fun s => s.setDecode (some s.rootRef) 0

/-- Run DecodePayload on, from wherever CUR stands: true when it has returned. -/
def decodeOn : Cmd Bool := do
  let s ← get
  decodeTurns (decodeFuel s)

/-- What follows DecodePayload: BITS_WRITTEN <- SW * m, with RES0 <- trunc_32(m) for T_DECODE, then DSTATE <- USED ; done(OK)
(R191, spec/45_driver.md R220). CUR has no value outside a decode (spec/10_state.md R60). -/
def decodeEnd (withRes0 : Bool) : Cmd Unit := do
  let s ← get
  change (·.setBitsWritten (BitVec.ofNat 64 (s.cfg.sw * s.decoded)))
  if withRes0 then
    change (·.setRes0 (BitVec.ofNat 32 s.decoded))
  change (·.setDecode none 0)
  doneUsed

/-- DecodePayload and what follows it; a decode that has not ended leaves BUSY = 1 (R193). -/
def decodeAndEnd (withRes0 : Bool) : Cmd Unit := do
  if ← decodeOn then
    decodeEnd withRes0
  else
    pure ()

/-- T_DECODE (spec/44_decode.md R191). -/
def execTDecode (s : State) : Host.Outcome State Fault Refusal :=
  runCmd (
    if s.rootRef = NIL then
      raise .noTree
    else do
      decodeStart
      decodeAndEnd true) s

end Sys2Proof.Machine
end

