-- ==== Sys2Proof/Machine/Serialize.lean ====
section
/-!
DEFINITION. T_COUNT_BITS, T_WRITE, T_RECREATE and the primitives Count, WriteTree and ReadTree, which the Driver commands
use (spec/43_serialize.md R170 to R175).
-/

namespace Sys2Proof.Machine

/-- Count(r) (R170): the bits of the pre-order encoding of the tree at `r`; an absent node counts 0. `fuel` as in `travel`. -/
def count : Nat → NodeRef → Cmd Nat
  | 0, r => if r = NIL then pure 0 else throw (.stuck .runaway)
  | fuel + 1, r =>
    if r = NIL then pure 0
    else do
      let n ← nodeRead r
      let s ← get
      match n.kind with
      | .leaf => pure (s.cfg.sw + 1 + 1)
      | .internal => do
        let a ← count fuel n.left
        let b ← count fuel n.right
        pure (1 + a + b)

/-- Count of the tree at `r` in the pool as it is. -/
def countTree (r : NodeRef) : Cmd Nat := do
  let s ← get
  count s.next r

/-- T_COUNT_BITS (spec/43_serialize.md R170). -/
def execTCountBits (s : State) : Host.Outcome State Fault Refusal :=
  runCmd (
    if s.refOperand ≠ NIL ∧ s.validRef s.refOperand = false then
      raise .badRef
    else do
      let k ← countTree s.refOperand
      change (·.setRes0 (BitVec.ofNat 32 k))
      done .ok) s

/-- WriteTree(r) (R171): leaf marker 1 and the symbol in SW+1 bits, or internal marker 0 and both subtrees (marker values:
spec/30_encoding.md R103). Answers the bits sent. -/
def writeTree : Nat → NodeRef → Cmd Nat
  | 0, _ => throw (.stuck .runaway)
  | fuel + 1, r => do
    let n ← nodeRead r
    let s ← get
    match n.kind with
    | .leaf =>
      outWrite 1 1
      outWrite (s.cfg.sw + 1) n.sym
      pure (s.cfg.sw + 2)
    | .internal =>
      outWrite 1 0
      let a ← writeTree fuel n.left
      let b ← writeTree fuel n.right
      pure (1 + a + b)

/-- T_WRITE (spec/43_serialize.md R171). -/
def execTWrite (s : State) : Host.Outcome State Fault Refusal :=
  runCmd (
    if s.rootRef = NIL then
      raise .noTree
    else do
      let n ← writeTree s.next s.rootRef
      change (·.setBitsWritten (BitVec.ofNat 64 n))
      doneUsed) s

/-- Push an internal node on the reconstruction stack, AwaitingLeftChild (spec/10_state.md R61). -/
def pushNode (r : NodeRef) : Cmd Unit := modify fun s => s.setStack ((r, .leftChild) :: s.stack)

/-- The node on top of the reconstruction stack has its left child: AwaitingRightChild (spec/10_state.md R61). -/
def awaitRight (r : NodeRef) : Cmd Unit := modify fun s => s.setStack ((r, .rightChild) :: s.stack.tail)

/-- The node on top of the reconstruction stack has both children: Done, off the stack (spec/10_state.md R61). -/
def popNode : Cmd Unit := modify fun s => s.setStack s.stack.tail

/-- ReadNode() (R172). Every internal marker allocates a record before its children are read, so the nesting never exceeds
the records of the pool and `fuel` = NCAP + 1 is never short. -/
def readNode : Nat → Cmd NodeRef
  | 0 => throw (.stuck .runaway)
  | fuel + 1 => do
    match ← inRead 1 with
    | none => raise .inputExhausted
    | some 1 =>
      let s ← get
      match ← inRead (s.cfg.sw + 1) with
      | none => raise .inputExhausted
      | some sym =>
        if sym > s.cfg.eofsym then
          raise .badSymbol
        else
          alloc .leaf sym s.cfg.freqPlaceholder
    | some _ =>
      let s ← get
      let r ← alloc .internal s.cfg.symPlaceholder s.cfg.freqPlaceholder
      pushNode r
      let l ← readNode fuel
      nodeWrite r fun n => { n with left := l }
      nodeWrite l fun n => { n with owned := true }
      awaitRight r
      let q ← readNode fuel
      nodeWrite r fun n => { n with right := q }
      nodeWrite q fun n => { n with owned := true }
      popNode
      pure r

/-- ReadTree() (R172): ROOTREF changes only when the whole encoding has been read. Answers the bits consumed. -/
def readTree : Cmd Nat := do
  let s ← get
  let t ← readNode (s.cfg.ncap + 1)
  change (·.setRoot t)
  let s' ← get
  pure (s'.pos - s.pos)

/-- T_RECREATE (spec/43_serialize.md R172). -/
def execTRecreate (s : State) : Host.Outcome State Fault Refusal :=
  runCmd (do
    let c ← readTree
    let t ← get
    change (·.setRes0 (t.rootRef.setWidth 32))
    change (·.setRes1 (BitVec.ofNat 32 c))
    doneUsed) s

end Sys2Proof.Machine
end

