-- ==== Sys2Proof/Machine/TreeBuild.lean ====
section
/-!
DEFINITION. T_CREATE, and BuildFromFreq, which PLAN and DECOMPRESS use (spec/41_tree_build.md R140 to R143).
-/

namespace Sys2Proof.Machine

/-- The loop of CreateTree (R140): while QLEN > 1, combine the two front nodes and enqueue the result. Each turn shortens
the queue by one, so `fuel`, the length of the queue at the start, is never short. -/
def combineLoop : Nat → Cmd Unit
  | 0 => pure ()
  | fuel + 1 => do
    let s ← get
    if s.queue.length > 1 then
      let a ← dequeue
      let b ← dequeue
      let n ← mkInternal a b
      enqueue n
      combineLoop fuel
    else
      pure ()

/-- CreateTree() (R140, R141, R142). -/
def createTree : Cmd Unit := do
  let s ← get
  if s.queue.length = 0 then
    raise .emptyQueue
  else
    combineLoop s.queue.length
    let r ← dequeue
    change (·.setRoot r)

/-- T_CREATE (spec/41_tree_build.md R140). -/
def execTCreate (s : State) : Host.Outcome State Fault Refusal :=
  runCmd (do
    createTree
    let t ← get
    change (·.setRes0 (t.rootRef.setWidth 32))
    doneUsed) s

/-- The loop of BuildFromFreq (R143): `count` symbols from `sym` on, ascending; a leaf for each that occurs. -/
def leavesLoop : Nat → Nat → Cmd Unit
  | 0, _ => pure ()
  | count + 1, sym => do
    let s ← get
    if s.freqAt sym > 0 then
      let r ← alloc .leaf sym (s.freqAt sym)
      enqueue r
      leavesLoop count (sym + 1)
    else
      leavesLoop count (sym + 1)

/-- BuildFromFreq() (spec/41_tree_build.md R143): the natural leaves, then exactly one EOF leaf, then the tree. -/
def buildFromFreq : Cmd Unit := do
  let s ← get
  leavesLoop s.cfg.alph 0
  let r ← alloc .leaf s.cfg.eofsym 1
  enqueue r
  createTree

end Sys2Proof.Machine
end

