-- ==== Sys2Proof/Machine/Driver.lean ====
section
/-!
DEFINITION. The Codec Driver: PLAN, COMPRESS, DECOMPRESS, SOFT_RESET, FREQ_READ, IN_REWIND (spec/45_driver.md R210 to R226).
-/

namespace Sys2Proof.Machine

/-! ### Planning -/

/-- The loop of ScanInput (R211). Every turn that does not end it consumes SW bits, so `fuel`, one more than the bits of port
IN, is never short when SW is positive. -/
def scanLoop : Nat → Cmd Unit
  | 0 => throw (.stuck .runaway)
  | fuel + 1 => do
    let s ← get
    match ← inRead s.cfg.sw with
    | none => pure ()
    | some v =>
      let t ← get
      if t.freqAt v = 2 ^ t.cfg.iw - 1 then
        raise .inputTooLong
      else
        set (t.setFreq (t.freq.set v (t.freqAt v + 1)))
        scanLoop fuel

/-- ScanInput() (spec/45_driver.md R211). -/
def scanInput : Cmd Unit := do
  inRewind
  modify fun s => s.setFreq (List.replicate (s.cfg.eofsym + 1) 0)
  let s ← get
  scanLoop (s.input.length + 1)
  modify fun s => s.setFreq (s.freq.set s.cfg.eofsym 1)

/-- BitsBefore() (spec/45_driver.md R213): over the natural symbols only. -/
def bitsBefore (s : State) : Nat := sumTo s.cfg.alph fun sym => s.freqAt sym * s.cfg.sw

/-- H(fmt) of R214: the header's cost. -/
def headerBits (fmt : HeaderFormat) : Cmd Nat := do
  let s ← get
  match fmt with
  | .counts => pure (s.cfg.alph * s.cfg.iw)
  | .tree => do
    let k ← countTree s.rootRef
    pure (s.cfg.iw + k)

/-- The payload and EOF code of R214: over the natural symbols, then the EOF code once. -/
def codeBits (s : State) : Nat := (sumTo s.cfg.alph fun sym => s.freqAt sym * s.pathLen sym) + s.pathLen s.cfg.eofsym

/-- BitsAfter(fmt) (spec/45_driver.md R214). -/
def bitsAfter (fmt : HeaderFormat) : Cmd Nat := do
  let h ← headerBits fmt
  let s ← get
  pure (2 * s.cfg.iw + h + codeBits s)

/-- PLAN (spec/45_driver.md R212). -/
def execPlan (fmt : HeaderFormat) (s : State) : Host.Outcome State Fault Refusal :=
  runCmd (
    if s.dstate ≠ .clean then
      raise .notClean
    else do
      scanInput
      buildFromFreq
      buildTable
      let t ← get
      let after ← bitsAfter fmt
      change (·.setBitsSaved (BitVec.ofInt 64 ((bitsBefore t : Int) - (after : Int))))
      change (·.setPfmt fmt)
      change (·.setDState .planned)
      done .ok) s

/-! ### Compression -/

/-- The flat-table header (R216): `count` counts from symbol `sym` on, IW bits each. -/
def sendCounts : Nat → Nat → Cmd Unit
  | 0, _ => pure ()
  | count + 1, sym => do
    let s ← get
    outWrite s.cfg.iw (s.freqAt sym)
    sendCounts count (sym + 1)

/-- The header of a compressed stream (R216, spec/30_encoding.md R102), in the planned format. -/
def sendHeader : Cmd Unit := do
  let s ← get
  outWrite s.cfg.iw s.cfg.magic
  match s.pfmt with
  | .counts => do
    outWrite s.cfg.iw s.cfg.selCounts
    sendCounts s.cfg.alph 0
  | .tree => do
    outWrite s.cfg.iw s.cfg.selTree
    let k ← countTree s.rootRef
    outWrite s.cfg.iw k
    let _ ← writeTree s.next s.rootRef
    pure ()

/-- The re-scan loop of COMPRESS (R216): each symbol's path. `fuel` as in `scanLoop`. -/
def emitLoop : Nat → Cmd Unit
  | 0 => throw (.stuck .runaway)
  | fuel + 1 => do
    let s ← get
    match ← inRead s.cfg.sw with
    | none => pure ()
    | some v =>
      let _ ← emitPath v
      emitLoop fuel

/-- COMPRESS (spec/45_driver.md R216, R217). The bits sent are counted as what OLOG has grown by. -/
def execCompress (ovr : Bool) (s : State) : Host.Outcome State Fault Refusal :=
  runCmd (
    if s.dstate ≠ .planned then
      raise .notPlanned
    else do
      inRewind
      if s.bitsSaved.toInt ≤ 0 ∧ ovr = false then
        change (·.setBitsWritten 0)
        done .refused
      else
        sendHeader
        emitLoop (s.input.length + 1)
        let _ ← emitPath s.cfg.eofsym
        let t ← get
        change (·.setBitsWritten (BitVec.ofNat 64 (t.olog.length - s.olog.length)))
        done .ok) s

/-! ### Decompression -/

/-- The flat-table header (R220): `count` counts from symbol `sym` on. -/
def readCounts : Nat → Nat → Cmd Unit
  | 0, _ => pure ()
  | count + 1, sym => do
    let s ← get
    match ← inRead s.cfg.iw with
    | none => raise .inputExhausted
    | some c =>
      modify fun t => t.setFreq (t.freq.set sym c)
      readCounts count (sym + 1)

/-- The header of DECOMPRESS after the magic number (R220): the selector and the tree it leads to. -/
def readHeader : Cmd Unit := do
  let s ← get
  match ← inRead s.cfg.iw with
  | none => raise .inputExhausted
  | some sel =>
    if sel = s.cfg.selCounts then
      readCounts s.cfg.alph 0
      modify fun t => t.setFreq (t.freq.set t.cfg.eofsym 1)
      buildFromFreq
    else if sel = s.cfg.selTree then
      match ← inRead s.cfg.iw with
      | none => raise .inputExhausted
      | some size =>
        let c ← readTree
        if c ≠ size then
          raise .treeSizeMismatch
        else
          pure ()
    else
      raise .badFormat

/-- The end of DECOMPRESS on a wrong or short magic number (R220, R221): an outcome, not a fault. -/
def endBadMagic : Cmd Unit := do
  change (·.setBitsWritten 0)
  change (·.setDState .used)
  done .badMagic

/-- DECOMPRESS (spec/45_driver.md R220, R221). -/
def execDecompress (s : State) : Host.Outcome State Fault Refusal :=
  runCmd (
    if s.dstate ≠ .clean then
      raise .notClean
    else do
      inRewind
      match ← inRead s.cfg.iw with
      | none => endBadMagic
      | some m0 =>
        if m0 ≠ s.cfg.magic then
          endBadMagic
        else
          readHeader
          decodeStart
          decodeAndEnd false) s

/-! ### The small Driver commands -/

/-- SOFT_RESET (spec/45_driver.md R226): the reset of spec/70_reset_and_hazards.md R280. -/
def execSoftReset (s : State) : Host.Outcome State Fault Refusal :=
  runCmd (change resetHcc) s

/-- FREQ_READ (spec/45_driver.md R224). -/
def execFreqRead (s : State) : Host.Outcome State Fault Refusal :=
  runCmd (do
    let sym ← takeSymbol
    change (·.setRes0 (BitVec.ofNat 32 (s.freqAt sym)))
    done .ok) s

/-- IN_REWIND (spec/45_driver.md R225). -/
def execInRewind (s : State) : Host.Outcome State Fault Refusal :=
  runCmd (do
    inRewind
    doneUsed) s

end Sys2Proof.Machine
end

