-- ==== Sys2Proof/Machine/Queue.lean ====
section
/-!
DEFINITION. NODE_LEAF, NODE_INFO, Q_ENQUEUE, Q_DEQUEUE, Q_FRONT, Q_ISEMPTY, Q_SIZE (spec/40_node_queue.md R120 to R126).
-/

namespace Sys2Proof.Machine

/-- NODE_LEAF (spec/40_node_queue.md R120). -/
def execNodeLeaf (s : State) : Host.Outcome State Fault Refusal :=
  runCmd (do
    let sym ← takeSymbol
    let r ← alloc .leaf sym s.freqOperand
    change (·.setRes0 (r.setWidth 32))
    doneUsed) s

/-- RES0 of NODE_INFO (R121): bit 31 KIND, bit 30 OWNED, bit 29 INQ, bits SW:0 SYM, others 0. -/
def infoWord (c : Config) (n : NodeRec) (inQ : Bool) : Word :=
  BitVec.ofBool (n.kind == .leaf) ++ BitVec.ofBool n.owned ++ BitVec.ofBool inQ ++ BitVec.ofNat 29 (n.sym % 2 ^ (c.sw + 1))

/-- NODE_INFO (spec/40_node_queue.md R121). -/
def execNodeInfo (s : State) : Host.Outcome State Fault Refusal :=
  runCmd (do
    let r ← takeNode
    let n ← nodeRead r
    change (·.setRes0 (infoWord s.cfg n (s.inQueue r)))
    change (·.setRes1 (BitVec.ofNat 32 n.freq))
    change (·.setRes2 (n.left ++ n.right))
    change (·.setRes3 (BitVec.ofNat 32 (n.freq >>> 32)))
    done .ok) s

/-- Q_ENQUEUE (spec/40_node_queue.md R122). -/
def execQEnqueue (s : State) : Host.Outcome State Fault Refusal :=
  runCmd (do
    let r ← takeNode
    let n ← nodeRead r
    if s.inQueue r || n.owned then
      raise .dupNode
    else
      enqueue r
      doneUsed) s

/-- Q_DEQUEUE (spec/40_node_queue.md R123). -/
def execQDequeue (s : State) : Host.Outcome State Fault Refusal :=
  runCmd (do
    let r ← dequeue
    change (·.setRes0 (r.setWidth 32))
    doneUsed) s

/-- Q_FRONT (spec/40_node_queue.md R124). -/
def execQFront (s : State) : Host.Outcome State Fault Refusal :=
  runCmd (match s.queue with
    | [] => raise .emptyQueue
    | r :: _ => do
      change (·.setRes0 (r.setWidth 32))
      done .ok) s

/-- Q_ISEMPTY (spec/40_node_queue.md R125). -/
def execQIsEmpty (s : State) : Host.Outcome State Fault Refusal :=
  runCmd (do
    change (·.setRes0 (if s.queue.length = 0 then 1 else 0))
    done .ok) s

/-- Q_SIZE (spec/40_node_queue.md R126). -/
def execQSize (s : State) : Host.Outcome State Fault Refusal :=
  runCmd (do
    change (·.setRes0 (BitVec.ofNat 32 s.queue.length))
    done .ok) s

end Sys2Proof.Machine
end

