-- ==== Sys2Proof/Machine/Dispatch.lean ====
section
/-! DEFINITION. The dispatch: one arm per command, each one call of its meaning (spec/30_encoding.md R92). -/

namespace Sys2Proof.Machine

def exec (i : Instr) (s : State) : Host.Outcome State Fault Refusal :=
  match i with
  | .plan fmt => Sys2Proof.Machine.execPlan fmt s
  | .compress ovr => Sys2Proof.Machine.execCompress ovr s
  | .decompress => Sys2Proof.Machine.execDecompress s
  | .softReset => Sys2Proof.Machine.execSoftReset s
  | .nodeLeaf => Sys2Proof.Machine.execNodeLeaf s
  | .nodeInfo => Sys2Proof.Machine.execNodeInfo s
  | .qEnqueue => Sys2Proof.Machine.execQEnqueue s
  | .qDequeue => Sys2Proof.Machine.execQDequeue s
  | .qFront => Sys2Proof.Machine.execQFront s
  | .qIsEmpty => Sys2Proof.Machine.execQIsEmpty s
  | .qSize => Sys2Proof.Machine.execQSize s
  | .tCreate => Sys2Proof.Machine.execTCreate s
  | .tTravel => Sys2Proof.Machine.execTTravel s
  | .pathRead => Sys2Proof.Machine.execPathRead s
  | .tEmit => Sys2Proof.Machine.execTEmit s
  | .tCountBits => Sys2Proof.Machine.execTCountBits s
  | .tWrite => Sys2Proof.Machine.execTWrite s
  | .tRecreate => Sys2Proof.Machine.execTRecreate s
  | .tDecode => Sys2Proof.Machine.execTDecode s
  | .freqRead => Sys2Proof.Machine.execFreqRead s
  | .inRewind => Sys2Proof.Machine.execInRewind s

end Sys2Proof.Machine
end

