-- ==== Sys2Proof/Machine/HostPort.lean ====
section
/-!
DEFINITION. The host's acts on an idle core (BUSY = 0), and the core going on with a decode that has not ended (BUSY = 1):
the entry checks of spec/60_exceptions.md R258, the register accesses of spec/20_memory.md R71, and spec/44_decode.md R193.
-/

namespace Sys2Proof.Machine

/-- OnCmdWrite(w) (spec/60_exceptions.md R258), BUSY = 0: while FAULT = 1 only the word of SOFT_RESET has an effect;
otherwise the word and the operands are latched (spec/30_encoding.md R90), an illegal word raises ILLEGAL_CMD, and a legal
one is executed. -/
def onCmdWrite (w : Word) (s : State) : Host.Outcome State Fault Refusal :=
  if s.fault.isSome then
    if w = 0x00000004 then exec .softReset s else .next s
  else
    match decode w with
    | .error _ => runCmd (raise .illegalCmd) (s.latch w)
    | .ok i => exec i (s.latch w)

/-- A host act while BUSY = 0. -/
def hostAct (act : HostAct) (s : State) : Host.Outcome State Fault Refusal :=
  match act with
  | .hardReset => .next (resetHcc s)
  | .attach bits => if countableBits bits then .next (s.setInput bits) else .refused .streamTooLong
  | .read addr size =>
    match offsetOf s.cfg addr size with
    | none => .refused .unsupportedAccess
    | some off => .next (s.noteRead addr (regRead s off))
  | .write addr size v =>
    match offsetOf s.cfg addr size with
    | none => .refused .unsupportedAccess
    | some 0 => onCmdWrite v s
    | some off => .next (regWrite s off v)

/-- The executing command is DECOMPRESS (its decode does not write RES0, spec/45_driver.md R220). -/
def State.isDecompress (s : State) : Bool :=
  match decode s.lcmd with
  | .ok .decompress => true
  | _ => false

/-- The core goes on with the decode that has not ended (spec/44_decode.md R193). -/
def resumeDecode (s : State) : Host.Outcome State Fault Refusal :=
  runCmd (decodeAndEnd (!s.isDecompress)) s

/-- One step of the machine: while a decode is in flight the core goes on with it, and host acts land inside it where their
gaps say; otherwise the next host act is performed; with none to come, the core stays idle (spec/70_reset_and_hazards.md
R283). -/
def stepMachine (s : State) : Host.Outcome State Fault Refusal :=
  if s.busy then resumeDecode s
  else match s.host with
    | [] => .next s
    | e :: rest => hostAct e.act (s.setHost rest)

/-- A host write of CMD, at once. -/
def cmdWrite (c : Config) (w : Word) : HostEvent := ⟨none, .write c.hccBase 4 w⟩

/-- `s` with the host about to write `w` to CMD, BUSY = 0 and no fault recorded, so that the next step latches and executes
`w` (log 5). The rest of the host's acts follow. -/
def placeCmd (s : State) (w : Word) : State :=
  { s with host := cmdWrite s.cfg w :: s.host, busy := false, fault := none }

end Sys2Proof.Machine
end

