-- ==== Sys2Proof/Machine/Step.lean ====
section
/-! DEFINITION. The step of the machine, and where a command word is placed for it. -/

namespace Sys2Proof.Machine

/-- One step (see `stepMachine`). -/
def step (s : State) : Host.Outcome State Fault Refusal := stepMachine s

/-- `s` with the command word of the opcode table's numbering about to be written to CMD, bits above `nbits` being 0: the
HCC fetches nothing (spec/20_memory.md R84), a command is the word a host writes to CMD. -/
def State.withFetchWord (s : State) (nbits w : Nat) : State := placeCmd s (BitVec.ofNat 32 (w % 2 ^ nbits))

end Sys2Proof.Machine
end

