-- ==== Sys2Proof/Machine/TreeView.lean ====
section
/-!
DEFINITION. The tree a reference of the pool stands for, and what the spec says of trees: their pre-order encoding
(spec/30_encoding.md R103), its size (spec/43_serialize.md R170), their paths (spec/42_path_table.md R150), the symbols of an
input (spec/45_driver.md R211). Statements are made in these terms; no command uses them.
-/

namespace Sys2Proof.Machine

/-- A prefix tree: a leaf with its symbol, or an internal node with its left and right subtrees. -/
inductive CodeTree where
  | leaf (sym : Nat)
  | node (left right : CodeTree)
  deriving DecidableEq, Repr

/-- The tree at `r`, or none where a record is missing or the records lead round in a circle. `fuel` bounds the depth. -/
def treeAt (ns : List NodeRec) : Nat → NodeRef → Option CodeTree
  | 0, _ => none
  | fuel + 1, r =>
    match ns[r.toNat]? with
    | none => none
    | some n =>
      match n.kind with
      | .leaf => some (.leaf n.sym)
      | .internal =>
        match treeAt ns fuel n.left, treeAt ns fuel n.right with
        | some a, some b => some (.node a b)
        | _, _ => none

/-- The tree at `r` in the pool as it is: no tree is deeper than the pool has records. -/
def State.tree? (s : State) (r : NodeRef) : Option CodeTree := treeAt s.nodes s.next r

/-- enc(n) (spec/30_encoding.md R103). -/
def CodeTree.enc (sw : Nat) : CodeTree → List Bit
  | .leaf sym => true :: toBits (sw + 1) sym
  | .node l r => false :: (l.enc sw ++ r.enc sw)

/-- The size of the encoding (spec/43_serialize.md R170). -/
def CodeTree.bits (sw : Nat) : CodeTree → Nat
  | .leaf _ => sw + 1 + 1
  | .node l r => 1 + l.bits sw + r.bits sw

/-- The symbols of the leaves, left to right. -/
def CodeTree.symbols : CodeTree → List Nat
  | .leaf sym => [sym]
  | .node l r => l.symbols ++ r.symbols

/-- The internal nodes and leaves of a tree. -/
def CodeTree.size : CodeTree → Nat
  | .leaf _ => 1
  | .node l r => 1 + l.size + r.size

/-- The depth of a tree: the length of its longest path. -/
def CodeTree.depth : CodeTree → Nat
  | .leaf _ => 0
  | .node l r => 1 + max l.depth r.depth

/-- The records reconstruction allocates for a tree (spec/43_serialize.md R172): in pre-order, parent before children, from
reference `base` on, with the placeholders of spec/43_serialize.md R175; `owned` is the root's OWNED. -/
def CodeTree.pool (c : Config) (base : Nat) (owned : Bool) : CodeTree → List NodeRec
  | .leaf sym => [⟨.leaf, sym, c.freqPlaceholder, NIL, NIL, owned⟩]
  | .node l r =>
    ⟨.internal, c.symPlaceholder, c.freqPlaceholder, BitVec.ofNat 16 (base + 1), BitVec.ofNat 16 (base + 1 + l.size), owned⟩ ::
      (l.pool c (base + 1) true ++ r.pool c (base + 1 + l.size) true)

/-- The path of a symbol: that of the leaf visited last, left subtree before right (spec/42_path_table.md R150, R151). -/
def CodeTree.path (sym : Nat) : CodeTree → Option (List Bit)
  | .leaf t => if t = sym then some [] else none
  | .node l r =>
    match r.path sym, l.path sym with
    | some p, _ => some (true :: p)
    | none, some p => some (false :: p)
    | none, none => none

/-- The path table of a tree: entry by symbol 0 .. EOFSYM (spec/42_path_table.md R150). -/
def CodeTree.table (t : CodeTree) (eofsym : Nat) : List (Option (List Bit)) := (List.range (eofsym + 1)).map fun sym => t.path sym

/-- A queue of weighted trees with a tree of weight `f` inserted before the first of greater weight (spec/40_node_queue.md
R113). -/
def insertW (f : Nat) (t : CodeTree) : List (Nat × CodeTree) → List (Nat × CodeTree)
  | [] => [(f, t)]
  | (g, u) :: q => if g > f then (f, t) :: (g, u) :: q else (g, u) :: insertW f t q

/-- Merging a queue of weighted trees into one (spec/41_tree_build.md R140, R141): the first dequeued is the left child. `k`
bounds the combine steps. -/
def mergeW : Nat → List (Nat × CodeTree) → Option CodeTree
  | _, [(_, t)] => some t
  | k + 1, (f, a) :: (g, b) :: q => mergeW k (insertW (f + g) (.node a b) q)
  | _, _ => none

/-- The queue of leaves BuildFromFreq makes (spec/41_tree_build.md R143): ascending symbols that occur, then the EOF leaf. -/
def leavesW (c : Config) (freq : List Nat) : List (Nat × CodeTree) :=
  insertW 1 (.leaf c.eofsym) ((List.range c.alph).foldl
    (fun q sym => if freq.getD sym 0 > 0 then insertW (freq.getD sym 0) (.leaf sym) q else q) [])

/-- The tree of a frequency table (spec/41_tree_build.md R143). -/
def huffTree (c : Config) (freq : List Nat) : Option CodeTree := mergeW (leavesW c freq).length (leavesW c freq)

/-- The symbols of an input, SW bits each; trailing bits fewer than SW are not a symbol (spec/45_driver.md R211). `k` bounds
how many. -/
def symbolsN (sw : Nat) : Nat → List Bit → List Nat
  | 0, _ => []
  | k + 1, bits => if bits.length < sw then [] else ofBits (bits.take sw) :: symbolsN sw k (bits.drop sw)

/-- The symbols of a whole input. -/
def symbolsOf (sw : Nat) (bits : List Bit) : List Nat := symbolsN sw bits.length bits

/-- The codes of a sequence of symbols, one after the other. -/
def codesOf (t : CodeTree) (syms : List Nat) : List Bit := syms.flatMap fun sym => (t.path sym).getD []

/-- The frequency table of an input (spec/45_driver.md R211): the count of each natural symbol, and 1 for EOFSYM. -/
def countsOf (c : Config) (bits : List Bit) : List Nat :=
  ((List.range c.alph).map fun sym => (symbolsOf c.sw bits).count sym) ++ [1]

/-- A compressed stream (spec/30_encoding.md R102): magic, selector, header, payload, EOF code. -/
def streamOf (c : Config) (fmt : HeaderFormat) (freq : List Nat) (t : CodeTree) (syms : List Nat) : List Bit :=
  toBits c.iw c.magic ++
  (match fmt with
    | .counts => toBits c.iw c.selCounts ++ (freq.take c.alph).flatMap (fun n => toBits c.iw n)
    | .tree => toBits c.iw c.selTree ++ toBits c.iw (t.bits c.sw) ++ t.enc c.sw) ++
  codesOf t (syms ++ [c.eofsym])

/-- BitsBefore() of a frequency table (spec/45_driver.md R213). -/
def beforeOf (c : Config) (freq : List Nat) : Nat := sumTo c.alph fun sym => freq.getD sym 0 * c.sw

/-- The length of a symbol's path in a tree, 0 when it has none. -/
def CodeTree.pathLen (t : CodeTree) (sym : Nat) : Nat := ((t.path sym).getD []).length

/-- BitsAfter(fmt) of a frequency table and a tree (spec/45_driver.md R214). -/
def afterOf (c : Config) (fmt : HeaderFormat) (freq : List Nat) (t : CodeTree) : Nat :=
  2 * c.iw + (match fmt with
    | .counts => c.alph * c.iw
    | .tree => c.iw + t.bits c.sw) +
  (sumTo c.alph fun sym => freq.getD sym 0 * t.pathLen sym) + t.pathLen c.eofsym

/-- The bits of a sequence of symbols at natural width, SW bits each (spec/44_decode.md R190). -/
def symbolBits (sw : Nat) (syms : List Nat) : List Bit := syms.flatMap fun sym => toBits sw sym

end Sys2Proof.Machine
end

