-- ==== Sys2Proof/Safety.lean ====
section
/-!
DEFINITION. What counts as a safe run, in the terms claims use: the launch premises (spec/70_reset_and_hazards.md R290), the
end of a run (R292), and the invariant of the machine (spec/10_state.md R51 to R63).

HOST_WAITS is `State.hostWaits` (Machine/Ops.lean). STABLE_INPUT holds of every step that answers a next state: another
stream attached inside a command is refused. ONE_HOST holds by construction: State has one host.
-/

namespace Sys2Proof.Machine

/-- CLEAN_LAUNCH (R290): the state of R280 for the parameters, with OLOG empty. -/
def State.cleanLaunch (s : State) : Prop := resetHcc s = s ∧ s.olog = []

/-- SAME_INPUT (R290, R291): port IN presents at `s` what it presented at the PLAN that ended in `p`. -/
def State.sameInput (p s : State) : Prop := s.input = p.input

/-- The end of a run of a host program (R292): the program has issued its last access and STATUS reads BUSY = 0. An idle state
between two of its accesses is no end. -/
def State.ended (s : State) : Bool := s.host.isEmpty && !s.busy

/-- A run that ended, and not badly: FAULT = 0 at its end (R292). -/
def State.endedWell (s : State) : Bool := s.ended && s.fault.isNone

/-- The core is ready for a command: idle, no fault recorded (spec/60_exceptions.md R258). -/
def State.ready (s : State) : Bool := !s.busy && s.fault.isNone

/-- Every record of the pool is within its widths (spec/10_state.md R51), and a leaf has no child and names a symbol. -/
def State.recordsOk (s : State) : Prop :=
  ∀ n ∈ s.nodes, n.sym < 2 ^ (s.cfg.sw + 1) ∧ n.freq < 2 ^ s.cfg.fw ∧
    (n.kind = .leaf → n.left = NIL ∧ n.right = NIL ∧ n.sym ≤ s.cfg.eofsym)

/-- The children of the internal records of a pool, LEFT before RIGHT, in the order of the records. -/
def childrenOf (ns : List NodeRec) : List NodeRef :=
  ns.flatMap fun n => match n.kind with
    | .leaf => []
    | .internal => [n.left, n.right]

/-- The pool is a forest (spec/10_state.md R53): every internal record's children are valid, no record is a child twice,
OWNED = 1 exactly for the children, and every record stands for a finite tree. -/
def State.forest (s : State) : Prop :=
  (∀ r ∈ childrenOf s.nodes, r.toNat < s.next) ∧
  (childrenOf s.nodes).Nodup ∧
  (∀ (i : Nat) (n : NodeRec), s.nodes[i]? = some n → (n.owned = true ↔ BitVec.ofNat 16 i ∈ childrenOf s.nodes)) ∧
  (∀ i < s.next, (s.tree? (BitVec.ofNat 16 i)).isSome = true)

/-- The record of a reference is an internal one. -/
def State.isInternal (s : State) (r : NodeRef) : Bool :=
  match s.nodes[r.toNat]? with
  | none => false
  | some n => n.kind == .internal

/-- The record of a reference is a leaf of `sym`. -/
def State.isLeafOf (s : State) (r : NodeRef) (sym : Nat) : Bool :=
  match s.nodes[r.toNat]? with
  | none => false
  | some n => n.kind == .leaf && n.sym == sym

/-- The frequency a queue entry is ordered by. -/
def State.freqOfRef (s : State) (r : NodeRef) : Nat :=
  match s.nodes[r.toNat]? with
  | none => 0
  | some n => n.freq

/-- The queue (spec/10_state.md R54, R55): valid unowned references, none twice, in ascending order of FREQ. -/
def State.queueOk (s : State) : Prop :=
  (∀ r ∈ s.queue, ∃ n, s.nodes[r.toNat]? = some n ∧ n.owned = false) ∧
  s.queue.Nodup ∧
  s.queue.Pairwise (fun a b => s.freqOfRef a ≤ s.freqOfRef b)

/-- The queue as weighted trees, its front first; none when an entry stands for no tree. -/
def State.weightedQueue (s : State) : Option (List (Nat × CodeTree)) :=
  s.queue.mapM fun r => (s.tree? r).map fun t => (s.freqOfRef r, t)

/-- The tables have an entry per symbol, each within its width (spec/10_state.md R56, R57). -/
def State.tablesOk (s : State) : Prop :=
  s.pt.length = s.cfg.eofsym + 1 ∧ s.freq.length = s.cfg.eofsym + 1 ∧
  (∀ p, some p ∈ s.pt → p.length ≤ s.cfg.pathmax) ∧ (∀ n ∈ s.freq, n < 2 ^ s.cfg.iw)

/-- What has no value outside a command: CUR outside a decode (spec/10_state.md R60), the reconstruction stack (R61). -/
def State.flightOk (s : State) : Prop :=
  s.stack = [] ∧ (s.busy = false → s.cursor = none) ∧
  (s.busy = true → s.fault = none ∧ s.rootRef.toNat < s.next ∧ ∃ cur, s.cursor = some cur ∧ cur.toNat < s.next)

/-- The planning state (spec/10_state.md R59): a PLANNED session holds a tree and that tree's path table, as PLAN left them. -/
def State.plannedOk (s : State) : Prop := ∃ t, s.tree? s.rootRef = some t ∧ s.pt = t.table s.cfg.eofsym

/-- The registers and stores that hold in every state, faulted or not. -/
structure State.BasicInv (s : State) : Prop where
  cfg_valid : s.cfg.valid = true
  pool_fits : s.next ≤ s.cfg.ncap
  records_ok : s.recordsOk
  tables_ok : s.tablesOk
  flight_ok : s.flightOk
  root_ok : s.rootRef = NIL ∨ s.rootRef.toNat < s.next
  input_fits : s.input.length < 2 ^ 64

/-- The invariant of the machine: the above, and while no fault is recorded (a fault may leave a half-built tree, spec/10_state.md
R53) the pool is a forest, the queue is ordered, a CLEAN session has built nothing (spec/45_driver.md R210), and a PLANNED one
holds its plan (spec/10_state.md R59). -/
structure State.Inv (s : State) : Prop where
  basic : s.BasicInv
  forest : s.fault = none → s.forest
  queue_ok : s.fault = none → s.queueOk
  clean_empty : s.fault = none → s.busy = false → s.dstate = .clean → s.nodes = [] ∧ s.queue = [] ∧ s.rootRef = NIL
  planned_ok : s.fault = none → s.dstate = .planned → s.plannedOk

end Sys2Proof.Machine
end

