-- ==== Sys2Proof/Certificates/Slice0/Obligations.lean ====
section
/-!
DEFINITION. The statements for the provers (OBLIGATIONS.json lists them).

A premise `hostQuiet` says that no host act lands inside the command; what happens when one does land is stated for every
command and every point of it by `CmdWriteWhileBusyIsAFault`, `HardResetStopsTheCommand`,
`ArgumentWritesWhileBusyMissTheCommand` and `ReadsWhileBusyAreFree`, and `WaitingHostDoesNotDisturbTheCommand` carries every
such statement to a host that polls and writes operands inside commands. Premise HOST_WAITS of spec/70_reset_and_hazards.md R290
is `hostWaits`. A premise `s.input.length < 2 ^ 64` says that IPOS, 64 bits wide, can count port IN (spec/10_state.md R63).

A next state written as `{ s with … }` is also the frame: every field it does not name is unchanged. After `takeFault`, RES0 to
RES3 and BITS_WRITTEN are free values, so a conclusion `takeFault f t` says nothing of them. That LCMD, LARG0 and LARG1 keep
their values at the end of a command, which such a frame says too, is the model's choice (log 8, DESIGN CHOICE); that a fault
clears CUR, the decoder's count and the reconstruction stack is the model's inference (log 19, DEDUCED).
-/

open Sys2Proof Sys2Proof.Machine

/-! ### Encoding -/

/-- spec/30_encoding.md R91, R92, R101: every command word has one meaning, every command one word, no bit dropped. -/
def Obligations.EveryCommandHasExactlyOneWord : Prop :=
  ∀ (w : Word) (i : Instr), decode w = .ok i ↔ w = encode i

/-- spec/30_encoding.md R96: which words are illegal, in arithmetic on the word, and what writing one does. -/
def Obligations.IllegalWordsRaiseIllegalCmd : Prop :=
  ∀ w : Word,
    ((¬ ∃ i, decode w = .ok i) ↔
      (w.toNat % 256 ∉ [0x01, 0x02, 0x03, 0x04, 0x10, 0x11, 0x18, 0x19, 0x1A, 0x1B, 0x1C, 0x20, 0x28, 0x29, 0x2A, 0x30,
          0x31, 0x32, 0x38, 0x40, 0x41] ∨
        w.toNat / 1024 ≠ 0 ∨
        (w.toNat / 256 % 2 = 1 ∧ w.toNat % 256 ≠ 0x02) ∨
        (w.toNat / 512 % 2 = 1 ∧ w.toNat % 256 ≠ 0x01))) ∧
    ∀ (s : State) (gap : Option Nat) (rest : List HostEvent),
      (¬ ∃ i, decode w = .ok i) → s.busy = false → s.fault = none →
      s.host = ⟨gap, .write s.cfg.hccBase 4 w⟩ :: rest → ({ s with host := rest } : State).hostQuiet = true →
      step s = .next (takeFault .illegalCmd { s with host := rest, lcmd := w, larg0 := s.arg0, larg1 := s.arg1 })

/-- spec/30_encoding.md R92, R101 and spec/opcode_table.json: the match and mask columns of exactly one row hold of a legal
word, the row of the command it decodes to, and of no row of an illegal word. -/
def Obligations.OpcodeTableAgreesWithDecode : Prop :=
  ∀ w : Word, (opcodeTable.filter fun r => r.matches w).map (·.mnemonic) =
    match decode w with
    | .ok i => [mnemonicOf i]
    | .error _ => []

/-- spec/30_encoding.md R92, R99: words written out from the opcode map and the flags' bits. -/
def Obligations.SpecWordsDecodeToTheirCommands : Prop :=
  decode 0x00000001 = .ok (.plan .counts) ∧ decode 0x00000201 = .ok (.plan .tree) ∧
  decode 0x00000002 = .ok (.compress false) ∧ decode 0x00000102 = .ok (.compress true) ∧
  decode 0x00000003 = .ok .decompress ∧ decode 0x00000004 = .ok .softReset ∧
  decode 0x00000010 = .ok .nodeLeaf ∧ decode 0x00000018 = .ok .qEnqueue ∧ decode 0x00000020 = .ok .tCreate ∧
  decode 0x00000028 = .ok .tTravel ∧ decode 0x00000032 = .ok .tRecreate ∧ decode 0x00000038 = .ok .tDecode ∧
  decode 0x00000041 = .ok .inRewind ∧
  decode 0x00000000 = .error .reservedOpcode ∧ decode 0x00000301 = .error .overrideNotAllowed ∧
  decode 0x00000202 = .error .formatNotAllowed ∧ decode 0x00000401 = .error .reservedBits

/-! ### The host port and the step -/

/-- spec/30_encoding.md R90: a write of CMD while BUSY = 0 latches the word and the operands, sets BUSY and executes the
decoded command; and `withFetchWord` places such a write. -/
def Obligations.StepRunsTheWrittenCommand : Prop :=
  ∀ (s : State) (w : Word) (i : Instr), decode w = .ok i →
    (∀ (gap : Option Nat) (rest : List HostEvent), s.busy = false → s.fault = none →
      s.host = ⟨gap, .write s.cfg.hccBase 4 w⟩ :: rest →
      step s = exec i { s with host := rest, lcmd := w, larg0 := s.arg0, larg1 := s.arg1, busy := true }) ∧
    step (s.withFetchWord 32 w.toNat) =
      exec i { s with lcmd := w, larg0 := s.arg0, larg1 := s.arg1, busy := true, fault := none }

/-- spec/60_exceptions.md R258: the entry checks of every CMD write while BUSY = 0, in their order. -/
def Obligations.EntryChecksOfACmdWrite : Prop :=
  ∀ (s : State) (w : Word) (gap : Option Nat) (rest : List HostEvent), s.busy = false →
    s.host = ⟨gap, .write s.cfg.hccBase 4 w⟩ :: rest →
    (s.fault ≠ none → w = 0x00000004 → step s = .next (resetHcc { s with host := rest })) ∧
    (s.fault ≠ none → w ≠ 0x00000004 → step s = .next { s with host := rest }) ∧
    (s.fault = none → (¬ ∃ i, decode w = .ok i) → ({ s with host := rest } : State).hostQuiet = true →
      step s = .next (takeFault .illegalCmd { s with host := rest, lcmd := w, larg0 := s.arg0, larg1 := s.arg1 })) ∧
    (∀ i, s.fault = none → decode w = .ok i →
      step s = exec i { s with host := rest, lcmd := w, larg0 := s.arg0, larg1 := s.arg1, busy := true })

/-- spec/10_state.md R32, R48 and spec/20_memory.md R72: what a read of each offset gives while BUSY = 0, that reading changes
nothing, and what a write of each offset other than CMD does. -/
def Obligations.IdleRegisterMap : Prop :=
  ∀ (s : State) (gap : Option Nat) (rest : List HostEvent) (off : Nat), s.cfg.valid = true → s.busy = false →
    off % 4 = 0 → off ≤ 0xFC →
    (s.host = ⟨gap, .read (s.cfg.hccBase + off) 4⟩ :: rest →
      step s = .next { s with
        host := rest
        seen := s.seen ++ [(s.cfg.hccBase + off,
          [0, s.status, s.arg0, s.arg1, s.res0, s.res1, s.res2, s.res3,
            s.bitsSaved.setWidth 32, (s.bitsSaved >>> 32).setWidth 32,
            s.bitsWritten.setWidth 32, (s.bitsWritten >>> 32).setWidth 32,
            s.rootRef.setWidth 32, BitVec.ofNat 32 s.queue.length, s.ipos.setWidth 32,
            BitVec.ofNat 32 (s.cfg.ncap * 2 ^ 16 + s.cfg.iw * 2 ^ 8 + s.cfg.sw)].getD (off / 4) 0)] }) ∧
    (∀ v : Word, off ≠ 0x00 → s.host = ⟨gap, .write (s.cfg.hccBase + off) 4 v⟩ :: rest →
      step s = .next { s with
        host := rest
        arg0 := if off = 0x08 then v else s.arg0
        arg1 := if off = 0x0C then v else s.arg1 })

/-- spec/20_memory.md R71: an access of another size, unaligned, or outside the register space is refused, between commands
and inside one. -/
def Obligations.UnsupportedAccessesAreRefused : Prop :=
  ∀ (s : State) (addr size : Nat) (act : HostAct) (rest : List HostEvent) (v : Word),
    (size ≠ 4 ∨ addr < s.cfg.hccBase ∨ s.cfg.hccBase + 0xFC < addr ∨ (addr - s.cfg.hccBase) % 4 ≠ 0) →
    (act = .read addr size ∨ act = .write addr size v) →
    (∀ gap, s.busy = false → s.host = ⟨gap, act⟩ :: rest → step s = .refused .unsupportedAccess) ∧
    (∀ i, s.busy = true → s.host = ⟨some 0, act⟩ :: rest → exec i s = .refused .unsupportedAccess)

/-- spec/10_state.md R34: where each field of STATUS stands, that the bits no field names read 0, the fields' codes, and the
reset value. -/
def Obligations.StatusWordLayout : Prop :=
  (∀ s : State, s.status.toNat =
    (if s.busy then 1 else 0) + (if s.fault = none then 0 else 1) * 2 +
    (match s.dstate with
      | .clean => 0
      | .planned => 1
      | .used => 2) * 2 ^ 2 +
    (match s.pfmt with
      | .counts => 0
      | .tree => 1) * 2 ^ 4 +
    (match s.outcome with
      | .none => 0
      | .ok => 1
      | .refused => 2
      | .badMagic => 3
      | .faulted => 4) * 2 ^ 8 +
    (match s.fault with
      | none => 0
      | some f => f.code.toNat) * 2 ^ 16) ∧
  State.reset.status = 0

/-- spec/60_exceptions.md R253: the code column. -/
def Obligations.FaultCodesOfTheTable : Prop :=
  [FaultCode.illegalCmd, .nullNode, .badRef, .emptyQueue, .dupNode, .poolFull, .noTree, .noPath, .badSymbol, .notPlanned,
    .notClean, .inputExhausted, .nullChild, .badFormat, .treeSizeMismatch, .inputTooLong, .cmdWhileBusy, .freqOverflow].map
      (fun f => f.code.toNat) = (List.range 18).map (· + 1) ∧
  ∀ f : FaultCode, 1 ≤ f.code.toNat ∧ f.code.toNat ≤ 0x12

/-! ### Faults, reset, and host acts inside a command -/

/-- spec/60_exceptions.md R252: a `raise` at any point of a command's rule stops it there, whatever would follow, with the
state the rule has reached; STATUS records the fault; nothing else the host or a later command can read changes, but for
RES0 to RES3 and BITS_WRITTEN, which are free. The clauses on CUR, the decoder's count and the reconstruction stack are the
model's inference (log 19, from spec/10_state.md R60 and R61), which R252 does not say. -/
def Obligations.RaiseStopsTheCommandAndRecordsTheFault : Prop :=
  ∀ (f : FaultCode) (s : State), s.hostQuiet = true →
    (∀ {α : Type} (k : α → Cmd Unit), settle (((raise f : Cmd α) >>= k) s) = .next (takeFault f s)) ∧
    (takeFault f s).fault = some f ∧ (takeFault f s).outcome = .faulted ∧ (takeFault f s).busy = false ∧
    takeFault f s = { s with
      fault := some f
      outcome := .faulted
      busy := false
      res0 := (takeFault f s).res0
      res1 := (takeFault f s).res1
      res2 := (takeFault f s).res2
      res3 := (takeFault f s).res3
      bitsWritten := (takeFault f s).bitsWritten
      draws := (takeFault f s).draws
      cursor := none
      decoded := 0
      stack := [] }

/-- spec/60_exceptions.md R256, for every command: a CMD write that lands at a point of it discards the word and stops it as
`raise CMD_WHILE_BUSY` would, whatever would follow that point; so does one that lands in a decode in flight. -/
def Obligations.CmdWriteWhileBusyIsAFault : Prop :=
  ∀ (s : State) (w : Word) (rest : List HostEvent), s.busy = true →
    s.host = ⟨some 0, .write s.cfg.hccBase 4 w⟩ :: rest →
    (∀ c : Cmd Unit, settle ((do point; c) s) = .next (takeFault .cmdWhileBusy { s with host := rest })) ∧
    (∀ i : Instr, exec i s = .next (takeFault .cmdWhileBusy { s with host := rest })) ∧
    step s = .next (takeFault .cmdWhileBusy { s with host := rest })

/-- spec/70_reset_and_hazards.md R282, for every command: the reset input that lands at a point of it, whatever would follow
that point, stops it with no fault and then resets, and OLOG stays; so does one that lands in a decode in flight. SOFT_RESET
cannot be issued inside a command: its word is CMD_WHILE_BUSY like any other. -/
def Obligations.HardResetStopsTheCommand : Prop :=
  ∀ (s : State) (rest : List HostEvent), s.busy = true →
    (s.host = ⟨some 0, .hardReset⟩ :: rest →
      (∀ c : Cmd Unit, settle ((do point; c) s) = .next (resetHcc { s with host := rest })) ∧
      (∀ i : Instr, exec i s = .next (resetHcc { s with host := rest })) ∧
      step s = .next (resetHcc { s with host := rest }) ∧
      (resetHcc { s with host := rest }).fault = none ∧ (resetHcc { s with host := rest }).olog = s.olog) ∧
    (s.host = ⟨some 0, .write s.cfg.hccBase 4 0x00000004⟩ :: rest →
      (∀ c : Cmd Unit, settle ((do point; c) s) = .next (takeFault .cmdWhileBusy { s with host := rest })) ∧
      ∀ i : Instr, exec i s = .next (takeFault .cmdWhileBusy { s with host := rest }))

/-- spec/10_state.md R40 and spec/70_reset_and_hazards.md R286: a write of ARG0 or ARG1 that lands at any point of a command
changes only that register, and what follows the point, whatever it is, runs on from there; so for every command, which does
what it would have done. -/
def Obligations.ArgumentWritesWhileBusyMissTheCommand : Prop :=
  ∀ (s : State) (v : Word) (rest : List HostEvent), s.busy = true →
    (s.host = ⟨some 0, .write (s.cfg.hccBase + 0x08) 4 v⟩ :: rest →
      (∀ {α : Type} (c : Cmd α), (do point; c) s = c { s with host := rest, arg0 := v }) ∧
      (({ s with host := rest } : State).hostQuiet = true →
        ∀ i : Instr, exec i s = exec i { s with host := rest, arg0 := v })) ∧
    (s.host = ⟨some 0, .write (s.cfg.hccBase + 0x0C) 4 v⟩ :: rest →
      (∀ {α : Type} (c : Cmd α), (do point; c) s = c { s with host := rest, arg1 := v }) ∧
      (({ s with host := rest } : State).hostQuiet = true →
        ∀ i : Instr, exec i s = exec i { s with host := rest, arg1 := v }))

/-- spec/10_state.md R49: a register read that lands at any point of a command changes nothing but what the host has seen, and
what follows the point runs on from there; so for every command. STATUS shows BUSY = 1 and 0 in the bits no field names
(log 3), and the result registers give a free value. -/
def Obligations.ReadsWhileBusyAreFree : Prop :=
  ∀ (s : State) (off : Nat) (rest : List HostEvent), s.busy = true → off % 4 = 0 → off ≤ 0xFC →
    s.host = ⟨some 0, .read (s.cfg.hccBase + off) 4⟩ :: rest →
    ∃ v : Word,
      (∀ {α : Type} (c : Cmd α), (do point; c) s =
        c { s with host := rest, seen := s.seen ++ [(s.cfg.hccBase + off, v)], draws := s.draws + 1 }) ∧
      (({ s with host := rest } : State).hostQuiet = true → ∀ i : Instr, exec i s =
        exec i { s with host := rest, seen := s.seen ++ [(s.cfg.hccBase + off, v)], draws := s.draws + 1 }) ∧
      (off = 0x04 → v &&& 0xFF00F8E1 = 1) ∧
      (0x10 ≤ off ∧ off ≤ 0x38 → v = Config.freeWord s.draws) ∧
      (off = 0x08 → v = s.arg0) ∧ (off = 0x0C → v = s.arg1) ∧ (off = 0x3C → v = configWord s.cfg) ∧
      (off = 0x00 ∨ 0x40 ≤ off → v = 0)

/-- spec/70_reset_and_hazards.md R286, R287 with spec/10_state.md R40, R49, for every command: a host that polls registers and
writes ARG0 and ARG1 inside it, as often and wherever it likes, leaves the command's answer as it is, but for what those acts
themselves change and, where a fault is recorded, the registers a fault leaves unspecified. -/
def Obligations.WaitingHostDoesNotDisturbTheCommand : Prop :=
  ∀ (i : Instr) (s t : State), s.busy = true → s.hostPasses = true → exec i { s with host := [] } = .next t →
    ∃ u : State, exec i s = .next u ∧ u = { t with
      host := u.host
      seen := u.seen
      draws := u.draws
      arg0 := u.arg0
      arg1 := u.arg1
      res0 := if t.fault = none then t.res0 else u.res0
      res1 := if t.fault = none then t.res1 else u.res1
      res2 := if t.fault = none then t.res2 else u.res2
      res3 := if t.fault = none then t.res3 else u.res3
      bitsWritten := if t.fault = none then t.bitsWritten else u.bitsWritten }

/-- spec/70_reset_and_hazards.md R287, R290, HOST_WAITS: a host that writes CMD only once BUSY = 0 never meets CMD_WHILE_BUSY,
whatever else it does inside commands; and it goes on to be one. -/
def Obligations.HostThatWaitsNeverMeetsCmdWhileBusy : Prop :=
  ∀ s t : State, s.hostWaits = true → step s = .next t →
    t.hostWaits = true ∧ (t.fault = some .cmdWhileBusy → s.fault = some .cmdWhileBusy)

/-- spec/70_reset_and_hazards.md R280, R281: what SOFT_RESET and the reset input leave, field by field, that the two agree, and
what the registers then read. What the latch fields hold when no command is latched is the model's choice (log 8), so it is not
said. -/
def Obligations.ResetValuesAfterEitherReset : Prop :=
  ∀ s : State, ∃ lcmd larg0 larg1 : Word, ∀ r : State,
    r = { cfg := s.cfg, busy := false, fault := none, outcome := .none, dstate := .clean, pfmt := .counts,
          arg0 := 0, arg1 := 0, res0 := 0, res1 := 0, res2 := 0, res3 := 0, bitsSaved := 0, bitsWritten := 0,
          nodes := [], queue := [], pt := List.replicate (2 ^ s.cfg.sw + 1) none,
          freq := List.replicate (2 ^ s.cfg.sw + 1) 0, rootRef := 0xFFFF, lcmd := lcmd, larg0 := larg0, larg1 := larg1,
          ipos := 0, cursor := none, decoded := 0, stack := [], input := s.input, olog := s.olog, host := s.host,
          seen := s.seen, draws := s.draws } →
    (s.hostQuiet = true → exec .softReset s = .next r) ∧
    (∀ gap rest, s.busy = false → s.host = ⟨gap, .hardReset⟩ :: rest → step s = .next { r with host := rest }) ∧
    (∀ off, off < 0x3C → off ≠ 0x30 → regRead r off = 0) ∧ regRead r 0x30 = 0x0000FFFF ∧ regRead r 0x3C = regRead s 0x3C

/-- spec/70_reset_and_hazards.md R283: an idle core with nothing to do from the host stays as it is. -/
def Obligations.IdleCoreWaits : Prop :=
  ∀ s : State, s.busy = false → s.host = [] → step s = .next s

/-! ### Whole-machine rules -/

/-- The reset state is a clean launch and meets the invariant of `StepKeepsTheInvariant`. Port IN empty at reset is the model's
choice (log 13). -/
def Obligations.ResetStateIsCleanAndMeetsTheInvariant : Prop :=
  State.reset.cleanLaunch ∧ State.reset.Inv

/-- spec/10_state.md R51 to R61, R63: from every state that meets the invariant, whatever the host does and wherever it lands,
a next state meets it again. -/
def Obligations.StepKeepsTheInvariant : Prop :=
  ∀ s t : State, s.Inv → step s = .next t → t.Inv

/-- From every state that meets the invariant the machine never stops on its own: only a host access that
spec/20_memory.md R71 gives no meaning, another input stream attached inside a command (R288), or a stream longer than IPOS can
count (spec/10_state.md R63, log 10) ends in a refusal, and nothing ends in a fault of the model. -/
def Obligations.StepStopsOnlyOnHostMisuse : Prop :=
  ∀ s : State, s.Inv →
    (∃ t, step s = .next t) ∨ step s = .refused .unsupportedAccess ∨ step s = .refused .unstableInput ∨
      step s = .refused .streamTooLong

/-- spec/20_memory.md R87: bits sent are never withdrawn, by no command, fault, reset or host act; and the parameters are
fixed. -/
def Obligations.SentBitsAreNeverWithdrawn : Prop :=
  ∀ s t : State, step s = .next t → s.olog <+: t.olog ∧ t.cfg = s.cfg

/-- spec/60_exceptions.md R255 and spec/10_state.md R36: while FAULT = 1 nothing changes but by a reset: any other act of the
host touches ARG0, ARG1, port IN and what it has seen, only. -/
def Obligations.FaultIsStickyUntilReset : Prop :=
  ∀ (s t : State) (f : FaultCode), s.busy = false → s.fault = some f → step s = .next t →
    (∃ e rest, s.host = e :: rest ∧ t = resetHcc { s with host := rest } ∧
      (e.act = .hardReset ∨ e.act = .write s.cfg.hccBase 4 0x00000004)) ∨
    t = { s with host := t.host, seen := t.seen, arg0 := t.arg0, arg1 := t.arg1, input := t.input }

/-- spec/30_encoding.md R97: a state-changing component command that ends without a fault sets DSTATE to USED; a read-only
command never changes DSTATE. -/
def Obligations.SessionStateByCommandKind : Prop :=
  ∀ (i : Instr) (s t : State), s.busy = true → s.hostQuiet = true → s.fault = none → exec i s = .next t →
    (kindOf i = .changing → t.busy = false → t.fault = none → t.dstate = .used) ∧
    (kindOf i = .readOnly → t.dstate = s.dstate)

/-- spec/10_state.md R39, R40, R42: no command but SOFT_RESET changes the parameters, port IN or the argument registers, and
none but PLAN and SOFT_RESET changes BITS_SAVED or PFMT, faulted or not. That the latched command keeps its value at the end of
a command too is the model's choice (log 8, DESIGN CHOICE); R62 holds it for the duration only. -/
def Obligations.WhatNoCommandChanges : Prop :=
  ∀ (i : Instr) (s t : State), s.hostQuiet = true → i ≠ .softReset → exec i s = .next t →
    t.cfg = s.cfg ∧ t.input = s.input ∧ t.arg0 = s.arg0 ∧ t.arg1 = s.arg1 ∧ t.lcmd = s.lcmd ∧ t.larg0 = s.larg0 ∧
    t.larg1 = s.larg1 ∧ t.host = s.host ∧ t.seen = s.seen ∧
    ((∀ fmt, i ≠ .plan fmt) → t.bitsSaved = s.bitsSaved ∧ t.pfmt = s.pfmt)

/-- spec/40_node_queue.md R117: the queue commands change no node record, and no tree, table or stream. -/
def Obligations.QueueCommandsKeepEveryRecord : Prop :=
  ∀ (i : Instr) (s t : State), i ∈ [.qEnqueue, .qDequeue, .qFront, .qIsEmpty, .qSize] → s.hostQuiet = true →
    exec i s = .next t →
    t.nodes = s.nodes ∧ t.rootRef = s.rootRef ∧ t.pt = s.pt ∧ t.freq = s.freq ∧ t.ipos = s.ipos ∧ t.olog = s.olog ∧
    (t.fault = none → t.res1 = s.res1 ∧ t.res2 = s.res2 ∧ t.res3 = s.res3 ∧ t.bitsWritten = s.bitsWritten)

/-! ### The ports -/

/-- spec/20_memory.md R74, R76: InRead takes the next `n` bits, the first the most significant, or answers EOF and consumes
nothing; OutWrite appends the `n` low bits, the most significant first; and what OutWrite sends, InRead reads back. -/
def Obligations.PortsReadAndWriteMostSignificantBitFirst : Prop :=
  ∀ (s : State) (n v : Nat), s.hostQuiet = true →
    (s.input.length < s.pos + n → inRead n s = .ok none s) ∧
    (s.pos + n ≤ s.input.length →
      ∃ x, inRead n s = .ok (some x) { s with ipos := BitVec.ofNat 64 (s.pos + n) } ∧ x < 2 ^ n ∧
        ∀ j < n, s.input[s.pos + j]? = some (x.testBit (n - 1 - j))) ∧
    outWrite n v s = .ok () { s with olog := s.olog ++ (List.range n).map fun j => v.testBit (n - 1 - j) } ∧
    (∀ u t : State, outWrite n v s = .ok () t → u.hostQuiet = true → u.input = t.olog → u.pos = s.olog.length →
      inRead n u = .ok (some (v % 2 ^ n)) { u with ipos := BitVec.ofNat 64 (u.pos + n) })

/-! ### Node and queue commands -/

/-- spec/40_node_queue.md R120 with R110: NODE_LEAF. -/
def Obligations.NodeLeafAllocatesALeaf : Prop :=
  ∀ s : State, s.cfg.valid = true → s.hostQuiet = true →
    (2 ^ s.cfg.sw < s.larg0.toNat % 2 ^ 16 → exec .nodeLeaf s = .next (takeFault .badSymbol s)) ∧
    (s.larg0.toNat % 2 ^ 16 ≤ 2 ^ s.cfg.sw → s.cfg.ncap ≤ s.nodes.length →
      exec .nodeLeaf s = .next (takeFault .poolFull s)) ∧
    (s.larg0.toNat % 2 ^ 16 ≤ 2 ^ s.cfg.sw → s.nodes.length < s.cfg.ncap →
      exec .nodeLeaf s = .next { s with
        nodes := s.nodes ++
          [{ kind := .leaf, sym := s.larg0.toNat % 2 ^ 16, freq := s.larg1.toNat % 2 ^ s.cfg.iw, left := 0xFFFF,
             right := 0xFFFF, owned := false }]
        res0 := BitVec.ofNat 32 s.nodes.length
        dstate := .used
        outcome := .ok
        busy := false })

/-- spec/40_node_queue.md R121: NODE_INFO. -/
def Obligations.NodeInfoReadsARecord : Prop :=
  ∀ (s : State) (r : NodeRef) (n : NodeRec), s.cfg.valid = true → s.hostQuiet = true → r = s.larg0.setWidth 16 →
    (r = 0xFFFF → exec .nodeInfo s = .next (takeFault .nullNode s)) ∧
    (r ≠ 0xFFFF → s.nodes.length ≤ r.toNat → exec .nodeInfo s = .next (takeFault .badRef s)) ∧
    (r ≠ 0xFFFF → s.nodes[r.toNat]? = some n → n.sym < 2 ^ (s.cfg.sw + 1) → n.freq < 2 ^ s.cfg.fw →
      exec .nodeInfo s = .next { s with
        res0 := BitVec.ofNat 32 ((if n.kind = .leaf then 2 ^ 31 else 0) + (if n.owned then 2 ^ 30 else 0) +
          (if r ∈ s.queue then 2 ^ 29 else 0) + n.sym)
        res1 := BitVec.ofNat 32 (n.freq % 2 ^ 32)
        res2 := BitVec.ofNat 32 (n.left.toNat * 2 ^ 16 + n.right.toNat)
        res3 := BitVec.ofNat 32 (n.freq / 2 ^ 32)
        outcome := .ok
        busy := false })

/-- spec/40_node_queue.md R122 with R113: Q_ENQUEUE. The place `k` is the least index whose entry has a greater frequency, or
the end. -/
def Obligations.EnqueueInsertsBeforeTheFirstGreater : Prop :=
  ∀ (s : State) (r : NodeRef) (n : NodeRec), s.hostQuiet = true → r = s.larg0.setWidth 16 →
    (r = 0xFFFF → exec .qEnqueue s = .next (takeFault .nullNode s)) ∧
    (r ≠ 0xFFFF → s.nodes.length ≤ r.toNat → exec .qEnqueue s = .next (takeFault .badRef s)) ∧
    (r ≠ 0xFFFF → s.nodes[r.toNat]? = some n → (r ∈ s.queue ∨ n.owned = true) →
      exec .qEnqueue s = .next (takeFault .dupNode s)) ∧
    (r ≠ 0xFFFF → s.nodes[r.toNat]? = some n → r ∉ s.queue → n.owned = false → (∀ x ∈ s.queue, x.toNat < s.nodes.length) →
      ∃ k ≤ s.queue.length,
        (∀ x ∈ s.queue.take k, s.freqOfRef x ≤ n.freq) ∧ (∀ x, s.queue[k]? = some x → n.freq < s.freqOfRef x) ∧
        exec .qEnqueue s = .next { s with
          queue := s.queue.take k ++ r :: s.queue.drop k
          dstate := .used
          outcome := .ok
          busy := false })

/-- spec/40_node_queue.md R123 with R116: Q_DEQUEUE. -/
def Obligations.DequeueTakesTheFront : Prop :=
  ∀ s : State, s.hostQuiet = true →
    (s.queue = [] → exec .qDequeue s = .next (takeFault .emptyQueue s)) ∧
    (∀ r q, s.queue = r :: q → exec .qDequeue s = .next { s with
      queue := q
      res0 := r.setWidth 32
      dstate := .used
      outcome := .ok
      busy := false })

/-- spec/40_node_queue.md R124, R125, R126: Q_FRONT, Q_ISEMPTY, Q_SIZE. -/
def Obligations.QueueReadsChangeOnlyTheResult : Prop :=
  ∀ s : State, s.hostQuiet = true →
    (s.queue = [] → exec .qFront s = .next (takeFault .emptyQueue s)) ∧
    (∀ r q, s.queue = r :: q → exec .qFront s = .next { s with res0 := r.setWidth 32, outcome := .ok, busy := false }) ∧
    exec .qIsEmpty s = .next { s with res0 := if s.queue = [] then 1 else 0, outcome := .ok, busy := false } ∧
    exec .qSize s = .next { s with res0 := BitVec.ofNat 32 s.queue.length, outcome := .ok, busy := false }

/-! ### Trees -/

/-- spec/41_tree_build.md R140, R141, R142 with spec/40_node_queue.md R111: T_CREATE. The tree it leaves is the one merging the
queue's weighted trees gives, `k - 1` records are allocated, and every record it had keeps all but OWNED. -/
def Obligations.TreeCreationMergesTheQueue : Prop :=
  ∀ (s : State) (ws : List (Nat × CodeTree)), s.cfg.valid = true → s.hostQuiet = true → s.nodes.length ≤ s.cfg.ncap →
    (s.queue = [] → exec .tCreate s = .next (takeFault .emptyQueue s)) ∧
    (s.weightedQueue = some ws → s.queue ≠ [] → s.nodes.length + (s.queue.length - 1) ≤ s.cfg.ncap →
      (ws.map Prod.fst).sum < 2 ^ s.cfg.fw →
      ∃ (t : State) (T : CodeTree), exec .tCreate s = .next t ∧ mergeW ws.length ws = some T ∧ t.tree? t.rootRef = some T ∧
        t = { s with
          nodes := t.nodes
          queue := []
          rootRef := t.rootRef
          res0 := t.rootRef.setWidth 32
          dstate := .used
          outcome := .ok
          busy := false } ∧
        t.nodes.length = s.nodes.length + (s.queue.length - 1) ∧
        (∀ (i : Nat) (n : NodeRec), s.nodes[i]? = some n → t.nodes[i]? = some { n with
          owned := n.owned || (decide (2 ≤ s.queue.length) && decide (BitVec.ofNat 16 i ∈ s.queue)) }) ∧
        (∀ (i : Nat) (n : NodeRec), s.nodes.length ≤ i → t.nodes[i]? = some n →
          n.kind = .internal ∧ n.sym = s.cfg.symPlaceholder ∧ n.freq = t.freqOfRef n.left + t.freqOfRef n.right ∧
          (n.owned = false ↔ BitVec.ofNat 16 i = t.rootRef))) ∧
    (s.weightedQueue = some ws → s.cfg.ncap < s.nodes.length + (s.queue.length - 1) →
      (ws.map Prod.fst).sum < 2 ^ s.cfg.fw →
      ∃ t : State, exec .tCreate s = .next (takeFault .poolFull t) ∧ t.nodes.length = s.cfg.ncap ∧ t.rootRef = s.rootRef) ∧
    (s.weightedQueue = some ws → 2 ≤ s.queue.length → s.nodes.length + (s.queue.length - 1) ≤ s.cfg.ncap →
      2 ^ s.cfg.fw ≤ (ws.map Prod.fst).sum →
      ∃ t : State, exec .tCreate s = .next (takeFault .freqOverflow t) ∧ t.rootRef = s.rootRef)

/-- spec/42_path_table.md R150, R151: T_TRAVEL. -/
def Obligations.TravelBuildsThePathTable : Prop :=
  ∀ (s : State) (T : CodeTree), s.hostQuiet = true → s.nodes.length ≤ 0xFFFE →
    (s.rootRef = 0xFFFF → exec .tTravel s = .next (takeFault .noTree s)) ∧
    (s.tree? s.rootRef = some T → exec .tTravel s = .next { s with
      pt := (List.range (2 ^ s.cfg.sw + 1)).map fun sym => T.path sym
      dstate := .used
      outcome := .ok
      busy := false })

/-- spec/42_path_table.md R152: after T_TRAVEL on a tree whose leaves carry distinct symbols, no present path is a prefix of
another, and none is longer than the tree is deep. -/
def Obligations.PathsArePrefixFree : Prop :=
  ∀ (s : State) (T : CodeTree), s.hostQuiet = true → s.nodes.length ≤ 0xFFFE → s.tree? s.rootRef = some T → T.symbols.Nodup →
    ∃ t : State, exec .tTravel s = .next t ∧
      ∀ (a b : Nat) (p q : List Bit), t.pt[a]? = some (some p) → t.pt[b]? = some (some q) →
        (p <+: q → a = b) ∧ p.length ≤ T.depth

/-- spec/42_path_table.md R153: PATH_READ. -/
def Obligations.PathReadGivesLengthAndWindow : Prop :=
  ∀ (s : State) (e : Option (List Bit)), s.hostQuiet = true →
    (2 ^ s.cfg.sw < s.larg0.toNat % 2 ^ 16 → exec .pathRead s = .next (takeFault .badSymbol s)) ∧
    (s.larg0.toNat % 2 ^ 16 ≤ 2 ^ s.cfg.sw → s.pt[s.larg0.toNat % 2 ^ 16]? = some e →
      ∃ window : Word,
        exec .pathRead s = .next { s with
          res0 := (match e with
            | none => 0xFFFFFFFF
            | some p => BitVec.ofNat 32 p.length)
          res1 := window
          outcome := .ok
          busy := false } ∧
        ∀ j < 32, window.getLsbD (31 - j) = (e.getD []).getD (s.larg1.toNat + j) false)

/-- spec/42_path_table.md R156 with R155: T_EMIT. -/
def Obligations.EmitSendsThePath : Prop :=
  ∀ (s : State) (p : List Bit), s.hostQuiet = true →
    (2 ^ s.cfg.sw < s.larg0.toNat % 2 ^ 16 → exec .tEmit s = .next (takeFault .badSymbol s)) ∧
    (s.larg0.toNat % 2 ^ 16 ≤ 2 ^ s.cfg.sw → s.pt[s.larg0.toNat % 2 ^ 16]? = some none →
      exec .tEmit s = .next (takeFault .noPath s)) ∧
    (s.larg0.toNat % 2 ^ 16 ≤ 2 ^ s.cfg.sw → s.pt[s.larg0.toNat % 2 ^ 16]? = some (some p) →
      exec .tEmit s = .next { s with
        olog := s.olog ++ p
        bitsWritten := BitVec.ofNat 64 p.length
        dstate := .used
        outcome := .ok
        busy := false })

/-- spec/43_serialize.md R170: T_COUNT_BITS; and the count of a tree the pool can hold fits an IW-bit field. -/
def Obligations.CountBitsOfATree : Prop :=
  ∀ (s : State) (r : NodeRef) (T : CodeTree), s.hostQuiet = true → s.nodes.length ≤ 0xFFFE → r = s.larg0.setWidth 16 →
    (r = 0xFFFF → exec .tCountBits s = .next { s with res0 := 0, outcome := .ok, busy := false }) ∧
    (r ≠ 0xFFFF → s.nodes.length ≤ r.toNat → exec .tCountBits s = .next (takeFault .badRef s)) ∧
    (s.tree? r = some T → exec .tCountBits s = .next { s with
      res0 := BitVec.ofNat 32 (T.bits s.cfg.sw)
      outcome := .ok
      busy := false }) ∧
    (s.cfg.valid = true → T.size ≤ s.cfg.ncap → T.bits s.cfg.sw < 2 ^ s.cfg.iw)

/-- spec/43_serialize.md R171 with spec/30_encoding.md R103: T_WRITE. -/
def Obligations.TreeWriteSendsTheEncoding : Prop :=
  ∀ (s : State) (T : CodeTree), s.hostQuiet = true → s.nodes.length ≤ 0xFFFE →
    (s.rootRef = 0xFFFF → exec .tWrite s = .next (takeFault .noTree s)) ∧
    (s.tree? s.rootRef = some T → exec .tWrite s = .next { s with
      olog := s.olog ++ T.enc s.cfg.sw
      bitsWritten := BitVec.ofNat 64 (T.bits s.cfg.sw)
      dstate := .used
      outcome := .ok
      busy := false })

/-- spec/43_serialize.md R172, R175: T_RECREATE. On a complete encoding it consumes exactly the encoding and allocates the
tree's records in pre-order, with the placeholders. It faults on an encoding cut short, on a leaf symbol above EOFSYM, and on a
pool without room; then ROOTREF keeps its value and every record that was there stays as it was. -/
def Obligations.RecreateRebuildsTheTree : Prop :=
  ∀ (s : State) (T : CodeTree) (rest : List Bit), s.cfg.valid = true → s.hostQuiet = true → s.nodes.length ≤ s.cfg.ncap →
    s.input.length < 2 ^ 64 →
    (s.input.drop s.pos = T.enc s.cfg.sw ++ rest → (∀ x ∈ T.symbols, x ≤ 2 ^ s.cfg.sw) →
      s.nodes.length + T.size ≤ s.cfg.ncap →
      exec .tRecreate s = .next { s with
        nodes := s.nodes ++ T.pool s.cfg s.nodes.length false
        ipos := BitVec.ofNat 64 (s.pos + T.bits s.cfg.sw)
        rootRef := BitVec.ofNat 16 s.nodes.length
        res0 := BitVec.ofNat 32 s.nodes.length
        res1 := BitVec.ofNat 32 (T.bits s.cfg.sw)
        dstate := .used
        outcome := .ok
        busy := false }) ∧
    (∀ k : Nat, s.input.drop s.pos = (T.enc s.cfg.sw).take k → k < T.bits s.cfg.sw → (∀ x ∈ T.symbols, x ≤ 2 ^ s.cfg.sw) →
      s.nodes.length + T.size ≤ s.cfg.ncap →
      ∃ t : State, exec .tRecreate s = .next (takeFault .inputExhausted t) ∧ t.rootRef = s.rootRef ∧
        s.nodes <+: t.nodes ∧ t.olog = s.olog ∧ t.dstate = s.dstate) ∧
    (s.input.drop s.pos = T.enc s.cfg.sw ++ rest → (∃ x ∈ T.symbols, 2 ^ s.cfg.sw < x) →
      (∀ x ∈ T.symbols, x < 2 ^ (s.cfg.sw + 1)) → s.nodes.length + T.size ≤ s.cfg.ncap →
      ∃ t : State, exec .tRecreate s = .next (takeFault .badSymbol t) ∧ t.rootRef = s.rootRef ∧
        s.nodes <+: t.nodes ∧ t.olog = s.olog ∧ t.dstate = s.dstate) ∧
    (s.input.drop s.pos = T.enc s.cfg.sw ++ rest → (∀ x ∈ T.symbols, x ≤ 2 ^ s.cfg.sw) →
      s.cfg.ncap < s.nodes.length + T.size →
      ∃ t : State, exec .tRecreate s = .next (takeFault .poolFull t) ∧ t.rootRef = s.rootRef ∧
        s.nodes <+: t.nodes ∧ t.nodes.length = s.cfg.ncap ∧ t.olog = s.olog ∧ t.dstate = s.dstate)

/-- spec/43_serialize.md R173: Count, WriteTree and ReadTree agree: T_WRITE sends as many bits as T_COUNT_BITS says, and
T_RECREATE fed those bits consumes exactly them and rebuilds the same tree. -/
def Obligations.CountWriteAndRecreateAgree : Prop :=
  ∀ (s : State) (T : CodeTree), s.cfg.valid = true → s.hostQuiet = true → s.nodes.length ≤ s.cfg.ncap →
    s.tree? s.rootRef = some T → (∀ x ∈ T.symbols, x ≤ 2 ^ s.cfg.sw) →
    ∃ (bits : List Bit) (t : State), exec .tWrite s = .next t ∧ t.olog = s.olog ++ bits ∧
      t.bitsWritten = BitVec.ofNat 64 bits.length ∧
      (s.larg0.setWidth 16 = s.rootRef →
        ∃ c : State, exec .tCountBits s = .next c ∧ c.res0 = BitVec.ofNat 32 bits.length) ∧
      (∀ (u : State) (rest : List Bit), u.cfg = s.cfg → u.hostQuiet = true → u.input.length < 2 ^ 64 →
        u.input.drop u.pos = bits ++ rest → u.nodes.length + T.size ≤ u.cfg.ncap →
        ∃ v : State, exec .tRecreate u = .next v ∧ v.pos = u.pos + bits.length ∧ v.tree? v.rootRef = some T)

/-! ### Decoding -/

/-- spec/44_decode.md R191, R195 with R190: T_DECODE on the codes of a sequence of natural symbols and EOFSYM emits exactly
those symbols at natural width and consumes exactly those bits. -/
def Obligations.DecodeInvertsTheCodes : Prop :=
  ∀ (s : State) (T : CodeTree) (syms : List Nat) (rest : List Bit), s.hostQuiet = true → s.nodes.length ≤ 0xFFFE →
    s.input.length < 2 ^ 64 → s.tree? s.rootRef = some T → (∀ x ∈ syms, x < 2 ^ s.cfg.sw ∧ x ∈ T.symbols) →
    2 ^ s.cfg.sw ∈ T.symbols → s.input.drop s.pos = codesOf T (syms ++ [2 ^ s.cfg.sw]) ++ rest →
    exec .tDecode s = .next { s with
      ipos := BitVec.ofNat 64 (s.pos + (codesOf T (syms ++ [2 ^ s.cfg.sw])).length)
      olog := s.olog ++ symbolBits s.cfg.sw syms
      bitsWritten := BitVec.ofNat 64 (s.cfg.sw * syms.length)
      res0 := BitVec.ofNat 32 syms.length
      cursor := none
      decoded := 0
      dstate := .used
      outcome := .ok
      busy := false }

/-- spec/44_decode.md R191, R192: where T_DECODE faults: no tree; port IN ending before the EOF leaf, the symbols emitted before
it staying in OLOG; a direction bit that selects an absent child (in states no run reaches, R53). -/
def Obligations.DecodeFaults : Prop :=
  ∀ s : State, s.hostQuiet = true → s.nodes.length ≤ 0xFFFE →
    (s.rootRef = 0xFFFF → exec .tDecode s = .next (takeFault .noTree s)) ∧
    (∀ (l r : CodeTree) (syms : List Nat) (x : Nat) (q : List Bit) (k : Nat),
      s.tree? s.rootRef = some (.node l r) → (∀ y ∈ syms, y < 2 ^ s.cfg.sw ∧ y ∈ (CodeTree.node l r).symbols) →
      (CodeTree.node l r).path x = some q → k < q.length →
      s.input.drop s.pos = codesOf (.node l r) syms ++ q.take k → s.pos ≤ s.input.length →
      s.input.length < 2 ^ 64 →
      exec .tDecode s = .next (takeFault .inputExhausted { s with
        ipos := BitVec.ofNat 64 s.input.length
        olog := s.olog ++ symbolBits s.cfg.sw syms })) ∧
    (∀ (n : NodeRec) (b : Bit), s.rootRef ≠ 0xFFFF → s.nodes[s.rootRef.toNat]? = some n → n.kind = .internal →
      s.input[s.pos]? = some b → (if b then n.right else n.left) = 0xFFFF →
      exec .tDecode s = .next (takeFault .nullChild { s with ipos := BitVec.ofNat 64 (s.pos + 1) }))

/-- spec/44_decode.md R194: with an internal root T_DECODE ends on every input, by reaching the EOF leaf or by
INPUT_EXHAUSTED, and reads no more bits than are left. -/
def Obligations.DecodeFromAnInternalRootEnds : Prop :=
  ∀ (s : State) (l r : CodeTree), s.hostQuiet = true → s.nodes.length ≤ 0xFFFE → s.pos ≤ s.input.length →
    s.input.length < 2 ^ 64 → s.tree? s.rootRef = some (.node l r) →
    ∃ t : State, exec .tDecode s = .next t ∧ t.busy = false ∧ s.pos ≤ t.pos ∧ t.pos ≤ s.input.length ∧
      ((t.outcome = .ok ∧ t.fault = s.fault) ∨ (t.outcome = .faulted ∧ t.fault = some .inputExhausted))

/-- spec/44_decode.md R193: with a root that is a leaf of a natural symbol the decode never ends: however many steps the core
makes, BUSY stays 1, no bit of port IN is consumed, and at least one symbol is sent in each. -/
def Obligations.DegenerateDecodeNeverEnds : Prop :=
  ∀ (s : State) (sym : Nat), s.busy = true → s.hostQuiet = true → s.nodes.length ≤ 0xFFFE →
    s.tree? s.rootRef = some (.leaf sym) → sym ≠ 2 ^ s.cfg.sw →
    ∃ t : State, exec .tDecode s = .next t ∧ t.busy = true ∧
      ∀ n : Nat, ∃ u : State, Host.Core.run core n t = .next u ∧ u.busy = true ∧ u.fault = s.fault ∧ u.ipos = s.ipos ∧
        ∃ m : Nat, n < m ∧ u.olog = s.olog ++ symbolBits s.cfg.sw (List.replicate m sym)

/-! ### The Codec Driver -/

/-- spec/45_driver.md R212 with R211, R213, R214 and spec/41_tree_build.md R143: PLAN. On a freshly reset core: the counts, the
tree of the counts, its path table, and the savings; nothing is sent. It faults in a session that is not CLEAN, before anything
is read, and when a count would reach 2^IW. -/
def Obligations.PlanComputesTableTreeAndSavings : Prop :=
  ∀ (s : State) (fmt : HeaderFormat), s.cfg.valid = true → s.hostQuiet = true →
    (s.dstate ≠ .clean → exec (.plan fmt) s = .next (takeFault .notClean s)) ∧
    (s.dstate = .clean → s.input.length < 2 ^ 64 → (∃ sym < 2 ^ s.cfg.sw, 2 ^ s.cfg.iw ≤ (symbolsOf s.cfg.sw s.input).count sym) →
      ∃ t : State, exec (.plan fmt) s = .next (takeFault .inputTooLong t) ∧ t.olog = s.olog ∧ t.nodes = s.nodes ∧
        t.rootRef = s.rootRef ∧ t.dstate = .clean) ∧
    (s.dstate = .clean → s.nodes = [] → s.queue = [] → s.input.length < 2 ^ 64 → (∀ n ∈ countsOf s.cfg s.input, n < 2 ^ s.cfg.iw) →
      ∃ (T : CodeTree) (t : State), huffTree s.cfg (countsOf s.cfg s.input) = some T ∧ exec (.plan fmt) s = .next t ∧
        t.tree? t.rootRef = some T ∧
        t.nodes.length = 2 * ((countsOf s.cfg s.input).countP fun n => decide (0 < n)) - 1 ∧
        t = { s with
          nodes := t.nodes
          rootRef := t.rootRef
          freq := countsOf s.cfg s.input
          pt := T.table (2 ^ s.cfg.sw)
          ipos := BitVec.ofNat 64 (s.input.length / s.cfg.sw * s.cfg.sw)
          bitsSaved := BitVec.ofInt 64 ((beforeOf s.cfg (countsOf s.cfg s.input) : Int) -
            (afterOf s.cfg fmt (countsOf s.cfg s.input) T : Int))
          pfmt := fmt
          dstate := .planned
          outcome := .ok
          busy := false })

/-- spec/45_driver.md R215 with spec/10_state.md R42: BITS_SAVED is the exact signed difference; and for N copies of one symbol
with the tree-shape header it is (SW - 1) N - (3 IW + 2 SW + 6), which with SW = 8 and IW = 32 is positive from N = 17 on. -/
def Obligations.SavingsAreExact : Prop :=
  ∀ (s : State) (fmt : HeaderFormat), s.cfg.valid = true → s.hostQuiet = true → s.dstate = .clean → s.nodes = [] →
    s.queue = [] → s.input.length < 2 ^ 64 → (∀ n ∈ countsOf s.cfg s.input, n < 2 ^ s.cfg.iw) →
    ∃ (T : CodeTree) (t : State), huffTree s.cfg (countsOf s.cfg s.input) = some T ∧ exec (.plan fmt) s = .next t ∧
      t.bitsSaved.toInt = (beforeOf s.cfg (countsOf s.cfg s.input) : Int) -
        (afterOf s.cfg fmt (countsOf s.cfg s.input) T : Int) ∧
      (∀ N sym : Nat, fmt = .tree → 1 ≤ N → sym < 2 ^ s.cfg.sw →
        s.input = symbolBits s.cfg.sw (List.replicate N sym) →
        t.bitsSaved.toInt = ((s.cfg.sw : Int) - 1) * N - (3 * s.cfg.iw + 2 * s.cfg.sw + 6) ∧
        (s.cfg.sw = 8 → s.cfg.iw = 32 → (0 < t.bitsSaved.toInt ↔ 17 ≤ N)))

/-- spec/45_driver.md R216, R217 with spec/30_encoding.md R102: COMPRESS. Not refused, it sends exactly the stream of R102 for the
planned format, tree and table, re-reading port IN from its start, and changes nothing else of the plan. Outside a planned
session it faults, without override and savings it refuses, and on a symbol without a path it faults. -/
def Obligations.CompressSendsTheStream : Prop :=
  ∀ (s : State) (ovr : Bool), s.cfg.valid = true → s.hostQuiet = true →
    (s.dstate ≠ .planned → exec (.compress ovr) s = .next (takeFault .notPlanned s)) ∧
    (s.dstate = .planned → s.bitsSaved.toInt ≤ 0 → ovr = false →
      exec (.compress ovr) s = .next { s with ipos := 0, bitsWritten := 0, outcome := .refused, busy := false }) ∧
    (∀ T : CodeTree, s.dstate = .planned → (0 < s.bitsSaved.toInt ∨ ovr = true) → s.nodes.length ≤ 0xFFFE →
      s.input.length < 2 ^ 64 → s.tree? s.rootRef = some T → s.pt = T.table (2 ^ s.cfg.sw) → s.freq.length = 2 ^ s.cfg.sw + 1 →
      (∀ x ∈ symbolsOf s.cfg.sw s.input ++ [2 ^ s.cfg.sw], x ∈ T.symbols) →
      exec (.compress ovr) s = .next { s with
        ipos := BitVec.ofNat 64 (s.input.length / s.cfg.sw * s.cfg.sw)
        olog := s.olog ++ streamOf s.cfg s.pfmt s.freq T (symbolsOf s.cfg.sw s.input)
        bitsWritten := BitVec.ofNat 64 (streamOf s.cfg s.pfmt s.freq T (symbolsOf s.cfg.sw s.input)).length
        outcome := .ok
        busy := false }) ∧
    (∀ T : CodeTree, s.dstate = .planned → (0 < s.bitsSaved.toInt ∨ ovr = true) → s.nodes.length ≤ 0xFFFE →
      s.input.length < 2 ^ 64 → s.tree? s.rootRef = some T → (∃ x ∈ symbolsOf s.cfg.sw s.input ++ [2 ^ s.cfg.sw], s.pt[x]? = some none) →
      s.pt.length = 2 ^ s.cfg.sw + 1 →
      ∃ t : State, exec (.compress ovr) s = .next (takeFault .noPath t) ∧ s.olog <+: t.olog ∧ t.dstate = .planned ∧
        t.nodes = s.nodes ∧ t.rootRef = s.rootRef ∧ t.pt = s.pt ∧ t.freq = s.freq)

/-- spec/45_driver.md R218: PLAN and then COMPRESS that is not refused, port IN unchanged: the bits sent are as many as
BitsAfter of the planned format, and BITS_WRITTEN is their number. -/
def Obligations.CompressedSizeIsBitsAfter : Prop :=
  ∀ (s p : State) (fmt : HeaderFormat) (ovr : Bool) (T : CodeTree), s.cfg.valid = true → s.hostQuiet = true →
    s.dstate = .clean → s.nodes = [] → s.queue = [] → s.input.length < 2 ^ 64 →
    (∀ n ∈ countsOf s.cfg s.input, n < 2 ^ s.cfg.iw) → exec (.plan fmt) s = .next p → (0 < p.bitsSaved.toInt ∨ ovr = true) →
    huffTree s.cfg (countsOf s.cfg s.input) = some T →
    ∃ t : State, exec (.compress ovr) p = .next t ∧ t.outcome = .ok ∧
      t.olog = p.olog ++ streamOf s.cfg fmt (countsOf s.cfg s.input) T (symbolsOf s.cfg.sw s.input) ∧
      t.olog.length = p.olog.length + afterOf s.cfg fmt (countsOf s.cfg s.input) T ∧
      t.bitsWritten = BitVec.ofNat 64 (afterOf s.cfg fmt (countsOf s.cfg s.input) T)

/-- spec/45_driver.md R220 with spec/30_encoding.md R102, R105: DECOMPRESS on a stream with the tree-shape header. -/
def Obligations.DecompressTreeShapeStream : Prop :=
  ∀ (s : State) (T : CodeTree) (syms : List Nat) (rest : List Bit), s.cfg.valid = true → s.hostQuiet = true →
    s.dstate = .clean → s.nodes.length + T.size ≤ s.cfg.ncap → (∀ x ∈ T.symbols, x ≤ 2 ^ s.cfg.sw) →
    (∀ x ∈ syms, x < 2 ^ s.cfg.sw ∧ x ∈ T.symbols) → 2 ^ s.cfg.sw ∈ T.symbols →
    s.input = streamOf s.cfg .tree [] T syms ++ rest → s.input.length < 2 ^ 64 →
    exec .decompress s = .next { s with
      ipos := BitVec.ofNat 64 (streamOf s.cfg .tree [] T syms).length
      nodes := s.nodes ++ T.pool s.cfg s.nodes.length false
      rootRef := BitVec.ofNat 16 s.nodes.length
      olog := s.olog ++ symbolBits s.cfg.sw syms
      bitsWritten := BitVec.ofNat 64 (s.cfg.sw * syms.length)
      cursor := none
      decoded := 0
      dstate := .used
      outcome := .ok
      busy := false }

/-- spec/45_driver.md R220 with spec/41_tree_build.md R143: DECOMPRESS on a stream with the flat-table header: the tree of the
counts in the header decodes the payload. -/
def Obligations.DecompressFlatTableStream : Prop :=
  ∀ (s : State) (cs : List Nat) (T : CodeTree) (syms : List Nat) (rest : List Bit), s.cfg.valid = true → s.hostQuiet = true →
    s.dstate = .clean → s.nodes = [] → s.queue = [] → s.freq.length = 2 ^ s.cfg.sw + 1 → cs.length = 2 ^ s.cfg.sw →
    (∀ n ∈ cs, n < 2 ^ s.cfg.iw) → huffTree s.cfg (cs ++ [1]) = some T →
    (∀ x ∈ syms, x < 2 ^ s.cfg.sw ∧ x ∈ T.symbols) →
    s.input = streamOf s.cfg .counts (cs ++ [1]) T syms ++ rest → s.input.length < 2 ^ 64 →
    ∃ t : State, exec .decompress s = .next t ∧ t.tree? t.rootRef = some T ∧
      t = { s with
        ipos := BitVec.ofNat 64 (streamOf s.cfg .counts (cs ++ [1]) T syms).length
        nodes := t.nodes
        rootRef := t.rootRef
        freq := cs ++ [1]
        olog := s.olog ++ symbolBits s.cfg.sw syms
        bitsWritten := BitVec.ofNat 64 (s.cfg.sw * syms.length)
        cursor := none
        decoded := 0
        dstate := .used
        outcome := .ok
        busy := false }

/-- spec/45_driver.md R221: a wrong or short magic number is an outcome, not a fault, and nothing is sent. -/
def Obligations.WrongMagicIsReported : Prop :=
  ∀ s : State, s.hostQuiet = true → s.dstate = .clean →
    (s.input.length < s.cfg.iw → exec .decompress s = .next { s with
      ipos := 0
      bitsWritten := 0
      dstate := .used
      outcome := .badMagic
      busy := false }) ∧
    (s.cfg.iw ≤ s.input.length → ofBits (s.input.take s.cfg.iw) ≠ s.cfg.magic → exec .decompress s = .next { s with
      ipos := BitVec.ofNat 64 s.cfg.iw
      bitsWritten := 0
      dstate := .used
      outcome := .badMagic
      busy := false })

/-- spec/45_driver.md R220 with spec/43_serialize.md R172: where DECOMPRESS faults before its payload, ReadTree included, and the
state each fault point leaves. Inside a tree-shape header it faults exactly as T_RECREATE does from the same position. -/
def Obligations.DecompressHeaderFaults : Prop :=
  ∀ (s : State) (rest : List Bit), s.cfg.valid = true → s.hostQuiet = true →
    (s.dstate ≠ .clean → exec .decompress s = .next (takeFault .notClean s)) ∧
    (s.dstate = .clean → s.input = toBits s.cfg.iw s.cfg.magic ++ rest → rest.length < s.cfg.iw →
      exec .decompress s = .next (takeFault .inputExhausted { s with ipos := BitVec.ofNat 64 s.cfg.iw })) ∧
    (∀ sel : Nat, s.dstate = .clean → sel < 2 ^ s.cfg.iw → sel ≠ s.cfg.selCounts → sel ≠ s.cfg.selTree →
      s.input = toBits s.cfg.iw s.cfg.magic ++ toBits s.cfg.iw sel ++ rest →
      exec .decompress s = .next (takeFault .badFormat { s with ipos := BitVec.ofNat 64 (2 * s.cfg.iw) })) ∧
    (s.dstate = .clean → s.input = toBits s.cfg.iw s.cfg.magic ++ toBits s.cfg.iw s.cfg.selTree ++ rest →
      rest.length < s.cfg.iw →
      exec .decompress s = .next (takeFault .inputExhausted { s with ipos := BitVec.ofNat 64 (2 * s.cfg.iw) })) ∧
    (s.dstate = .clean → s.input = toBits s.cfg.iw s.cfg.magic ++ toBits s.cfg.iw s.cfg.selCounts ++ rest →
      rest.length < 2 ^ s.cfg.sw * s.cfg.iw →
      ∃ t : State, exec .decompress s = .next (takeFault .inputExhausted t) ∧ t.olog = s.olog ∧ t.nodes = s.nodes ∧
        t.rootRef = s.rootRef ∧ t.dstate = .clean ∧ t.pos = (2 + rest.length / s.cfg.iw) * s.cfg.iw) ∧
    (∀ (size : Nat) (f : FaultCode) (t : State), s.dstate = .clean → size < 2 ^ s.cfg.iw →
      s.input = toBits s.cfg.iw s.cfg.magic ++ toBits s.cfg.iw s.cfg.selTree ++ toBits s.cfg.iw size ++ rest →
      exec .tRecreate { s with ipos := BitVec.ofNat 64 (3 * s.cfg.iw) } = .next (takeFault f t) →
      exec .decompress s = .next (takeFault f t)) ∧
    (∀ (T : CodeTree) (size k : Nat), s.dstate = .clean → s.nodes.length + T.size ≤ s.cfg.ncap →
      (∀ x ∈ T.symbols, x ≤ 2 ^ s.cfg.sw) → size < 2 ^ s.cfg.iw → k < T.bits s.cfg.sw →
      s.input = toBits s.cfg.iw s.cfg.magic ++ toBits s.cfg.iw s.cfg.selTree ++ toBits s.cfg.iw size ++
        (T.enc s.cfg.sw).take k →
      ∃ t : State, exec .decompress s = .next (takeFault .inputExhausted t) ∧ t.rootRef = s.rootRef ∧
        s.nodes <+: t.nodes ∧ t.olog = s.olog ∧ t.dstate = .clean ∧
        t.pos ≤ 3 * s.cfg.iw + k ∧ 3 * s.cfg.iw + k ≤ t.pos + s.cfg.sw) ∧
    (∀ (T : CodeTree) (size : Nat), s.dstate = .clean → s.nodes.length + T.size ≤ s.cfg.ncap →
      (∃ x ∈ T.symbols, 2 ^ s.cfg.sw < x) → (∀ x ∈ T.symbols, x < 2 ^ (s.cfg.sw + 1)) → size < 2 ^ s.cfg.iw →
      s.input = toBits s.cfg.iw s.cfg.magic ++ toBits s.cfg.iw s.cfg.selTree ++ toBits s.cfg.iw size ++ T.enc s.cfg.sw ++ rest →
      ∃ t : State, exec .decompress s = .next (takeFault .badSymbol t) ∧ t.rootRef = s.rootRef ∧
        s.nodes <+: t.nodes ∧ t.olog = s.olog ∧ t.dstate = .clean) ∧
    (∀ (T : CodeTree) (size : Nat), s.dstate = .clean → s.nodes.length ≤ s.cfg.ncap →
      s.cfg.ncap < s.nodes.length + T.size → (∀ x ∈ T.symbols, x ≤ 2 ^ s.cfg.sw) → size < 2 ^ s.cfg.iw →
      s.input = toBits s.cfg.iw s.cfg.magic ++ toBits s.cfg.iw s.cfg.selTree ++ toBits s.cfg.iw size ++ T.enc s.cfg.sw ++ rest →
      ∃ t : State, exec .decompress s = .next (takeFault .poolFull t) ∧ t.rootRef = s.rootRef ∧
        s.nodes <+: t.nodes ∧ t.nodes.length = s.cfg.ncap ∧ t.olog = s.olog ∧ t.dstate = .clean) ∧
    (∀ (T : CodeTree) (size : Nat), s.dstate = .clean → s.nodes.length + T.size ≤ s.cfg.ncap →
      (∀ x ∈ T.symbols, x ≤ 2 ^ s.cfg.sw) → size < 2 ^ s.cfg.iw → size ≠ T.bits s.cfg.sw →
      s.input = toBits s.cfg.iw s.cfg.magic ++ toBits s.cfg.iw s.cfg.selTree ++ toBits s.cfg.iw size ++ T.enc s.cfg.sw ++ rest →
      exec .decompress s = .next (takeFault .treeSizeMismatch { s with
        ipos := BitVec.ofNat 64 (3 * s.cfg.iw + T.bits s.cfg.sw)
        nodes := s.nodes ++ T.pool s.cfg s.nodes.length false
        rootRef := BitVec.ofNat 16 s.nodes.length }))

/-- spec/45_driver.md R220 with spec/44_decode.md R190, R192: DECOMPRESS whose stream ends in the payload, with either header:
INPUT_EXHAUSTED at the end of port IN, the symbols before it staying in OLOG. On a freshly reset core it never raises NULL_CHILD,
since the trees it builds have both children everywhere (spec/10_state.md R53). -/
def Obligations.DecompressPayloadFaults : Prop :=
  ∀ (s : State) (l r : CodeTree) (syms : List Nat) (x k : Nat) (q : List Bit), s.cfg.valid = true → s.hostQuiet = true →
    s.dstate = .clean → s.input.length < 2 ^ 64 →
    ((∀ y ∈ syms, y < 2 ^ s.cfg.sw ∧ y ∈ (CodeTree.node l r).symbols) → (CodeTree.node l r).path x = some q → k < q.length →
      (s.nodes.length + (CodeTree.node l r).size ≤ s.cfg.ncap → (∀ y ∈ (CodeTree.node l r).symbols, y ≤ 2 ^ s.cfg.sw) →
        s.input = toBits s.cfg.iw s.cfg.magic ++ toBits s.cfg.iw s.cfg.selTree ++
          toBits s.cfg.iw ((CodeTree.node l r).bits s.cfg.sw) ++ (CodeTree.node l r).enc s.cfg.sw ++
          codesOf (.node l r) syms ++ q.take k →
        exec .decompress s = .next (takeFault .inputExhausted { s with
          ipos := BitVec.ofNat 64 s.input.length
          nodes := s.nodes ++ (CodeTree.node l r).pool s.cfg s.nodes.length false
          rootRef := BitVec.ofNat 16 s.nodes.length
          olog := s.olog ++ symbolBits s.cfg.sw syms })) ∧
      (∀ cs : List Nat, s.nodes = [] → s.queue = [] → s.freq.length = 2 ^ s.cfg.sw + 1 → cs.length = 2 ^ s.cfg.sw →
        (∀ n ∈ cs, n < 2 ^ s.cfg.iw) → huffTree s.cfg (cs ++ [1]) = some (.node l r) →
        s.input = toBits s.cfg.iw s.cfg.magic ++ toBits s.cfg.iw s.cfg.selCounts ++ cs.flatMap (fun n => toBits s.cfg.iw n) ++
          codesOf (.node l r) syms ++ q.take k →
        ∃ t : State, exec .decompress s = .next (takeFault .inputExhausted t) ∧ t.tree? t.rootRef = some (.node l r) ∧
          t = { s with
            ipos := BitVec.ofNat 64 s.input.length
            nodes := t.nodes
            rootRef := t.rootRef
            freq := cs ++ [1]
            olog := s.olog ++ symbolBits s.cfg.sw syms })) ∧
    (∀ t : State, s.nodes = [] → s.queue = [] → exec .decompress s = .next t → s.fault = none → t.fault ≠ some .nullChild)

/-- spec/45_driver.md R220 with spec/44_decode.md R193: DECOMPRESS of a stream whose tree is a single leaf of a natural symbol
never ends: however many steps the core makes, BUSY stays 1, no bit behind the header is consumed, and at least one symbol is
sent in each. -/
def Obligations.DegenerateDecompressNeverEnds : Prop :=
  ∀ (s : State) (sym : Nat) (rest : List Bit), s.cfg.valid = true → s.busy = true → s.hostQuiet = true → s.dstate = .clean →
    s.nodes.length < s.cfg.ncap → sym < 2 ^ s.cfg.sw →
    s.input = toBits s.cfg.iw s.cfg.magic ++ toBits s.cfg.iw s.cfg.selTree ++ toBits s.cfg.iw (s.cfg.sw + 2) ++
      (CodeTree.leaf sym).enc s.cfg.sw ++ rest →
    ∃ t : State, exec .decompress s = .next t ∧ t.busy = true ∧ t.tree? t.rootRef = some (.leaf sym) ∧
      ∀ n : Nat, ∃ u : State, Host.Core.run core n t = .next u ∧ u.busy = true ∧ u.fault = s.fault ∧
        u.pos = 3 * s.cfg.iw + s.cfg.sw + 2 ∧
        ∃ m : Nat, n < m ∧ u.olog = s.olog ++ symbolBits s.cfg.sw (List.replicate m sym)

/-- spec/45_driver.md R223: the round trip. On a freshly reset core, with either header: PLAN, COMPRESS.OVR, SOFT_RESET, port IN
presenting the bits COMPRESS sent and any padding, DECOMPRESS: it ends with OUTCOME = OK and has sent exactly the input. -/
def Obligations.RoundTripReturnsTheInput : Prop :=
  ∀ (s : State) (fmt : HeaderFormat), s.cfg.valid = true → s.busy = false → s.fault = none → s.dstate = .clean →
    s.nodes = [] → s.queue = [] → s.input.length < 2 ^ 64 → s.input.length % s.cfg.sw = 0 →
    (∀ n ∈ countsOf s.cfg s.input, n < 2 ^ s.cfg.iw) →
    ∃ sent : List Bit, ∀ (pad : List Bit) (start : State), (sent ++ pad).length < 2 ^ 64 →
      start = { s with host :=
        [cmdWrite s.cfg (encode (.plan fmt)), cmdWrite s.cfg (encode (.compress true)), cmdWrite s.cfg (encode .softReset),
          ⟨none, .attach (sent ++ pad)⟩, cmdWrite s.cfg (encode .decompress)] } →
      ∃ c t : State,
        Host.Core.run core 2 start = .next c ∧ c.busy = false ∧ c.fault = none ∧ c.outcome = .ok ∧
        c.olog = s.olog ++ sent ∧
        Host.Core.run core 5 start = .next t ∧ t.busy = false ∧ t.fault = none ∧ t.outcome = .ok ∧
        t.olog = s.olog ++ sent ++ s.input

/-- spec/45_driver.md R224: FREQ_READ. -/
def Obligations.FreqReadGivesTheCount : Prop :=
  ∀ (s : State) (n : Nat), s.hostQuiet = true →
    (2 ^ s.cfg.sw < s.larg0.toNat % 2 ^ 16 → exec .freqRead s = .next (takeFault .badSymbol s)) ∧
    (s.larg0.toNat % 2 ^ 16 ≤ 2 ^ s.cfg.sw → s.freq[s.larg0.toNat % 2 ^ 16]? = some n →
      exec .freqRead s = .next { s with res0 := BitVec.ofNat 32 n, outcome := .ok, busy := false })

/-- spec/45_driver.md R225: IN_REWIND. -/
def Obligations.InRewindRestartsPortIn : Prop :=
  ∀ s : State, s.hostQuiet = true →
    exec .inRewind s = .next { s with ipos := 0, dstate := .used, outcome := .ok, busy := false }
end

