-- ==== Sys2Proof/Laws/State.lean ====
section
/-!
SUPPORT. What each update of State does to each field: one lemma per field and update, so that no later proof unfolds a record
update. The last block says the same of taking a fault and of reset.
-/

namespace Sys2Proof.Machine

variable (s : State)

/-- NEXT is how many records are allocated: the one spelling later proofs use. -/
@[simp] theorem State.next_eq : s.next = s.nodes.length := rfl

/-- IPOS as a number: the one spelling later proofs use. -/
@[simp] theorem State.pos_eq : s.pos = s.ipos.toNat := rfl

@[simp] theorem State.setIpos_cfg (n : Nat) : (s.setIpos n).cfg = s.cfg := rfl
@[simp] theorem State.setIpos_busy (n : Nat) : (s.setIpos n).busy = s.busy := rfl
@[simp] theorem State.setIpos_fault (n : Nat) : (s.setIpos n).fault = s.fault := rfl
@[simp] theorem State.setIpos_outcome (n : Nat) : (s.setIpos n).outcome = s.outcome := rfl
@[simp] theorem State.setIpos_dstate (n : Nat) : (s.setIpos n).dstate = s.dstate := rfl
@[simp] theorem State.setIpos_pfmt (n : Nat) : (s.setIpos n).pfmt = s.pfmt := rfl
@[simp] theorem State.setIpos_arg0 (n : Nat) : (s.setIpos n).arg0 = s.arg0 := rfl
@[simp] theorem State.setIpos_arg1 (n : Nat) : (s.setIpos n).arg1 = s.arg1 := rfl
@[simp] theorem State.setIpos_res0 (n : Nat) : (s.setIpos n).res0 = s.res0 := rfl
@[simp] theorem State.setIpos_res1 (n : Nat) : (s.setIpos n).res1 = s.res1 := rfl
@[simp] theorem State.setIpos_res2 (n : Nat) : (s.setIpos n).res2 = s.res2 := rfl
@[simp] theorem State.setIpos_res3 (n : Nat) : (s.setIpos n).res3 = s.res3 := rfl
@[simp] theorem State.setIpos_bitsSaved (n : Nat) : (s.setIpos n).bitsSaved = s.bitsSaved := rfl
@[simp] theorem State.setIpos_bitsWritten (n : Nat) : (s.setIpos n).bitsWritten = s.bitsWritten := rfl
@[simp] theorem State.setIpos_nodes (n : Nat) : (s.setIpos n).nodes = s.nodes := rfl
@[simp] theorem State.setIpos_queue (n : Nat) : (s.setIpos n).queue = s.queue := rfl
@[simp] theorem State.setIpos_pt (n : Nat) : (s.setIpos n).pt = s.pt := rfl
@[simp] theorem State.setIpos_freq (n : Nat) : (s.setIpos n).freq = s.freq := rfl
@[simp] theorem State.setIpos_rootRef (n : Nat) : (s.setIpos n).rootRef = s.rootRef := rfl
@[simp] theorem State.setIpos_lcmd (n : Nat) : (s.setIpos n).lcmd = s.lcmd := rfl
@[simp] theorem State.setIpos_larg0 (n : Nat) : (s.setIpos n).larg0 = s.larg0 := rfl
@[simp] theorem State.setIpos_larg1 (n : Nat) : (s.setIpos n).larg1 = s.larg1 := rfl
@[simp] theorem State.setIpos_ipos (n : Nat) : (s.setIpos n).ipos = BitVec.ofNat 64 n := rfl
@[simp] theorem State.setIpos_cursor (n : Nat) : (s.setIpos n).cursor = s.cursor := rfl
@[simp] theorem State.setIpos_decoded (n : Nat) : (s.setIpos n).decoded = s.decoded := rfl
@[simp] theorem State.setIpos_stack (n : Nat) : (s.setIpos n).stack = s.stack := rfl
@[simp] theorem State.setIpos_input (n : Nat) : (s.setIpos n).input = s.input := rfl
@[simp] theorem State.setIpos_olog (n : Nat) : (s.setIpos n).olog = s.olog := rfl
@[simp] theorem State.setIpos_host (n : Nat) : (s.setIpos n).host = s.host := rfl
@[simp] theorem State.setIpos_seen (n : Nat) : (s.setIpos n).seen = s.seen := rfl
@[simp] theorem State.setIpos_draws (n : Nat) : (s.setIpos n).draws = s.draws := rfl
@[simp] theorem State.setIpos_hostQuiet (n : Nat) : (s.setIpos n).hostQuiet = s.hostQuiet := rfl

@[simp] theorem State.send_cfg (bits : List Bit) : (s.send bits).cfg = s.cfg := rfl
@[simp] theorem State.send_busy (bits : List Bit) : (s.send bits).busy = s.busy := rfl
@[simp] theorem State.send_fault (bits : List Bit) : (s.send bits).fault = s.fault := rfl
@[simp] theorem State.send_outcome (bits : List Bit) : (s.send bits).outcome = s.outcome := rfl
@[simp] theorem State.send_dstate (bits : List Bit) : (s.send bits).dstate = s.dstate := rfl
@[simp] theorem State.send_pfmt (bits : List Bit) : (s.send bits).pfmt = s.pfmt := rfl
@[simp] theorem State.send_arg0 (bits : List Bit) : (s.send bits).arg0 = s.arg0 := rfl
@[simp] theorem State.send_arg1 (bits : List Bit) : (s.send bits).arg1 = s.arg1 := rfl
@[simp] theorem State.send_res0 (bits : List Bit) : (s.send bits).res0 = s.res0 := rfl
@[simp] theorem State.send_res1 (bits : List Bit) : (s.send bits).res1 = s.res1 := rfl
@[simp] theorem State.send_res2 (bits : List Bit) : (s.send bits).res2 = s.res2 := rfl
@[simp] theorem State.send_res3 (bits : List Bit) : (s.send bits).res3 = s.res3 := rfl
@[simp] theorem State.send_bitsSaved (bits : List Bit) : (s.send bits).bitsSaved = s.bitsSaved := rfl
@[simp] theorem State.send_bitsWritten (bits : List Bit) : (s.send bits).bitsWritten = s.bitsWritten := rfl
@[simp] theorem State.send_nodes (bits : List Bit) : (s.send bits).nodes = s.nodes := rfl
@[simp] theorem State.send_queue (bits : List Bit) : (s.send bits).queue = s.queue := rfl
@[simp] theorem State.send_pt (bits : List Bit) : (s.send bits).pt = s.pt := rfl
@[simp] theorem State.send_freq (bits : List Bit) : (s.send bits).freq = s.freq := rfl
@[simp] theorem State.send_rootRef (bits : List Bit) : (s.send bits).rootRef = s.rootRef := rfl
@[simp] theorem State.send_lcmd (bits : List Bit) : (s.send bits).lcmd = s.lcmd := rfl
@[simp] theorem State.send_larg0 (bits : List Bit) : (s.send bits).larg0 = s.larg0 := rfl
@[simp] theorem State.send_larg1 (bits : List Bit) : (s.send bits).larg1 = s.larg1 := rfl
@[simp] theorem State.send_ipos (bits : List Bit) : (s.send bits).ipos = s.ipos := rfl
@[simp] theorem State.send_cursor (bits : List Bit) : (s.send bits).cursor = s.cursor := rfl
@[simp] theorem State.send_decoded (bits : List Bit) : (s.send bits).decoded = s.decoded := rfl
@[simp] theorem State.send_stack (bits : List Bit) : (s.send bits).stack = s.stack := rfl
@[simp] theorem State.send_input (bits : List Bit) : (s.send bits).input = s.input := rfl
@[simp] theorem State.send_olog (bits : List Bit) : (s.send bits).olog = s.olog ++ bits := rfl
@[simp] theorem State.send_host (bits : List Bit) : (s.send bits).host = s.host := rfl
@[simp] theorem State.send_seen (bits : List Bit) : (s.send bits).seen = s.seen := rfl
@[simp] theorem State.send_draws (bits : List Bit) : (s.send bits).draws = s.draws := rfl
@[simp] theorem State.send_hostQuiet (bits : List Bit) : (s.send bits).hostQuiet = s.hostQuiet := rfl

@[simp] theorem State.setNodes_cfg (ns : List NodeRec) : (s.setNodes ns).cfg = s.cfg := rfl
@[simp] theorem State.setNodes_busy (ns : List NodeRec) : (s.setNodes ns).busy = s.busy := rfl
@[simp] theorem State.setNodes_fault (ns : List NodeRec) : (s.setNodes ns).fault = s.fault := rfl
@[simp] theorem State.setNodes_outcome (ns : List NodeRec) : (s.setNodes ns).outcome = s.outcome := rfl
@[simp] theorem State.setNodes_dstate (ns : List NodeRec) : (s.setNodes ns).dstate = s.dstate := rfl
@[simp] theorem State.setNodes_pfmt (ns : List NodeRec) : (s.setNodes ns).pfmt = s.pfmt := rfl
@[simp] theorem State.setNodes_arg0 (ns : List NodeRec) : (s.setNodes ns).arg0 = s.arg0 := rfl
@[simp] theorem State.setNodes_arg1 (ns : List NodeRec) : (s.setNodes ns).arg1 = s.arg1 := rfl
@[simp] theorem State.setNodes_res0 (ns : List NodeRec) : (s.setNodes ns).res0 = s.res0 := rfl
@[simp] theorem State.setNodes_res1 (ns : List NodeRec) : (s.setNodes ns).res1 = s.res1 := rfl
@[simp] theorem State.setNodes_res2 (ns : List NodeRec) : (s.setNodes ns).res2 = s.res2 := rfl
@[simp] theorem State.setNodes_res3 (ns : List NodeRec) : (s.setNodes ns).res3 = s.res3 := rfl
@[simp] theorem State.setNodes_bitsSaved (ns : List NodeRec) : (s.setNodes ns).bitsSaved = s.bitsSaved := rfl
@[simp] theorem State.setNodes_bitsWritten (ns : List NodeRec) : (s.setNodes ns).bitsWritten = s.bitsWritten := rfl
@[simp] theorem State.setNodes_nodes (ns : List NodeRec) : (s.setNodes ns).nodes = ns := rfl
@[simp] theorem State.setNodes_queue (ns : List NodeRec) : (s.setNodes ns).queue = s.queue := rfl
@[simp] theorem State.setNodes_pt (ns : List NodeRec) : (s.setNodes ns).pt = s.pt := rfl
@[simp] theorem State.setNodes_freq (ns : List NodeRec) : (s.setNodes ns).freq = s.freq := rfl
@[simp] theorem State.setNodes_rootRef (ns : List NodeRec) : (s.setNodes ns).rootRef = s.rootRef := rfl
@[simp] theorem State.setNodes_lcmd (ns : List NodeRec) : (s.setNodes ns).lcmd = s.lcmd := rfl
@[simp] theorem State.setNodes_larg0 (ns : List NodeRec) : (s.setNodes ns).larg0 = s.larg0 := rfl
@[simp] theorem State.setNodes_larg1 (ns : List NodeRec) : (s.setNodes ns).larg1 = s.larg1 := rfl
@[simp] theorem State.setNodes_ipos (ns : List NodeRec) : (s.setNodes ns).ipos = s.ipos := rfl
@[simp] theorem State.setNodes_cursor (ns : List NodeRec) : (s.setNodes ns).cursor = s.cursor := rfl
@[simp] theorem State.setNodes_decoded (ns : List NodeRec) : (s.setNodes ns).decoded = s.decoded := rfl
@[simp] theorem State.setNodes_stack (ns : List NodeRec) : (s.setNodes ns).stack = s.stack := rfl
@[simp] theorem State.setNodes_input (ns : List NodeRec) : (s.setNodes ns).input = s.input := rfl
@[simp] theorem State.setNodes_olog (ns : List NodeRec) : (s.setNodes ns).olog = s.olog := rfl
@[simp] theorem State.setNodes_host (ns : List NodeRec) : (s.setNodes ns).host = s.host := rfl
@[simp] theorem State.setNodes_seen (ns : List NodeRec) : (s.setNodes ns).seen = s.seen := rfl
@[simp] theorem State.setNodes_draws (ns : List NodeRec) : (s.setNodes ns).draws = s.draws := rfl
@[simp] theorem State.setNodes_hostQuiet (ns : List NodeRec) : (s.setNodes ns).hostQuiet = s.hostQuiet := rfl

@[simp] theorem State.setQueue_cfg (q : List NodeRef) : (s.setQueue q).cfg = s.cfg := rfl
@[simp] theorem State.setQueue_busy (q : List NodeRef) : (s.setQueue q).busy = s.busy := rfl
@[simp] theorem State.setQueue_fault (q : List NodeRef) : (s.setQueue q).fault = s.fault := rfl
@[simp] theorem State.setQueue_outcome (q : List NodeRef) : (s.setQueue q).outcome = s.outcome := rfl
@[simp] theorem State.setQueue_dstate (q : List NodeRef) : (s.setQueue q).dstate = s.dstate := rfl
@[simp] theorem State.setQueue_pfmt (q : List NodeRef) : (s.setQueue q).pfmt = s.pfmt := rfl
@[simp] theorem State.setQueue_arg0 (q : List NodeRef) : (s.setQueue q).arg0 = s.arg0 := rfl
@[simp] theorem State.setQueue_arg1 (q : List NodeRef) : (s.setQueue q).arg1 = s.arg1 := rfl
@[simp] theorem State.setQueue_res0 (q : List NodeRef) : (s.setQueue q).res0 = s.res0 := rfl
@[simp] theorem State.setQueue_res1 (q : List NodeRef) : (s.setQueue q).res1 = s.res1 := rfl
@[simp] theorem State.setQueue_res2 (q : List NodeRef) : (s.setQueue q).res2 = s.res2 := rfl
@[simp] theorem State.setQueue_res3 (q : List NodeRef) : (s.setQueue q).res3 = s.res3 := rfl
@[simp] theorem State.setQueue_bitsSaved (q : List NodeRef) : (s.setQueue q).bitsSaved = s.bitsSaved := rfl
@[simp] theorem State.setQueue_bitsWritten (q : List NodeRef) : (s.setQueue q).bitsWritten = s.bitsWritten := rfl
@[simp] theorem State.setQueue_nodes (q : List NodeRef) : (s.setQueue q).nodes = s.nodes := rfl
@[simp] theorem State.setQueue_queue (q : List NodeRef) : (s.setQueue q).queue = q := rfl
@[simp] theorem State.setQueue_pt (q : List NodeRef) : (s.setQueue q).pt = s.pt := rfl
@[simp] theorem State.setQueue_freq (q : List NodeRef) : (s.setQueue q).freq = s.freq := rfl
@[simp] theorem State.setQueue_rootRef (q : List NodeRef) : (s.setQueue q).rootRef = s.rootRef := rfl
@[simp] theorem State.setQueue_lcmd (q : List NodeRef) : (s.setQueue q).lcmd = s.lcmd := rfl
@[simp] theorem State.setQueue_larg0 (q : List NodeRef) : (s.setQueue q).larg0 = s.larg0 := rfl
@[simp] theorem State.setQueue_larg1 (q : List NodeRef) : (s.setQueue q).larg1 = s.larg1 := rfl
@[simp] theorem State.setQueue_ipos (q : List NodeRef) : (s.setQueue q).ipos = s.ipos := rfl
@[simp] theorem State.setQueue_cursor (q : List NodeRef) : (s.setQueue q).cursor = s.cursor := rfl
@[simp] theorem State.setQueue_decoded (q : List NodeRef) : (s.setQueue q).decoded = s.decoded := rfl
@[simp] theorem State.setQueue_stack (q : List NodeRef) : (s.setQueue q).stack = s.stack := rfl
@[simp] theorem State.setQueue_input (q : List NodeRef) : (s.setQueue q).input = s.input := rfl
@[simp] theorem State.setQueue_olog (q : List NodeRef) : (s.setQueue q).olog = s.olog := rfl
@[simp] theorem State.setQueue_host (q : List NodeRef) : (s.setQueue q).host = s.host := rfl
@[simp] theorem State.setQueue_seen (q : List NodeRef) : (s.setQueue q).seen = s.seen := rfl
@[simp] theorem State.setQueue_draws (q : List NodeRef) : (s.setQueue q).draws = s.draws := rfl
@[simp] theorem State.setQueue_hostQuiet (q : List NodeRef) : (s.setQueue q).hostQuiet = s.hostQuiet := rfl

@[simp] theorem State.setPt_cfg (pt : List (Option (List Bit))) : (s.setPt pt).cfg = s.cfg := rfl
@[simp] theorem State.setPt_busy (pt : List (Option (List Bit))) : (s.setPt pt).busy = s.busy := rfl
@[simp] theorem State.setPt_fault (pt : List (Option (List Bit))) : (s.setPt pt).fault = s.fault := rfl
@[simp] theorem State.setPt_outcome (pt : List (Option (List Bit))) : (s.setPt pt).outcome = s.outcome := rfl
@[simp] theorem State.setPt_dstate (pt : List (Option (List Bit))) : (s.setPt pt).dstate = s.dstate := rfl
@[simp] theorem State.setPt_pfmt (pt : List (Option (List Bit))) : (s.setPt pt).pfmt = s.pfmt := rfl
@[simp] theorem State.setPt_arg0 (pt : List (Option (List Bit))) : (s.setPt pt).arg0 = s.arg0 := rfl
@[simp] theorem State.setPt_arg1 (pt : List (Option (List Bit))) : (s.setPt pt).arg1 = s.arg1 := rfl
@[simp] theorem State.setPt_res0 (pt : List (Option (List Bit))) : (s.setPt pt).res0 = s.res0 := rfl
@[simp] theorem State.setPt_res1 (pt : List (Option (List Bit))) : (s.setPt pt).res1 = s.res1 := rfl
@[simp] theorem State.setPt_res2 (pt : List (Option (List Bit))) : (s.setPt pt).res2 = s.res2 := rfl
@[simp] theorem State.setPt_res3 (pt : List (Option (List Bit))) : (s.setPt pt).res3 = s.res3 := rfl
@[simp] theorem State.setPt_bitsSaved (pt : List (Option (List Bit))) : (s.setPt pt).bitsSaved = s.bitsSaved := rfl
@[simp] theorem State.setPt_bitsWritten (pt : List (Option (List Bit))) : (s.setPt pt).bitsWritten = s.bitsWritten := rfl
@[simp] theorem State.setPt_nodes (pt : List (Option (List Bit))) : (s.setPt pt).nodes = s.nodes := rfl
@[simp] theorem State.setPt_queue (pt : List (Option (List Bit))) : (s.setPt pt).queue = s.queue := rfl
@[simp] theorem State.setPt_pt (pt : List (Option (List Bit))) : (s.setPt pt).pt = pt := rfl
@[simp] theorem State.setPt_freq (pt : List (Option (List Bit))) : (s.setPt pt).freq = s.freq := rfl
@[simp] theorem State.setPt_rootRef (pt : List (Option (List Bit))) : (s.setPt pt).rootRef = s.rootRef := rfl
@[simp] theorem State.setPt_lcmd (pt : List (Option (List Bit))) : (s.setPt pt).lcmd = s.lcmd := rfl
@[simp] theorem State.setPt_larg0 (pt : List (Option (List Bit))) : (s.setPt pt).larg0 = s.larg0 := rfl
@[simp] theorem State.setPt_larg1 (pt : List (Option (List Bit))) : (s.setPt pt).larg1 = s.larg1 := rfl
@[simp] theorem State.setPt_ipos (pt : List (Option (List Bit))) : (s.setPt pt).ipos = s.ipos := rfl
@[simp] theorem State.setPt_cursor (pt : List (Option (List Bit))) : (s.setPt pt).cursor = s.cursor := rfl
@[simp] theorem State.setPt_decoded (pt : List (Option (List Bit))) : (s.setPt pt).decoded = s.decoded := rfl
@[simp] theorem State.setPt_stack (pt : List (Option (List Bit))) : (s.setPt pt).stack = s.stack := rfl
@[simp] theorem State.setPt_input (pt : List (Option (List Bit))) : (s.setPt pt).input = s.input := rfl
@[simp] theorem State.setPt_olog (pt : List (Option (List Bit))) : (s.setPt pt).olog = s.olog := rfl
@[simp] theorem State.setPt_host (pt : List (Option (List Bit))) : (s.setPt pt).host = s.host := rfl
@[simp] theorem State.setPt_seen (pt : List (Option (List Bit))) : (s.setPt pt).seen = s.seen := rfl
@[simp] theorem State.setPt_draws (pt : List (Option (List Bit))) : (s.setPt pt).draws = s.draws := rfl
@[simp] theorem State.setPt_hostQuiet (pt : List (Option (List Bit))) : (s.setPt pt).hostQuiet = s.hostQuiet := rfl

@[simp] theorem State.setFreq_cfg (f : List Nat) : (s.setFreq f).cfg = s.cfg := rfl
@[simp] theorem State.setFreq_busy (f : List Nat) : (s.setFreq f).busy = s.busy := rfl
@[simp] theorem State.setFreq_fault (f : List Nat) : (s.setFreq f).fault = s.fault := rfl
@[simp] theorem State.setFreq_outcome (f : List Nat) : (s.setFreq f).outcome = s.outcome := rfl
@[simp] theorem State.setFreq_dstate (f : List Nat) : (s.setFreq f).dstate = s.dstate := rfl
@[simp] theorem State.setFreq_pfmt (f : List Nat) : (s.setFreq f).pfmt = s.pfmt := rfl
@[simp] theorem State.setFreq_arg0 (f : List Nat) : (s.setFreq f).arg0 = s.arg0 := rfl
@[simp] theorem State.setFreq_arg1 (f : List Nat) : (s.setFreq f).arg1 = s.arg1 := rfl
@[simp] theorem State.setFreq_res0 (f : List Nat) : (s.setFreq f).res0 = s.res0 := rfl
@[simp] theorem State.setFreq_res1 (f : List Nat) : (s.setFreq f).res1 = s.res1 := rfl
@[simp] theorem State.setFreq_res2 (f : List Nat) : (s.setFreq f).res2 = s.res2 := rfl
@[simp] theorem State.setFreq_res3 (f : List Nat) : (s.setFreq f).res3 = s.res3 := rfl
@[simp] theorem State.setFreq_bitsSaved (f : List Nat) : (s.setFreq f).bitsSaved = s.bitsSaved := rfl
@[simp] theorem State.setFreq_bitsWritten (f : List Nat) : (s.setFreq f).bitsWritten = s.bitsWritten := rfl
@[simp] theorem State.setFreq_nodes (f : List Nat) : (s.setFreq f).nodes = s.nodes := rfl
@[simp] theorem State.setFreq_queue (f : List Nat) : (s.setFreq f).queue = s.queue := rfl
@[simp] theorem State.setFreq_pt (f : List Nat) : (s.setFreq f).pt = s.pt := rfl
@[simp] theorem State.setFreq_freq (f : List Nat) : (s.setFreq f).freq = f := rfl
@[simp] theorem State.setFreq_rootRef (f : List Nat) : (s.setFreq f).rootRef = s.rootRef := rfl
@[simp] theorem State.setFreq_lcmd (f : List Nat) : (s.setFreq f).lcmd = s.lcmd := rfl
@[simp] theorem State.setFreq_larg0 (f : List Nat) : (s.setFreq f).larg0 = s.larg0 := rfl
@[simp] theorem State.setFreq_larg1 (f : List Nat) : (s.setFreq f).larg1 = s.larg1 := rfl
@[simp] theorem State.setFreq_ipos (f : List Nat) : (s.setFreq f).ipos = s.ipos := rfl
@[simp] theorem State.setFreq_cursor (f : List Nat) : (s.setFreq f).cursor = s.cursor := rfl
@[simp] theorem State.setFreq_decoded (f : List Nat) : (s.setFreq f).decoded = s.decoded := rfl
@[simp] theorem State.setFreq_stack (f : List Nat) : (s.setFreq f).stack = s.stack := rfl
@[simp] theorem State.setFreq_input (f : List Nat) : (s.setFreq f).input = s.input := rfl
@[simp] theorem State.setFreq_olog (f : List Nat) : (s.setFreq f).olog = s.olog := rfl
@[simp] theorem State.setFreq_host (f : List Nat) : (s.setFreq f).host = s.host := rfl
@[simp] theorem State.setFreq_seen (f : List Nat) : (s.setFreq f).seen = s.seen := rfl
@[simp] theorem State.setFreq_draws (f : List Nat) : (s.setFreq f).draws = s.draws := rfl
@[simp] theorem State.setFreq_hostQuiet (f : List Nat) : (s.setFreq f).hostQuiet = s.hostQuiet := rfl

@[simp] theorem State.setRoot_cfg (r : NodeRef) : (s.setRoot r).cfg = s.cfg := rfl
@[simp] theorem State.setRoot_busy (r : NodeRef) : (s.setRoot r).busy = s.busy := rfl
@[simp] theorem State.setRoot_fault (r : NodeRef) : (s.setRoot r).fault = s.fault := rfl
@[simp] theorem State.setRoot_outcome (r : NodeRef) : (s.setRoot r).outcome = s.outcome := rfl
@[simp] theorem State.setRoot_dstate (r : NodeRef) : (s.setRoot r).dstate = s.dstate := rfl
@[simp] theorem State.setRoot_pfmt (r : NodeRef) : (s.setRoot r).pfmt = s.pfmt := rfl
@[simp] theorem State.setRoot_arg0 (r : NodeRef) : (s.setRoot r).arg0 = s.arg0 := rfl
@[simp] theorem State.setRoot_arg1 (r : NodeRef) : (s.setRoot r).arg1 = s.arg1 := rfl
@[simp] theorem State.setRoot_res0 (r : NodeRef) : (s.setRoot r).res0 = s.res0 := rfl
@[simp] theorem State.setRoot_res1 (r : NodeRef) : (s.setRoot r).res1 = s.res1 := rfl
@[simp] theorem State.setRoot_res2 (r : NodeRef) : (s.setRoot r).res2 = s.res2 := rfl
@[simp] theorem State.setRoot_res3 (r : NodeRef) : (s.setRoot r).res3 = s.res3 := rfl
@[simp] theorem State.setRoot_bitsSaved (r : NodeRef) : (s.setRoot r).bitsSaved = s.bitsSaved := rfl
@[simp] theorem State.setRoot_bitsWritten (r : NodeRef) : (s.setRoot r).bitsWritten = s.bitsWritten := rfl
@[simp] theorem State.setRoot_nodes (r : NodeRef) : (s.setRoot r).nodes = s.nodes := rfl
@[simp] theorem State.setRoot_queue (r : NodeRef) : (s.setRoot r).queue = s.queue := rfl
@[simp] theorem State.setRoot_pt (r : NodeRef) : (s.setRoot r).pt = s.pt := rfl
@[simp] theorem State.setRoot_freq (r : NodeRef) : (s.setRoot r).freq = s.freq := rfl
@[simp] theorem State.setRoot_rootRef (r : NodeRef) : (s.setRoot r).rootRef = r := rfl
@[simp] theorem State.setRoot_lcmd (r : NodeRef) : (s.setRoot r).lcmd = s.lcmd := rfl
@[simp] theorem State.setRoot_larg0 (r : NodeRef) : (s.setRoot r).larg0 = s.larg0 := rfl
@[simp] theorem State.setRoot_larg1 (r : NodeRef) : (s.setRoot r).larg1 = s.larg1 := rfl
@[simp] theorem State.setRoot_ipos (r : NodeRef) : (s.setRoot r).ipos = s.ipos := rfl
@[simp] theorem State.setRoot_cursor (r : NodeRef) : (s.setRoot r).cursor = s.cursor := rfl
@[simp] theorem State.setRoot_decoded (r : NodeRef) : (s.setRoot r).decoded = s.decoded := rfl
@[simp] theorem State.setRoot_stack (r : NodeRef) : (s.setRoot r).stack = s.stack := rfl
@[simp] theorem State.setRoot_input (r : NodeRef) : (s.setRoot r).input = s.input := rfl
@[simp] theorem State.setRoot_olog (r : NodeRef) : (s.setRoot r).olog = s.olog := rfl
@[simp] theorem State.setRoot_host (r : NodeRef) : (s.setRoot r).host = s.host := rfl
@[simp] theorem State.setRoot_seen (r : NodeRef) : (s.setRoot r).seen = s.seen := rfl
@[simp] theorem State.setRoot_draws (r : NodeRef) : (s.setRoot r).draws = s.draws := rfl
@[simp] theorem State.setRoot_hostQuiet (r : NodeRef) : (s.setRoot r).hostQuiet = s.hostQuiet := rfl

@[simp] theorem State.setRes0_cfg (v : Word) : (s.setRes0 v).cfg = s.cfg := rfl
@[simp] theorem State.setRes0_busy (v : Word) : (s.setRes0 v).busy = s.busy := rfl
@[simp] theorem State.setRes0_fault (v : Word) : (s.setRes0 v).fault = s.fault := rfl
@[simp] theorem State.setRes0_outcome (v : Word) : (s.setRes0 v).outcome = s.outcome := rfl
@[simp] theorem State.setRes0_dstate (v : Word) : (s.setRes0 v).dstate = s.dstate := rfl
@[simp] theorem State.setRes0_pfmt (v : Word) : (s.setRes0 v).pfmt = s.pfmt := rfl
@[simp] theorem State.setRes0_arg0 (v : Word) : (s.setRes0 v).arg0 = s.arg0 := rfl
@[simp] theorem State.setRes0_arg1 (v : Word) : (s.setRes0 v).arg1 = s.arg1 := rfl
@[simp] theorem State.setRes0_res0 (v : Word) : (s.setRes0 v).res0 = v := rfl
@[simp] theorem State.setRes0_res1 (v : Word) : (s.setRes0 v).res1 = s.res1 := rfl
@[simp] theorem State.setRes0_res2 (v : Word) : (s.setRes0 v).res2 = s.res2 := rfl
@[simp] theorem State.setRes0_res3 (v : Word) : (s.setRes0 v).res3 = s.res3 := rfl
@[simp] theorem State.setRes0_bitsSaved (v : Word) : (s.setRes0 v).bitsSaved = s.bitsSaved := rfl
@[simp] theorem State.setRes0_bitsWritten (v : Word) : (s.setRes0 v).bitsWritten = s.bitsWritten := rfl
@[simp] theorem State.setRes0_nodes (v : Word) : (s.setRes0 v).nodes = s.nodes := rfl
@[simp] theorem State.setRes0_queue (v : Word) : (s.setRes0 v).queue = s.queue := rfl
@[simp] theorem State.setRes0_pt (v : Word) : (s.setRes0 v).pt = s.pt := rfl
@[simp] theorem State.setRes0_freq (v : Word) : (s.setRes0 v).freq = s.freq := rfl
@[simp] theorem State.setRes0_rootRef (v : Word) : (s.setRes0 v).rootRef = s.rootRef := rfl
@[simp] theorem State.setRes0_lcmd (v : Word) : (s.setRes0 v).lcmd = s.lcmd := rfl
@[simp] theorem State.setRes0_larg0 (v : Word) : (s.setRes0 v).larg0 = s.larg0 := rfl
@[simp] theorem State.setRes0_larg1 (v : Word) : (s.setRes0 v).larg1 = s.larg1 := rfl
@[simp] theorem State.setRes0_ipos (v : Word) : (s.setRes0 v).ipos = s.ipos := rfl
@[simp] theorem State.setRes0_cursor (v : Word) : (s.setRes0 v).cursor = s.cursor := rfl
@[simp] theorem State.setRes0_decoded (v : Word) : (s.setRes0 v).decoded = s.decoded := rfl
@[simp] theorem State.setRes0_stack (v : Word) : (s.setRes0 v).stack = s.stack := rfl
@[simp] theorem State.setRes0_input (v : Word) : (s.setRes0 v).input = s.input := rfl
@[simp] theorem State.setRes0_olog (v : Word) : (s.setRes0 v).olog = s.olog := rfl
@[simp] theorem State.setRes0_host (v : Word) : (s.setRes0 v).host = s.host := rfl
@[simp] theorem State.setRes0_seen (v : Word) : (s.setRes0 v).seen = s.seen := rfl
@[simp] theorem State.setRes0_draws (v : Word) : (s.setRes0 v).draws = s.draws := rfl
@[simp] theorem State.setRes0_hostQuiet (v : Word) : (s.setRes0 v).hostQuiet = s.hostQuiet := rfl

@[simp] theorem State.setRes1_cfg (v : Word) : (s.setRes1 v).cfg = s.cfg := rfl
@[simp] theorem State.setRes1_busy (v : Word) : (s.setRes1 v).busy = s.busy := rfl
@[simp] theorem State.setRes1_fault (v : Word) : (s.setRes1 v).fault = s.fault := rfl
@[simp] theorem State.setRes1_outcome (v : Word) : (s.setRes1 v).outcome = s.outcome := rfl
@[simp] theorem State.setRes1_dstate (v : Word) : (s.setRes1 v).dstate = s.dstate := rfl
@[simp] theorem State.setRes1_pfmt (v : Word) : (s.setRes1 v).pfmt = s.pfmt := rfl
@[simp] theorem State.setRes1_arg0 (v : Word) : (s.setRes1 v).arg0 = s.arg0 := rfl
@[simp] theorem State.setRes1_arg1 (v : Word) : (s.setRes1 v).arg1 = s.arg1 := rfl
@[simp] theorem State.setRes1_res0 (v : Word) : (s.setRes1 v).res0 = s.res0 := rfl
@[simp] theorem State.setRes1_res1 (v : Word) : (s.setRes1 v).res1 = v := rfl
@[simp] theorem State.setRes1_res2 (v : Word) : (s.setRes1 v).res2 = s.res2 := rfl
@[simp] theorem State.setRes1_res3 (v : Word) : (s.setRes1 v).res3 = s.res3 := rfl
@[simp] theorem State.setRes1_bitsSaved (v : Word) : (s.setRes1 v).bitsSaved = s.bitsSaved := rfl
@[simp] theorem State.setRes1_bitsWritten (v : Word) : (s.setRes1 v).bitsWritten = s.bitsWritten := rfl
@[simp] theorem State.setRes1_nodes (v : Word) : (s.setRes1 v).nodes = s.nodes := rfl
@[simp] theorem State.setRes1_queue (v : Word) : (s.setRes1 v).queue = s.queue := rfl
@[simp] theorem State.setRes1_pt (v : Word) : (s.setRes1 v).pt = s.pt := rfl
@[simp] theorem State.setRes1_freq (v : Word) : (s.setRes1 v).freq = s.freq := rfl
@[simp] theorem State.setRes1_rootRef (v : Word) : (s.setRes1 v).rootRef = s.rootRef := rfl
@[simp] theorem State.setRes1_lcmd (v : Word) : (s.setRes1 v).lcmd = s.lcmd := rfl
@[simp] theorem State.setRes1_larg0 (v : Word) : (s.setRes1 v).larg0 = s.larg0 := rfl
@[simp] theorem State.setRes1_larg1 (v : Word) : (s.setRes1 v).larg1 = s.larg1 := rfl
@[simp] theorem State.setRes1_ipos (v : Word) : (s.setRes1 v).ipos = s.ipos := rfl
@[simp] theorem State.setRes1_cursor (v : Word) : (s.setRes1 v).cursor = s.cursor := rfl
@[simp] theorem State.setRes1_decoded (v : Word) : (s.setRes1 v).decoded = s.decoded := rfl
@[simp] theorem State.setRes1_stack (v : Word) : (s.setRes1 v).stack = s.stack := rfl
@[simp] theorem State.setRes1_input (v : Word) : (s.setRes1 v).input = s.input := rfl
@[simp] theorem State.setRes1_olog (v : Word) : (s.setRes1 v).olog = s.olog := rfl
@[simp] theorem State.setRes1_host (v : Word) : (s.setRes1 v).host = s.host := rfl
@[simp] theorem State.setRes1_seen (v : Word) : (s.setRes1 v).seen = s.seen := rfl
@[simp] theorem State.setRes1_draws (v : Word) : (s.setRes1 v).draws = s.draws := rfl
@[simp] theorem State.setRes1_hostQuiet (v : Word) : (s.setRes1 v).hostQuiet = s.hostQuiet := rfl

@[simp] theorem State.setRes2_cfg (v : Word) : (s.setRes2 v).cfg = s.cfg := rfl
@[simp] theorem State.setRes2_busy (v : Word) : (s.setRes2 v).busy = s.busy := rfl
@[simp] theorem State.setRes2_fault (v : Word) : (s.setRes2 v).fault = s.fault := rfl
@[simp] theorem State.setRes2_outcome (v : Word) : (s.setRes2 v).outcome = s.outcome := rfl
@[simp] theorem State.setRes2_dstate (v : Word) : (s.setRes2 v).dstate = s.dstate := rfl
@[simp] theorem State.setRes2_pfmt (v : Word) : (s.setRes2 v).pfmt = s.pfmt := rfl
@[simp] theorem State.setRes2_arg0 (v : Word) : (s.setRes2 v).arg0 = s.arg0 := rfl
@[simp] theorem State.setRes2_arg1 (v : Word) : (s.setRes2 v).arg1 = s.arg1 := rfl
@[simp] theorem State.setRes2_res0 (v : Word) : (s.setRes2 v).res0 = s.res0 := rfl
@[simp] theorem State.setRes2_res1 (v : Word) : (s.setRes2 v).res1 = s.res1 := rfl
@[simp] theorem State.setRes2_res2 (v : Word) : (s.setRes2 v).res2 = v := rfl
@[simp] theorem State.setRes2_res3 (v : Word) : (s.setRes2 v).res3 = s.res3 := rfl
@[simp] theorem State.setRes2_bitsSaved (v : Word) : (s.setRes2 v).bitsSaved = s.bitsSaved := rfl
@[simp] theorem State.setRes2_bitsWritten (v : Word) : (s.setRes2 v).bitsWritten = s.bitsWritten := rfl
@[simp] theorem State.setRes2_nodes (v : Word) : (s.setRes2 v).nodes = s.nodes := rfl
@[simp] theorem State.setRes2_queue (v : Word) : (s.setRes2 v).queue = s.queue := rfl
@[simp] theorem State.setRes2_pt (v : Word) : (s.setRes2 v).pt = s.pt := rfl
@[simp] theorem State.setRes2_freq (v : Word) : (s.setRes2 v).freq = s.freq := rfl
@[simp] theorem State.setRes2_rootRef (v : Word) : (s.setRes2 v).rootRef = s.rootRef := rfl
@[simp] theorem State.setRes2_lcmd (v : Word) : (s.setRes2 v).lcmd = s.lcmd := rfl
@[simp] theorem State.setRes2_larg0 (v : Word) : (s.setRes2 v).larg0 = s.larg0 := rfl
@[simp] theorem State.setRes2_larg1 (v : Word) : (s.setRes2 v).larg1 = s.larg1 := rfl
@[simp] theorem State.setRes2_ipos (v : Word) : (s.setRes2 v).ipos = s.ipos := rfl
@[simp] theorem State.setRes2_cursor (v : Word) : (s.setRes2 v).cursor = s.cursor := rfl
@[simp] theorem State.setRes2_decoded (v : Word) : (s.setRes2 v).decoded = s.decoded := rfl
@[simp] theorem State.setRes2_stack (v : Word) : (s.setRes2 v).stack = s.stack := rfl
@[simp] theorem State.setRes2_input (v : Word) : (s.setRes2 v).input = s.input := rfl
@[simp] theorem State.setRes2_olog (v : Word) : (s.setRes2 v).olog = s.olog := rfl
@[simp] theorem State.setRes2_host (v : Word) : (s.setRes2 v).host = s.host := rfl
@[simp] theorem State.setRes2_seen (v : Word) : (s.setRes2 v).seen = s.seen := rfl
@[simp] theorem State.setRes2_draws (v : Word) : (s.setRes2 v).draws = s.draws := rfl
@[simp] theorem State.setRes2_hostQuiet (v : Word) : (s.setRes2 v).hostQuiet = s.hostQuiet := rfl

@[simp] theorem State.setRes3_cfg (v : Word) : (s.setRes3 v).cfg = s.cfg := rfl
@[simp] theorem State.setRes3_busy (v : Word) : (s.setRes3 v).busy = s.busy := rfl
@[simp] theorem State.setRes3_fault (v : Word) : (s.setRes3 v).fault = s.fault := rfl
@[simp] theorem State.setRes3_outcome (v : Word) : (s.setRes3 v).outcome = s.outcome := rfl
@[simp] theorem State.setRes3_dstate (v : Word) : (s.setRes3 v).dstate = s.dstate := rfl
@[simp] theorem State.setRes3_pfmt (v : Word) : (s.setRes3 v).pfmt = s.pfmt := rfl
@[simp] theorem State.setRes3_arg0 (v : Word) : (s.setRes3 v).arg0 = s.arg0 := rfl
@[simp] theorem State.setRes3_arg1 (v : Word) : (s.setRes3 v).arg1 = s.arg1 := rfl
@[simp] theorem State.setRes3_res0 (v : Word) : (s.setRes3 v).res0 = s.res0 := rfl
@[simp] theorem State.setRes3_res1 (v : Word) : (s.setRes3 v).res1 = s.res1 := rfl
@[simp] theorem State.setRes3_res2 (v : Word) : (s.setRes3 v).res2 = s.res2 := rfl
@[simp] theorem State.setRes3_res3 (v : Word) : (s.setRes3 v).res3 = v := rfl
@[simp] theorem State.setRes3_bitsSaved (v : Word) : (s.setRes3 v).bitsSaved = s.bitsSaved := rfl
@[simp] theorem State.setRes3_bitsWritten (v : Word) : (s.setRes3 v).bitsWritten = s.bitsWritten := rfl
@[simp] theorem State.setRes3_nodes (v : Word) : (s.setRes3 v).nodes = s.nodes := rfl
@[simp] theorem State.setRes3_queue (v : Word) : (s.setRes3 v).queue = s.queue := rfl
@[simp] theorem State.setRes3_pt (v : Word) : (s.setRes3 v).pt = s.pt := rfl
@[simp] theorem State.setRes3_freq (v : Word) : (s.setRes3 v).freq = s.freq := rfl
@[simp] theorem State.setRes3_rootRef (v : Word) : (s.setRes3 v).rootRef = s.rootRef := rfl
@[simp] theorem State.setRes3_lcmd (v : Word) : (s.setRes3 v).lcmd = s.lcmd := rfl
@[simp] theorem State.setRes3_larg0 (v : Word) : (s.setRes3 v).larg0 = s.larg0 := rfl
@[simp] theorem State.setRes3_larg1 (v : Word) : (s.setRes3 v).larg1 = s.larg1 := rfl
@[simp] theorem State.setRes3_ipos (v : Word) : (s.setRes3 v).ipos = s.ipos := rfl
@[simp] theorem State.setRes3_cursor (v : Word) : (s.setRes3 v).cursor = s.cursor := rfl
@[simp] theorem State.setRes3_decoded (v : Word) : (s.setRes3 v).decoded = s.decoded := rfl
@[simp] theorem State.setRes3_stack (v : Word) : (s.setRes3 v).stack = s.stack := rfl
@[simp] theorem State.setRes3_input (v : Word) : (s.setRes3 v).input = s.input := rfl
@[simp] theorem State.setRes3_olog (v : Word) : (s.setRes3 v).olog = s.olog := rfl
@[simp] theorem State.setRes3_host (v : Word) : (s.setRes3 v).host = s.host := rfl
@[simp] theorem State.setRes3_seen (v : Word) : (s.setRes3 v).seen = s.seen := rfl
@[simp] theorem State.setRes3_draws (v : Word) : (s.setRes3 v).draws = s.draws := rfl
@[simp] theorem State.setRes3_hostQuiet (v : Word) : (s.setRes3 v).hostQuiet = s.hostQuiet := rfl

@[simp] theorem State.setBitsSaved_cfg (v : DWord) : (s.setBitsSaved v).cfg = s.cfg := rfl
@[simp] theorem State.setBitsSaved_busy (v : DWord) : (s.setBitsSaved v).busy = s.busy := rfl
@[simp] theorem State.setBitsSaved_fault (v : DWord) : (s.setBitsSaved v).fault = s.fault := rfl
@[simp] theorem State.setBitsSaved_outcome (v : DWord) : (s.setBitsSaved v).outcome = s.outcome := rfl
@[simp] theorem State.setBitsSaved_dstate (v : DWord) : (s.setBitsSaved v).dstate = s.dstate := rfl
@[simp] theorem State.setBitsSaved_pfmt (v : DWord) : (s.setBitsSaved v).pfmt = s.pfmt := rfl
@[simp] theorem State.setBitsSaved_arg0 (v : DWord) : (s.setBitsSaved v).arg0 = s.arg0 := rfl
@[simp] theorem State.setBitsSaved_arg1 (v : DWord) : (s.setBitsSaved v).arg1 = s.arg1 := rfl
@[simp] theorem State.setBitsSaved_res0 (v : DWord) : (s.setBitsSaved v).res0 = s.res0 := rfl
@[simp] theorem State.setBitsSaved_res1 (v : DWord) : (s.setBitsSaved v).res1 = s.res1 := rfl
@[simp] theorem State.setBitsSaved_res2 (v : DWord) : (s.setBitsSaved v).res2 = s.res2 := rfl
@[simp] theorem State.setBitsSaved_res3 (v : DWord) : (s.setBitsSaved v).res3 = s.res3 := rfl
@[simp] theorem State.setBitsSaved_bitsSaved (v : DWord) : (s.setBitsSaved v).bitsSaved = v := rfl
@[simp] theorem State.setBitsSaved_bitsWritten (v : DWord) : (s.setBitsSaved v).bitsWritten = s.bitsWritten := rfl
@[simp] theorem State.setBitsSaved_nodes (v : DWord) : (s.setBitsSaved v).nodes = s.nodes := rfl
@[simp] theorem State.setBitsSaved_queue (v : DWord) : (s.setBitsSaved v).queue = s.queue := rfl
@[simp] theorem State.setBitsSaved_pt (v : DWord) : (s.setBitsSaved v).pt = s.pt := rfl
@[simp] theorem State.setBitsSaved_freq (v : DWord) : (s.setBitsSaved v).freq = s.freq := rfl
@[simp] theorem State.setBitsSaved_rootRef (v : DWord) : (s.setBitsSaved v).rootRef = s.rootRef := rfl
@[simp] theorem State.setBitsSaved_lcmd (v : DWord) : (s.setBitsSaved v).lcmd = s.lcmd := rfl
@[simp] theorem State.setBitsSaved_larg0 (v : DWord) : (s.setBitsSaved v).larg0 = s.larg0 := rfl
@[simp] theorem State.setBitsSaved_larg1 (v : DWord) : (s.setBitsSaved v).larg1 = s.larg1 := rfl
@[simp] theorem State.setBitsSaved_ipos (v : DWord) : (s.setBitsSaved v).ipos = s.ipos := rfl
@[simp] theorem State.setBitsSaved_cursor (v : DWord) : (s.setBitsSaved v).cursor = s.cursor := rfl
@[simp] theorem State.setBitsSaved_decoded (v : DWord) : (s.setBitsSaved v).decoded = s.decoded := rfl
@[simp] theorem State.setBitsSaved_stack (v : DWord) : (s.setBitsSaved v).stack = s.stack := rfl
@[simp] theorem State.setBitsSaved_input (v : DWord) : (s.setBitsSaved v).input = s.input := rfl
@[simp] theorem State.setBitsSaved_olog (v : DWord) : (s.setBitsSaved v).olog = s.olog := rfl
@[simp] theorem State.setBitsSaved_host (v : DWord) : (s.setBitsSaved v).host = s.host := rfl
@[simp] theorem State.setBitsSaved_seen (v : DWord) : (s.setBitsSaved v).seen = s.seen := rfl
@[simp] theorem State.setBitsSaved_draws (v : DWord) : (s.setBitsSaved v).draws = s.draws := rfl
@[simp] theorem State.setBitsSaved_hostQuiet (v : DWord) : (s.setBitsSaved v).hostQuiet = s.hostQuiet := rfl

@[simp] theorem State.setBitsWritten_cfg (v : DWord) : (s.setBitsWritten v).cfg = s.cfg := rfl
@[simp] theorem State.setBitsWritten_busy (v : DWord) : (s.setBitsWritten v).busy = s.busy := rfl
@[simp] theorem State.setBitsWritten_fault (v : DWord) : (s.setBitsWritten v).fault = s.fault := rfl
@[simp] theorem State.setBitsWritten_outcome (v : DWord) : (s.setBitsWritten v).outcome = s.outcome := rfl
@[simp] theorem State.setBitsWritten_dstate (v : DWord) : (s.setBitsWritten v).dstate = s.dstate := rfl
@[simp] theorem State.setBitsWritten_pfmt (v : DWord) : (s.setBitsWritten v).pfmt = s.pfmt := rfl
@[simp] theorem State.setBitsWritten_arg0 (v : DWord) : (s.setBitsWritten v).arg0 = s.arg0 := rfl
@[simp] theorem State.setBitsWritten_arg1 (v : DWord) : (s.setBitsWritten v).arg1 = s.arg1 := rfl
@[simp] theorem State.setBitsWritten_res0 (v : DWord) : (s.setBitsWritten v).res0 = s.res0 := rfl
@[simp] theorem State.setBitsWritten_res1 (v : DWord) : (s.setBitsWritten v).res1 = s.res1 := rfl
@[simp] theorem State.setBitsWritten_res2 (v : DWord) : (s.setBitsWritten v).res2 = s.res2 := rfl
@[simp] theorem State.setBitsWritten_res3 (v : DWord) : (s.setBitsWritten v).res3 = s.res3 := rfl
@[simp] theorem State.setBitsWritten_bitsSaved (v : DWord) : (s.setBitsWritten v).bitsSaved = s.bitsSaved := rfl
@[simp] theorem State.setBitsWritten_bitsWritten (v : DWord) : (s.setBitsWritten v).bitsWritten = v := rfl
@[simp] theorem State.setBitsWritten_nodes (v : DWord) : (s.setBitsWritten v).nodes = s.nodes := rfl
@[simp] theorem State.setBitsWritten_queue (v : DWord) : (s.setBitsWritten v).queue = s.queue := rfl
@[simp] theorem State.setBitsWritten_pt (v : DWord) : (s.setBitsWritten v).pt = s.pt := rfl
@[simp] theorem State.setBitsWritten_freq (v : DWord) : (s.setBitsWritten v).freq = s.freq := rfl
@[simp] theorem State.setBitsWritten_rootRef (v : DWord) : (s.setBitsWritten v).rootRef = s.rootRef := rfl
@[simp] theorem State.setBitsWritten_lcmd (v : DWord) : (s.setBitsWritten v).lcmd = s.lcmd := rfl
@[simp] theorem State.setBitsWritten_larg0 (v : DWord) : (s.setBitsWritten v).larg0 = s.larg0 := rfl
@[simp] theorem State.setBitsWritten_larg1 (v : DWord) : (s.setBitsWritten v).larg1 = s.larg1 := rfl
@[simp] theorem State.setBitsWritten_ipos (v : DWord) : (s.setBitsWritten v).ipos = s.ipos := rfl
@[simp] theorem State.setBitsWritten_cursor (v : DWord) : (s.setBitsWritten v).cursor = s.cursor := rfl
@[simp] theorem State.setBitsWritten_decoded (v : DWord) : (s.setBitsWritten v).decoded = s.decoded := rfl
@[simp] theorem State.setBitsWritten_stack (v : DWord) : (s.setBitsWritten v).stack = s.stack := rfl
@[simp] theorem State.setBitsWritten_input (v : DWord) : (s.setBitsWritten v).input = s.input := rfl
@[simp] theorem State.setBitsWritten_olog (v : DWord) : (s.setBitsWritten v).olog = s.olog := rfl
@[simp] theorem State.setBitsWritten_host (v : DWord) : (s.setBitsWritten v).host = s.host := rfl
@[simp] theorem State.setBitsWritten_seen (v : DWord) : (s.setBitsWritten v).seen = s.seen := rfl
@[simp] theorem State.setBitsWritten_draws (v : DWord) : (s.setBitsWritten v).draws = s.draws := rfl
@[simp] theorem State.setBitsWritten_hostQuiet (v : DWord) : (s.setBitsWritten v).hostQuiet = s.hostQuiet := rfl

@[simp] theorem State.setDecode_cfg (c : Option NodeRef) (m : Nat) : (s.setDecode c m).cfg = s.cfg := rfl
@[simp] theorem State.setDecode_busy (c : Option NodeRef) (m : Nat) : (s.setDecode c m).busy = s.busy := rfl
@[simp] theorem State.setDecode_fault (c : Option NodeRef) (m : Nat) : (s.setDecode c m).fault = s.fault := rfl
@[simp] theorem State.setDecode_outcome (c : Option NodeRef) (m : Nat) : (s.setDecode c m).outcome = s.outcome := rfl
@[simp] theorem State.setDecode_dstate (c : Option NodeRef) (m : Nat) : (s.setDecode c m).dstate = s.dstate := rfl
@[simp] theorem State.setDecode_pfmt (c : Option NodeRef) (m : Nat) : (s.setDecode c m).pfmt = s.pfmt := rfl
@[simp] theorem State.setDecode_arg0 (c : Option NodeRef) (m : Nat) : (s.setDecode c m).arg0 = s.arg0 := rfl
@[simp] theorem State.setDecode_arg1 (c : Option NodeRef) (m : Nat) : (s.setDecode c m).arg1 = s.arg1 := rfl
@[simp] theorem State.setDecode_res0 (c : Option NodeRef) (m : Nat) : (s.setDecode c m).res0 = s.res0 := rfl
@[simp] theorem State.setDecode_res1 (c : Option NodeRef) (m : Nat) : (s.setDecode c m).res1 = s.res1 := rfl
@[simp] theorem State.setDecode_res2 (c : Option NodeRef) (m : Nat) : (s.setDecode c m).res2 = s.res2 := rfl
@[simp] theorem State.setDecode_res3 (c : Option NodeRef) (m : Nat) : (s.setDecode c m).res3 = s.res3 := rfl
@[simp] theorem State.setDecode_bitsSaved (c : Option NodeRef) (m : Nat) : (s.setDecode c m).bitsSaved = s.bitsSaved := rfl
@[simp] theorem State.setDecode_bitsWritten (c : Option NodeRef) (m : Nat) : (s.setDecode c m).bitsWritten = s.bitsWritten := rfl
@[simp] theorem State.setDecode_nodes (c : Option NodeRef) (m : Nat) : (s.setDecode c m).nodes = s.nodes := rfl
@[simp] theorem State.setDecode_queue (c : Option NodeRef) (m : Nat) : (s.setDecode c m).queue = s.queue := rfl
@[simp] theorem State.setDecode_pt (c : Option NodeRef) (m : Nat) : (s.setDecode c m).pt = s.pt := rfl
@[simp] theorem State.setDecode_freq (c : Option NodeRef) (m : Nat) : (s.setDecode c m).freq = s.freq := rfl
@[simp] theorem State.setDecode_rootRef (c : Option NodeRef) (m : Nat) : (s.setDecode c m).rootRef = s.rootRef := rfl
@[simp] theorem State.setDecode_lcmd (c : Option NodeRef) (m : Nat) : (s.setDecode c m).lcmd = s.lcmd := rfl
@[simp] theorem State.setDecode_larg0 (c : Option NodeRef) (m : Nat) : (s.setDecode c m).larg0 = s.larg0 := rfl
@[simp] theorem State.setDecode_larg1 (c : Option NodeRef) (m : Nat) : (s.setDecode c m).larg1 = s.larg1 := rfl
@[simp] theorem State.setDecode_ipos (c : Option NodeRef) (m : Nat) : (s.setDecode c m).ipos = s.ipos := rfl
@[simp] theorem State.setDecode_cursor (c : Option NodeRef) (m : Nat) : (s.setDecode c m).cursor = c := rfl
@[simp] theorem State.setDecode_decoded (c : Option NodeRef) (m : Nat) : (s.setDecode c m).decoded = m := rfl
@[simp] theorem State.setDecode_stack (c : Option NodeRef) (m : Nat) : (s.setDecode c m).stack = s.stack := rfl
@[simp] theorem State.setDecode_input (c : Option NodeRef) (m : Nat) : (s.setDecode c m).input = s.input := rfl
@[simp] theorem State.setDecode_olog (c : Option NodeRef) (m : Nat) : (s.setDecode c m).olog = s.olog := rfl
@[simp] theorem State.setDecode_host (c : Option NodeRef) (m : Nat) : (s.setDecode c m).host = s.host := rfl
@[simp] theorem State.setDecode_seen (c : Option NodeRef) (m : Nat) : (s.setDecode c m).seen = s.seen := rfl
@[simp] theorem State.setDecode_draws (c : Option NodeRef) (m : Nat) : (s.setDecode c m).draws = s.draws := rfl
@[simp] theorem State.setDecode_hostQuiet (c : Option NodeRef) (m : Nat) : (s.setDecode c m).hostQuiet = s.hostQuiet := rfl

@[simp] theorem State.setStack_cfg (st : List (NodeRef × AwaitSide)) : (s.setStack st).cfg = s.cfg := rfl
@[simp] theorem State.setStack_busy (st : List (NodeRef × AwaitSide)) : (s.setStack st).busy = s.busy := rfl
@[simp] theorem State.setStack_fault (st : List (NodeRef × AwaitSide)) : (s.setStack st).fault = s.fault := rfl
@[simp] theorem State.setStack_outcome (st : List (NodeRef × AwaitSide)) : (s.setStack st).outcome = s.outcome := rfl
@[simp] theorem State.setStack_dstate (st : List (NodeRef × AwaitSide)) : (s.setStack st).dstate = s.dstate := rfl
@[simp] theorem State.setStack_pfmt (st : List (NodeRef × AwaitSide)) : (s.setStack st).pfmt = s.pfmt := rfl
@[simp] theorem State.setStack_arg0 (st : List (NodeRef × AwaitSide)) : (s.setStack st).arg0 = s.arg0 := rfl
@[simp] theorem State.setStack_arg1 (st : List (NodeRef × AwaitSide)) : (s.setStack st).arg1 = s.arg1 := rfl
@[simp] theorem State.setStack_res0 (st : List (NodeRef × AwaitSide)) : (s.setStack st).res0 = s.res0 := rfl
@[simp] theorem State.setStack_res1 (st : List (NodeRef × AwaitSide)) : (s.setStack st).res1 = s.res1 := rfl
@[simp] theorem State.setStack_res2 (st : List (NodeRef × AwaitSide)) : (s.setStack st).res2 = s.res2 := rfl
@[simp] theorem State.setStack_res3 (st : List (NodeRef × AwaitSide)) : (s.setStack st).res3 = s.res3 := rfl
@[simp] theorem State.setStack_bitsSaved (st : List (NodeRef × AwaitSide)) : (s.setStack st).bitsSaved = s.bitsSaved := rfl
@[simp] theorem State.setStack_bitsWritten (st : List (NodeRef × AwaitSide)) : (s.setStack st).bitsWritten = s.bitsWritten := rfl
@[simp] theorem State.setStack_nodes (st : List (NodeRef × AwaitSide)) : (s.setStack st).nodes = s.nodes := rfl
@[simp] theorem State.setStack_queue (st : List (NodeRef × AwaitSide)) : (s.setStack st).queue = s.queue := rfl
@[simp] theorem State.setStack_pt (st : List (NodeRef × AwaitSide)) : (s.setStack st).pt = s.pt := rfl
@[simp] theorem State.setStack_freq (st : List (NodeRef × AwaitSide)) : (s.setStack st).freq = s.freq := rfl
@[simp] theorem State.setStack_rootRef (st : List (NodeRef × AwaitSide)) : (s.setStack st).rootRef = s.rootRef := rfl
@[simp] theorem State.setStack_lcmd (st : List (NodeRef × AwaitSide)) : (s.setStack st).lcmd = s.lcmd := rfl
@[simp] theorem State.setStack_larg0 (st : List (NodeRef × AwaitSide)) : (s.setStack st).larg0 = s.larg0 := rfl
@[simp] theorem State.setStack_larg1 (st : List (NodeRef × AwaitSide)) : (s.setStack st).larg1 = s.larg1 := rfl
@[simp] theorem State.setStack_ipos (st : List (NodeRef × AwaitSide)) : (s.setStack st).ipos = s.ipos := rfl
@[simp] theorem State.setStack_cursor (st : List (NodeRef × AwaitSide)) : (s.setStack st).cursor = s.cursor := rfl
@[simp] theorem State.setStack_decoded (st : List (NodeRef × AwaitSide)) : (s.setStack st).decoded = s.decoded := rfl
@[simp] theorem State.setStack_stack (st : List (NodeRef × AwaitSide)) : (s.setStack st).stack = st := rfl
@[simp] theorem State.setStack_input (st : List (NodeRef × AwaitSide)) : (s.setStack st).input = s.input := rfl
@[simp] theorem State.setStack_olog (st : List (NodeRef × AwaitSide)) : (s.setStack st).olog = s.olog := rfl
@[simp] theorem State.setStack_host (st : List (NodeRef × AwaitSide)) : (s.setStack st).host = s.host := rfl
@[simp] theorem State.setStack_seen (st : List (NodeRef × AwaitSide)) : (s.setStack st).seen = s.seen := rfl
@[simp] theorem State.setStack_draws (st : List (NodeRef × AwaitSide)) : (s.setStack st).draws = s.draws := rfl
@[simp] theorem State.setStack_hostQuiet (st : List (NodeRef × AwaitSide)) : (s.setStack st).hostQuiet = s.hostQuiet := rfl

@[simp] theorem State.setArg0_cfg (v : Word) : (s.setArg0 v).cfg = s.cfg := rfl
@[simp] theorem State.setArg0_busy (v : Word) : (s.setArg0 v).busy = s.busy := rfl
@[simp] theorem State.setArg0_fault (v : Word) : (s.setArg0 v).fault = s.fault := rfl
@[simp] theorem State.setArg0_outcome (v : Word) : (s.setArg0 v).outcome = s.outcome := rfl
@[simp] theorem State.setArg0_dstate (v : Word) : (s.setArg0 v).dstate = s.dstate := rfl
@[simp] theorem State.setArg0_pfmt (v : Word) : (s.setArg0 v).pfmt = s.pfmt := rfl
@[simp] theorem State.setArg0_arg0 (v : Word) : (s.setArg0 v).arg0 = v := rfl
@[simp] theorem State.setArg0_arg1 (v : Word) : (s.setArg0 v).arg1 = s.arg1 := rfl
@[simp] theorem State.setArg0_res0 (v : Word) : (s.setArg0 v).res0 = s.res0 := rfl
@[simp] theorem State.setArg0_res1 (v : Word) : (s.setArg0 v).res1 = s.res1 := rfl
@[simp] theorem State.setArg0_res2 (v : Word) : (s.setArg0 v).res2 = s.res2 := rfl
@[simp] theorem State.setArg0_res3 (v : Word) : (s.setArg0 v).res3 = s.res3 := rfl
@[simp] theorem State.setArg0_bitsSaved (v : Word) : (s.setArg0 v).bitsSaved = s.bitsSaved := rfl
@[simp] theorem State.setArg0_bitsWritten (v : Word) : (s.setArg0 v).bitsWritten = s.bitsWritten := rfl
@[simp] theorem State.setArg0_nodes (v : Word) : (s.setArg0 v).nodes = s.nodes := rfl
@[simp] theorem State.setArg0_queue (v : Word) : (s.setArg0 v).queue = s.queue := rfl
@[simp] theorem State.setArg0_pt (v : Word) : (s.setArg0 v).pt = s.pt := rfl
@[simp] theorem State.setArg0_freq (v : Word) : (s.setArg0 v).freq = s.freq := rfl
@[simp] theorem State.setArg0_rootRef (v : Word) : (s.setArg0 v).rootRef = s.rootRef := rfl
@[simp] theorem State.setArg0_lcmd (v : Word) : (s.setArg0 v).lcmd = s.lcmd := rfl
@[simp] theorem State.setArg0_larg0 (v : Word) : (s.setArg0 v).larg0 = s.larg0 := rfl
@[simp] theorem State.setArg0_larg1 (v : Word) : (s.setArg0 v).larg1 = s.larg1 := rfl
@[simp] theorem State.setArg0_ipos (v : Word) : (s.setArg0 v).ipos = s.ipos := rfl
@[simp] theorem State.setArg0_cursor (v : Word) : (s.setArg0 v).cursor = s.cursor := rfl
@[simp] theorem State.setArg0_decoded (v : Word) : (s.setArg0 v).decoded = s.decoded := rfl
@[simp] theorem State.setArg0_stack (v : Word) : (s.setArg0 v).stack = s.stack := rfl
@[simp] theorem State.setArg0_input (v : Word) : (s.setArg0 v).input = s.input := rfl
@[simp] theorem State.setArg0_olog (v : Word) : (s.setArg0 v).olog = s.olog := rfl
@[simp] theorem State.setArg0_host (v : Word) : (s.setArg0 v).host = s.host := rfl
@[simp] theorem State.setArg0_seen (v : Word) : (s.setArg0 v).seen = s.seen := rfl
@[simp] theorem State.setArg0_draws (v : Word) : (s.setArg0 v).draws = s.draws := rfl
@[simp] theorem State.setArg0_hostQuiet (v : Word) : (s.setArg0 v).hostQuiet = s.hostQuiet := rfl

@[simp] theorem State.setArg1_cfg (v : Word) : (s.setArg1 v).cfg = s.cfg := rfl
@[simp] theorem State.setArg1_busy (v : Word) : (s.setArg1 v).busy = s.busy := rfl
@[simp] theorem State.setArg1_fault (v : Word) : (s.setArg1 v).fault = s.fault := rfl
@[simp] theorem State.setArg1_outcome (v : Word) : (s.setArg1 v).outcome = s.outcome := rfl
@[simp] theorem State.setArg1_dstate (v : Word) : (s.setArg1 v).dstate = s.dstate := rfl
@[simp] theorem State.setArg1_pfmt (v : Word) : (s.setArg1 v).pfmt = s.pfmt := rfl
@[simp] theorem State.setArg1_arg0 (v : Word) : (s.setArg1 v).arg0 = s.arg0 := rfl
@[simp] theorem State.setArg1_arg1 (v : Word) : (s.setArg1 v).arg1 = v := rfl
@[simp] theorem State.setArg1_res0 (v : Word) : (s.setArg1 v).res0 = s.res0 := rfl
@[simp] theorem State.setArg1_res1 (v : Word) : (s.setArg1 v).res1 = s.res1 := rfl
@[simp] theorem State.setArg1_res2 (v : Word) : (s.setArg1 v).res2 = s.res2 := rfl
@[simp] theorem State.setArg1_res3 (v : Word) : (s.setArg1 v).res3 = s.res3 := rfl
@[simp] theorem State.setArg1_bitsSaved (v : Word) : (s.setArg1 v).bitsSaved = s.bitsSaved := rfl
@[simp] theorem State.setArg1_bitsWritten (v : Word) : (s.setArg1 v).bitsWritten = s.bitsWritten := rfl
@[simp] theorem State.setArg1_nodes (v : Word) : (s.setArg1 v).nodes = s.nodes := rfl
@[simp] theorem State.setArg1_queue (v : Word) : (s.setArg1 v).queue = s.queue := rfl
@[simp] theorem State.setArg1_pt (v : Word) : (s.setArg1 v).pt = s.pt := rfl
@[simp] theorem State.setArg1_freq (v : Word) : (s.setArg1 v).freq = s.freq := rfl
@[simp] theorem State.setArg1_rootRef (v : Word) : (s.setArg1 v).rootRef = s.rootRef := rfl
@[simp] theorem State.setArg1_lcmd (v : Word) : (s.setArg1 v).lcmd = s.lcmd := rfl
@[simp] theorem State.setArg1_larg0 (v : Word) : (s.setArg1 v).larg0 = s.larg0 := rfl
@[simp] theorem State.setArg1_larg1 (v : Word) : (s.setArg1 v).larg1 = s.larg1 := rfl
@[simp] theorem State.setArg1_ipos (v : Word) : (s.setArg1 v).ipos = s.ipos := rfl
@[simp] theorem State.setArg1_cursor (v : Word) : (s.setArg1 v).cursor = s.cursor := rfl
@[simp] theorem State.setArg1_decoded (v : Word) : (s.setArg1 v).decoded = s.decoded := rfl
@[simp] theorem State.setArg1_stack (v : Word) : (s.setArg1 v).stack = s.stack := rfl
@[simp] theorem State.setArg1_input (v : Word) : (s.setArg1 v).input = s.input := rfl
@[simp] theorem State.setArg1_olog (v : Word) : (s.setArg1 v).olog = s.olog := rfl
@[simp] theorem State.setArg1_host (v : Word) : (s.setArg1 v).host = s.host := rfl
@[simp] theorem State.setArg1_seen (v : Word) : (s.setArg1 v).seen = s.seen := rfl
@[simp] theorem State.setArg1_draws (v : Word) : (s.setArg1 v).draws = s.draws := rfl
@[simp] theorem State.setArg1_hostQuiet (v : Word) : (s.setArg1 v).hostQuiet = s.hostQuiet := rfl

@[simp] theorem State.setInput_cfg (bits : List Bit) : (s.setInput bits).cfg = s.cfg := rfl
@[simp] theorem State.setInput_busy (bits : List Bit) : (s.setInput bits).busy = s.busy := rfl
@[simp] theorem State.setInput_fault (bits : List Bit) : (s.setInput bits).fault = s.fault := rfl
@[simp] theorem State.setInput_outcome (bits : List Bit) : (s.setInput bits).outcome = s.outcome := rfl
@[simp] theorem State.setInput_dstate (bits : List Bit) : (s.setInput bits).dstate = s.dstate := rfl
@[simp] theorem State.setInput_pfmt (bits : List Bit) : (s.setInput bits).pfmt = s.pfmt := rfl
@[simp] theorem State.setInput_arg0 (bits : List Bit) : (s.setInput bits).arg0 = s.arg0 := rfl
@[simp] theorem State.setInput_arg1 (bits : List Bit) : (s.setInput bits).arg1 = s.arg1 := rfl
@[simp] theorem State.setInput_res0 (bits : List Bit) : (s.setInput bits).res0 = s.res0 := rfl
@[simp] theorem State.setInput_res1 (bits : List Bit) : (s.setInput bits).res1 = s.res1 := rfl
@[simp] theorem State.setInput_res2 (bits : List Bit) : (s.setInput bits).res2 = s.res2 := rfl
@[simp] theorem State.setInput_res3 (bits : List Bit) : (s.setInput bits).res3 = s.res3 := rfl
@[simp] theorem State.setInput_bitsSaved (bits : List Bit) : (s.setInput bits).bitsSaved = s.bitsSaved := rfl
@[simp] theorem State.setInput_bitsWritten (bits : List Bit) : (s.setInput bits).bitsWritten = s.bitsWritten := rfl
@[simp] theorem State.setInput_nodes (bits : List Bit) : (s.setInput bits).nodes = s.nodes := rfl
@[simp] theorem State.setInput_queue (bits : List Bit) : (s.setInput bits).queue = s.queue := rfl
@[simp] theorem State.setInput_pt (bits : List Bit) : (s.setInput bits).pt = s.pt := rfl
@[simp] theorem State.setInput_freq (bits : List Bit) : (s.setInput bits).freq = s.freq := rfl
@[simp] theorem State.setInput_rootRef (bits : List Bit) : (s.setInput bits).rootRef = s.rootRef := rfl
@[simp] theorem State.setInput_lcmd (bits : List Bit) : (s.setInput bits).lcmd = s.lcmd := rfl
@[simp] theorem State.setInput_larg0 (bits : List Bit) : (s.setInput bits).larg0 = s.larg0 := rfl
@[simp] theorem State.setInput_larg1 (bits : List Bit) : (s.setInput bits).larg1 = s.larg1 := rfl
@[simp] theorem State.setInput_ipos (bits : List Bit) : (s.setInput bits).ipos = s.ipos := rfl
@[simp] theorem State.setInput_cursor (bits : List Bit) : (s.setInput bits).cursor = s.cursor := rfl
@[simp] theorem State.setInput_decoded (bits : List Bit) : (s.setInput bits).decoded = s.decoded := rfl
@[simp] theorem State.setInput_stack (bits : List Bit) : (s.setInput bits).stack = s.stack := rfl
@[simp] theorem State.setInput_input (bits : List Bit) : (s.setInput bits).input = bits := rfl
@[simp] theorem State.setInput_olog (bits : List Bit) : (s.setInput bits).olog = s.olog := rfl
@[simp] theorem State.setInput_host (bits : List Bit) : (s.setInput bits).host = s.host := rfl
@[simp] theorem State.setInput_seen (bits : List Bit) : (s.setInput bits).seen = s.seen := rfl
@[simp] theorem State.setInput_draws (bits : List Bit) : (s.setInput bits).draws = s.draws := rfl
@[simp] theorem State.setInput_hostQuiet (bits : List Bit) : (s.setInput bits).hostQuiet = s.hostQuiet := rfl

@[simp] theorem State.setHost_cfg (h : List HostEvent) : (s.setHost h).cfg = s.cfg := rfl
@[simp] theorem State.setHost_busy (h : List HostEvent) : (s.setHost h).busy = s.busy := rfl
@[simp] theorem State.setHost_fault (h : List HostEvent) : (s.setHost h).fault = s.fault := rfl
@[simp] theorem State.setHost_outcome (h : List HostEvent) : (s.setHost h).outcome = s.outcome := rfl
@[simp] theorem State.setHost_dstate (h : List HostEvent) : (s.setHost h).dstate = s.dstate := rfl
@[simp] theorem State.setHost_pfmt (h : List HostEvent) : (s.setHost h).pfmt = s.pfmt := rfl
@[simp] theorem State.setHost_arg0 (h : List HostEvent) : (s.setHost h).arg0 = s.arg0 := rfl
@[simp] theorem State.setHost_arg1 (h : List HostEvent) : (s.setHost h).arg1 = s.arg1 := rfl
@[simp] theorem State.setHost_res0 (h : List HostEvent) : (s.setHost h).res0 = s.res0 := rfl
@[simp] theorem State.setHost_res1 (h : List HostEvent) : (s.setHost h).res1 = s.res1 := rfl
@[simp] theorem State.setHost_res2 (h : List HostEvent) : (s.setHost h).res2 = s.res2 := rfl
@[simp] theorem State.setHost_res3 (h : List HostEvent) : (s.setHost h).res3 = s.res3 := rfl
@[simp] theorem State.setHost_bitsSaved (h : List HostEvent) : (s.setHost h).bitsSaved = s.bitsSaved := rfl
@[simp] theorem State.setHost_bitsWritten (h : List HostEvent) : (s.setHost h).bitsWritten = s.bitsWritten := rfl
@[simp] theorem State.setHost_nodes (h : List HostEvent) : (s.setHost h).nodes = s.nodes := rfl
@[simp] theorem State.setHost_queue (h : List HostEvent) : (s.setHost h).queue = s.queue := rfl
@[simp] theorem State.setHost_pt (h : List HostEvent) : (s.setHost h).pt = s.pt := rfl
@[simp] theorem State.setHost_freq (h : List HostEvent) : (s.setHost h).freq = s.freq := rfl
@[simp] theorem State.setHost_rootRef (h : List HostEvent) : (s.setHost h).rootRef = s.rootRef := rfl
@[simp] theorem State.setHost_lcmd (h : List HostEvent) : (s.setHost h).lcmd = s.lcmd := rfl
@[simp] theorem State.setHost_larg0 (h : List HostEvent) : (s.setHost h).larg0 = s.larg0 := rfl
@[simp] theorem State.setHost_larg1 (h : List HostEvent) : (s.setHost h).larg1 = s.larg1 := rfl
@[simp] theorem State.setHost_ipos (h : List HostEvent) : (s.setHost h).ipos = s.ipos := rfl
@[simp] theorem State.setHost_cursor (h : List HostEvent) : (s.setHost h).cursor = s.cursor := rfl
@[simp] theorem State.setHost_decoded (h : List HostEvent) : (s.setHost h).decoded = s.decoded := rfl
@[simp] theorem State.setHost_stack (h : List HostEvent) : (s.setHost h).stack = s.stack := rfl
@[simp] theorem State.setHost_input (h : List HostEvent) : (s.setHost h).input = s.input := rfl
@[simp] theorem State.setHost_olog (h : List HostEvent) : (s.setHost h).olog = s.olog := rfl
@[simp] theorem State.setHost_host (h : List HostEvent) : (s.setHost h).host = h := rfl
@[simp] theorem State.setHost_seen (h : List HostEvent) : (s.setHost h).seen = s.seen := rfl
@[simp] theorem State.setHost_draws (h : List HostEvent) : (s.setHost h).draws = s.draws := rfl

@[simp] theorem State.noteRead_cfg (a : Nat) (v : Word) : (s.noteRead a v).cfg = s.cfg := rfl
@[simp] theorem State.noteRead_busy (a : Nat) (v : Word) : (s.noteRead a v).busy = s.busy := rfl
@[simp] theorem State.noteRead_fault (a : Nat) (v : Word) : (s.noteRead a v).fault = s.fault := rfl
@[simp] theorem State.noteRead_outcome (a : Nat) (v : Word) : (s.noteRead a v).outcome = s.outcome := rfl
@[simp] theorem State.noteRead_dstate (a : Nat) (v : Word) : (s.noteRead a v).dstate = s.dstate := rfl
@[simp] theorem State.noteRead_pfmt (a : Nat) (v : Word) : (s.noteRead a v).pfmt = s.pfmt := rfl
@[simp] theorem State.noteRead_arg0 (a : Nat) (v : Word) : (s.noteRead a v).arg0 = s.arg0 := rfl
@[simp] theorem State.noteRead_arg1 (a : Nat) (v : Word) : (s.noteRead a v).arg1 = s.arg1 := rfl
@[simp] theorem State.noteRead_res0 (a : Nat) (v : Word) : (s.noteRead a v).res0 = s.res0 := rfl
@[simp] theorem State.noteRead_res1 (a : Nat) (v : Word) : (s.noteRead a v).res1 = s.res1 := rfl
@[simp] theorem State.noteRead_res2 (a : Nat) (v : Word) : (s.noteRead a v).res2 = s.res2 := rfl
@[simp] theorem State.noteRead_res3 (a : Nat) (v : Word) : (s.noteRead a v).res3 = s.res3 := rfl
@[simp] theorem State.noteRead_bitsSaved (a : Nat) (v : Word) : (s.noteRead a v).bitsSaved = s.bitsSaved := rfl
@[simp] theorem State.noteRead_bitsWritten (a : Nat) (v : Word) : (s.noteRead a v).bitsWritten = s.bitsWritten := rfl
@[simp] theorem State.noteRead_nodes (a : Nat) (v : Word) : (s.noteRead a v).nodes = s.nodes := rfl
@[simp] theorem State.noteRead_queue (a : Nat) (v : Word) : (s.noteRead a v).queue = s.queue := rfl
@[simp] theorem State.noteRead_pt (a : Nat) (v : Word) : (s.noteRead a v).pt = s.pt := rfl
@[simp] theorem State.noteRead_freq (a : Nat) (v : Word) : (s.noteRead a v).freq = s.freq := rfl
@[simp] theorem State.noteRead_rootRef (a : Nat) (v : Word) : (s.noteRead a v).rootRef = s.rootRef := rfl
@[simp] theorem State.noteRead_lcmd (a : Nat) (v : Word) : (s.noteRead a v).lcmd = s.lcmd := rfl
@[simp] theorem State.noteRead_larg0 (a : Nat) (v : Word) : (s.noteRead a v).larg0 = s.larg0 := rfl
@[simp] theorem State.noteRead_larg1 (a : Nat) (v : Word) : (s.noteRead a v).larg1 = s.larg1 := rfl
@[simp] theorem State.noteRead_ipos (a : Nat) (v : Word) : (s.noteRead a v).ipos = s.ipos := rfl
@[simp] theorem State.noteRead_cursor (a : Nat) (v : Word) : (s.noteRead a v).cursor = s.cursor := rfl
@[simp] theorem State.noteRead_decoded (a : Nat) (v : Word) : (s.noteRead a v).decoded = s.decoded := rfl
@[simp] theorem State.noteRead_stack (a : Nat) (v : Word) : (s.noteRead a v).stack = s.stack := rfl
@[simp] theorem State.noteRead_input (a : Nat) (v : Word) : (s.noteRead a v).input = s.input := rfl
@[simp] theorem State.noteRead_olog (a : Nat) (v : Word) : (s.noteRead a v).olog = s.olog := rfl
@[simp] theorem State.noteRead_host (a : Nat) (v : Word) : (s.noteRead a v).host = s.host := rfl
@[simp] theorem State.noteRead_seen (a : Nat) (v : Word) : (s.noteRead a v).seen = s.seen ++ [(a, v)] := rfl
@[simp] theorem State.noteRead_draws (a : Nat) (v : Word) : (s.noteRead a v).draws = s.draws := rfl
@[simp] theorem State.noteRead_hostQuiet (a : Nat) (v : Word) : (s.noteRead a v).hostQuiet = s.hostQuiet := rfl

@[simp] theorem State.draw_cfg (k : Nat) : (s.draw k).cfg = s.cfg := rfl
@[simp] theorem State.draw_busy (k : Nat) : (s.draw k).busy = s.busy := rfl
@[simp] theorem State.draw_fault (k : Nat) : (s.draw k).fault = s.fault := rfl
@[simp] theorem State.draw_outcome (k : Nat) : (s.draw k).outcome = s.outcome := rfl
@[simp] theorem State.draw_dstate (k : Nat) : (s.draw k).dstate = s.dstate := rfl
@[simp] theorem State.draw_pfmt (k : Nat) : (s.draw k).pfmt = s.pfmt := rfl
@[simp] theorem State.draw_arg0 (k : Nat) : (s.draw k).arg0 = s.arg0 := rfl
@[simp] theorem State.draw_arg1 (k : Nat) : (s.draw k).arg1 = s.arg1 := rfl
@[simp] theorem State.draw_res0 (k : Nat) : (s.draw k).res0 = s.res0 := rfl
@[simp] theorem State.draw_res1 (k : Nat) : (s.draw k).res1 = s.res1 := rfl
@[simp] theorem State.draw_res2 (k : Nat) : (s.draw k).res2 = s.res2 := rfl
@[simp] theorem State.draw_res3 (k : Nat) : (s.draw k).res3 = s.res3 := rfl
@[simp] theorem State.draw_bitsSaved (k : Nat) : (s.draw k).bitsSaved = s.bitsSaved := rfl
@[simp] theorem State.draw_bitsWritten (k : Nat) : (s.draw k).bitsWritten = s.bitsWritten := rfl
@[simp] theorem State.draw_nodes (k : Nat) : (s.draw k).nodes = s.nodes := rfl
@[simp] theorem State.draw_queue (k : Nat) : (s.draw k).queue = s.queue := rfl
@[simp] theorem State.draw_pt (k : Nat) : (s.draw k).pt = s.pt := rfl
@[simp] theorem State.draw_freq (k : Nat) : (s.draw k).freq = s.freq := rfl
@[simp] theorem State.draw_rootRef (k : Nat) : (s.draw k).rootRef = s.rootRef := rfl
@[simp] theorem State.draw_lcmd (k : Nat) : (s.draw k).lcmd = s.lcmd := rfl
@[simp] theorem State.draw_larg0 (k : Nat) : (s.draw k).larg0 = s.larg0 := rfl
@[simp] theorem State.draw_larg1 (k : Nat) : (s.draw k).larg1 = s.larg1 := rfl
@[simp] theorem State.draw_ipos (k : Nat) : (s.draw k).ipos = s.ipos := rfl
@[simp] theorem State.draw_cursor (k : Nat) : (s.draw k).cursor = s.cursor := rfl
@[simp] theorem State.draw_decoded (k : Nat) : (s.draw k).decoded = s.decoded := rfl
@[simp] theorem State.draw_stack (k : Nat) : (s.draw k).stack = s.stack := rfl
@[simp] theorem State.draw_input (k : Nat) : (s.draw k).input = s.input := rfl
@[simp] theorem State.draw_olog (k : Nat) : (s.draw k).olog = s.olog := rfl
@[simp] theorem State.draw_host (k : Nat) : (s.draw k).host = s.host := rfl
@[simp] theorem State.draw_seen (k : Nat) : (s.draw k).seen = s.seen := rfl
@[simp] theorem State.draw_draws (k : Nat) : (s.draw k).draws = s.draws + k := rfl
@[simp] theorem State.draw_hostQuiet (k : Nat) : (s.draw k).hostQuiet = s.hostQuiet := rfl

@[simp] theorem State.setDState_cfg (d : DState) : (s.setDState d).cfg = s.cfg := rfl
@[simp] theorem State.setDState_busy (d : DState) : (s.setDState d).busy = s.busy := rfl
@[simp] theorem State.setDState_fault (d : DState) : (s.setDState d).fault = s.fault := rfl
@[simp] theorem State.setDState_outcome (d : DState) : (s.setDState d).outcome = s.outcome := rfl
@[simp] theorem State.setDState_dstate (d : DState) : (s.setDState d).dstate = d := rfl
@[simp] theorem State.setDState_pfmt (d : DState) : (s.setDState d).pfmt = s.pfmt := rfl
@[simp] theorem State.setDState_arg0 (d : DState) : (s.setDState d).arg0 = s.arg0 := rfl
@[simp] theorem State.setDState_arg1 (d : DState) : (s.setDState d).arg1 = s.arg1 := rfl
@[simp] theorem State.setDState_res0 (d : DState) : (s.setDState d).res0 = s.res0 := rfl
@[simp] theorem State.setDState_res1 (d : DState) : (s.setDState d).res1 = s.res1 := rfl
@[simp] theorem State.setDState_res2 (d : DState) : (s.setDState d).res2 = s.res2 := rfl
@[simp] theorem State.setDState_res3 (d : DState) : (s.setDState d).res3 = s.res3 := rfl
@[simp] theorem State.setDState_bitsSaved (d : DState) : (s.setDState d).bitsSaved = s.bitsSaved := rfl
@[simp] theorem State.setDState_bitsWritten (d : DState) : (s.setDState d).bitsWritten = s.bitsWritten := rfl
@[simp] theorem State.setDState_nodes (d : DState) : (s.setDState d).nodes = s.nodes := rfl
@[simp] theorem State.setDState_queue (d : DState) : (s.setDState d).queue = s.queue := rfl
@[simp] theorem State.setDState_pt (d : DState) : (s.setDState d).pt = s.pt := rfl
@[simp] theorem State.setDState_freq (d : DState) : (s.setDState d).freq = s.freq := rfl
@[simp] theorem State.setDState_rootRef (d : DState) : (s.setDState d).rootRef = s.rootRef := rfl
@[simp] theorem State.setDState_lcmd (d : DState) : (s.setDState d).lcmd = s.lcmd := rfl
@[simp] theorem State.setDState_larg0 (d : DState) : (s.setDState d).larg0 = s.larg0 := rfl
@[simp] theorem State.setDState_larg1 (d : DState) : (s.setDState d).larg1 = s.larg1 := rfl
@[simp] theorem State.setDState_ipos (d : DState) : (s.setDState d).ipos = s.ipos := rfl
@[simp] theorem State.setDState_cursor (d : DState) : (s.setDState d).cursor = s.cursor := rfl
@[simp] theorem State.setDState_decoded (d : DState) : (s.setDState d).decoded = s.decoded := rfl
@[simp] theorem State.setDState_stack (d : DState) : (s.setDState d).stack = s.stack := rfl
@[simp] theorem State.setDState_input (d : DState) : (s.setDState d).input = s.input := rfl
@[simp] theorem State.setDState_olog (d : DState) : (s.setDState d).olog = s.olog := rfl
@[simp] theorem State.setDState_host (d : DState) : (s.setDState d).host = s.host := rfl
@[simp] theorem State.setDState_seen (d : DState) : (s.setDState d).seen = s.seen := rfl
@[simp] theorem State.setDState_draws (d : DState) : (s.setDState d).draws = s.draws := rfl
@[simp] theorem State.setDState_hostQuiet (d : DState) : (s.setDState d).hostQuiet = s.hostQuiet := rfl

@[simp] theorem State.setPfmt_cfg (f : HeaderFormat) : (s.setPfmt f).cfg = s.cfg := rfl
@[simp] theorem State.setPfmt_busy (f : HeaderFormat) : (s.setPfmt f).busy = s.busy := rfl
@[simp] theorem State.setPfmt_fault (f : HeaderFormat) : (s.setPfmt f).fault = s.fault := rfl
@[simp] theorem State.setPfmt_outcome (f : HeaderFormat) : (s.setPfmt f).outcome = s.outcome := rfl
@[simp] theorem State.setPfmt_dstate (f : HeaderFormat) : (s.setPfmt f).dstate = s.dstate := rfl
@[simp] theorem State.setPfmt_pfmt (f : HeaderFormat) : (s.setPfmt f).pfmt = f := rfl
@[simp] theorem State.setPfmt_arg0 (f : HeaderFormat) : (s.setPfmt f).arg0 = s.arg0 := rfl
@[simp] theorem State.setPfmt_arg1 (f : HeaderFormat) : (s.setPfmt f).arg1 = s.arg1 := rfl
@[simp] theorem State.setPfmt_res0 (f : HeaderFormat) : (s.setPfmt f).res0 = s.res0 := rfl
@[simp] theorem State.setPfmt_res1 (f : HeaderFormat) : (s.setPfmt f).res1 = s.res1 := rfl
@[simp] theorem State.setPfmt_res2 (f : HeaderFormat) : (s.setPfmt f).res2 = s.res2 := rfl
@[simp] theorem State.setPfmt_res3 (f : HeaderFormat) : (s.setPfmt f).res3 = s.res3 := rfl
@[simp] theorem State.setPfmt_bitsSaved (f : HeaderFormat) : (s.setPfmt f).bitsSaved = s.bitsSaved := rfl
@[simp] theorem State.setPfmt_bitsWritten (f : HeaderFormat) : (s.setPfmt f).bitsWritten = s.bitsWritten := rfl
@[simp] theorem State.setPfmt_nodes (f : HeaderFormat) : (s.setPfmt f).nodes = s.nodes := rfl
@[simp] theorem State.setPfmt_queue (f : HeaderFormat) : (s.setPfmt f).queue = s.queue := rfl
@[simp] theorem State.setPfmt_pt (f : HeaderFormat) : (s.setPfmt f).pt = s.pt := rfl
@[simp] theorem State.setPfmt_freq (f : HeaderFormat) : (s.setPfmt f).freq = s.freq := rfl
@[simp] theorem State.setPfmt_rootRef (f : HeaderFormat) : (s.setPfmt f).rootRef = s.rootRef := rfl
@[simp] theorem State.setPfmt_lcmd (f : HeaderFormat) : (s.setPfmt f).lcmd = s.lcmd := rfl
@[simp] theorem State.setPfmt_larg0 (f : HeaderFormat) : (s.setPfmt f).larg0 = s.larg0 := rfl
@[simp] theorem State.setPfmt_larg1 (f : HeaderFormat) : (s.setPfmt f).larg1 = s.larg1 := rfl
@[simp] theorem State.setPfmt_ipos (f : HeaderFormat) : (s.setPfmt f).ipos = s.ipos := rfl
@[simp] theorem State.setPfmt_cursor (f : HeaderFormat) : (s.setPfmt f).cursor = s.cursor := rfl
@[simp] theorem State.setPfmt_decoded (f : HeaderFormat) : (s.setPfmt f).decoded = s.decoded := rfl
@[simp] theorem State.setPfmt_stack (f : HeaderFormat) : (s.setPfmt f).stack = s.stack := rfl
@[simp] theorem State.setPfmt_input (f : HeaderFormat) : (s.setPfmt f).input = s.input := rfl
@[simp] theorem State.setPfmt_olog (f : HeaderFormat) : (s.setPfmt f).olog = s.olog := rfl
@[simp] theorem State.setPfmt_host (f : HeaderFormat) : (s.setPfmt f).host = s.host := rfl
@[simp] theorem State.setPfmt_seen (f : HeaderFormat) : (s.setPfmt f).seen = s.seen := rfl
@[simp] theorem State.setPfmt_draws (f : HeaderFormat) : (s.setPfmt f).draws = s.draws := rfl
@[simp] theorem State.setPfmt_hostQuiet (f : HeaderFormat) : (s.setPfmt f).hostQuiet = s.hostQuiet := rfl

@[simp] theorem State.endWith_cfg (o : CmdOutcome) : (s.endWith o).cfg = s.cfg := rfl
@[simp] theorem State.endWith_busy (o : CmdOutcome) : (s.endWith o).busy = false := rfl
@[simp] theorem State.endWith_fault (o : CmdOutcome) : (s.endWith o).fault = s.fault := rfl
@[simp] theorem State.endWith_outcome (o : CmdOutcome) : (s.endWith o).outcome = o := rfl
@[simp] theorem State.endWith_dstate (o : CmdOutcome) : (s.endWith o).dstate = s.dstate := rfl
@[simp] theorem State.endWith_pfmt (o : CmdOutcome) : (s.endWith o).pfmt = s.pfmt := rfl
@[simp] theorem State.endWith_arg0 (o : CmdOutcome) : (s.endWith o).arg0 = s.arg0 := rfl
@[simp] theorem State.endWith_arg1 (o : CmdOutcome) : (s.endWith o).arg1 = s.arg1 := rfl
@[simp] theorem State.endWith_res0 (o : CmdOutcome) : (s.endWith o).res0 = s.res0 := rfl
@[simp] theorem State.endWith_res1 (o : CmdOutcome) : (s.endWith o).res1 = s.res1 := rfl
@[simp] theorem State.endWith_res2 (o : CmdOutcome) : (s.endWith o).res2 = s.res2 := rfl
@[simp] theorem State.endWith_res3 (o : CmdOutcome) : (s.endWith o).res3 = s.res3 := rfl
@[simp] theorem State.endWith_bitsSaved (o : CmdOutcome) : (s.endWith o).bitsSaved = s.bitsSaved := rfl
@[simp] theorem State.endWith_bitsWritten (o : CmdOutcome) : (s.endWith o).bitsWritten = s.bitsWritten := rfl
@[simp] theorem State.endWith_nodes (o : CmdOutcome) : (s.endWith o).nodes = s.nodes := rfl
@[simp] theorem State.endWith_queue (o : CmdOutcome) : (s.endWith o).queue = s.queue := rfl
@[simp] theorem State.endWith_pt (o : CmdOutcome) : (s.endWith o).pt = s.pt := rfl
@[simp] theorem State.endWith_freq (o : CmdOutcome) : (s.endWith o).freq = s.freq := rfl
@[simp] theorem State.endWith_rootRef (o : CmdOutcome) : (s.endWith o).rootRef = s.rootRef := rfl
@[simp] theorem State.endWith_lcmd (o : CmdOutcome) : (s.endWith o).lcmd = s.lcmd := rfl
@[simp] theorem State.endWith_larg0 (o : CmdOutcome) : (s.endWith o).larg0 = s.larg0 := rfl
@[simp] theorem State.endWith_larg1 (o : CmdOutcome) : (s.endWith o).larg1 = s.larg1 := rfl
@[simp] theorem State.endWith_ipos (o : CmdOutcome) : (s.endWith o).ipos = s.ipos := rfl
@[simp] theorem State.endWith_cursor (o : CmdOutcome) : (s.endWith o).cursor = s.cursor := rfl
@[simp] theorem State.endWith_decoded (o : CmdOutcome) : (s.endWith o).decoded = s.decoded := rfl
@[simp] theorem State.endWith_stack (o : CmdOutcome) : (s.endWith o).stack = s.stack := rfl
@[simp] theorem State.endWith_input (o : CmdOutcome) : (s.endWith o).input = s.input := rfl
@[simp] theorem State.endWith_olog (o : CmdOutcome) : (s.endWith o).olog = s.olog := rfl
@[simp] theorem State.endWith_host (o : CmdOutcome) : (s.endWith o).host = s.host := rfl
@[simp] theorem State.endWith_seen (o : CmdOutcome) : (s.endWith o).seen = s.seen := rfl
@[simp] theorem State.endWith_draws (o : CmdOutcome) : (s.endWith o).draws = s.draws := rfl
@[simp] theorem State.endWith_hostQuiet (o : CmdOutcome) : (s.endWith o).hostQuiet = s.hostQuiet := rfl

@[simp] theorem State.latch_cfg (w : Word) : (s.latch w).cfg = s.cfg := rfl
@[simp] theorem State.latch_busy (w : Word) : (s.latch w).busy = true := rfl
@[simp] theorem State.latch_fault (w : Word) : (s.latch w).fault = s.fault := rfl
@[simp] theorem State.latch_outcome (w : Word) : (s.latch w).outcome = s.outcome := rfl
@[simp] theorem State.latch_dstate (w : Word) : (s.latch w).dstate = s.dstate := rfl
@[simp] theorem State.latch_pfmt (w : Word) : (s.latch w).pfmt = s.pfmt := rfl
@[simp] theorem State.latch_arg0 (w : Word) : (s.latch w).arg0 = s.arg0 := rfl
@[simp] theorem State.latch_arg1 (w : Word) : (s.latch w).arg1 = s.arg1 := rfl
@[simp] theorem State.latch_res0 (w : Word) : (s.latch w).res0 = s.res0 := rfl
@[simp] theorem State.latch_res1 (w : Word) : (s.latch w).res1 = s.res1 := rfl
@[simp] theorem State.latch_res2 (w : Word) : (s.latch w).res2 = s.res2 := rfl
@[simp] theorem State.latch_res3 (w : Word) : (s.latch w).res3 = s.res3 := rfl
@[simp] theorem State.latch_bitsSaved (w : Word) : (s.latch w).bitsSaved = s.bitsSaved := rfl
@[simp] theorem State.latch_bitsWritten (w : Word) : (s.latch w).bitsWritten = s.bitsWritten := rfl
@[simp] theorem State.latch_nodes (w : Word) : (s.latch w).nodes = s.nodes := rfl
@[simp] theorem State.latch_queue (w : Word) : (s.latch w).queue = s.queue := rfl
@[simp] theorem State.latch_pt (w : Word) : (s.latch w).pt = s.pt := rfl
@[simp] theorem State.latch_freq (w : Word) : (s.latch w).freq = s.freq := rfl
@[simp] theorem State.latch_rootRef (w : Word) : (s.latch w).rootRef = s.rootRef := rfl
@[simp] theorem State.latch_lcmd (w : Word) : (s.latch w).lcmd = w := rfl
@[simp] theorem State.latch_larg0 (w : Word) : (s.latch w).larg0 = s.arg0 := rfl
@[simp] theorem State.latch_larg1 (w : Word) : (s.latch w).larg1 = s.arg1 := rfl
@[simp] theorem State.latch_ipos (w : Word) : (s.latch w).ipos = s.ipos := rfl
@[simp] theorem State.latch_cursor (w : Word) : (s.latch w).cursor = s.cursor := rfl
@[simp] theorem State.latch_decoded (w : Word) : (s.latch w).decoded = s.decoded := rfl
@[simp] theorem State.latch_stack (w : Word) : (s.latch w).stack = s.stack := rfl
@[simp] theorem State.latch_input (w : Word) : (s.latch w).input = s.input := rfl
@[simp] theorem State.latch_olog (w : Word) : (s.latch w).olog = s.olog := rfl
@[simp] theorem State.latch_host (w : Word) : (s.latch w).host = s.host := rfl
@[simp] theorem State.latch_seen (w : Word) : (s.latch w).seen = s.seen := rfl
@[simp] theorem State.latch_draws (w : Word) : (s.latch w).draws = s.draws := rfl
@[simp] theorem State.latch_hostQuiet (w : Word) : (s.latch w).hostQuiet = s.hostQuiet := rfl

@[simp] theorem takeFault_cfg (f : FaultCode) : (takeFault f s).cfg = s.cfg := rfl
@[simp] theorem takeFault_busy (f : FaultCode) : (takeFault f s).busy = false := rfl
@[simp] theorem takeFault_fault (f : FaultCode) : (takeFault f s).fault = some f := rfl
@[simp] theorem takeFault_outcome (f : FaultCode) : (takeFault f s).outcome = .faulted := rfl
@[simp] theorem takeFault_dstate (f : FaultCode) : (takeFault f s).dstate = s.dstate := rfl
@[simp] theorem takeFault_pfmt (f : FaultCode) : (takeFault f s).pfmt = s.pfmt := rfl
@[simp] theorem takeFault_arg0 (f : FaultCode) : (takeFault f s).arg0 = s.arg0 := rfl
@[simp] theorem takeFault_arg1 (f : FaultCode) : (takeFault f s).arg1 = s.arg1 := rfl
@[simp] theorem takeFault_res0 (f : FaultCode) : (takeFault f s).res0 = Config.freeWord s.draws := rfl
@[simp] theorem takeFault_res1 (f : FaultCode) : (takeFault f s).res1 = Config.freeWord (s.draws + 1) := rfl
@[simp] theorem takeFault_res2 (f : FaultCode) : (takeFault f s).res2 = Config.freeWord (s.draws + 2) := rfl
@[simp] theorem takeFault_res3 (f : FaultCode) : (takeFault f s).res3 = Config.freeWord (s.draws + 3) := rfl
@[simp] theorem takeFault_bitsSaved (f : FaultCode) : (takeFault f s).bitsSaved = s.bitsSaved := rfl
@[simp] theorem takeFault_bitsWritten (f : FaultCode) : (takeFault f s).bitsWritten = Config.freeWord (s.draws + 4) ++ Config.freeWord (s.draws + 5) := rfl
@[simp] theorem takeFault_nodes (f : FaultCode) : (takeFault f s).nodes = s.nodes := rfl
@[simp] theorem takeFault_queue (f : FaultCode) : (takeFault f s).queue = s.queue := rfl
@[simp] theorem takeFault_pt (f : FaultCode) : (takeFault f s).pt = s.pt := rfl
@[simp] theorem takeFault_freq (f : FaultCode) : (takeFault f s).freq = s.freq := rfl
@[simp] theorem takeFault_rootRef (f : FaultCode) : (takeFault f s).rootRef = s.rootRef := rfl
@[simp] theorem takeFault_lcmd (f : FaultCode) : (takeFault f s).lcmd = s.lcmd := rfl
@[simp] theorem takeFault_larg0 (f : FaultCode) : (takeFault f s).larg0 = s.larg0 := rfl
@[simp] theorem takeFault_larg1 (f : FaultCode) : (takeFault f s).larg1 = s.larg1 := rfl
@[simp] theorem takeFault_ipos (f : FaultCode) : (takeFault f s).ipos = s.ipos := rfl
@[simp] theorem takeFault_cursor (f : FaultCode) : (takeFault f s).cursor = none := rfl
@[simp] theorem takeFault_decoded (f : FaultCode) : (takeFault f s).decoded = 0 := rfl
@[simp] theorem takeFault_stack (f : FaultCode) : (takeFault f s).stack = [] := rfl
@[simp] theorem takeFault_input (f : FaultCode) : (takeFault f s).input = s.input := rfl
@[simp] theorem takeFault_olog (f : FaultCode) : (takeFault f s).olog = s.olog := rfl
@[simp] theorem takeFault_host (f : FaultCode) : (takeFault f s).host = s.host := rfl
@[simp] theorem takeFault_seen (f : FaultCode) : (takeFault f s).seen = s.seen := rfl
@[simp] theorem takeFault_draws (f : FaultCode) : (takeFault f s).draws = s.draws + 6 := rfl
@[simp] theorem takeFault_hostQuiet (f : FaultCode) : (takeFault f s).hostQuiet = s.hostQuiet := rfl

@[simp] theorem resetHcc_cfg : (resetHcc s).cfg = s.cfg := rfl
@[simp] theorem resetHcc_busy : (resetHcc s).busy = false := rfl
@[simp] theorem resetHcc_fault : (resetHcc s).fault = none := rfl
@[simp] theorem resetHcc_outcome : (resetHcc s).outcome = .none := rfl
@[simp] theorem resetHcc_dstate : (resetHcc s).dstate = .clean := rfl
@[simp] theorem resetHcc_pfmt : (resetHcc s).pfmt = .counts := rfl
@[simp] theorem resetHcc_arg0 : (resetHcc s).arg0 = 0 := rfl
@[simp] theorem resetHcc_arg1 : (resetHcc s).arg1 = 0 := rfl
@[simp] theorem resetHcc_res0 : (resetHcc s).res0 = 0 := rfl
@[simp] theorem resetHcc_res1 : (resetHcc s).res1 = 0 := rfl
@[simp] theorem resetHcc_res2 : (resetHcc s).res2 = 0 := rfl
@[simp] theorem resetHcc_res3 : (resetHcc s).res3 = 0 := rfl
@[simp] theorem resetHcc_bitsSaved : (resetHcc s).bitsSaved = 0 := rfl
@[simp] theorem resetHcc_bitsWritten : (resetHcc s).bitsWritten = 0 := rfl
@[simp] theorem resetHcc_nodes : (resetHcc s).nodes = [] := rfl
@[simp] theorem resetHcc_queue : (resetHcc s).queue = [] := rfl
@[simp] theorem resetHcc_pt : (resetHcc s).pt = List.replicate (s.cfg.eofsym + 1) none := rfl
@[simp] theorem resetHcc_freq : (resetHcc s).freq = List.replicate (s.cfg.eofsym + 1) 0 := rfl
@[simp] theorem resetHcc_rootRef : (resetHcc s).rootRef = NIL := rfl
@[simp] theorem resetHcc_lcmd : (resetHcc s).lcmd = 0 := rfl
@[simp] theorem resetHcc_larg0 : (resetHcc s).larg0 = 0 := rfl
@[simp] theorem resetHcc_larg1 : (resetHcc s).larg1 = 0 := rfl
@[simp] theorem resetHcc_ipos : (resetHcc s).ipos = 0 := rfl
@[simp] theorem resetHcc_cursor : (resetHcc s).cursor = none := rfl
@[simp] theorem resetHcc_decoded : (resetHcc s).decoded = 0 := rfl
@[simp] theorem resetHcc_stack : (resetHcc s).stack = [] := rfl
@[simp] theorem resetHcc_input : (resetHcc s).input = s.input := rfl
@[simp] theorem resetHcc_olog : (resetHcc s).olog = s.olog := rfl
@[simp] theorem resetHcc_host : (resetHcc s).host = s.host := rfl
@[simp] theorem resetHcc_seen : (resetHcc s).seen = s.seen := rfl
@[simp] theorem resetHcc_draws : (resetHcc s).draws = s.draws := rfl
@[simp] theorem resetHcc_hostQuiet : (resetHcc s).hostQuiet = s.hostQuiet := rfl

/-- IPOS after an update to a count it can hold (spec/10_state.md R63). -/
theorem State.setIpos_toNat {n : Nat} (h : n < 2 ^ 64) : (s.setIpos n).ipos.toNat = n := by
  rw [State.setIpos_ipos, BitVec.toNat_ofNat, Nat.mod_eq_of_lt h]

@[simp] theorem State.setIpos_setIpos (n m : Nat) : (s.setIpos n).setIpos m = s.setIpos m := rfl

end Sys2Proof.Machine
end

