-- ==== Sys2Proof/Laws/Ops.lean ====
section
/-!
SUPPORT. One spec lemma per shared operation, when no host act lands inside the command (`State.hostQuiet`): what the
operation answers and the state it leaves. Proofs about commands cite these and do not unfold the operations.
-/

namespace Sys2Proof.Machine

variable {s s' : State}

/-! ### Sequencing -/

/-- A step that answers normally hands its answer and state on. -/
theorem bind_of_ok {α β : Type} {x : Cmd α} {f : α → Cmd β} {a : α} (h : x s = .ok a s') : (x >>= f) s = f a s' := by
  simp [bind, EStateM.bind, h]

/-- A step that stops stops the whole. -/
theorem bind_of_error {α β : Type} {x : Cmd α} {f : α → Cmd β} {e : Stop} (h : x s = .error e s') :
    (x >>= f) s = .error e s' := by
  simp [bind, EStateM.bind, h]

@[simp] theorem pure_apply {α : Type} (a : α) : (pure a : Cmd α) s = .ok a s := rfl
@[simp] theorem get_apply : (get : Cmd State) s = .ok s s := rfl
@[simp] theorem set_apply (t : State) : (set t : Cmd PUnit) s = .ok () t := rfl
@[simp] theorem modify_apply (f : State → State) : (modify f : Cmd PUnit) s = .ok () (f s) := rfl
@[simp] theorem throw_apply {α : Type} (e : Stop) : (throw e : Cmd α) s = .error e s := rfl

/-- Sequencing after reading the state. -/
@[simp] theorem get_bind_apply {β : Type} (f : State → Cmd β) : ((get : Cmd State) >>= f) s = f s s := rfl

/-! ### Points, changes and ends -/

/-- With nothing to land, a point does nothing. -/
theorem point_quiet (h : s.hostQuiet = true) : point s = .ok () s := by
  unfold point
  split
  · split <;> simp_all [State.hostQuiet]
  · rfl

/-- Outside a command nothing lands at a point. -/
theorem point_idle (h : s.busy = false) : point s = .ok () s := by
  simp [point, h]

theorem change_quiet (f : State → State) (h : s.hostQuiet = true) : change f s = .ok () (f s) := by
  simp [change, bind, EStateM.bind, point_quiet h]

theorem raise_quiet {α : Type} (f : FaultCode) (h : s.hostQuiet = true) :
    (raise f : Cmd α) s = .error (.raised f) s := by
  simp [raise, bind, EStateM.bind, point_quiet h]

theorem done_quiet (o : CmdOutcome) (h : s.hostQuiet = true) : done o s = .ok () (s.endWith o) :=
  change_quiet _ h

theorem doneUsed_quiet (h : s.hostQuiet = true) : doneUsed s = .ok () ((s.setDState .used).endWith .ok) := by
  unfold doneUsed
  rw [bind_of_ok (change_quiet _ h)]
  exact done_quiet _ (by simpa using h)

@[simp] theorem settle_ok (t : State) : settle (.ok () t) = .next t := rfl
@[simp] theorem settle_raised (f : FaultCode) (t : State) : settle (.error (.raised f) t) = .next (takeFault f t) := rfl
@[simp] theorem settle_resetInput (t : State) : settle (.error .resetInput t) = .next (resetHcc t) := rfl
@[simp] theorem settle_stuck (f : Fault) (t : State) : settle (.error (.stuck f) t) = .fault f := rfl
@[simp] theorem settle_refuse (r : Refusal) (t : State) : settle (.error (.refuse r) t) = .refused r := rfl

/-- With nothing to land, a command is its rule. -/
theorem runCmd_quiet (c : Cmd Unit) (h : s.hostQuiet = true) : runCmd c s = settle (c s) := by
  unfold runCmd
  rw [bind_of_ok (point_quiet h)]

/-- How a command can have ended in a next state: normally, by a fault, or by the reset input. -/
theorem settle_next {r : EStateM.Result Stop State Unit} {t : State} (h : settle r = .next t) :
    (r = .ok () t) ∨ (∃ f u, r = .error (.raised f) u ∧ t = takeFault f u) ∨
      (∃ u, r = .error .resetInput u ∧ t = resetHcc u) := by
  match r, h with
  | .ok _ u, h => exact .inl (by simpa [settle] using h)
  | .error (.raised f) u, h => exact .inr (.inl ⟨f, u, rfl, by simpa [settle] using h.symm⟩)
  | .error .resetInput u, h => exact .inr (.inr ⟨u, rfl, by simpa [settle] using h.symm⟩)
  | .error (.stuck f) u, h => simp [settle] at h
  | .error (.refuse f) u, h => simp [settle] at h

/-! ### Ports -/

theorem inRead_eof {n : Nat} (h : s.hostQuiet = true) (hn : s.input.length < s.pos + n) : inRead n s = .ok none s := by
  unfold inRead
  rw [bind_of_ok (point_quiet h)]
  simp [hn]

theorem inRead_bits {n : Nat} (h : s.hostQuiet = true) (hn : s.pos + n ≤ s.input.length) :
    inRead n s = .ok (some (ofBits ((s.input.drop s.pos).take n))) (s.setIpos (s.pos + n)) := by
  unfold inRead
  rw [bind_of_ok (point_quiet h)]
  have : ¬ s.input.length < s.pos + n := by omega
  simp [this, bind, EStateM.bind]

theorem inRewind_quiet (h : s.hostQuiet = true) : inRewind s = .ok () (s.setIpos 0) := change_quiet _ h

theorem outWrite_quiet (n v : Nat) (h : s.hostQuiet = true) : outWrite n v s = .ok () (s.send (toBits n v)) :=
  change_quiet _ h

/-! ### The pool -/

theorem nodeRead_some {r : NodeRef} {n : NodeRec} (h : s.nodes[r.toNat]? = some n) : nodeRead r s = .ok n s := by
  simp [nodeRead, h]

theorem nodeRead_none {r : NodeRef} (h : s.nodes[r.toNat]? = none) : nodeRead r s = .error (.refuse .freeRecord) s := by
  simp [nodeRead, h]

theorem nodeWrite_apply (r : NodeRef) (f : NodeRec → NodeRec) :
    nodeWrite r f s = .ok () (s.setNodes (s.nodes.modify r.toNat f)) := rfl

theorem alloc_room {kind : NodeKind} {sym freq : Nat} (hn : s.next < s.cfg.ncap) :
    alloc kind sym freq s =
      .ok (BitVec.ofNat 16 s.next) (s.setNodes (s.nodes ++ [⟨kind, sym, freq, NIL, NIL, false⟩])) := by
  unfold alloc
  simp only [get_bind_apply, hn, if_true]
  rfl

theorem alloc_full {kind : NodeKind} {sym freq : Nat} (h : s.hostQuiet = true) (hn : s.cfg.ncap ≤ s.next) :
    alloc kind sym freq s = .error (.raised .poolFull) s := by
  unfold alloc
  have : ¬ s.next < s.cfg.ncap := by omega
  simp only [get_bind_apply, this, if_false]
  exact raise_quiet _ h

/-! ### The queue -/

/-- The place `insertByFreq` inserts at: the least index whose entry has a greater frequency, else the end
(spec/40_node_queue.md R113). -/
def insertAt (s : State) (f : Nat) (q : List NodeRef) : Nat := q.findIdx fun x => decide (s.freqOfRef x > f)

theorem insertByFreq_valid (r : NodeRef) (f : Nat) (q : List NodeRef) (hq : ∀ x ∈ q, x.toNat < s.next) :
    insertByFreq r f q s = .ok (q.take (insertAt s f q) ++ r :: q.drop (insertAt s f q)) s := by
  induction q with
  | nil => rfl
  | cons x xs ih =>
    have hx : x.toNat < s.nodes.length := hq x (by simp)
    have hget : s.nodes[x.toNat]? = some s.nodes[x.toNat] := List.getElem?_eq_getElem hx
    have hf : s.freqOfRef x = s.nodes[x.toNat].freq := by simp [State.freqOfRef, hget]
    unfold insertByFreq
    rw [bind_of_ok (nodeRead_some hget)]
    by_cases hgt : s.nodes[x.toNat].freq > f
    · simp [hgt, insertAt, List.findIdx_cons, hf]
    · simp only [hgt, if_false]
      rw [bind_of_ok (ih fun y hy => hq y (by simp [hy]))]
      have hle : ¬ f < s.nodes[x.toNat].freq := hgt
      simp [insertAt, List.findIdx_cons, hf, hle]

theorem enqueue_quiet {r : NodeRef} {n : NodeRec} (h : s.hostQuiet = true) (hr : s.nodes[r.toNat]? = some n)
    (hq : ∀ x ∈ s.queue, x.toNat < s.next) :
    enqueue r s = .ok () (s.setQueue
      (s.queue.take (insertAt s n.freq s.queue) ++ r :: s.queue.drop (insertAt s n.freq s.queue))) := by
  unfold enqueue
  rw [bind_of_ok (nodeRead_some hr)]
  simp only [get_bind_apply]
  rw [bind_of_ok (insertByFreq_valid _ _ _ hq)]
  exact change_quiet _ h

theorem dequeue_nil (h : s.hostQuiet = true) (hq : s.queue = []) : dequeue s = .error (.raised .emptyQueue) s := by
  unfold dequeue
  simp only [get_bind_apply, hq]
  exact raise_quiet _ h

theorem dequeue_cons {r : NodeRef} {q : List NodeRef} (h : s.hostQuiet = true) (hq : s.queue = r :: q) :
    dequeue s = .ok r (s.setQueue q) := by
  unfold dequeue
  simp only [get_bind_apply, hq]
  rw [bind_of_ok (change_quiet _ h)]
  rfl

/-! ### Operands -/

theorem takeSymbol_ok (hs : s.symOperand ≤ s.cfg.eofsym) : takeSymbol s = .ok s.symOperand s := by
  unfold takeSymbol
  have : ¬ s.symOperand > s.cfg.eofsym := by omega
  simp only [get_bind_apply, this, if_false]
  rfl

theorem takeSymbol_bad (h : s.hostQuiet = true) (hs : s.cfg.eofsym < s.symOperand) :
    takeSymbol s = .error (.raised .badSymbol) s := by
  unfold takeSymbol
  simp only [get_bind_apply, gt_iff_lt, hs, if_true]
  exact raise_quiet _ h

theorem takeNode_ok (hn : s.refOperand ≠ NIL) (hv : s.refOperand.toNat < s.next) :
    takeNode s = .ok s.refOperand s := by
  unfold takeNode
  have hv' : s.validRef s.refOperand = true := by simpa [State.validRef] using hv
  simp [hn, hv']

theorem takeNode_null (h : s.hostQuiet = true) (hn : s.refOperand = NIL) :
    takeNode s = .error (.raised .nullNode) s := by
  unfold takeNode
  simp only [get_bind_apply, hn, if_true]
  exact raise_quiet _ h

theorem takeNode_bad (h : s.hostQuiet = true) (hn : s.refOperand ≠ NIL) (hv : s.next ≤ s.refOperand.toNat) :
    takeNode s = .error (.raised .badRef) s := by
  unfold takeNode
  have hv' : s.validRef s.refOperand = false := by simpa [State.validRef] using hv
  simp only [get_bind_apply, hn, if_false, hv', if_true]
  exact raise_quiet _ h

end Sys2Proof.Machine
end

