-- ==== Sys2Proof/Laws/Trees.lean ====
section
/-!
SUPPORT. What the tree procedures do, said in terms of the tree a reference stands for (`treeAt`): Count, WriteTree, Travel,
EmitPath (spec/43_serialize.md R170, R171; spec/42_path_table.md R150, R155), and small facts about bits and trees.
-/

namespace Sys2Proof.Machine

variable {s : State}

/-! ### Bits -/

@[simp] theorem toBits_length (n v : Nat) : (toBits n v).length = n := by
  induction n with
  | zero => rfl
  | succ n ih => simp [toBits, ih]

@[simp] theorem toBits_one_bit (b : Bit) : toBits 1 b.toNat = [b] := by cases b <;> rfl

@[simp] theorem send_nil (s : State) : s.send [] = s := by simp [State.send]

@[simp] theorem send_send (s : State) (a b : List Bit) : (s.send a).send b = s.send (a ++ b) := by
  simp [State.send, List.append_assoc]

/-! ### Trees of a pool -/

/-- The record a tree's reference names. -/
theorem treeAt_succ {ns : List NodeRec} {fuel : Nat} {r : NodeRef} {t : CodeTree} (h : treeAt ns (fuel + 1) r = some t) :
    ∃ n, ns[r.toNat]? = some n ∧
      ((n.kind = .leaf ∧ t = .leaf n.sym) ∨
        (n.kind = .internal ∧ ∃ a b, treeAt ns fuel n.left = some a ∧ treeAt ns fuel n.right = some b ∧ t = .node a b)) := by
  unfold treeAt at h
  split at h
  · cases h
  · next n hn =>
    refine ⟨n, hn, ?_⟩
    split at h
    · next hk => exact .inl ⟨hk, by simpa using h.symm⟩
    · next hk =>
      refine .inr ⟨hk, ?_⟩
      split at h
      · next a b ha hb => exact ⟨a, b, ha, hb, by simpa using h.symm⟩
      · cases h

/-- A reference that stands for a tree is below NEXT. -/
theorem treeAt_lt {ns : List NodeRec} {fuel : Nat} {r : NodeRef} {t : CodeTree} (h : treeAt ns fuel r = some t) :
    r.toNat < ns.length := by
  cases fuel with
  | zero => simp [treeAt] at h
  | succ fuel =>
    obtain ⟨n, hn, -⟩ := treeAt_succ h
    exact (List.getElem?_eq_some_iff.mp hn).1

/-- A reference that stands for a tree is not NIL, since no pool has 0xFFFF records or more (spec/00_scope.md R10). -/
theorem treeAt_ne_nil {ns : List NodeRec} {fuel : Nat} {r : NodeRef} {t : CodeTree} (hns : ns.length ≤ 0xFFFF)
    (h : treeAt ns fuel r = some t) : r ≠ NIL := by
  rintro rfl
  have := treeAt_lt h
  simp at this
  omega

/-- More fuel finds the same tree. -/
theorem treeAt_mono {ns : List NodeRec} {fuel k : Nat} {r : NodeRef} {t : CodeTree} (h : treeAt ns fuel r = some t) :
    treeAt ns (fuel + k) r = some t := by
  induction fuel generalizing r t with
  | zero => simp [treeAt] at h
  | succ fuel ih =>
    obtain ⟨n, hn, ⟨hk, rfl⟩ | ⟨hk, a, b, ha, hb, rfl⟩⟩ := treeAt_succ h
    · rw [show fuel + 1 + k = (fuel + k) + 1 by omega]
      simp [treeAt, hn, hk]
    · rw [show fuel + 1 + k = (fuel + k) + 1 by omega]
      simp [treeAt, hn, hk, ih ha, ih hb]

@[simp] theorem CodeTree.enc_length (sw : Nat) (t : CodeTree) : (t.enc sw).length = t.bits sw := by
  induction t with
  | leaf sym => simp [CodeTree.enc, CodeTree.bits]
  | node l r ihl ihr => simp [CodeTree.enc, CodeTree.bits, ihl, ihr]; omega

/-! ### Count and WriteTree -/

theorem count_treeAt {fuel : Nat} {r : NodeRef} {t : CodeTree} (hns : s.next ≤ 0xFFFF)
    (h : treeAt s.nodes fuel r = some t) : count fuel r s = .ok (t.bits s.cfg.sw) s := by
  induction fuel generalizing r t with
  | zero => simp [treeAt] at h
  | succ fuel ih =>
    have hnil := treeAt_ne_nil hns h
    obtain ⟨n, hn, ⟨hk, rfl⟩ | ⟨hk, a, b, ha, hb, rfl⟩⟩ := treeAt_succ h
    · unfold count
      simp only [hnil, if_false]
      rw [bind_of_ok (nodeRead_some hn)]
      simp [hk, CodeTree.bits]
    · unfold count
      simp only [hnil, if_false]
      rw [bind_of_ok (nodeRead_some hn)]
      simp only [get_bind_apply, hk]
      rw [bind_of_ok (ih ha), bind_of_ok (ih hb)]
      simp [CodeTree.bits]

theorem countTree_tree {r : NodeRef} {t : CodeTree} (hns : s.next ≤ 0xFFFF) (h : s.tree? r = some t) :
    countTree r s = .ok (t.bits s.cfg.sw) s := by
  unfold countTree
  simp only [get_bind_apply]
  exact count_treeAt hns h

theorem countTree_nil : countTree NIL s = .ok 0 s := by
  unfold countTree
  simp only [get_bind_apply]
  cases s.next <;> simp [count]

theorem writeTree_treeAt {fuel : Nat} {r : NodeRef} {t : CodeTree} (hw : s.hostQuiet = true)
    (h : treeAt s.nodes fuel r = some t) :
    writeTree fuel r s = .ok (t.bits s.cfg.sw) (s.send (t.enc s.cfg.sw)) := by
  induction fuel generalizing r t s with
  | zero => simp [treeAt] at h
  | succ fuel ih =>
    obtain ⟨n, hn, ⟨hk, rfl⟩ | ⟨hk, a, b, ha, hb, rfl⟩⟩ := treeAt_succ h
    · unfold writeTree
      rw [bind_of_ok (nodeRead_some hn)]
      simp only [get_bind_apply, hk]
      rw [bind_of_ok (outWrite_quiet _ _ hw), bind_of_ok (outWrite_quiet _ _ (by simpa using hw))]
      simp [CodeTree.enc, CodeTree.bits, toBits]
    · unfold writeTree
      rw [bind_of_ok (nodeRead_some hn)]
      simp only [get_bind_apply, hk]
      rw [bind_of_ok (outWrite_quiet _ _ hw), bind_of_ok (ih (by simpa using hw) (by simpa using ha)),
        bind_of_ok (ih (by simpa using hw) (by simpa using hb))]
      simp [CodeTree.enc, CodeTree.bits, toBits]

/-! ### EmitPath -/

theorem sendPath_quiet (p : List Bit) (h : s.hostQuiet = true) : sendPath p s = .ok () (s.send p) := by
  induction p generalizing s with
  | nil => simp [sendPath]
  | cons b p ih =>
    unfold sendPath
    rw [bind_of_ok (outWrite_quiet _ _ h), ih (by simpa using h)]
    simp

theorem emitPath_some {sym : Nat} {p : List Bit} (h : s.hostQuiet = true) (hp : s.pathAt sym = some p) :
    emitPath sym s = .ok p.length (s.send p) := by
  unfold emitPath
  simp only [get_bind_apply, hp]
  rw [bind_of_ok (sendPath_quiet _ h)]
  rfl

theorem emitPath_none {sym : Nat} (h : s.hostQuiet = true) (hp : s.pathAt sym = none) :
    emitPath sym s = .error (.raised .noPath) s := by
  unfold emitPath
  simp only [get_bind_apply, hp]
  exact raise_quiet _ h

/-! ### Travel and BuildTable -/

/-- A table with the paths of a tree entered, each under prefix `p`, left subtree before right. -/
def CodeTree.fill : CodeTree → List Bit → List (Option (List Bit)) → List (Option (List Bit))
  | .leaf sym, p, pt => pt.set sym (some p)
  | .node l r, p, pt => r.fill (p ++ [true]) (l.fill (p ++ [false]) pt)

@[simp] theorem CodeTree.fill_length (t : CodeTree) (p : List Bit) (pt : List (Option (List Bit))) :
    (t.fill p pt).length = pt.length := by
  induction t generalizing p pt with
  | leaf sym => simp [CodeTree.fill]
  | node l r ihl ihr => simp [CodeTree.fill, ihl, ihr]

/-- An entered table holds the tree's path where it has one, else what it held. -/
theorem CodeTree.fill_getElem? (t : CodeTree) (p : List Bit) (pt : List (Option (List Bit))) {k : Nat} (hk : k < pt.length) :
    (t.fill p pt)[k]? = match t.path k with
      | some q => some (some (p ++ q))
      | none => pt[k]? := by
  induction t generalizing p pt with
  | leaf sym =>
    by_cases h : sym = k
    · subst h; simp [CodeTree.fill, CodeTree.path, hk]
    · simp [CodeTree.fill, CodeTree.path, h]
  | node l r ihl ihr =>
    have h1 := ihr (p ++ [true]) (l.fill (p ++ [false]) pt) (by simpa using hk)
    have h2 := ihl (p ++ [false]) pt hk
    simp only [CodeTree.fill, CodeTree.path]
    rw [h1]
    cases hr : r.path k with
    | some q => simp
    | none =>
      simp only
      rw [h2]
      cases hl : l.path k <;> simp

/-- Filling a cleared table gives the tree's table (spec/42_path_table.md R150). -/
theorem CodeTree.fill_cleared (t : CodeTree) (eofsym : Nat) :
    t.fill [] (List.replicate (eofsym + 1) none) = t.table eofsym := by
  apply List.ext_getElem?
  intro k
  by_cases hk : k < eofsym + 1
  · rw [t.fill_getElem? _ _ (by simpa using hk)]
    cases h : t.path k <;> simp [CodeTree.table, hk, h]
  · have h1 : (t.fill [] (List.replicate (eofsym + 1) none)).length ≤ k := by simp; omega
    have h2 : (t.table eofsym).length ≤ k := by simp [CodeTree.table]; omega
    rw [List.getElem?_eq_none h1, List.getElem?_eq_none h2]

theorem travel_treeAt {fuel : Nat} {r : NodeRef} {t : CodeTree} (p : List Bit) (h : treeAt s.nodes fuel r = some t) :
    travel fuel r p s = .ok () (s.setPt (t.fill p s.pt)) := by
  induction fuel generalizing r t p s with
  | zero => simp [treeAt] at h
  | succ fuel ih =>
    obtain ⟨n, hn, ⟨hk, rfl⟩ | ⟨hk, a, b, ha, hb, rfl⟩⟩ := treeAt_succ h
    · unfold travel
      rw [bind_of_ok (nodeRead_some hn)]
      simp [hk, CodeTree.fill]
    · unfold travel
      rw [bind_of_ok (nodeRead_some hn)]
      simp only [hk]
      rw [bind_of_ok (ih (p ++ [false]) ha), ih (s := s.setPt (a.fill (p ++ [false]) s.pt)) (p ++ [true]) (by simpa using hb)]
      simp [CodeTree.fill, State.setPt]

theorem buildTable_tree {t : CodeTree} (hns : s.next ≤ 0xFFFF) (h : s.tree? s.rootRef = some t) :
    buildTable s = .ok () (s.setPt (t.table s.cfg.eofsym)) := by
  have hnil : s.rootRef ≠ NIL := treeAt_ne_nil hns h
  unfold buildTable
  simp only [get_bind_apply, hnil, if_false]
  rw [bind_of_ok (modify_apply _),
    travel_treeAt (s := s.setPt (List.replicate (s.cfg.eofsym + 1) none)) (t := t) [] (by simpa [State.tree?] using h)]
  simp [State.setPt, ← CodeTree.fill_cleared]

theorem buildTable_nil (hw : s.hostQuiet = true) (h : s.rootRef = NIL) :
    buildTable s = .error (.raised .noTree) s := by
  unfold buildTable
  simp only [get_bind_apply, h, if_true]
  exact raise_quiet _ hw

end Sys2Proof.Machine
end

