-- ==== Sys2Proof/Laws/Streams.lean ====
section
/-!
SUPPORT. Reading what was written: InRead after OutWrite (spec/20_memory.md R74, R76), ReadNode on a tree's encoding
(spec/43_serialize.md R172, R173), and the decoder on a path (spec/44_decode.md R190, R195).
-/

namespace Sys2Proof.Machine

variable {s : State}

/-! ### Numbers and bits -/

theorem foldl_toBits (n v acc : Nat) :
    (toBits n v).foldl (fun acc b => 2 * acc + b.toNat) acc = acc * 2 ^ n + v % 2 ^ n := by
  induction n generalizing acc with
  | zero => simp [toBits, Nat.mod_one]
  | succ n ih =>
    rw [toBits, List.foldl_cons, ih, Nat.mod_pow_succ, Nat.testBit_eq_decide_div_mod_eq]
    rcases Nat.mod_two_eq_zero_or_one (v / 2 ^ n) with h | h <;> simp [h, pow_succ] <;> ring

/-- What `toBits` writes, `ofBits` reads back, cut to its width. -/
theorem ofBits_toBits (n v : Nat) : ofBits (toBits n v) = v % 2 ^ n := by
  simpa [ofBits] using foldl_toBits n v 0

/-- Reading a field the input holds at its position. -/
theorem inRead_field {n : Nat} {bits rest : List Bit} (hw : s.hostQuiet = true) (hn : 0 < n) (hb : bits.length = n)
    (hin : s.input.drop s.pos = bits ++ rest) :
    inRead n s = .ok (some (ofBits bits)) (s.setIpos (s.pos + n)) := by
  have hlen : (s.input.drop s.pos).length = n + rest.length := by rw [hin]; simp [hb]
  rw [List.length_drop] at hlen
  rw [inRead_bits hw (by omega), hin]
  simp [← hb]

/-- The input after a field has been read. -/
theorem drop_field {input bits rest : List Bit} {k n : Nat} (hb : bits.length = n)
    (hin : input.drop k = bits ++ rest) : input.drop (k + n) = rest := by
  rw [← List.drop_drop, hin, ← hb]
  simp

/-! ### ReadNode -/

@[simp] theorem CodeTree.pool_length (c : Config) (base : Nat) (owned : Bool) (t : CodeTree) :
    (t.pool c base owned).length = t.size := by
  induction t generalizing base owned with
  | leaf sym => rfl
  | node l r ihl ihr => simp [CodeTree.pool, CodeTree.size, ihl, ihr]; omega

theorem CodeTree.size_pos (t : CodeTree) : 0 < t.size := by cases t <;> simp [CodeTree.size]

/-- Setting OWNED on the root of a reconstructed tree. -/
theorem CodeTree.pool_own (c : Config) (base : Nat) (t : CodeTree) :
    (t.pool c base false).modify 0 (fun n => { n with owned := true }) = t.pool c base true := by
  cases t <;> rfl

/-- Changing a record of the second of two parts of a pool. -/
theorem modify_append_right {α : Type} (a b : List α) (k : Nat) (f : α → α) :
    (a ++ b).modify (a.length + k) f = a ++ b.modify k f := by
  induction a with
  | nil => simp
  | cons x a ih => rw [List.cons_append, List.length_cons, Nat.add_right_comm, List.modify_succ_cons, ih]; rfl

/-- Changing a record of the first of two parts of a pool. -/
theorem modify_append_left {α : Type} (a b : List α) {k : Nat} (hk : k < a.length) (f : α → α) :
    (a ++ b).modify k f = a.modify k f ++ b := by
  induction a generalizing k with
  | nil => simp at hk
  | cons x a ih =>
    cases k with
    | zero => rfl
    | succ k => simp only [List.cons_append, List.modify_succ_cons]; rw [ih (by simpa using hk)]

/-- The records of an internal node being filled: its record after its subtrees' are attached and owned. -/
theorem modify_attach {α : Type} (ns : List α) (x : α) (l r : List α) (fl fr own : α → α) :
    ((((((ns ++ [x]) ++ l).modify ns.length fl).modify (ns.length + 1) own) ++ r).modify ns.length fr).modify
      (ns.length + 1 + l.length) own = ns ++ fr (fl x) :: (l.modify 0 own ++ r.modify 0 own) := by
  have h1 : ((ns ++ [x]) ++ l).modify ns.length fl = (ns ++ [fl x]) ++ l := by
    rw [List.append_assoc, ← Nat.add_zero ns.length, modify_append_right]
    simp
  have h2 : ((ns ++ [fl x]) ++ l).modify (ns.length + 1) own = (ns ++ [fl x]) ++ l.modify 0 own := by
    have := modify_append_right (ns ++ [fl x]) l 0 own
    simpa using this
  have h3 : ((ns ++ [fl x]) ++ l.modify 0 own ++ r).modify ns.length fr = (ns ++ [fr (fl x)]) ++ l.modify 0 own ++ r := by
    rw [List.append_assoc, List.append_assoc, ← Nat.add_zero ns.length, modify_append_right]
    simp
  have h4 := modify_append_right ((ns ++ [fr (fl x)]) ++ l.modify 0 own) r 0 own
  rw [h1, h2, h3]
  simp only [List.length_append, List.length_modify, List.length_cons, List.length_nil, Nat.add_zero] at h4
  rw [h4]
  simp

theorem toNat_ref {n : Nat} (h : n ≤ 0xFFFE) : (BitVec.ofNat 16 n).toNat = n := by
  simp; omega

theorem pushNode_apply (r : NodeRef) : pushNode r s = .ok () (s.setStack ((r, .leftChild) :: s.stack)) := rfl
theorem awaitRight_apply (r : NodeRef) : awaitRight r s = .ok () (s.setStack ((r, .rightChild) :: s.stack.tail)) := rfl
theorem popNode_apply : popNode s = .ok () (s.setStack s.stack.tail) := rfl

/-- ReadNode on the encoding of a tree (R172, R173): it consumes exactly the encoding and allocates the tree's records in
pre-order. -/
theorem readNode_enc {t : CodeTree} {fuel : Nat} {rest : List Bit} (hw : s.hostQuiet = true)
    (hin : s.input.drop s.pos = t.enc s.cfg.sw ++ rest) (hsym : ∀ x ∈ t.symbols, x ≤ s.cfg.eofsym)
    (hroom : s.next + t.size ≤ s.cfg.ncap) (hcap : s.cfg.ncap ≤ 0xFFFE) (hfuel : t.size ≤ fuel)
    (hpos : s.pos + t.bits s.cfg.sw < 2 ^ 64) :
    readNode fuel s = .ok (BitVec.ofNat 16 s.next)
      ((s.setNodes (s.nodes ++ t.pool s.cfg s.next false)).setIpos (s.pos + t.bits s.cfg.sw)) := by
  induction t generalizing fuel s rest with
  | leaf sym =>
    obtain ⟨fuel, rfl⟩ : ∃ k, fuel = k + 1 := ⟨fuel - 1, by simp [CodeTree.size] at hfuel; omega⟩
    have hle : sym ≤ 2 ^ s.cfg.sw := hsym sym (by simp [CodeTree.symbols])
    have hmod : sym % 2 ^ (s.cfg.sw + 1) = sym :=
      Nat.mod_eq_of_lt (by rw [pow_succ]; have := Nat.two_pow_pos s.cfg.sw; omega)
    have hin1 : s.input.drop s.pos = [true] ++ (toBits (s.cfg.sw + 1) sym ++ rest) := hin
    have hin2 := drop_field (n := 1) rfl hin1
    have hpos' : s.pos + (s.cfg.sw + 1 + 1) < 2 ^ 64 := hpos
    have h1 : (s.setIpos (s.pos + 1)).pos = s.pos + 1 := State.setIpos_toNat s (by omega)
    unfold readNode
    rw [bind_of_ok (inRead_field (n := 1) hw (by decide) rfl hin1)]
    simp only [show ofBits [true] = 1 from rfl, get_bind_apply]
    rw [bind_of_ok (inRead_field (s := s.setIpos (s.pos + 1)) (n := (s.setIpos (s.pos + 1)).cfg.sw + 1)
      (bits := toBits (s.cfg.sw + 1) sym) (rest := rest) (by simpa using hw) (by simp) (by simp) (by rw [h1]; exact hin2))]
    have hgt : ¬ (sym > (s.setIpos (s.pos + 1)).cfg.eofsym) := Nat.not_lt.mpr hle
    simp only [ofBits_toBits, hmod]
    rw [if_neg hgt, alloc_room (by simpa [CodeTree.size] using hroom), h1]
    simp only [State.setIpos_cfg, show s.pos + 1 + (s.cfg.sw + 1) = s.pos + (s.cfg.sw + 1 + 1) by omega]
    rfl
  | node l r ihl ihr =>
    obtain ⟨fuel, rfl⟩ : ∃ k, fuel = k + 1 := ⟨fuel - 1, by simp [CodeTree.size] at hfuel; omega⟩
    have hl := l.size_pos
    have hr := r.size_pos
    simp only [CodeTree.size, State.next_eq] at hroom hfuel
    have hin1 : s.input.drop s.pos = [false] ++ (l.enc s.cfg.sw ++ (r.enc s.cfg.sw ++ rest)) := by
      simpa [CodeTree.enc] using hin
    have hin2 := drop_field (n := 1) rfl hin1
    have hin3 := drop_field (n := l.bits s.cfg.sw) (by simp) hin2
    simp only [CodeTree.bits, State.pos_eq] at hpos
    have hm1 : (s.ipos.toNat + 1) % 18446744073709551616 = s.ipos.toNat + 1 := by omega
    have hm2 : (s.ipos.toNat + 1 + l.bits s.cfg.sw) % 18446744073709551616 = s.ipos.toNat + 1 + l.bits s.cfg.sw := by omega
    unfold readNode
    rw [bind_of_ok (inRead_field (n := 1) hw (by decide) rfl hin1)]
    simp only [show ofBits [false] = 0 from rfl, get_bind_apply]
    rw [bind_of_ok (alloc_room (by simp; omega)), bind_of_ok (pushNode_apply _)]
    rw [bind_of_ok (ihl (rest := r.enc s.cfg.sw ++ rest) (by simpa using hw) (by simpa [hm1] using hin2)
      (fun x hx => by simpa using hsym x (by simp [CodeTree.symbols, hx])) (by simp; omega) (by simpa using hcap) (by omega)
      (by simp [hm1]; omega))]
    rw [bind_of_ok (nodeWrite_apply _ _), bind_of_ok (nodeWrite_apply _ _), bind_of_ok (awaitRight_apply _)]
    rw [bind_of_ok (ihr (rest := rest) (by simpa using hw) (by simpa [hm1, hm2] using hin3)
      (fun x hx => by simpa using hsym x (by simp [CodeTree.symbols, hx])) (by simp; omega) (by simpa using hcap) (by omega)
      (by simp [hm1, hm2]; omega))]
    rw [bind_of_ok (nodeWrite_apply _ _), bind_of_ok (nodeWrite_apply _ _), bind_of_ok popNode_apply]
    simp only [pure_apply]
    have hattach := modify_attach s.nodes ⟨.internal, s.cfg.symPlaceholder, s.cfg.freqPlaceholder, NIL, NIL, false⟩
      (l.pool s.cfg (s.nodes.length + 1) false) (r.pool s.cfg (s.nodes.length + 1 + l.size) false)
      (fun n => { n with left := BitVec.ofNat 16 (s.nodes.length + 1) })
      (fun n => { n with right := BitVec.ofNat 16 (s.nodes.length + 1 + l.size) })
      (fun n => { n with owned := true })
    have h0 := toNat_ref (n := s.nodes.length) (by omega)
    have h1 := toNat_ref (n := s.nodes.length + 1) (by omega)
    have h2 := toNat_ref (n := s.nodes.length + 1 + l.size) (by omega)
    simp only [State.setIpos, State.setNodes, State.setStack, State.next, List.length_append, List.length_modify,
      List.length_cons, List.length_nil, CodeTree.pool_length, Nat.zero_add, h0, h1, h2, List.tail_cons]
    rw [CodeTree.pool_own, CodeTree.pool_own, CodeTree.pool_length] at hattach
    simp only [EStateM.Result.ok.injEq, State.mk.injEq, true_and, and_true, hattach, CodeTree.pool, CodeTree.bits]
    simp only [State.pos, BitVec.toNat_ofNat, Nat.reducePow, hm1, hm2]
    congr 1
    omega

end Sys2Proof.Machine
end

