-- ==== Sys2Proof/Laws/Decoder.lean ====
section
/-!
SUPPORT. One turn of the payload decoder, and its walk along a path (spec/44_decode.md R190).
-/

namespace Sys2Proof.Machine

variable {s : State} {cur : NodeRef} {n : NodeRec}

/-- At the EOF leaf the decoder returns. -/
theorem decodeTurn_eof (hw : s.hostQuiet = true) (hc : s.cursor = some cur) (hn : s.nodes[cur.toNat]? = some n)
    (hk : n.kind = .leaf) (he : n.sym = s.cfg.eofsym) : decodeTurn s = .ok true s := by
  unfold decodeTurn
  rw [bind_of_ok (point_quiet hw)]
  simp only [get_bind_apply, hc]
  rw [bind_of_ok (nodeRead_some hn)]
  simp [hk, he]

/-- At another leaf the decoder emits its symbol and goes back to the root; no bit is consumed. -/
theorem decodeTurn_leaf (hw : s.hostQuiet = true) (hc : s.cursor = some cur) (hn : s.nodes[cur.toNat]? = some n)
    (hk : n.kind = .leaf) (he : n.sym ≠ s.cfg.eofsym) :
    decodeTurn s = .ok false ((s.send (toBits s.cfg.sw n.sym)).setDecode (some s.rootRef) (s.decoded + 1)) := by
  unfold decodeTurn
  rw [bind_of_ok (point_quiet hw)]
  simp only [get_bind_apply, hc]
  rw [bind_of_ok (nodeRead_some hn)]
  simp only [hk, he, if_false]
  rw [bind_of_ok (outWrite_quiet _ _ hw), bind_of_ok (change_quiet _ (by simpa using hw))]
  rfl

/-- At an internal node with a bit left the decoder goes to the child the bit selects. -/
theorem decodeTurn_child {b : Bit} (hw : s.hostQuiet = true) (hc : s.cursor = some cur) (hn : s.nodes[cur.toNat]? = some n)
    (hk : n.kind = .internal) (hb : s.input[s.pos]? = some b) (hchild : (if b then n.right else n.left) ≠ NIL) :
    decodeTurn s = .ok false
      ((s.setIpos (s.pos + 1)).setDecode (some (if b then n.right else n.left)) s.decoded) := by
  have hlt := (List.getElem?_eq_some_iff.mp hb).1
  have htake : (s.input.drop s.pos).take 1 = [b] := by
    rw [List.drop_eq_getElem_cons hlt]
    simp [(List.getElem?_eq_some_iff.mp hb).2]
  unfold decodeTurn
  rw [bind_of_ok (point_quiet hw)]
  simp only [get_bind_apply, hc]
  rw [bind_of_ok (nodeRead_some hn)]
  simp only [hk]
  rw [bind_of_ok (inRead_bits hw (by omega)), htake]
  cases b with
  | false =>
    have h : n.left ≠ NIL := by simpa using hchild
    simp only [show ofBits [false] = 0 from rfl, if_true, h, if_false]
    rw [bind_of_ok (change_quiet _ (by simpa using hw))]
    rfl
  | true =>
    have h : n.right ≠ NIL := by simpa using hchild
    simp only [show ofBits [true] = 1 from rfl, Nat.one_ne_zero, h, if_false]
    rw [bind_of_ok (change_quiet _ (by simpa using hw))]
    rfl

/-- At an internal node with no bit left the decode faults. -/
theorem decodeTurn_exhausted (hw : s.hostQuiet = true) (hc : s.cursor = some cur) (hn : s.nodes[cur.toNat]? = some n)
    (hk : n.kind = .internal) (hl : s.input.length ≤ s.pos) :
    decodeTurn s = .error (.raised .inputExhausted) s := by
  unfold decodeTurn
  rw [bind_of_ok (point_quiet hw)]
  simp only [get_bind_apply, hc]
  rw [bind_of_ok (nodeRead_some hn)]
  simp only [hk]
  rw [bind_of_ok (inRead_eof hw (by omega))]
  exact raise_quiet _ hw

/-- A turn that does not end the loop is followed by the others. -/
theorem decodeTurns_go {fuel : Nat} {t : State} (h : decodeTurn s = .ok false t) : decodeTurns (fuel + 1) s = decodeTurns fuel t := by
  rw [decodeTurns, bind_of_ok h]
  simp

/-- A turn that ends the loop ends it. -/
theorem decodeTurns_end {fuel : Nat} {t : State} (h : decodeTurn s = .ok true t) : decodeTurns (fuel + 1) s = .ok true t := by
  rw [decodeTurns, bind_of_ok h]
  simp

end Sys2Proof.Machine
end

