-- ==== Sys2Proof/Laws/Keeps.lean ====
section
/-!
SUPPORT. What every way a piece of a command can end keeps: the induction over a command's rule, packaged once. `Keeps R c`
says that `R` relates the state a rule starts in to the state it has reached, however it ends; a whole-machine rule (OLOG only
grows, the parameters stay) is then a small goal per primitive.
-/

namespace Sys2Proof.Machine

/-- The state a rule has reached, however it ended. -/
def reached {α : Type} (r : EStateM.Result Stop State α) : State :=
  match r with
  | .ok _ t => t
  | .error _ t => t

@[simp] theorem reached_ok {α : Type} (a : α) (t : State) : reached (.ok a t : EStateM.Result Stop State α) = t := rfl
@[simp] theorem reached_error {α : Type} (e : Stop) (t : State) :
    reached (.error e t : EStateM.Result Stop State α) = t := rfl

/-- `R` holds between the state before `c` and the state `c` reaches. -/
def Keeps (R : State → State → Prop) {α : Type} (c : Cmd α) : Prop := ∀ s, R s (reached (c s))

variable {R : State → State → Prop} {α β : Type}

theorem keeps_pure (hr : ∀ s, R s s) (a : α) : Keeps R (pure a : Cmd α) := fun s => hr s

theorem keeps_get (hr : ∀ s, R s s) : Keeps R (get : Cmd State) := fun s => hr s

theorem keeps_throw (hr : ∀ s, R s s) (e : Stop) : Keeps R (throw e : Cmd α) := fun s => hr s

theorem keeps_modify {f : State → State} (hf : ∀ s, R s (f s)) : Keeps R (modify f : Cmd PUnit) := fun s => hf s

theorem keeps_bind (ht : ∀ a b c, R a b → R b c → R a c) {x : Cmd α} {f : α → Cmd β} (hx : Keeps R x)
    (hf : ∀ a, Keeps R (f a)) : Keeps R (x >>= f) := by
  intro s
  have h := hx s
  cases hs : x s with
  | ok a t =>
    rw [hs] at h
    rw [bind_of_ok hs]
    exact ht _ _ _ h (hf a t)
  | error e t =>
    rw [hs] at h
    rw [bind_of_error hs]
    exact h

theorem keeps_ite {p : Prop} [Decidable p] {x y : Cmd α} (hx : Keeps R x) (hy : Keeps R y) :
    Keeps R (if p then x else y) := by
  split
  · exact hx
  · exact hy

/-- A point keeps what the host's own changes keep: its list of acts, ARG0, ARG1, what it has seen, the draws. -/
theorem keeps_point (hr : ∀ s, R s s)
    (hh : ∀ s h a0 a1 l d, R s { s with host := h, arg0 := a0, arg1 := a1, seen := l, draws := d }) : Keeps R point := by
  intro s
  unfold point
  split
  · split
    · next act rest _ =>
      cases act with
      | hardReset => exact hh s rest s.arg0 s.arg1 s.seen s.draws
      | attach bits => exact hh s rest s.arg0 s.arg1 s.seen s.draws
      | read addr size =>
        simp only [landBusy]
        split
        · exact hh s rest s.arg0 s.arg1 s.seen s.draws
        · exact hh s rest s.arg0 s.arg1 _ _
      | write addr size v =>
        simp only [landBusy]
        split
        · exact hh s rest s.arg0 s.arg1 s.seen s.draws
        · exact hh s rest s.arg0 s.arg1 s.seen s.draws
        · next off _ _ =>
          simp only [reached_ok]
          unfold regWrite
          split
          · exact hh s rest v s.arg1 s.seen s.draws
          · exact hh s rest s.arg0 v s.seen s.draws
          · exact hh s rest s.arg0 s.arg1 s.seen s.draws
    · next k act rest _ => exact hh s _ s.arg0 s.arg1 s.seen s.draws
    · exact hr s
    · exact hr s
  · exact hr s

theorem keeps_change (ht : ∀ a b c, R a b → R b c → R a c) {f : State → State} (hp : Keeps R point)
    (hf : ∀ s, R s (f s)) : Keeps R (change f) := keeps_bind ht hp fun _ => keeps_modify hf

theorem keeps_raise (ht : ∀ a b c, R a b → R b c → R a c) (hr : ∀ s, R s s) (hp : Keeps R point) (f : FaultCode) :
    Keeps R (raise f : Cmd α) := keeps_bind ht hp fun _ => keeps_throw hr _

/-- What a command that answers a next state has kept, its end included. -/
theorem keeps_runCmd {c : Cmd Unit} {s t : State} (ht : ∀ a b c, R a b → R b c → R a c) (hp : Keeps R point)
    (hc : Keeps R c) (hfault : ∀ f s, R s (takeFault f s)) (hreset : ∀ s, R s (resetHcc s))
    (h : runCmd c s = .next t) : R s t := by
  have hk : Keeps R (do
      point
      c) := keeps_bind ht hp fun _ => hc
  have hs := hk s
  unfold runCmd at h
  obtain h1 | ⟨f, u, h1, rfl⟩ | ⟨u, h1, rfl⟩ := settle_next h
  · rw [h1] at hs
    exact hs
  · rw [h1] at hs
    exact ht _ _ _ hs (hfault f u)
  · rw [h1] at hs
    exact ht _ _ _ hs (hreset u)

end Sys2Proof.Machine
end

