-- ==== Sys2Proof/Laws/PerInstr.lean ====
section
/-!
SUPPORT. Statements made for every command, one lemma per constructor (LAWS.json).

EncodesToItsTableRow: a command is well formed, and its word is matched by a row of the opcode table of its own mnemonic
(spec/30_encoding.md R92, spec/opcode_table.json).
-/

/-- The word of `i` is matched by the opcode table's row of `i`. -/
def Sys2Proof.Laws.EncodesToItsTableRow.Statement (i : Sys2Proof.Instr) : Prop :=
  i.wf = true ∧
    (Sys2Proof.opcodeTable.any fun r =>
      r.mnemonic == Sys2Proof.mnemonicOf i && r.matches (Sys2Proof.encode i)) = true

theorem Sys2Proof.Laws.EncodesToItsTableRow.plan (fmt : HeaderFormat) :
    Sys2Proof.Laws.EncodesToItsTableRow.Statement (.plan fmt) := by
  cases fmt <;> exact ⟨rfl, by decide⟩

theorem Sys2Proof.Laws.EncodesToItsTableRow.compress (ovr : Bool) :
    Sys2Proof.Laws.EncodesToItsTableRow.Statement (.compress ovr) := by
  cases ovr <;> exact ⟨rfl, by decide⟩

theorem Sys2Proof.Laws.EncodesToItsTableRow.decompress : Sys2Proof.Laws.EncodesToItsTableRow.Statement .decompress :=
  ⟨rfl, by decide⟩

theorem Sys2Proof.Laws.EncodesToItsTableRow.softReset : Sys2Proof.Laws.EncodesToItsTableRow.Statement .softReset :=
  ⟨rfl, by decide⟩

theorem Sys2Proof.Laws.EncodesToItsTableRow.nodeLeaf : Sys2Proof.Laws.EncodesToItsTableRow.Statement .nodeLeaf :=
  ⟨rfl, by decide⟩

theorem Sys2Proof.Laws.EncodesToItsTableRow.nodeInfo : Sys2Proof.Laws.EncodesToItsTableRow.Statement .nodeInfo :=
  ⟨rfl, by decide⟩

theorem Sys2Proof.Laws.EncodesToItsTableRow.qEnqueue : Sys2Proof.Laws.EncodesToItsTableRow.Statement .qEnqueue :=
  ⟨rfl, by decide⟩

theorem Sys2Proof.Laws.EncodesToItsTableRow.qDequeue : Sys2Proof.Laws.EncodesToItsTableRow.Statement .qDequeue :=
  ⟨rfl, by decide⟩

theorem Sys2Proof.Laws.EncodesToItsTableRow.qFront : Sys2Proof.Laws.EncodesToItsTableRow.Statement .qFront :=
  ⟨rfl, by decide⟩

theorem Sys2Proof.Laws.EncodesToItsTableRow.qIsEmpty : Sys2Proof.Laws.EncodesToItsTableRow.Statement .qIsEmpty :=
  ⟨rfl, by decide⟩

theorem Sys2Proof.Laws.EncodesToItsTableRow.qSize : Sys2Proof.Laws.EncodesToItsTableRow.Statement .qSize :=
  ⟨rfl, by decide⟩

theorem Sys2Proof.Laws.EncodesToItsTableRow.tCreate : Sys2Proof.Laws.EncodesToItsTableRow.Statement .tCreate :=
  ⟨rfl, by decide⟩

theorem Sys2Proof.Laws.EncodesToItsTableRow.tTravel : Sys2Proof.Laws.EncodesToItsTableRow.Statement .tTravel :=
  ⟨rfl, by decide⟩

theorem Sys2Proof.Laws.EncodesToItsTableRow.pathRead : Sys2Proof.Laws.EncodesToItsTableRow.Statement .pathRead :=
  ⟨rfl, by decide⟩

theorem Sys2Proof.Laws.EncodesToItsTableRow.tEmit : Sys2Proof.Laws.EncodesToItsTableRow.Statement .tEmit :=
  ⟨rfl, by decide⟩

theorem Sys2Proof.Laws.EncodesToItsTableRow.tCountBits : Sys2Proof.Laws.EncodesToItsTableRow.Statement .tCountBits :=
  ⟨rfl, by decide⟩

theorem Sys2Proof.Laws.EncodesToItsTableRow.tWrite : Sys2Proof.Laws.EncodesToItsTableRow.Statement .tWrite :=
  ⟨rfl, by decide⟩

theorem Sys2Proof.Laws.EncodesToItsTableRow.tRecreate : Sys2Proof.Laws.EncodesToItsTableRow.Statement .tRecreate :=
  ⟨rfl, by decide⟩

theorem Sys2Proof.Laws.EncodesToItsTableRow.tDecode : Sys2Proof.Laws.EncodesToItsTableRow.Statement .tDecode :=
  ⟨rfl, by decide⟩

theorem Sys2Proof.Laws.EncodesToItsTableRow.freqRead : Sys2Proof.Laws.EncodesToItsTableRow.Statement .freqRead :=
  ⟨rfl, by decide⟩

theorem Sys2Proof.Laws.EncodesToItsTableRow.inRewind : Sys2Proof.Laws.EncodesToItsTableRow.Statement .inRewind :=
  ⟨rfl, by decide⟩
end

