-- ==== Sys2Proof/Laws/Port.lean ====
section
/-!
SUPPORT. The host port: what lands at a point, what a step does with the host's next act, and the register space.
-/

namespace Sys2Proof.Machine

variable {s : State}

/-- The host's next act lands at a point when its gap is 0. -/
theorem point_lands {act : HostAct} {rest : List HostEvent} (hb : s.busy = true) (hh : s.host = ⟨some 0, act⟩ :: rest) :
    point s = landBusy act (s.setHost rest) := by
  simp [point, hb, hh]

/-- An act that stops the command at its first point decides how the command ends, whatever its rule. -/
theorem runCmd_stops {act : HostAct} {rest : List HostEvent} {e : Stop} {t : State} (c : Cmd Unit) (hb : s.busy = true)
    (hh : s.host = ⟨some 0, act⟩ :: rest) (he : landBusy act (s.setHost rest) = .error e t) :
    runCmd c s = settle (.error e t) := by
  unfold runCmd
  rw [bind_of_error ((point_lands hb hh).trans he)]

/-- An act that does not stop the command leaves it to run from the state the act left, nothing else landing. -/
theorem runCmd_goes_on {act : HostAct} {rest : List HostEvent} {t : State} (c : Cmd Unit) (hb : s.busy = true)
    (hh : s.host = ⟨some 0, act⟩ :: rest) (ht : landBusy act (s.setHost rest) = .ok () t) (hw : t.hostQuiet = true) :
    runCmd c s = runCmd c t := by
  rw [runCmd_quiet c hw]
  unfold runCmd
  rw [bind_of_ok ((point_lands hb hh).trans ht)]

/-- At any point: an act that lands and does not stop the command leaves what follows the point to run from where it left. -/
theorem point_then {α : Type} {act : HostAct} {rest : List HostEvent} {t : State} (c : Cmd α) (hb : s.busy = true)
    (hh : s.host = ⟨some 0, act⟩ :: rest) (ht : landBusy act (s.setHost rest) = .ok () t) :
    (do point; c) s = c t :=
  bind_of_ok ((point_lands hb hh).trans ht)

/-- `t` is `s` but for what a host that waits changes inside a command: its list, what it has seen, the draws, ARG0, ARG1. -/
def HostApart (s t : State) : Prop :=
  t = { s with host := t.host, seen := t.seen, draws := t.draws, arg0 := t.arg0, arg1 := t.arg1 }

/-- An act that passes ends no command and sets the two states apart only so far. -/
theorem landBusy_passes {act : HostAct} (h : act.passes s.cfg = true) :
    ∃ t, landBusy act s = .ok () t ∧ t.host = s.host ∧ HostApart s t := by
  cases act with
  | hardReset => simp [HostAct.passes] at h
  | attach bits => simp [HostAct.passes] at h
  | read addr size =>
    obtain ⟨off, ho⟩ := Option.isSome_iff_exists.mp h
    exact ⟨(s.noteRead addr (regReadBusy s off)).draw 1, by simp [landBusy, ho], rfl, rfl⟩
  | write addr size v =>
    simp only [HostAct.passes, HostAct.isCmdWrite, Bool.and_eq_true, Bool.not_eq_true', beq_eq_false_iff_ne, ne_eq] at h
    obtain ⟨off, ho⟩ := Option.isSome_iff_exists.mp h.1
    cases off with
    | zero => exact absurd ho h.2
    | succ k =>
      refine ⟨regWrite s (k + 1) v, by simp [landBusy, ho], ?_, ?_⟩ <;> unfold regWrite <;> split <;> rfl

/-- Under `hostPasses` a point never stops a command: it sets the states apart as far as the host's own acts do, and the host
goes on to be one that passes. -/
theorem point_passes (h : s.hostPasses = true) : ∃ t, point s = .ok () t ∧ t.hostPasses = true ∧ HostApart s t := by
  unfold point
  split
  · split
    · next act rest hh =>
      simp only [State.hostPasses, hh, List.all_cons, Bool.and_eq_true, Option.isNone_some, Bool.false_or] at h
      obtain ⟨t, ht, hhost, ha⟩ := landBusy_passes (s := s.setHost rest) h.1
      refine ⟨t, ht, ?_, ?_⟩
      · have hc : t.cfg = s.cfg := by rw [ha]; rfl
        have hr : t.host = rest := hhost
        simpa only [State.hostPasses, hc, hr] using h.2
      · rw [HostApart] at ha ⊢
        rw [ha]
        rfl
    · next k act rest hh =>
      exact ⟨_, rfl, by simpa [State.hostPasses, hh] using h, rfl⟩
    · exact ⟨s, rfl, h, rfl⟩
    · exact ⟨s, rfl, h, rfl⟩
  · exact ⟨s, rfl, h, rfl⟩

/-- A supported access, by its offset. -/
theorem offsetOf_at {c : Config} {off : Nat} (h4 : off % 4 = 0) (hle : off ≤ 0xFC) : offsetOf c (c.hccBase + off) 4 = some off := by
  simp [offsetOf, Config.accessOk, h4, hle]

/-- A write of CMD, by its address. -/
theorem offsetOf_cmd {c : Config} : offsetOf c c.hccBase 4 = some 0 := by
  simp [offsetOf, Config.accessOk]

/-- An idle step performs the host's next act. -/
theorem step_idle {e : HostEvent} {rest : List HostEvent} (hb : s.busy = false) (hh : s.host = e :: rest) :
    step s = hostAct e.act (s.setHost rest) := by
  simp [step, stepMachine, hb, hh]

theorem step_busy (hb : s.busy = true) : step s = resumeDecode s := by
  simp [step, stepMachine, hb]

/-- A write of CMD while nothing executes. -/
theorem step_cmd {gap : Option Nat} {w : Word} {rest : List HostEvent} (hb : s.busy = false)
    (hh : s.host = ⟨gap, .write s.cfg.hccBase 4 w⟩ :: rest) : step s = onCmdWrite w (s.setHost rest) := by
  rw [step_idle hb hh]
  simp [hostAct, offsetOf_cmd]

/-- Reserved offsets read 0 (spec/10_state.md R48). -/
theorem regRead_reserved {off : Nat} (h : 0x40 ≤ off) : regRead s off = 0 := by
  unfold regRead
  split <;> first | rfl | omega

/-- A write of ARG0, ARG1 or any other offset. -/
theorem regWrite_eq (off : Nat) (v : Word) :
    regWrite s off v = { s with arg0 := if off = 0x08 then v else s.arg0, arg1 := if off = 0x0C then v else s.arg1 } := by
  unfold regWrite
  split
  · rfl
  · rfl
  · next h1 h2 => rw [if_neg (fun h => h1 h), if_neg (fun h => h2 h)]

end Sys2Proof.Machine
end

