-- ==== Sys2Proof/Tests/Slice0.lean ====
section
/-!
SUPPORT. Tests. Every expected value is copied from spec/ (the source stands in the comment: a vector V… of
spec/95_test_vectors.md or a rule's example); the witnesses at the end show, for every statement of the obligations that has
hypotheses, values that meet them, clause by clause.
-/

namespace Sys2Proof.Tests

open Sys2Proof Sys2Proof.Machine

set_option Elab.async false

/-! ### Helpers -/

/-- What `f` sees in the next state, none when the step stops. -/
def obs {α : Type} (o : Host.Outcome State Fault Refusal) (f : State → α) : Option α :=
  match o with
  | .next t => some (f t)
  | .fault _ => none
  | .refused _ => none

/-- What is seen is seen in a next state. -/
theorem next_of_obs {α : Type} {o : Host.Outcome State Fault Refusal} {f : State → α} {a : α} (h : obs o f = some a) :
    ∃ t : State, o = .next t ∧ f t = a := by
  cases o with
  | next t => exact ⟨t, rfl, by simpa [obs] using h⟩
  | fault e => simp [obs] at h
  | refused e => simp [obs] at h

/-- The command word `w` written to CMD, operands `a0` and `a1`, from state `s`: one step. -/
def run (s : State) (a0 a1 : Word) (w : Nat) : Host.Outcome State Fault Refusal :=
  step (({ s with arg0 := a0, arg1 := a1 } : State).withFetchWord 32 w)

/-- The bytes of `AAAAABBBCC` as port IN presents them (V1). -/
def v1Input : List Bit :=
  unpackBytes [0x41, 0x41, 0x41, 0x41, 0x41, 0x42, 0x42, 0x42, 0x43, 0x43]

/-- The bytes of V1's tree-shape stream, its pad bit left off. -/
def v1Stream : List Bit :=
  (unpackBytes [0xFA, 0xCE, 0x82, 0x00, 0x00, 0x00, 0x00, 0x01, 0x00, 0x00, 0x00, 0x2B, 0x48, 0x29, 0x09, 0x80, 0x48, 0x60,
    0xAB, 0xFC]).take 159

/-- V1's 43 tree bits: 0 1001000001 0 1001000010 0 1100000000 1001000011. -/
def v1TreeBits : List Bit := toBits 43 0b0100100000101001000010011000000001001000011

/-- V1's 20 bits of payload and EOF code. -/
def v1Payload : List Bit := toBits 20 0b00000101010111111110

/-- V1's records after PLAN. -/
def v1State : State :=
  { State.reset with
    nodes :=
      [⟨.leaf, 0x41, 5, NIL, NIL, true⟩, ⟨.leaf, 0x42, 3, NIL, NIL, true⟩, ⟨.leaf, 0x43, 2, NIL, NIL, true⟩,
       ⟨.leaf, 0x100, 1, NIL, NIL, true⟩, ⟨.internal, 0, 3, 3, 2, true⟩, ⟨.internal, 0, 6, 1, 4, true⟩,
       ⟨.internal, 0, 11, 0, 5, false⟩]
    rootRef := 6
    pt := (((State.reset.pt.set 0x41 (some [false])).set 0x42 (some [true, false])).set 0x43
      (some [true, true, true])).set 0x100 (some [true, true, false])
    freq := (((State.reset.freq.set 0x41 5).set 0x42 3).set 0x43 2).set 0x100 1 }

/-- V1's state after PLAN.TREE. -/
def v1Planned : State :=
  { v1State with input := v1Input, dstate := .planned, pfmt := .tree, bitsSaved := BitVec.ofInt 64 (-79), outcome := .ok }

/-- Four leaves of FREQ 2, 1, 2, 1, and a queue. -/
def fourLeaves (q : List NodeRef) : State :=
  { State.reset with
    nodes := [⟨.leaf, 0, 2, NIL, NIL, false⟩, ⟨.leaf, 1, 1, NIL, NIL, false⟩, ⟨.leaf, 2, 2, NIL, NIL, false⟩,
      ⟨.leaf, 3, 1, NIL, NIL, false⟩]
    queue := q
    dstate := .used }

/-! ### WellFormed: an ill-formed term for each check -/

/-- The smallest parameter set: SW = 1, IW = 8, NCAP = 5. -/
def tiny : Config := ⟨1, 8, 5, 0xA5, 0, 1, 3, 1, 0x100⟩

theorem test_tiny_valid : tiny.valid = true := by decide
theorem test_sw_low : ({ tiny with sw := 0 } : Config).valid = false := by decide
theorem test_sw_high : ({ tiny with sw := 15, iw := 32, ncap := 0xFFFE } : Config).valid = false := by decide
theorem test_iw_low : ({ tiny with iw := 7, magic := 0 } : Config).valid = false := by decide
theorem test_iw_high : ({ tiny with iw := 33 } : Config).valid = false := by decide
theorem test_ncap_low : ({ tiny with ncap := 4 } : Config).valid = false := by decide
theorem test_ncap_high : ({ tiny with iw := 32, ncap := 0xFFFF } : Config).valid = false := by decide
theorem test_iw_for_ncap : ({ tiny with ncap := 86 } : Config).valid = false := by decide
theorem test_magic_wide : ({ tiny with magic := 256 } : Config).valid = false := by decide
theorem test_selector_wide : ({ tiny with selCounts := 256 } : Config).valid = false := by decide
theorem test_selectors_equal : ({ tiny with selTree := 0 } : Config).valid = false := by decide
theorem test_freq_placeholder_wide : ({ tiny with freqPlaceholder := 2 ^ 10 } : Config).valid = false := by decide
theorem test_sym_placeholder_wide : ({ tiny with symPlaceholder := 4 } : Config).valid = false := by decide
theorem test_access_ok : tiny.accessOk 0x1FC 4 = true := by decide
theorem test_access_size : tiny.accessOk 0x104 2 = false := by decide
theorem test_access_unaligned : tiny.accessOk 0x106 4 = false := by decide
theorem test_access_below : tiny.accessOk 0xFC 4 = false := by decide
theorem test_access_above : tiny.accessOk 0x200 4 = false := by decide
/-- The command word has no ill-formed command: what is no command is what the decoder refuses (R101), by name. -/
theorem test_word_refused_by_name : decode 0xFFFFFFFF = .error .reservedBits := by decide

/-! ### Decoding: words written out bit by bit, RSV FMT OVR OP (R91, R92) -/

theorem test_decode_plan_counts : decode 0b0000000000000000000000_0_0_00000001 = .ok (.plan .counts) := by decide
theorem test_decode_plan_tree : decode 0b0000000000000000000000_1_0_00000001 = .ok (.plan .tree) := by decide
theorem test_decode_compress : decode 0b0000000000000000000000_0_0_00000010 = .ok (.compress false) := by decide
theorem test_decode_compress_ovr : decode 0b0000000000000000000000_0_1_00000010 = .ok (.compress true) := by decide
theorem test_decode_decompress : decode 0b0000000000000000000000_0_0_00000011 = .ok .decompress := by decide
theorem test_decode_soft_reset : decode 0b0000000000000000000000_0_0_00000100 = .ok .softReset := by decide
theorem test_decode_node_leaf : decode 0b0000000000000000000000_0_0_00010000 = .ok .nodeLeaf := by decide
theorem test_decode_node_info : decode 0b0000000000000000000000_0_0_00010001 = .ok .nodeInfo := by decide
theorem test_decode_q_enqueue : decode 0b0000000000000000000000_0_0_00011000 = .ok .qEnqueue := by decide
theorem test_decode_q_dequeue : decode 0b0000000000000000000000_0_0_00011001 = .ok .qDequeue := by decide
theorem test_decode_q_front : decode 0b0000000000000000000000_0_0_00011010 = .ok .qFront := by decide
theorem test_decode_q_isempty : decode 0b0000000000000000000000_0_0_00011011 = .ok .qIsEmpty := by decide
theorem test_decode_q_size : decode 0b0000000000000000000000_0_0_00011100 = .ok .qSize := by decide
theorem test_decode_t_create : decode 0b0000000000000000000000_0_0_00100000 = .ok .tCreate := by decide
theorem test_decode_t_travel : decode 0b0000000000000000000000_0_0_00101000 = .ok .tTravel := by decide
theorem test_decode_path_read : decode 0b0000000000000000000000_0_0_00101001 = .ok .pathRead := by decide
theorem test_decode_t_emit : decode 0b0000000000000000000000_0_0_00101010 = .ok .tEmit := by decide
theorem test_decode_t_count_bits : decode 0b0000000000000000000000_0_0_00110000 = .ok .tCountBits := by decide
theorem test_decode_t_write : decode 0b0000000000000000000000_0_0_00110001 = .ok .tWrite := by decide
theorem test_decode_t_recreate : decode 0b0000000000000000000000_0_0_00110010 = .ok .tRecreate := by decide
theorem test_decode_t_decode : decode 0b0000000000000000000000_0_0_00111000 = .ok .tDecode := by decide
theorem test_decode_freq_read : decode 0b0000000000000000000000_0_0_01000000 = .ok .freqRead := by decide
theorem test_decode_in_rewind : decode 0b0000000000000000000000_0_0_01000001 = .ok .inRewind := by decide
theorem test_decode_zero_word : decode 0 = .error .reservedOpcode := by decide
theorem test_decode_fmt_elsewhere : decode 0b0000000000000000000000_1_0_00101000 = .error .formatNotAllowed := by decide
theorem test_decode_ovr_elsewhere : decode 0b0000000000000000000000_0_1_00000001 = .error .overrideNotAllowed := by decide
theorem test_decode_top_reserved_bit : decode 0b1000000000000000000000_0_0_00000001 = .error .reservedBits := by decide

/-! ### Commands, one step each -/

/-- V45-1: PLAN.TREE on `AAAAABBBCC`. -/
theorem test_plan_tree :
    obs (run { State.reset with input := v1Input } 0 0 0x201) (fun t => (t.bitsSaved.toInt, t.status, t.rootRef, t.ipos)) =
      some (-79, 0x00000114, 6, 80) := by decide +kernel
/-- V45-1: PLAN.COUNTS on `AAAAABBBCC`, and the paths of V1. -/
theorem test_plan_counts :
    obs (run { State.reset with input := v1Input } 0 0 0x001) (fun t => (t.bitsSaved.toInt, t.status, t.pathAt 0x43, t.pathAt 0x100)) =
      some (-8196, 0x00000104, some [true, true, true], some [true, true, false]) := by decide +kernel
/-- V45-2: COMPRESS refused. -/
theorem test_compress_refused :
    obs (run v1Planned 0 0 0x002) (fun t => (t.status, t.bitsWritten, t.olog)) = some (0x00000214, 0, []) := by decide +kernel
/-- V1, V45-2: COMPRESS.OVR sends the 159 bits. -/
theorem test_compress_override :
    obs (run v1Planned 0 0 0x102) (fun t => (t.status, t.bitsWritten, t.olog)) = some (0x00000114, 159, v1Stream) := by decide +kernel
/-- P2: DECOMPRESS of V1's stream. -/
theorem test_decompress :
    obs (run { State.reset with input := v1Stream ++ [false] } 0 0 0x003) (fun t => (t.status, t.bitsWritten, t.ipos, t.olog)) =
      some (0x00000108, 80, 159, v1Input) := by decide +kernel
/-- V45-6, c = 150: INPUT_EXHAUSTED in the payload, the bits sent before it kept. -/
theorem test_decompress_cut :
    obs (run { State.reset with input := v1Stream.take 150 } 0 0 0x003) (fun t => (t.status, t.ipos, t.olog)) =
      some (0x000C0402, 150, v1Input.take 64) := by decide +kernel
/-- V45-11: SOFT_RESET after a fault (V40-5 leaves STATUS 0x00040402). -/
theorem test_soft_reset :
    obs (step { State.reset with fault := some .emptyQueue, outcome := .faulted, host := [cmdWrite Config.default 0x00000004] })
      (fun t => (t.status, regRead t 0x30)) = some (0, 0x0000FFFF) := by decide +kernel
/-- R120: from reset, LEAF 0x41, 5. -/
theorem test_node_leaf :
    obs (run State.reset 0x41 5 0x10) (fun t => (t.res0, t.nodes, t.status)) =
      some (0, [⟨.leaf, 0x41, 5, NIL, NIL, false⟩], 0x00000108) := by decide +kernel
/-- R120: a symbol above EOFSYM. -/
theorem test_node_leaf_bad_symbol :
    obs (run State.reset 0x101 1 0x10) (fun t => (t.status, t.nodes)) = some (0x00090402, []) := by decide +kernel
/-- V40-7: INFO 6 of V1's records. -/
theorem test_node_info :
    obs (run v1State 6 0 0x11) (fun t => (t.res1, t.res2, t.res0.getLsbD 30)) = some (11, 0x00000005, false) := by decide +kernel
/-- V40-3: INFO 3 of a queued leaf. -/
theorem test_node_info_queued :
    obs (run (fourLeaves [1, 3, 0, 2]) 3 0 0x11) (fun t => (t.res0, t.dstate)) = some (0xA0000003, .used) := by decide +kernel
/-- R122: FREQ 1 goes after the queued FREQ 1 and before the FREQ 2 entries. -/
theorem test_q_enqueue :
    obs (run (fourLeaves [1, 0, 2]) 3 0 0x18) (fun t => (t.queue, t.status)) = some ([1, 3, 0, 2], 0x00000108) := by decide +kernel
/-- V40-4: ENQ 0 when 0 is queued. -/
theorem test_q_enqueue_twice :
    obs (run (fourLeaves [1, 3, 0, 2]) 0 0 0x18) (fun t => (t.fault, t.queue)) = some (some .dupNode, [1, 3, 0, 2]) := by decide +kernel
/-- V40-3: Q_DEQUEUE. -/
theorem test_q_dequeue :
    obs (run (fourLeaves [1, 3, 0, 2]) 0 0 0x19) (fun t => (t.res0, t.queue)) = some (1, [3, 0, 2]) := by decide +kernel
/-- V40-5: Q_DEQUEUE from reset. -/
theorem test_q_dequeue_empty : obs (run State.reset 0 0 0x19) State.status = some 0x00040402 := by decide +kernel
/-- R124: Q_FRONT on `[3, 0, 2]`. -/
theorem test_q_front :
    obs (run (fourLeaves [3, 0, 2]) 0 0 0x1A) (fun t => (t.res0, t.queue)) = some (3, [3, 0, 2]) := by decide +kernel
/-- R125: after reset Q_ISEMPTY gives 1. -/
theorem test_q_isempty : obs (run State.reset 0 0 0x1B) (fun t => (t.res0, t.status)) = some (1, 0x00000100) := by decide +kernel
/-- R126: Q_SIZE on `[3, 0, 2]`. -/
theorem test_q_size : obs (run (fourLeaves [3, 0, 2]) 0 0 0x1C) (fun t => t.res0) = some 3 := by decide +kernel
/-- V41-1: F 4, 2, 2 queued as `[1, 2, 0]`: root 4 = (0, 3), 3 = (1, 2); ties behind. -/
theorem test_t_create :
    obs (run { State.reset with
        nodes := [⟨.leaf, 1, 4, NIL, NIL, false⟩, ⟨.leaf, 2, 2, NIL, NIL, false⟩, ⟨.leaf, 3, 2, NIL, NIL, false⟩]
        queue := [1, 2, 0] } 0 0 0x20)
      (fun t => (t.res0, t.queue, t.tree? 4, t.freqOfRef 4)) =
      some (4, [], some (.node (.leaf 1) (.node (.leaf 2) (.leaf 3))), 8) := by decide +kernel
/-- V41-3: T_CREATE from reset. -/
theorem test_t_create_empty : obs (run State.reset 0 0 0x20) (fun t => (t.fault, t.rootRef)) = some (some .emptyQueue, NIL) := by
  decide +kernel
/-- V42-1: T_TRAVEL on V1's tree gives V1's paths. -/
theorem test_t_travel :
    obs (run { v1State with pt := State.reset.pt } 0 0 0x28) (fun t => decide (t.pt = v1State.pt)) = some true := by decide +kernel
/-- V42-4: T_TRAVEL from reset. -/
theorem test_t_travel_no_tree : obs (run State.reset 0 0 0x28) (fun t => t.fault) = some (some .noTree) := by decide +kernel
/-- V42-1: PATH 0x100, 1. -/
theorem test_path_read :
    obs (run v1State 0x100 1 0x29) (fun t => (t.res0, t.res1)) = some (3, 0x80000000) := by decide +kernel
/-- V42-1: PATH 0x44, 0, an absent entry. -/
theorem test_path_read_absent :
    obs (run v1State 0x44 0 0x29) (fun t => (t.res0, t.res1)) = some (0xFFFFFFFF, 0) := by decide +kernel
/-- V42-3: EMIT 0x42 sends `10`. -/
theorem test_t_emit :
    obs (run v1State 0x42 0 0x2A) (fun t => (t.olog, t.bitsWritten)) = some ([true, false], 2) := by decide +kernel
/-- V42-3, R257: EMIT 0x1FF is BAD_SYMBOL, not NO_PATH. -/
theorem test_t_emit_bad_symbol : obs (run v1State 0x1FF 0 0x2A) (fun t => t.fault) = some (some .badSymbol) := by decide +kernel
/-- V43-1: the root of V1 takes 43 bits. -/
theorem test_t_count_bits : obs (run v1State 6 0 0x30) (fun t => (t.res0, t.fault)) = some (43, none) := by decide +kernel
/-- V43-1: NIL takes 0 bits and is no fault. -/
theorem test_t_count_bits_nil :
    obs (run v1State 0xFFFF 0 0x30) (fun t => (t.res0, t.fault)) = some (0, none) := by decide +kernel
/-- V43-2: T_WRITE sends V1's tree bits. -/
theorem test_t_write :
    obs (run v1State 0 0 0x31) (fun t => (t.olog, t.bitsWritten)) = some (v1TreeBits, 43) := by decide +kernel
/-- V43-3: T_RECREATE of V1's tree bits. -/
theorem test_t_recreate :
    obs (run { State.reset with input := v1TreeBits } 0 0 0x32)
      (fun t => (t.res0, t.res1, t.ipos, t.next, t.tree? 4)) =
      some (0, 43, 43, 7, some (.node (.leaf 0x100) (.leaf 0x43))) := by decide +kernel
/-- V43-4: `01001000001` ends at the right child. -/
theorem test_t_recreate_cut :
    obs (run { State.reset with input := toBits 11 0b01001000001 } 0 0 0x32)
      (fun t => (t.fault, t.next, t.rootRef, t.ipos)) = some (some .inputExhausted, 2, NIL, 11) := by decide +kernel
/-- V44-1: T_DECODE of V1's payload. -/
theorem test_t_decode :
    obs (run { v1State with input := v1Payload } 0 0 0x38) (fun t => (t.res0, t.bitsWritten, t.ipos, t.olog)) =
      some (10, 80, 20, v1Input) := by decide +kernel
/-- V44-4: a root that is a natural leaf: BUSY stays 1. -/
theorem test_t_decode_degenerate :
    obs (run { State.reset with nodes := [⟨.leaf, 0x41, 1, NIL, NIL, false⟩], rootRef := 0 } 0 0 0x38)
      (fun t => (t.busy, t.ipos, obs (step t) fun u => u.busy)) = some (true, 0, some true) := by decide +kernel
/-- V45-1: FREQ 0x41. -/
theorem test_freq_read : obs (run v1State 0x41 0 0x40) (fun t => (t.res0, t.status)) = some (5, 0x00000100) := by decide +kernel
/-- V45-1: FREQ 0x101. -/
theorem test_freq_read_bad : obs (run v1State 0x101 0 0x40) (fun t => t.fault) = some (some .badSymbol) := by decide +kernel
/-- V45-10: IN_REWIND. -/
theorem test_in_rewind :
    obs (run { State.reset with input := v1TreeBits, ipos := 43 } 0 0 0x41) (fun t => (t.ipos, t.dstate)) = some (0, .used) := by
  decide +kernel

/-! ### The host port -/

/-- V60-1: a word other than SOFT_RESET while FAULT = 1. -/
theorem test_sticky_fault :
    obs (run State.reset 0 0 0x19) (fun t => obs (step { t with host := [cmdWrite t.cfg 0x201] }) State.status) =
      some (some 0x00040402) := by decide +kernel
/-- V60-3: a CMD write during the degenerate decode of V44-4. -/
theorem test_cmd_while_busy :
    obs (run { State.reset with
        nodes := [⟨.leaf, 0x41, 1, NIL, NIL, false⟩]
        rootRef := 0
        host := [⟨some 2, .write 0 4 0x1C⟩] } 0 0 0x38)
      (fun t => (t.fault, t.busy)) = some (some .cmdWhileBusy, false) := by decide +kernel
/-- V60-4, R47: CONFIG and a reserved offset. -/
theorem test_config : regRead State.reset 0x3C = 0x02012008 ∧ regRead State.reset 0xFC = 0 := by decide
/-- R290: a host that waits may poll STATUS and write ARG0 inside a command; a CMD write after a poll may not land there. -/
theorem test_host_waits :
    ({ State.reset with host := [⟨some 0, .read 4 4⟩, ⟨some 3, .write 8 4 1⟩, cmdWrite Config.default 1] } : State).hostWaits = true ∧
    ({ State.reset with host := [⟨some 0, .read 4 4⟩, ⟨some 3, .write 0 4 1⟩] } : State).hostWaits = false := by decide
/-- R292: an idle state with an access still to come is no end of the run. -/
theorem test_run_end :
    State.reset.endedWell = true ∧ ({ State.reset with host := [⟨none, .read 4 4⟩] } : State).ended = false := by decide
/-- R78: the first bit of a field is its most significant. -/
theorem test_bit_order : toBits 4 0b1010 = [true, false, true, false] ∧ ofBits [true, false, true, false] = 0b1010 := by decide

/-! ### The decoder fixed by name, and the step on a placed word -/

theorem test_table_word : decodeTableWord 32 0x00000102 = some (.compress true) := by decide
theorem test_table_word_illegal : decodeTableWord 32 0x00000202 = none := by decide

/-! ### Witnesses: values that meet the hypotheses of each statement

`fresh` is the reset state of the smallest parameter set, `running` the same with a command latched, `built` a planned session
on the input `00` (two symbols 0): leaf 0 (F 2) = ref 0, EOF leaf = ref 1, root (EOF, 0) = ref 2. -/

def fresh : State :=
  { State.reset with cfg := tiny, pt := List.replicate 3 none, freq := List.replicate 3 0 }

def running : State := { fresh with busy := true }

def builtTree : CodeTree := .node (.leaf 2) (.leaf 0)

def built : State :=
  { running with
    nodes := [⟨.leaf, 0, 2, NIL, NIL, true⟩, ⟨.leaf, 2, 1, NIL, NIL, true⟩, ⟨.internal, 1, 3, 1, 0, false⟩]
    rootRef := 2
    pt := [some [true], none, some [false]]
    freq := [2, 0, 1]
    input := [false, false]
    dstate := .planned
    bitsSaved := BitVec.ofInt 64 (-33) }

/-- Two leaves of F 1 and 2, both queued. -/
def queued : State :=
  { running with
    nodes := [⟨.leaf, 0, 2, NIL, NIL, false⟩, ⟨.leaf, 2, 1, NIL, NIL, false⟩]
    queue := [1, 0]
    dstate := .used }

/-- The default parameter set with its placeholders 0. -/
def standard : Config := { Config.default with freqPlaceholder := 0, symPlaceholder := 0 }

def illegal (w : Word) : Prop := ¬ ∃ i, decode w = .ok i

theorem illegal_of_error {w : Word} {e : DecodeError} (h : decode w = .error e) : illegal w := by
  rintro ⟨i, hi⟩
  rw [h] at hi
  cases hi

theorem witness_IllegalWordsRaiseIllegalCmd :
    illegal 0 ∧ illegal 0x00000301 ∧ illegal 0x80000001 ∧
    ∃ (s : State) (rest : List HostEvent), s.busy = false ∧ s.fault = none ∧
      s.host = ⟨some 3, .write s.cfg.hccBase 4 0x00000301⟩ :: rest ∧ ({ s with host := rest } : State).hostQuiet = true :=
  ⟨illegal_of_error (e := .reservedOpcode) (by decide +kernel), illegal_of_error (e := .overrideNotAllowed) (by decide +kernel),
    illegal_of_error (e := .reservedBits) (by decide +kernel),
    { fresh with host := [⟨some 3, .write 0x100 4 0x00000301⟩, ⟨none, .hardReset⟩] }, [⟨none, .hardReset⟩], by decide +kernel⟩

theorem witness_StepRunsTheWrittenCommand :
    decode 0x00000201 = .ok (.plan .tree) ∧ fresh.busy = false ∧ fresh.fault = none ∧
    ({ fresh with host := [⟨none, .write 0x100 4 0x00000201⟩] } : State).host =
      ⟨none, .write fresh.cfg.hccBase 4 0x00000201⟩ :: [] := by decide +kernel

theorem witness_EntryChecksOfACmdWrite :
    (∃ s : State, s.busy = false ∧ s.fault ≠ none ∧ s.host = ⟨none, .write s.cfg.hccBase 4 0x00000004⟩ :: []) ∧
    (∃ s : State, s.busy = false ∧ s.fault ≠ none ∧ s.host = ⟨none, .write s.cfg.hccBase 4 0x00000005⟩ :: [] ∧
      (0x00000005 : Word) ≠ 0x00000004) ∧
    (∃ s : State, s.busy = false ∧ s.fault = none ∧ s.host = ⟨none, .write s.cfg.hccBase 4 0⟩ :: [] ∧ illegal 0 ∧
      ({ s with host := [] } : State).hostQuiet = true) ∧
    (∃ s : State, s.busy = false ∧ s.fault = none ∧ s.host = ⟨none, .write s.cfg.hccBase 4 0x00000041⟩ :: [] ∧
      decode 0x00000041 = .ok .inRewind) :=
  ⟨⟨{ fresh with fault := some .freqOverflow, host := [⟨none, .write 0x100 4 4⟩] }, by decide +kernel⟩,
    ⟨{ fresh with fault := some .illegalCmd, host := [⟨none, .write 0x100 4 5⟩] }, by decide +kernel⟩,
    ⟨{ fresh with host := [⟨none, .write 0x100 4 0⟩] }, by decide +kernel, by decide +kernel, by decide +kernel,
      illegal_of_error (e := .reservedOpcode) (by decide +kernel), by decide +kernel⟩,
    ⟨{ fresh with host := [⟨none, .write 0x100 4 0x41⟩] }, by decide +kernel⟩⟩

theorem witness_IdleRegisterMap :
    (∃ s : State, s.cfg.valid = true ∧ s.busy = false ∧ 0xFC % 4 = 0 ∧ 0xFC ≤ 0xFC ∧
      s.host = ⟨none, .read (s.cfg.hccBase + 0xFC) 4⟩ :: []) ∧
    (∃ s : State, s.cfg.valid = true ∧ s.busy = false ∧ s.host = ⟨some 0, .read (s.cfg.hccBase + 0x00) 4⟩ :: []) ∧
    (∃ s : State, s.cfg.valid = true ∧ s.busy = false ∧ 0x08 ≠ 0x00 ∧
      s.host = ⟨none, .write (s.cfg.hccBase + 0x08) 4 7⟩ :: []) ∧
    (∃ s : State, s.cfg.valid = true ∧ s.busy = false ∧ 0xFC ≠ 0x00 ∧
      s.host = ⟨none, .write (s.cfg.hccBase + 0xFC) 4 7⟩ :: []) :=
  ⟨⟨{ fresh with host := [⟨none, .read 0x1FC 4⟩] }, by decide +kernel⟩, ⟨{ fresh with host := [⟨some 0, .read 0x100 4⟩] }, by decide +kernel⟩,
    ⟨{ fresh with host := [⟨none, .write 0x108 4 7⟩] }, by decide +kernel⟩,
    ⟨{ fresh with host := [⟨none, .write 0x1FC 4 7⟩] }, by decide +kernel⟩⟩

theorem witness_UnsupportedAccessesAreRefused :
    (∃ s : State, s.busy = false ∧ (2 : Nat) ≠ 4 ∧ s.host = ⟨none, .read 0x104 2⟩ :: []) ∧
    (∃ s : State, s.busy = false ∧ 0xFC < s.cfg.hccBase ∧ s.host = ⟨none, .write 0xFC 4 1⟩ :: []) ∧
    (∃ s : State, s.busy = true ∧ s.cfg.hccBase + 0xFC < 0x200 ∧ s.host = ⟨some 0, .read 0x200 4⟩ :: []) ∧
    (∃ s : State, s.busy = true ∧ (0x106 - s.cfg.hccBase) % 4 ≠ 0 ∧ s.host = ⟨some 0, .write 0x106 4 1⟩ :: []) :=
  ⟨⟨{ fresh with host := [⟨none, .read 0x104 2⟩] }, by decide +kernel⟩, ⟨{ fresh with host := [⟨none, .write 0xFC 4 1⟩] }, by decide +kernel⟩,
    ⟨{ running with host := [⟨some 0, .read 0x200 4⟩] }, by decide +kernel⟩,
    ⟨{ running with host := [⟨some 0, .write 0x106 4 1⟩] }, by decide +kernel⟩⟩

theorem witness_RaiseStopsTheCommandAndRecordsTheFault : running.hostQuiet = true := by decide +kernel

theorem witness_CmdWriteWhileBusyIsAFault :
    ∃ s : State, s.busy = true ∧ s.host = ⟨some 0, .write s.cfg.hccBase 4 4⟩ :: [] :=
  ⟨{ running with host := [⟨some 0, .write 0x100 4 4⟩] }, by decide +kernel⟩

theorem witness_HardResetStopsTheCommand :
    (∃ s : State, s.busy = true ∧ s.host = ⟨some 0, .hardReset⟩ :: []) ∧
    (∃ s : State, s.busy = true ∧ s.host = ⟨some 0, .write s.cfg.hccBase 4 0x00000004⟩ :: []) :=
  ⟨⟨{ built with host := [⟨some 0, .hardReset⟩] }, by decide +kernel⟩,
    ⟨{ built with host := [⟨some 0, .write 0x100 4 4⟩] }, by decide +kernel⟩⟩

theorem witness_ArgumentWritesWhileBusyMissTheCommand :
    (∃ s : State, s.busy = true ∧ ({ s with host := [] } : State).hostQuiet = true ∧
      s.host = ⟨some 0, .write (s.cfg.hccBase + 0x08) 4 9⟩ :: []) ∧
    (∃ s : State, s.busy = true ∧ ({ s with host := [] } : State).hostQuiet = true ∧
      s.host = ⟨some 0, .write (s.cfg.hccBase + 0x0C) 4 9⟩ :: []) :=
  ⟨⟨{ running with host := [⟨some 0, .write 0x108 4 9⟩] }, by decide +kernel⟩,
    ⟨{ running with host := [⟨some 0, .write 0x10C 4 9⟩] }, by decide +kernel⟩⟩

theorem witness_ReadsWhileBusyAreFree :
    [0x00, 0x04, 0x08, 0x0C, 0x10, 0x38, 0x3C, 0x40, 0xFC].all (fun off =>
      let s : State := { running with host := [⟨some 0, .read (0x100 + off) 4⟩] }
      s.busy && decide (off % 4 = 0) && decide (off ≤ 0xFC) && ({ s with host := [] } : State).hostQuiet &&
      decide (s.host = ⟨some 0, .read (s.cfg.hccBase + off) 4⟩ :: [])) = true := by decide +kernel

/-- A host that polls STATUS and writes ARG0 inside T_EMIT, then waits with its next CMD write. -/
def polled : State :=
  { built with
    larg0 := 2
    host := [⟨some 0, .read 0x104 4⟩, ⟨some 1, .write 0x108 4 9⟩, ⟨none, .write 0x100 4 4⟩] }

theorem witness_WaitingHostDoesNotDisturbTheCommand :
    ∃ t : State, polled.busy = true ∧ polled.hostPasses = true ∧ exec .tEmit { polled with host := [] } = .next t ∧
      t.fault = none ∧ obs (exec .tEmit polled) (fun u => (u.olog, u.arg0, u.seen.length, u.host.length)) =
        some (t.olog, 9, 1, 1) :=
  ⟨_, rfl, rfl, rfl, rfl, by decide +kernel⟩

theorem witness_HostThatWaitsNeverMeetsCmdWhileBusy :
    ∃ s t : State, s.hostWaits = true ∧ s.hostQuiet = true ∧ step s = .next t ∧ t.fault = some .noTree ∧
      t.seen.length = 1 :=
  ⟨{ fresh with host := [cmdWrite tiny 0x38, ⟨some 0, .read 0x104 4⟩, cmdWrite tiny 0x04] }, _, rfl, rfl, rfl, rfl,
    by decide +kernel⟩

theorem witness_ResetValuesAfterEitherReset :
    built.hostQuiet = true ∧
    ∃ s : State, s.busy = false ∧ s.host = ⟨none, .hardReset⟩ :: [] :=
  ⟨by decide +kernel, { fresh with host := [⟨none, .hardReset⟩] }, by decide +kernel⟩

theorem witness_IdleCoreWaits : fresh.busy = false ∧ fresh.host = [] := by decide +kernel

/-- A state with a tree and a CMD write to come meets the invariant. -/
theorem witness_invariant : ({ built with busy := false, host := [cmdWrite tiny 0x00000102] } : State).Inv := by
  have hlt : ((childrenOf built.nodes).all fun r => decide (r.toNat < 3)) = true := by decide +kernel
  have hown : ∀ (i : Nat) (n : NodeRec), built.nodes[i]? = some n →
      (n.owned = true ↔ BitVec.ofNat 16 i ∈ childrenOf built.nodes) := by
    intro i n hn
    rcases i with _ | _ | _ | i
    · cases hn; decide +kernel
    · cases hn; decide +kernel
    · cases hn; decide +kernel
    · cases hn
  exact
    { basic :=
        { cfg_valid := by decide +kernel
          pool_fits := by decide +kernel
          records_ok := by unfold State.recordsOk; decide +kernel
          tables_ok := by
            refine ⟨by decide +kernel, by decide +kernel, fun p hp => ?_, by decide +kernel⟩
            have hp' : some p ∈ [some [true], none, some [false]] := hp
            simp only [List.mem_cons, Option.some.injEq, reduceCtorEq, List.not_mem_nil, or_false, false_or] at hp'
            rcases hp' with rfl | rfl <;> decide
          flight_ok := ⟨rfl, fun _ => rfl, fun h => by cases h⟩
          root_ok := .inr (by decide +kernel)
          input_fits := by decide +kernel }
      forest := fun _ =>
        ⟨fun r hr => of_decide_eq_true (List.all_eq_true.mp hlt r hr), by decide +kernel, hown, by decide +kernel⟩
      queue_ok := fun _ => ⟨fun r hr => (by cases hr), List.nodup_nil, List.Pairwise.nil⟩
      clean_empty := fun _ _ h => by cases h
      planned_ok := fun _ _ => ⟨builtTree, by decide +kernel, by decide +kernel⟩ }

theorem witness_StepKeepsTheInvariant :
    ∃ s t : State, s.Inv ∧ step s = .next t ∧ s.olog ≠ t.olog :=
  ⟨{ built with busy := false, host := [cmdWrite tiny 0x00000102] }, _, witness_invariant, rfl, by decide +kernel⟩

theorem witness_SentBitsAreNeverWithdrawn : ∃ s t : State, step s = .next t ∧ t.olog = [true, false] :=
  ⟨{ built with busy := false, arg0 := 0, host := [cmdWrite tiny 0x0000002A], olog := [true], pt := [some [false], none, none] },
    _, rfl, by decide +kernel⟩

theorem witness_FaultIsStickyUntilReset :
    (∃ s t : State, s.busy = false ∧ s.fault = some .poolFull ∧ step s = .next t ∧ t.fault = none) ∧
    (∃ s t : State, s.busy = false ∧ s.fault = some .poolFull ∧ step s = .next t ∧ t.fault = some .poolFull) :=
  ⟨⟨{ fresh with fault := some .poolFull, host := [cmdWrite tiny 4] }, _, rfl, rfl, rfl, rfl⟩,
    ⟨{ fresh with fault := some .poolFull, host := [cmdWrite tiny 5] }, _, rfl, rfl, rfl, rfl⟩⟩

theorem witness_SessionStateByCommandKind :
    (∃ t : State, running.busy = true ∧ running.hostQuiet = true ∧ running.fault = none ∧ exec .inRewind running = .next t ∧
      kindOf .inRewind = .changing ∧ t.busy = false ∧ t.fault = none) ∧
    (∃ t : State, exec .qSize running = .next t ∧ kindOf .qSize = .readOnly) :=
  ⟨⟨_, rfl, rfl, rfl, rfl, rfl, rfl, rfl⟩, ⟨_, rfl, rfl⟩⟩

theorem witness_WhatNoCommandChanges :
    ∃ t : State, built.hostQuiet = true ∧ (Instr.compress true) ≠ .softReset ∧ exec (.compress true) built = .next t ∧
      (∀ fmt, Instr.compress true ≠ .plan fmt) :=
  ⟨_, rfl, by decide +kernel, rfl, fun fmt => by cases fmt <;> decide⟩

theorem witness_QueueCommandsKeepEveryRecord :
    ∃ t : State, queued.hostQuiet = true ∧ exec .qDequeue queued = .next t ∧ t.fault = none ∧ t.queue = [0] :=
  ⟨_, rfl, rfl, rfl, rfl⟩

theorem witness_PortsReadAndWriteMostSignificantBitFirst :
    (built.hostQuiet = true ∧ built.input.length < built.pos + 3) ∧ (built.pos + 2 ≤ built.input.length) ∧
    ∃ t : State, outWrite 4 10 built = .ok () t ∧ ({ built with input := t.olog, ipos := 0 } : State).hostQuiet = true ∧
      ({ built with input := t.olog, ipos := 0 } : State).pos = built.olog.length :=
  ⟨by decide +kernel, by decide +kernel, _, rfl, by decide +kernel, by decide +kernel⟩

theorem witness_NodeLeafAllocatesALeaf :
    tiny.valid = true ∧ running.hostQuiet = true ∧
    2 ^ tiny.sw < ({ running with larg0 := 3 } : State).larg0.toNat % 2 ^ 16 ∧
    (({ running with larg0 := 0x10002 } : State).larg0.toNat % 2 ^ 16 ≤ 2 ^ tiny.sw ∧
      tiny.ncap ≤ ({ running with nodes := List.replicate 5 ⟨.leaf, 0, 0, NIL, NIL, false⟩ } : State).nodes.length) ∧
    ({ running with nodes := List.replicate 4 ⟨.leaf, 0, 0, NIL, NIL, false⟩ } : State).nodes.length < tiny.ncap := by decide +kernel

theorem witness_NodeInfoReadsARecord :
    ((0xFFFF : NodeRef) = (0x1FFFF : Word).setWidth 16) ∧
    ((3 : NodeRef) ≠ 0xFFFF ∧ built.nodes.length ≤ (3 : NodeRef).toNat) ∧
    ((2 : NodeRef) ≠ 0xFFFF ∧ built.nodes[(2 : NodeRef).toNat]? = some ⟨.internal, 1, 3, 1, 0, false⟩ ∧
      1 < 2 ^ (tiny.sw + 1) ∧ 3 < 2 ^ tiny.fw) := by decide +kernel

theorem witness_EnqueueInsertsBeforeTheFirstGreater :
    ((0xFFFF : NodeRef) = (0xFFFF : Word).setWidth 16) ∧
    ((2 : NodeRef) ≠ 0xFFFF ∧ queued.nodes.length ≤ (2 : NodeRef).toNat) ∧
    ((1 : NodeRef) ≠ 0xFFFF ∧ queued.nodes[(1 : NodeRef).toNat]? = some ⟨.leaf, 2, 1, NIL, NIL, false⟩ ∧ 1 ∈ queued.queue) ∧
    (let s : State := { queued with queue := [0] }
     (1 : NodeRef) ≠ 0xFFFF ∧ s.nodes[(1 : NodeRef).toNat]? = some ⟨.leaf, 2, 1, NIL, NIL, false⟩ ∧ 1 ∉ s.queue ∧
      (false = false) ∧ (s.queue.all fun x => decide (x.toNat < s.nodes.length)) = true) := by decide +kernel

theorem witness_DequeueTakesTheFront : running.hostQuiet = true ∧ running.queue = [] ∧ queued.queue = 1 :: [0] := by decide +kernel

theorem witness_QueueReadsChangeOnlyTheResult : running.hostQuiet = true ∧ running.queue = [] ∧ queued.queue = 1 :: [0] := by
  decide +kernel

theorem witness_TreeCreationMergesTheQueue :
    (tiny.valid = true ∧ running.hostQuiet = true ∧ running.nodes.length ≤ tiny.ncap ∧ running.queue = []) ∧
    (queued.weightedQueue = some [(1, .leaf 2), (2, .leaf 0)] ∧ queued.queue ≠ [] ∧
      queued.nodes.length + (queued.queue.length - 1) ≤ tiny.ncap ∧
      (([(1, .leaf 2), (2, .leaf 0)] : List (Nat × CodeTree)).map Prod.fst).sum < 2 ^ tiny.fw) ∧
    (let s : State := { queued with nodes := queued.nodes ++ List.replicate 3 ⟨.leaf, 0, 0, NIL, NIL, false⟩ }
     s.nodes.length ≤ tiny.ncap ∧ s.weightedQueue = some [(1, .leaf 2), (2, .leaf 0)] ∧
      tiny.ncap < s.nodes.length + (s.queue.length - 1)) ∧
    (let s : State := { queued with nodes := [⟨.leaf, 0, 1023, NIL, NIL, false⟩, ⟨.leaf, 2, 1, NIL, NIL, false⟩] }
     s.weightedQueue = some [(1, .leaf 2), (1023, .leaf 0)] ∧ 2 ≤ s.queue.length ∧
      s.nodes.length + (s.queue.length - 1) ≤ tiny.ncap ∧
      2 ^ tiny.fw ≤ (([(1, .leaf 2), (1023, .leaf 0)] : List (Nat × CodeTree)).map Prod.fst).sum) := by decide +kernel

theorem witness_TravelBuildsThePathTable :
    (running.hostQuiet = true ∧ running.nodes.length ≤ 0xFFFE ∧ running.rootRef = 0xFFFF) ∧
    (built.hostQuiet = true ∧ built.tree? built.rootRef = some builtTree) := by decide +kernel

theorem witness_PathsArePrefixFree :
    built.hostQuiet = true ∧ built.nodes.length ≤ 0xFFFE ∧ built.tree? built.rootRef = some builtTree ∧
    builtTree.symbols.Nodup := by decide +kernel

theorem witness_PathReadGivesLengthAndWindow :
    (2 ^ tiny.sw < (3 : Word).toNat % 2 ^ 16) ∧
    ((2 : Word).toNat % 2 ^ 16 ≤ 2 ^ tiny.sw ∧ built.pt[(2 : Word).toNat % 2 ^ 16]? = some (some [false])) ∧
    built.pt[(1 : Word).toNat % 2 ^ 16]? = some none := by decide +kernel

theorem witness_EmitSendsThePath :
    built.hostQuiet = true ∧ 2 ^ tiny.sw < (3 : Word).toNat % 2 ^ 16 ∧
    built.pt[(1 : Word).toNat % 2 ^ 16]? = some none ∧
    ((2 : Word).toNat % 2 ^ 16 ≤ 2 ^ tiny.sw ∧ built.pt[(2 : Word).toNat % 2 ^ 16]? = some (some [false])) := by decide +kernel

theorem witness_CountBitsOfATree :
    (0xFFFF : NodeRef) = (0xFFFF : Word).setWidth 16 ∧ ((3 : NodeRef) ≠ 0xFFFF ∧ built.nodes.length ≤ (3 : NodeRef).toNat) ∧
    built.tree? ((2 : Word).setWidth 16) = some builtTree ∧ built.cfg.valid = true ∧ builtTree.size ≤ built.cfg.ncap := by
  decide +kernel

theorem witness_TreeWriteSendsTheEncoding :
    running.rootRef = 0xFFFF ∧ built.hostQuiet = true ∧ built.nodes.length ≤ 0xFFFE ∧
    built.tree? built.rootRef = some builtTree := by decide +kernel

theorem witness_RecreateRebuildsTheTree :
    let s : State := { running with input := [true] ++ builtTree.enc 1 ++ [false], ipos := 1 }
    s.cfg.valid = true ∧ s.hostQuiet = true ∧ s.input.length < 2 ^ 64 ∧ s.input.drop s.pos = builtTree.enc s.cfg.sw ++ [false] ∧
    (∀ x ∈ builtTree.symbols, x ≤ 2 ^ s.cfg.sw) ∧ s.nodes.length + builtTree.size ≤ s.cfg.ncap := by decide +kernel

theorem witness_RecreateRebuildsTheTree_faults :
    (let s : State := { built with input := (builtTree.enc 1).take 6, nodes := built.nodes.take 2 }
     s.input.drop s.pos = (builtTree.enc s.cfg.sw).take 6 ∧ 6 < builtTree.bits s.cfg.sw ∧
      (∀ x ∈ builtTree.symbols, x ≤ 2 ^ s.cfg.sw) ∧ s.nodes.length + builtTree.size ≤ s.cfg.ncap) ∧
    (let s : State := { running with input := (CodeTree.leaf 3).enc 1 }
     s.input.drop s.pos = (CodeTree.leaf 3).enc s.cfg.sw ++ [] ∧ (∃ x ∈ (CodeTree.leaf 3).symbols, 2 ^ s.cfg.sw < x) ∧
      (∀ x ∈ (CodeTree.leaf 3).symbols, x < 2 ^ (s.cfg.sw + 1)) ∧ s.nodes.length + (CodeTree.leaf 3).size ≤ s.cfg.ncap) ∧
    (let s : State := { built with input := builtTree.enc 1 }
     s.nodes.length ≤ s.cfg.ncap ∧ s.input.drop s.pos = builtTree.enc s.cfg.sw ++ [] ∧
      (∀ x ∈ builtTree.symbols, x ≤ 2 ^ s.cfg.sw) ∧ s.cfg.ncap < s.nodes.length + builtTree.size) := by decide +kernel

theorem witness_CountWriteAndRecreateAgree :
    let s : State := { built with larg0 := 2 }
    s.cfg.valid = true ∧ s.hostQuiet = true ∧ s.nodes.length ≤ s.cfg.ncap ∧ s.tree? s.rootRef = some builtTree ∧
    (∀ x ∈ builtTree.symbols, x ≤ 2 ^ s.cfg.sw) ∧ s.larg0.setWidth 16 = s.rootRef ∧
    (let u : State := { running with input := builtTree.enc 1 }
     u.cfg = s.cfg ∧ u.hostQuiet = true ∧ u.input.length < 2 ^ 64 ∧ u.input.drop u.pos = builtTree.enc 1 ++ [] ∧
      u.nodes.length + builtTree.size ≤ u.cfg.ncap) := by decide +kernel

theorem witness_DecodeInvertsTheCodes :
    let s : State := { built with input := codesOf builtTree ([0, 0] ++ [2]) ++ [true], busy := true }
    s.hostQuiet = true ∧ s.nodes.length ≤ 0xFFFE ∧ s.input.length < 2 ^ 64 ∧ s.tree? s.rootRef = some builtTree ∧
    (∀ x ∈ [0, 0], x < 2 ^ s.cfg.sw ∧ x ∈ builtTree.symbols) ∧ 2 ^ s.cfg.sw ∈ builtTree.symbols ∧
    s.input.drop s.pos = codesOf builtTree ([0, 0] ++ [2 ^ s.cfg.sw]) ++ [true] := by decide +kernel

theorem witness_DecodeFaults :
    running.rootRef = 0xFFFF ∧
    (let s : State := { built with input := codesOf builtTree [0] ++ [] }
     s.tree? s.rootRef = some (.node (.leaf 2) (.leaf 0)) ∧ (∀ y ∈ [0], y < 2 ^ s.cfg.sw ∧ y ∈ builtTree.symbols) ∧
      builtTree.path 2 = some [false] ∧ 0 < [false].length ∧
      s.input.drop s.pos = codesOf builtTree [0] ++ [false].take 0 ∧ s.pos ≤ s.input.length ∧
      s.input.length < 2 ^ 64) ∧
    (let s : State := { running with nodes := [⟨.internal, 1, 3, NIL, NIL, false⟩], rootRef := 0, input := [true] }
     s.rootRef ≠ 0xFFFF ∧ s.nodes[s.rootRef.toNat]? = some ⟨.internal, 1, 3, NIL, NIL, false⟩ ∧
      s.input[s.pos]? = some true ∧ (if true then NIL else NIL) = 0xFFFF) := by decide +kernel

theorem witness_DecodeFromAnInternalRootEnds :
    built.hostQuiet = true ∧ built.nodes.length ≤ 0xFFFE ∧ built.pos ≤ built.input.length ∧ built.input.length < 2 ^ 64 ∧
    built.tree? built.rootRef = some (.node (.leaf 2) (.leaf 0)) := by decide +kernel

theorem witness_DegenerateDecodeNeverEnds :
    let s : State := { running with nodes := [⟨.leaf, 1, 1, NIL, NIL, false⟩], rootRef := 0, input := [true, true] }
    s.busy = true ∧ s.hostQuiet = true ∧ s.nodes.length ≤ 0xFFFE ∧ s.tree? s.rootRef = some (.leaf 1) ∧ 1 ≠ 2 ^ s.cfg.sw := by
  decide +kernel

theorem witness_PlanComputesTableTreeAndSavings :
    let s : State := { running with input := [false, false, true] }
    s.cfg.valid = true ∧ s.hostQuiet = true ∧ s.dstate = .clean ∧ s.nodes = [] ∧ s.queue = [] ∧
    s.input.length < 2 ^ 64 ∧ ∀ n ∈ countsOf s.cfg s.input, n < 2 ^ s.cfg.iw := by decide +kernel

theorem witness_PlanComputesTableTreeAndSavings_faults :
    built.dstate ≠ .clean ∧
    (let s : State := { running with input := List.replicate 256 false }
     s.cfg.valid = true ∧ s.hostQuiet = true ∧ s.dstate = .clean ∧ s.input.length < 2 ^ 64 ∧ 0 < 2 ^ s.cfg.sw ∧
      2 ^ s.cfg.iw ≤ (symbolsOf s.cfg.sw s.input).count 0) := by decide +kernel

theorem witness_SavingsAreExact :
    let s : State := { running with cfg := standard, input := symbolBits 8 (List.replicate 17 0x41) }
    s.cfg.valid = true ∧ s.hostQuiet = true ∧ s.dstate = .clean ∧ s.nodes = [] ∧ s.queue = [] ∧
    s.input.length < 2 ^ 64 ∧ (∀ n ∈ countsOf s.cfg s.input, n < 2 ^ s.cfg.iw) ∧ 1 ≤ 17 ∧ 0x41 < 2 ^ s.cfg.sw ∧
    s.input = symbolBits s.cfg.sw (List.replicate 17 0x41) ∧ s.cfg.sw = 8 ∧ s.cfg.iw = 32 := by decide +kernel

theorem witness_CompressSendsTheStream :
    (built.cfg.valid = true ∧ built.hostQuiet = true ∧ built.dstate = .planned ∧ built.nodes.length ≤ 0xFFFE ∧ built.input.length < 2 ^ 64 ∧
      built.tree? built.rootRef = some builtTree ∧ built.pt = builtTree.table (2 ^ built.cfg.sw) ∧
      built.freq.length = 2 ^ built.cfg.sw + 1 ∧ (0 < built.bitsSaved.toInt ∨ true = true) ∧
      ∀ x ∈ symbolsOf built.cfg.sw built.input ++ [2 ^ built.cfg.sw], x ∈ builtTree.symbols) ∧
    0 < ({ built with bitsSaved := 1 } : State).bitsSaved.toInt := by decide +kernel

theorem witness_CompressSendsTheStream_faults :
    running.dstate ≠ .planned ∧ (built.dstate = .planned ∧ ({ built with bitsSaved := 0 } : State).bitsSaved.toInt ≤ 0) ∧
    (let s : State := { built with input := [false, true], bitsSaved := 1 }
     s.dstate = .planned ∧ 0 < s.bitsSaved.toInt ∧ s.nodes.length ≤ 0xFFFE ∧ s.input.length < 2 ^ 64 ∧ s.tree? s.rootRef = some builtTree ∧
      (∃ x ∈ symbolsOf s.cfg.sw s.input ++ [2 ^ s.cfg.sw], s.pt[x]? = some none) ∧
      s.pt.length = 2 ^ s.cfg.sw + 1) := by decide +kernel

theorem witness_CompressedSizeIsBitsAfter :
    let s : State := { running with input := [false, false] }
    s.cfg.valid = true ∧ s.hostQuiet = true ∧ s.dstate = .clean ∧ s.nodes = [] ∧ s.queue = [] ∧
    s.input.length < 2 ^ 64 ∧ (∀ n ∈ countsOf s.cfg s.input, n < 2 ^ s.cfg.iw) ∧ huffTree s.cfg (countsOf s.cfg s.input) = some builtTree ∧
    ∃ p : State, exec (.plan .tree) s = .next p ∧ (0 < p.bitsSaved.toInt ∨ true = true) :=
  ⟨by decide +kernel, by decide +kernel, by decide +kernel, by decide +kernel, by decide +kernel, by decide +kernel,
    by decide +kernel, by decide +kernel, _, rfl, .inr rfl⟩

theorem witness_DecompressTreeShapeStream :
    let s : State := { running with input := streamOf tiny .tree [] builtTree [0] ++ [true] }
    s.cfg.valid = true ∧ s.hostQuiet = true ∧ s.dstate = .clean ∧ s.nodes.length + builtTree.size ≤ s.cfg.ncap ∧
    (∀ x ∈ builtTree.symbols, x ≤ 2 ^ s.cfg.sw) ∧ (∀ x ∈ [0], x < 2 ^ s.cfg.sw ∧ x ∈ builtTree.symbols) ∧
    2 ^ s.cfg.sw ∈ builtTree.symbols ∧ s.input = streamOf s.cfg .tree [] builtTree [0] ++ [true] ∧
    s.input.length < 2 ^ 64 := by decide +kernel

theorem witness_DecompressFlatTableStream :
    let s : State := { running with input := streamOf tiny .counts ([2, 0] ++ [1]) builtTree [0] ++ [] }
    s.cfg.valid = true ∧ s.hostQuiet = true ∧ s.dstate = .clean ∧ s.nodes = [] ∧ s.queue = [] ∧
    s.freq.length = 2 ^ s.cfg.sw + 1 ∧ [2, 0].length = 2 ^ s.cfg.sw ∧ (∀ n ∈ [2, 0], n < 2 ^ s.cfg.iw) ∧
    huffTree s.cfg ([2, 0] ++ [1]) = some builtTree ∧ (∀ x ∈ [0], x < 2 ^ s.cfg.sw ∧ x ∈ builtTree.symbols) ∧
    s.input = streamOf s.cfg .counts ([2, 0] ++ [1]) builtTree [0] ++ [] ∧ s.input.length < 2 ^ 64 := by decide +kernel

theorem witness_WrongMagicIsReported :
    (running.hostQuiet = true ∧ running.dstate = .clean) ∧
    ({ running with input := List.replicate 7 true } : State).input.length < tiny.iw ∧
    (let s : State := { running with input := List.replicate 8 true }
     s.cfg.iw ≤ s.input.length ∧ ofBits (s.input.take s.cfg.iw) ≠ s.cfg.magic) := by decide +kernel

theorem witness_DecompressHeaderFaults :
    built.dstate ≠ .clean ∧ running.dstate = .clean ∧
    (let s : State := { running with input := toBits 8 0xA5 ++ List.replicate 7 false }
     s.input = toBits s.cfg.iw s.cfg.magic ++ List.replicate 7 false ∧ (List.replicate 7 false).length < s.cfg.iw) ∧
    (let s : State := { running with input := toBits 8 0xA5 ++ toBits 8 2 ++ [] }
     2 < 2 ^ s.cfg.iw ∧ 2 ≠ s.cfg.selCounts ∧ 2 ≠ s.cfg.selTree ∧
      s.input = toBits s.cfg.iw s.cfg.magic ++ toBits s.cfg.iw 2 ++ []) ∧
    (let s : State := { running with input := toBits 8 0xA5 ++ toBits 8 1 ++ [true] }
     s.input = toBits s.cfg.iw s.cfg.magic ++ toBits s.cfg.iw s.cfg.selTree ++ [true] ∧ [true].length < s.cfg.iw) ∧
    (let s : State := { running with input := toBits 8 0xA5 ++ toBits 8 0 ++ List.replicate 15 true }
     s.input = toBits s.cfg.iw s.cfg.magic ++ toBits s.cfg.iw s.cfg.selCounts ++ List.replicate 15 true ∧
      (List.replicate 15 true).length < 2 ^ s.cfg.sw * s.cfg.iw) ∧
    (let s : State := { running with input := toBits 8 0xA5 ++ toBits 8 1 ++ toBits 8 6 ++ builtTree.enc 1 ++ [] }
     s.nodes.length + builtTree.size ≤ s.cfg.ncap ∧ (∀ x ∈ builtTree.symbols, x ≤ 2 ^ s.cfg.sw) ∧ 6 < 2 ^ s.cfg.iw ∧
      6 ≠ builtTree.bits s.cfg.sw ∧
      s.input = toBits s.cfg.iw s.cfg.magic ++ toBits s.cfg.iw s.cfg.selTree ++ toBits s.cfg.iw 6 ++ builtTree.enc s.cfg.sw ++ []) := by
  decide +kernel

/-- The faults inside ReadTree: cut in the middle, at the first marker, a symbol above EOFSYM, a pool without room. -/
theorem witness_DecompressHeaderFaults_tree :
    (∃ t : State,
      let s : State := { running with input := toBits 8 0xA5 ++ toBits 8 1 ++ toBits 8 7 ++ (builtTree.enc 1).take 6 }
      s.dstate = .clean ∧ 7 < 2 ^ s.cfg.iw ∧
      s.input = toBits s.cfg.iw s.cfg.magic ++ toBits s.cfg.iw s.cfg.selTree ++ toBits s.cfg.iw 7 ++ (builtTree.enc 1).take 6 ∧
      exec .tRecreate { s with ipos := BitVec.ofNat 64 (3 * s.cfg.iw) } = .next (takeFault .inputExhausted t)) ∧
    (let s : State := { running with input := toBits 8 0xA5 ++ toBits 8 1 ++ toBits 8 7 ++ (builtTree.enc 1).take 0 }
     s.nodes.length + builtTree.size ≤ s.cfg.ncap ∧ (∀ x ∈ builtTree.symbols, x ≤ 2 ^ s.cfg.sw) ∧ 0 < builtTree.bits s.cfg.sw ∧
      s.input = toBits s.cfg.iw s.cfg.magic ++ toBits s.cfg.iw s.cfg.selTree ++ toBits s.cfg.iw 7 ++
        (builtTree.enc s.cfg.sw).take 0) ∧
    (let s : State := { running with input := toBits 8 0xA5 ++ toBits 8 1 ++ toBits 8 3 ++ (CodeTree.leaf 3).enc 1 ++ [] }
     s.nodes.length + (CodeTree.leaf 3).size ≤ s.cfg.ncap ∧ (∃ x ∈ (CodeTree.leaf 3).symbols, 2 ^ s.cfg.sw < x) ∧
      (∀ x ∈ (CodeTree.leaf 3).symbols, x < 2 ^ (s.cfg.sw + 1)) ∧
      s.input = toBits s.cfg.iw s.cfg.magic ++ toBits s.cfg.iw s.cfg.selTree ++ toBits s.cfg.iw 3 ++
        (CodeTree.leaf 3).enc s.cfg.sw ++ []) ∧
    (let s : State := { running with
        nodes := List.replicate 5 ⟨.leaf, 0, 0, NIL, NIL, false⟩
        input := toBits 8 0xA5 ++ toBits 8 1 ++ toBits 8 7 ++ builtTree.enc 1 ++ [] }
     s.nodes.length ≤ s.cfg.ncap ∧ s.cfg.ncap < s.nodes.length + builtTree.size ∧
      s.input = toBits s.cfg.iw s.cfg.magic ++ toBits s.cfg.iw s.cfg.selTree ++ toBits s.cfg.iw 7 ++
        builtTree.enc s.cfg.sw ++ []) :=
  ⟨⟨{ running with
      input := toBits 8 0xA5 ++ toBits 8 1 ++ toBits 8 7 ++ (builtTree.enc 1).take 6
      nodes := [⟨.internal, 1, 3, 1, NIL, false⟩, ⟨.leaf, 2, 3, NIL, NIL, true⟩]
      stack := [(0, .rightChild)]
      ipos := 29 }, by decide +kernel, by decide +kernel, by decide +kernel, rfl⟩,
    by decide +kernel, by decide +kernel, by decide +kernel⟩

theorem witness_DecompressPayloadFaults :
    (let s : State := { running with
        input := toBits 8 0xA5 ++ toBits 8 1 ++ toBits 8 7 ++ builtTree.enc 1 ++ codesOf builtTree [0] ++ [false].take 0 }
     s.cfg.valid = true ∧ s.hostQuiet = true ∧ s.dstate = .clean ∧ s.input.length < 2 ^ 64 ∧
      (∀ y ∈ [0], y < 2 ^ s.cfg.sw ∧ y ∈ builtTree.symbols) ∧ builtTree.path 2 = some [false] ∧ 0 < [false].length ∧
      s.nodes.length + builtTree.size ≤ s.cfg.ncap ∧ (∀ y ∈ builtTree.symbols, y ≤ 2 ^ s.cfg.sw) ∧
      s.input = toBits s.cfg.iw s.cfg.magic ++ toBits s.cfg.iw s.cfg.selTree ++ toBits s.cfg.iw (builtTree.bits s.cfg.sw) ++
        builtTree.enc s.cfg.sw ++ codesOf builtTree [0] ++ [false].take 0) ∧
    (let s : State := { running with
        input := toBits 8 0xA5 ++ toBits 8 0 ++ [2, 0].flatMap (fun n => toBits 8 n) ++ codesOf builtTree [0, 0] ++ [false].take 0 }
     s.nodes = [] ∧ s.queue = [] ∧ s.fault = none ∧ s.freq.length = 2 ^ s.cfg.sw + 1 ∧ [2, 0].length = 2 ^ s.cfg.sw ∧
      (∀ n ∈ [2, 0], n < 2 ^ s.cfg.iw) ∧ huffTree s.cfg ([2, 0] ++ [1]) = some builtTree ∧
      s.input = toBits s.cfg.iw s.cfg.magic ++ toBits s.cfg.iw s.cfg.selCounts ++ [2, 0].flatMap (fun n => toBits s.cfg.iw n) ++
        codesOf builtTree [0, 0] ++ [false].take 0 ∧ (∃ t : State, exec .decompress s = .next t ∧ t.fault = some .inputExhausted)) :=
  ⟨by decide +kernel, by decide +kernel, by decide +kernel, by decide +kernel, by decide +kernel, by decide +kernel,
    by decide +kernel, by decide +kernel, by decide +kernel, next_of_obs (by decide +kernel)⟩

theorem witness_DegenerateDecompressNeverEnds :
    let s : State := { running with input := toBits 8 0xA5 ++ toBits 8 1 ++ toBits 8 3 ++ (CodeTree.leaf 1).enc 1 ++ [true] }
    s.cfg.valid = true ∧ s.busy = true ∧ s.hostQuiet = true ∧ s.dstate = .clean ∧ s.nodes.length < s.cfg.ncap ∧
    1 < 2 ^ s.cfg.sw ∧
    s.input = toBits s.cfg.iw s.cfg.magic ++ toBits s.cfg.iw s.cfg.selTree ++ toBits s.cfg.iw (s.cfg.sw + 2) ++
      (CodeTree.leaf 1).enc s.cfg.sw ++ [true] := by decide +kernel

theorem witness_RoundTripReturnsTheInput :
    let s : State := { fresh with input := [false, true, true] }
    s.cfg.valid = true ∧ s.busy = false ∧ s.fault = none ∧ s.dstate = .clean ∧ s.nodes = [] ∧ s.queue = [] ∧
    s.input.length < 2 ^ 64 ∧ s.input.length % s.cfg.sw = 0 ∧ (∀ n ∈ countsOf s.cfg s.input, n < 2 ^ s.cfg.iw) ∧
    (streamOf s.cfg .tree (countsOf s.cfg s.input) (.node (.leaf 0) (.node (.leaf 2) (.leaf 1))) [0, 1, 1] ++
      [true]).length < 2 ^ 64 := by decide +kernel

theorem witness_FreqReadGivesTheCount :
    2 ^ tiny.sw < (3 : Word).toNat % 2 ^ 16 ∧
    ((2 : Word).toNat % 2 ^ 16 ≤ 2 ^ tiny.sw ∧ built.freq[(2 : Word).toNat % 2 ^ 16]? = some 1) := by decide +kernel

theorem witness_InRewindRestartsPortIn : ({ built with ipos := 2 } : State).hostQuiet = true := by decide +kernel

end Sys2Proof.Tests
end

section
/-!
PROOF. The register space: the STATUS word, reads and writes while BUSY = 0, and what lands inside a command
(spec/10_state.md R32 to R49).
-/

namespace Sys2Proof.Machine

/-! ### Register words as numbers -/

/-- A word appended below another, in arithmetic on their values. -/
theorem toNat_append_mul {n m : Nat} (x : BitVec n) (y : BitVec m) : (x ++ y).toNat = x.toNat * 2 ^ m + y.toNat := by
  rw [BitVec.toNat_append, Nat.shiftLeft_eq, Nat.mul_comm, Nat.two_pow_add_eq_or_of_lt y.isLt]

theorem status_toNat (s : State) : s.status.toNat =
    s.busy.toNat + s.fault.isSome.toNat * 2 + s.dstate.code.toNat * 2 ^ 2 + (bitOfFormat s.pfmt).toNat * 2 ^ 4 +
      s.outcome.code.toNat * 2 ^ 8 + (fcodeOf s.fault).toNat * 2 ^ 16 := by
  simp only [State.status, toNat_append_mul, BitVec.toNat_ofBool, BitVec.ofNat_eq_ofNat, BitVec.toNat_ofNat]
  omega

/-- Settles O9: the fields of STATUS are laid side by side, so its value is the sum of the fields at their bits. -/
theorem statusWordLayout : Obligations.StatusWordLayout := by
  refine ⟨fun s => ?_, rfl⟩
  rw [status_toNat]
  refine congrArg₂ _ (congrArg₂ _ (congrArg₂ _ (congrArg₂ _ (congrArg₂ _ ?busy ?fault) ?dstate) ?pfmt) ?outcome) ?fcode
  case busy => cases s.busy <;> rfl
  case fault => cases s.fault <;> rfl
  case dstate => cases s.dstate <;> rfl
  case pfmt => cases s.pfmt <;> rfl
  case outcome => cases s.outcome <;> rfl
  case fcode => cases s.fault <;> rfl

theorem configWord_eq {c : Config} (hc : c.valid = true) :
    configWord c = BitVec.ofNat 32 (c.ncap * 2 ^ 16 + c.iw * 2 ^ 8 + c.sw) := by
  simp only [Config.valid, Bool.and_eq_true, decide_eq_true_eq] at hc
  apply BitVec.eq_of_toNat_eq
  simp only [configWord, toNat_append_mul, BitVec.toNat_ofNat]
  omega

/-! ### The register space while BUSY = 0 -/

/-- The registers by their place in the register space, one a word (spec/10_state.md R32 to R47). -/
def registerTable (s : State) : List Word :=
  [0, s.status, s.arg0, s.arg1, s.res0, s.res1, s.res2, s.res3, s.bitsSaved.setWidth 32, (s.bitsSaved >>> 32).setWidth 32,
    s.bitsWritten.setWidth 32, (s.bitsWritten >>> 32).setWidth 32, s.rootRef.setWidth 32, BitVec.ofNat 32 s.queue.length,
    s.ipos.setWidth 32, BitVec.ofNat 32 (s.cfg.ncap * 2 ^ 16 + s.cfg.iw * 2 ^ 8 + s.cfg.sw)]

/-- Every aligned read is the register of its place, and 0 past the last register. -/
theorem regRead_eq_registerTable {s : State} {off : Nat} (hc : s.cfg.valid = true) (h4 : off % 4 = 0) :
    regRead s off = (registerTable s).getD (off / 4) 0 := by
  by_cases h : off < 0x40
  · obtain ⟨k, rfl⟩ : ∃ k, off = 4 * k := ⟨off / 4, by omega⟩
    rw [Nat.mul_div_cancel_left k (by decide)]
    obtain rfl | hk : k = 15 ∨ k < 15 := by omega
    · exact configWord_eq hc
    · interval_cases k <;> rfl
  · rw [regRead_reserved (by omega), List.getD_eq_default _ _ (by simp [registerTable]; omega)]

/-- Settles O7: the step performs the host's access, whose offset is the aligned one; what a read gives is the register table,
and what a write changes is `regWrite`. -/
theorem idleRegisterMap : Obligations.IdleRegisterMap := by
  intro s gap rest off hc hb h4 hle
  have hoff := offsetOf_at (c := s.cfg) h4 hle
  constructor
  · intro hh
    rw [step_idle hb hh]
    simp only [hostAct, State.setHost, hoff]
    rw [regRead_eq_registerTable (by exact hc) h4]
    rfl
  · intro v hne hh
    obtain ⟨k, rfl⟩ := Nat.exists_eq_succ_of_ne_zero hne
    rw [step_idle hb hh]
    simp only [hostAct, State.setHost, hoff, Nat.succ_eq_add_one]
    rw [regWrite_eq]

/-! ### What lands while BUSY = 1 -/

/-- A command goes on from what an act leaves that lands at its first point and does not stop it: its operands are the
latched ones, and nothing of `s` that a rule reads is the host's to change. -/
theorem exec_goes_on {s t : State} {act : HostAct} {rest : List HostEvent} (hb : s.busy = true)
    (hh : s.host = ⟨some 0, act⟩ :: rest) (ht : landBusy act (s.setHost rest) = .ok () t) (ha : HostApart s t)
    (hw : t.hostQuiet = true) (i : Instr) : exec i s = exec i t := by
  rw [HostApart] at ha
  rw [ha] at ht hw ⊢
  cases i <;> exact runCmd_goes_on _ hb hh ht hw

/-- A supported read inside a command shows the host its value, counts its draw and changes nothing else. -/
theorem landBusy_read {s : State} {addr off : Nat} (ho : offsetOf s.cfg addr 4 = some off) :
    landBusy (.read addr 4) s = .ok () ((s.noteRead addr (regReadBusy s off)).draw 1) := by
  simp [landBusy, ho]

/-- A supported write inside a command, other than of CMD, changes its register only. -/
theorem landBusy_write {s : State} {addr off : Nat} {v : Word} (ho : offsetOf s.cfg addr 4 = some off) (hne : off ≠ 0) :
    landBusy (.write addr 4 v) s = .ok () (regWrite s off v) := by
  obtain ⟨k, rfl⟩ := Nat.exists_eq_succ_of_ne_zero hne
  simp [landBusy, ho]

/-- Settles O14: the write lands as `regWrite`, and the command or whatever follows the point runs on from there. -/
theorem argumentWritesWhileBusyMissTheCommand : Obligations.ArgumentWritesWhileBusyMissTheCommand := by
  intro s v rest hb
  have hland (off : Nat) (h4 : off % 4 = 0) (hle : off ≤ 0xFC) (hne : off ≠ 0) :=
    landBusy_write (s := s.setHost rest) (v := v) (offsetOf_at h4 hle) hne
  constructor
  · intro hh
    have ht := hland 0x08 rfl (by decide) (by decide)
    exact ⟨fun c => point_then c hb hh ht, fun hw i => exec_goes_on hb hh ht rfl hw i⟩
  · intro hh
    have ht := hland 0x0C rfl (by decide) (by decide)
    exact ⟨fun c => point_then c hb hh ht, fun hw i => exec_goes_on hb hh ht rfl hw i⟩

/-- STATUS read inside a command: BUSY is 1 and the bits of no field are 0. -/
theorem busyStatus_unlisted (free : Word) : busyStatus free &&& 0xFF00F8E1 = 1 := by
  have hmask : statusFieldMask &&& 0xFF00F8E1 = 0 := rfl
  rw [busyStatus, BitVec.and_or_distrib_right, BitVec.and_assoc, hmask]
  simp

/-- Settles O15: the value is `regReadBusy`'s, and the command or whatever follows the point runs on from where the read
left. -/
theorem readsWhileBusyAreFree : Obligations.ReadsWhileBusyAreFree := by
  intro s off rest hb h4 hle hh
  have ht := landBusy_read (s := s.setHost rest) (offsetOf_at h4 hle)
  refine ⟨regReadBusy (s.setHost rest) off, fun c => point_then c hb hh ht,
    fun hw i => exec_goes_on hb hh ht rfl hw i, ?_, ?_, ?_, ?_, ?_, ?_⟩
  · rintro rfl
    exact busyStatus_unlisted _
  · rintro ⟨hlo, hhi⟩
    have hne : off ≠ 0x04 := by omega
    simp [regReadBusy, hne, hlo, hhi, State.setHost]
  · rintro rfl
    rfl
  · rintro rfl
    rfl
  · rintro rfl
    rfl
  · rintro (rfl | hhi)
    · rfl
    · have hne : off ≠ 0x04 := by omega
      have hout : ¬ (0x10 ≤ off ∧ off ≤ 0x38) := by omega
      rw [regReadBusy, if_neg hne, if_neg hout, regRead_reserved hhi]

end Sys2Proof.Machine

end

section
/-!
PROOF. What a command's rule is built from, shown once for every rule (`Built`), and the frame of every command that follows
from it (spec/10_state.md R39, R40, R42).
-/

namespace Sys2Proof.Machine

/-! ### What every rule is built from -/

/-- The updates the commands' rules make to the state: to registers and streams by any rule, to the stores and the session
(what `State.Inv` speaks of) when `stores`, to the plan's two registers when `planning`. -/
inductive Update : (stores planning : Bool) → (State → State) → Prop
  | ipos {st pl : Bool} (g : State → Nat) : Update st pl fun s => s.setIpos (g s)
  | send {st pl : Bool} (g : State → List Bit) : Update st pl fun s => s.send (g s)
  | res0 {st pl : Bool} (v : Word) : Update st pl fun s => s.setRes0 v
  | res1 {st pl : Bool} (v : Word) : Update st pl fun s => s.setRes1 v
  | res2 {st pl : Bool} (v : Word) : Update st pl fun s => s.setRes2 v
  | res3 {st pl : Bool} (v : Word) : Update st pl fun s => s.setRes3 v
  | bitsWritten {st pl : Bool} (v : DWord) : Update st pl fun s => s.setBitsWritten v
  | nodes {pl : Bool} (g : State → List NodeRec) : Update true pl fun s => s.setNodes (g s)
  | queue {pl : Bool} (g : State → List NodeRef) : Update true pl fun s => s.setQueue (g s)
  | pt {pl : Bool} (g : State → List (Option (List Bit))) : Update true pl fun s => s.setPt (g s)
  | freq {pl : Bool} (g : State → List Nat) : Update true pl fun s => s.setFreq (g s)
  | root {pl : Bool} (r : NodeRef) : Update true pl fun s => s.setRoot r
  | decode {pl : Bool} (c : State → Option NodeRef) (m : State → Nat) : Update true pl fun s => s.setDecode (c s) (m s)
  | stack {pl : Bool} (g : State → List (NodeRef × AwaitSide)) : Update true pl fun s => s.setStack (g s)
  | dstate {pl : Bool} (d : DState) : Update true pl fun s => s.setDState d
  | outcome {pl : Bool} (o : CmdOutcome) : Update true pl fun s => s.endWith o
  | bitsSaved {st : Bool} (v : DWord) : Update st true fun s => s.setBitsSaved v
  | pfmt {st : Bool} (f : HeaderFormat) : Update st true fun s => s.setPfmt f

/-- A rule made of points, updates and stops other than the reset input, in sequence and by cases on the state. -/
inductive Built (stores planning : Bool) : {α : Type} → Cmd α → Prop
  | pure {α : Type} (a : α) : Built stores planning (Pure.pure a : Cmd α)
  | point : Built stores planning Machine.point
  | throw {α : Type} (e : Stop) (he : e ≠ .resetInput) : Built stores planning (MonadExcept.throw e : Cmd α)
  | modify {f : State → State} (hf : Update stores planning f) : Built stores planning (modify f : Cmd PUnit)
  | bind {α β : Type} {x : Cmd α} {f : α → Cmd β} (hx : Built stores planning x) (hf : ∀ a, Built stores planning (f a)) :
      Built stores planning (x >>= f)
  | byState {α : Type} {c : Cmd α} (c' : State → Cmd α) (heq : ∀ s, c s = c' s s) (h : ∀ s, Built stores planning (c' s)) :
      Built stores planning c

variable {stores planning : Bool} {α β : Type}

theorem Built.get_bind {f : State → Cmd β} (h : ∀ s, Built stores planning (f s)) :
    Built stores planning ((get : Cmd State) >>= f) :=
  .byState f (fun _ => rfl) h

theorem Built.ite {p : Prop} [Decidable p] {x y : Cmd α} (hx : Built stores planning x) (hy : Built stores planning y) :
    Built stores planning (if p then x else y) := by
  split
  · exact hx
  · exact hy

theorem Built.change {f : State → State} (hf : Update stores planning f) : Built stores planning (Machine.change f) :=
  .bind .point fun _ => .modify hf

theorem Built.raise (f : FaultCode) : Built stores planning (Machine.raise f : Cmd α) :=
  .bind .point fun _ => .throw _ nofun

theorem built_done (o : CmdOutcome) : Built true planning (done o) := .change (.outcome o)

theorem built_doneUsed : Built true planning doneUsed := .bind (.change (.dstate _)) fun _ => built_done _

/-! The ports and the pool. -/

theorem built_inRead (n : Nat) : Built stores planning (inRead n) := by
  refine .bind .point fun _ => .byState (fun s => if s.pos + n > s.input.length then pure none else do
    modify fun t => t.setIpos (s.pos + n)
    pure (some (ofBits ((s.input.drop s.pos).take n)))) (fun s => ?_) fun s => ?_
  · simp only [get_bind_apply]
    split <;> rfl
  · split
    · exact .pure _
    · exact .bind (.modify (.ipos _)) fun _ => .pure _

theorem built_inRewind : Built stores planning inRewind := .change (.ipos _)

theorem built_outWrite (n v : Nat) : Built stores planning (outWrite n v) := .change (.send _)

theorem built_nodeRead (r : NodeRef) : Built stores planning (nodeRead r) := by
  refine .byState (fun s => match s.nodes[r.toNat]? with
    | some n => pure n
    | none => throw (.refuse .freeRecord)) (fun s => ?_) fun s => ?_
  · unfold nodeRead
    cases s.nodes[r.toNat]? <;> rfl
  · split
    · exact .pure _
    · exact .throw _ nofun

theorem built_nodeWrite (r : NodeRef) (f : NodeRec → NodeRec) : Built true planning (nodeWrite r f) := .modify (.nodes _)

theorem built_alloc (kind : NodeKind) (sym freq : Nat) : Built true planning (alloc kind sym freq) := by
  refine .byState (fun s => if s.next < s.cfg.ncap then do
      modify fun t => t.setNodes (s.nodes ++ [⟨kind, sym, freq, NIL, NIL, false⟩])
      pure (BitVec.ofNat 16 s.next)
    else raise .poolFull) (fun s => ?_) fun s => ?_
  · simp only [alloc, get_bind_apply]
    split <;> rfl
  · split
    · exact .bind (.modify (.nodes _)) fun _ => .pure _
    · exact .raise _

theorem built_mkInternal (a b : NodeRef) : Built true planning (mkInternal a b) := by
  refine .bind (built_nodeRead a) fun na => .bind (built_nodeRead b) fun nb => .get_bind fun s => ?_
  split
  · exact .raise _
  · exact .bind (built_alloc _ _ _) fun r => .bind (built_nodeWrite r _) fun _ => .bind (built_nodeWrite a _) fun _ =>
      .bind (built_nodeWrite b _) fun _ => .pure r

/-! The queue and the operands. -/

theorem built_insertByFreq (r : NodeRef) (f : Nat) (q : List NodeRef) : Built stores planning (insertByFreq r f q) := by
  induction q with
  | nil => exact .pure _
  | cons x xs ih =>
    refine .bind (built_nodeRead x) fun n => ?_
    split
    · exact .pure _
    · exact .bind ih fun _ => .pure _

theorem built_enqueue (r : NodeRef) : Built true planning (enqueue r) :=
  .bind (built_nodeRead r) fun _ => .get_bind fun _ => .bind (built_insertByFreq _ _ _) fun _ => .change (.queue _)

theorem built_dequeue : Built true planning dequeue := by
  refine .get_bind fun s => ?_
  split
  · exact .raise _
  · exact .bind (.change (.queue _)) fun _ => .pure _

theorem built_takeSymbol : Built stores planning takeSymbol := by
  refine .get_bind fun s => ?_
  split
  · exact .raise _
  · exact .pure _

theorem built_takeNode : Built stores planning takeNode := by
  refine .get_bind fun s => ?_
  split
  · exact .raise _
  · split
    · exact .raise _
    · exact .pure _

/-! Trees and paths. -/

theorem built_travel (fuel : Nat) (r : NodeRef) (p : List Bit) : Built true planning (travel fuel r p) := by
  induction fuel generalizing r p with
  | zero => exact .throw _ nofun
  | succ fuel ih =>
    refine .bind (built_nodeRead r) fun n => ?_
    split
    · exact .modify (.pt _)
    · exact .bind (ih _ _) fun _ => ih _ _

theorem built_buildTable : Built true planning buildTable := by
  refine .get_bind fun s => ?_
  split
  · exact .raise _
  · exact .bind (.modify (.pt _)) fun _ => built_travel _ _ _

theorem built_sendPath (p : List Bit) : Built stores planning (sendPath p) := by
  induction p with
  | nil => exact .pure _
  | cons b p ih => exact .bind (built_outWrite _ _) fun _ => ih

theorem built_emitPath (sym : Nat) : Built stores planning (emitPath sym) := by
  refine .get_bind fun s => ?_
  split
  · exact .raise _
  · exact .bind (built_sendPath _) fun _ => .pure _

theorem built_count (fuel : Nat) (r : NodeRef) : Built stores planning (count fuel r) := by
  induction fuel generalizing r with
  | zero =>
    unfold count
    split
    · exact .pure _
    · exact .throw _ nofun
  | succ fuel ih =>
    unfold count
    split
    · exact .pure _
    · refine .bind (built_nodeRead r) fun n => .get_bind fun s => ?_
      split
      · exact .pure _
      · exact .bind (ih _) fun _ => .bind (ih _) fun _ => .pure _

theorem built_countTree (r : NodeRef) : Built stores planning (countTree r) := .get_bind fun _ => built_count _ _

theorem built_writeTree (fuel : Nat) (r : NodeRef) : Built stores planning (writeTree fuel r) := by
  induction fuel generalizing r with
  | zero => exact .throw _ nofun
  | succ fuel ih =>
    refine .bind (built_nodeRead r) fun n => .get_bind fun s => ?_
    split
    · exact .bind (built_outWrite _ _) fun _ => .bind (built_outWrite _ _) fun _ => .pure _
    · exact .bind (built_outWrite _ _) fun _ => .bind (ih _) fun _ => .bind (ih _) fun _ => .pure _

theorem built_readNode (fuel : Nat) : Built true planning (readNode fuel) := by
  induction fuel with
  | zero => exact .throw _ nofun
  | succ fuel ih =>
    refine .bind (built_inRead 1) fun o => ?_
    split
    · exact .raise _
    · refine .get_bind fun s => .bind (built_inRead _) fun o => ?_
      split
      · exact .raise _
      · split
        · exact .raise _
        · exact built_alloc _ _ _
    · exact .get_bind fun s => .bind (built_alloc _ _ _) fun r => .bind (.modify (.stack _)) fun _ =>
        .bind ih fun l => .bind (built_nodeWrite _ _) fun _ => .bind (built_nodeWrite _ _) fun _ =>
        .bind (.modify (.stack _)) fun _ => .bind ih fun q => .bind (built_nodeWrite _ _) fun _ =>
        .bind (built_nodeWrite _ _) fun _ => .bind (.modify (.stack _)) fun _ => .pure r

theorem built_readTree : Built true planning readTree :=
  .get_bind fun _ => .bind (built_readNode _) fun _ => .bind (.change (.root _)) fun _ => .get_bind fun _ => .pure _

theorem built_combineLoop (fuel : Nat) : Built true planning (combineLoop fuel) := by
  induction fuel with
  | zero => exact .pure _
  | succ fuel ih =>
    refine .get_bind fun s => ?_
    split
    · exact .bind built_dequeue fun _ => .bind built_dequeue fun _ => .bind (built_mkInternal _ _) fun _ =>
        .bind (built_enqueue _) fun _ => ih
    · exact .pure _

theorem built_createTree : Built true planning createTree := by
  refine .get_bind fun s => ?_
  split
  · exact .raise _
  · exact .bind (built_combineLoop _) fun _ => .bind built_dequeue fun _ => .change (.root _)

theorem built_leavesLoop (count sym : Nat) : Built true planning (leavesLoop count sym) := by
  induction count generalizing sym with
  | zero => exact .pure _
  | succ count ih =>
    refine .get_bind fun s => ?_
    split
    · exact .bind (built_alloc _ _ _) fun _ => .bind (built_enqueue _) fun _ => ih _
    · exact ih _

theorem built_buildFromFreq : Built true planning buildFromFreq :=
  .get_bind fun _ => .bind (built_leavesLoop _ _) fun _ => .bind (built_alloc _ _ _) fun _ =>
    .bind (built_enqueue _) fun _ => built_createTree

/-! The decoder and the Driver. -/

theorem built_decodeTurn : Built true planning decodeTurn := by
  refine .bind .point fun _ => .get_bind fun s => ?_
  split
  · exact .throw _ nofun
  · refine .bind (built_nodeRead _) fun n => ?_
    split
    · split
      · exact .pure _
      · exact .bind (built_outWrite _ _) fun _ => .bind (.change (.decode _ _)) fun _ => .pure _
    · refine .bind (built_inRead 1) fun o => ?_
      split
      · exact .raise _
      · exact .ite (.raise _) (.bind (.change (.decode _ _)) fun _ => .pure _)

theorem built_decodeTurns (fuel : Nat) : Built true planning (decodeTurns fuel) := by
  induction fuel with
  | zero => exact .pure _
  | succ fuel ih =>
    refine .bind built_decodeTurn fun ended => ?_
    split
    · exact .pure _
    · exact ih

theorem built_decodeEnd (withRes0 : Bool) : Built true planning (decodeEnd withRes0) := by
  refine .get_bind fun s => .bind (.change (.bitsWritten _)) fun _ => ?_
  have hend : Built true planning (do
      change (·.setDecode none 0)
      doneUsed) := .bind (.change (.decode _ _)) fun _ => built_doneUsed
  dsimp only
  split
  · exact .bind (.change (.res0 _)) fun _ => hend
  · exact hend

theorem built_decodeAndEnd (withRes0 : Bool) : Built true planning (decodeAndEnd withRes0) := by
  refine .bind (.get_bind fun _ => built_decodeTurns _) fun ended => ?_
  split
  · exact built_decodeEnd _
  · exact .pure _

theorem built_scanLoop (fuel : Nat) : Built true planning (scanLoop fuel) := by
  induction fuel with
  | zero => exact .throw _ nofun
  | succ fuel ih =>
    refine .get_bind fun s => .bind (built_inRead _) fun o => ?_
    split
    · exact .pure _
    · next v =>
      refine .byState (fun t => if t.freqAt v = 2 ^ t.cfg.iw - 1 then raise .inputTooLong else do
        modify fun u => u.setFreq (t.freq.set v (t.freqAt v + 1))
        scanLoop fuel) (fun t => ?_) fun t => ?_
      · simp only [get_bind_apply]
        split <;> rfl
      · split
        · exact .raise _
        · exact .bind (.modify (.freq _)) fun _ => ih

theorem built_scanInput : Built true planning scanInput :=
  .bind built_inRewind fun _ => .bind (.modify (.freq _)) fun _ => .get_bind fun _ => .bind (built_scanLoop _) fun _ =>
    .modify (.freq _)

theorem built_bitsAfter (fmt : HeaderFormat) : Built stores planning (bitsAfter fmt) := by
  have hheader : Built stores planning (headerBits fmt) := by
    refine .get_bind fun s => ?_
    split
    · exact .pure _
    · exact .bind (built_countTree _) fun _ => .pure _
  exact .bind hheader fun _ => .get_bind fun _ => .pure _

theorem built_sendCounts (count sym : Nat) : Built stores planning (sendCounts count sym) := by
  induction count generalizing sym with
  | zero => exact .pure _
  | succ count ih => exact .get_bind fun _ => .bind (built_outWrite _ _) fun _ => ih _

theorem built_sendHeader : Built stores planning sendHeader := by
  refine .get_bind fun s => .bind (built_outWrite _ _) fun _ => ?_
  split
  · exact .bind (built_outWrite _ _) fun _ => built_sendCounts _ _
  · exact .bind (built_outWrite _ _) fun _ => .bind (built_countTree _) fun _ => .bind (built_outWrite _ _) fun _ =>
      .bind (built_writeTree _ _) fun _ => .pure _

theorem built_emitLoop (fuel : Nat) : Built stores planning (emitLoop fuel) := by
  induction fuel with
  | zero => exact .throw _ nofun
  | succ fuel ih =>
    refine .get_bind fun s => .bind (built_inRead _) fun o => ?_
    split
    · exact .pure _
    · exact .bind (built_emitPath _) fun _ => ih

theorem built_readCounts (count sym : Nat) : Built true planning (readCounts count sym) := by
  induction count generalizing sym with
  | zero => exact .pure _
  | succ count ih =>
    refine .get_bind fun s => .bind (built_inRead _) fun o => ?_
    split
    · exact .raise _
    · exact .bind (.modify (.freq _)) fun _ => ih _

theorem built_readHeader : Built true planning readHeader := by
  refine .get_bind fun s => .bind (built_inRead _) fun o => ?_
  split
  · exact .raise _
  · split
    · exact .bind (built_readCounts _ _) fun _ => .bind (.modify (.freq _)) fun _ => built_buildFromFreq
    · split
      · refine .bind (built_inRead _) fun o => ?_
        split
        · exact .raise _
        · refine .bind built_readTree fun c => ?_
          split
          · exact .raise _
          · exact .pure _
      · exact .raise _

theorem built_endBadMagic : Built true planning endBadMagic :=
  .bind (.change (.bitsWritten _)) fun _ => .bind (.change (.dstate _)) fun _ => built_done _

/-! ### The commands -/

theorem execPlan_built (fmt : HeaderFormat) (s : State) : ∃ c, execPlan fmt s = runCmd c s ∧ Built true true c := by
  refine ⟨_, rfl, ?_⟩
  split
  · exact .raise _
  · exact .bind built_scanInput fun _ => .bind built_buildFromFreq fun _ => .bind built_buildTable fun _ =>
      .get_bind fun _ => .bind (built_bitsAfter fmt) fun _ => .bind (.change (.bitsSaved _)) fun _ =>
      .bind (.change (.pfmt _)) fun _ => .bind (.change (.dstate _)) fun _ => built_done _

theorem execCompress_built (ovr : Bool) (s : State) : ∃ c, execCompress ovr s = runCmd c s ∧ Built true planning c := by
  refine ⟨_, rfl, ?_⟩
  split
  · exact .raise _
  · refine .bind built_inRewind fun _ => ?_
    split
    · exact .bind (.change (.bitsWritten _)) fun _ => built_done _
    · exact .bind built_sendHeader fun _ => .bind (built_emitLoop _) fun _ => .bind (built_emitPath _) fun _ =>
        .get_bind fun _ => .bind (.change (.bitsWritten _)) fun _ => built_done _

theorem execDecompress_built (s : State) : ∃ c, execDecompress s = runCmd c s ∧ Built true planning c := by
  refine ⟨_, rfl, ?_⟩
  split
  · exact .raise _
  · refine .bind built_inRewind fun _ => .bind (built_inRead _) fun o => ?_
    split
    · exact built_endBadMagic
    · split
      · exact built_endBadMagic
      · exact .bind built_readHeader fun _ => .bind (.change (.decode _ _)) fun _ => built_decodeAndEnd _

theorem execQFront_built (s : State) : ∃ c, execQFront s = runCmd c s ∧ Built true planning c := by
  refine ⟨_, rfl, ?_⟩
  split
  · exact .raise _
  · exact .bind (.change (.res0 _)) fun _ => built_done _

/-- Every command but SOFT_RESET runs a built rule, which plans only in PLAN. -/
theorem exec_built {i : Instr} (s : State) (hi : i ≠ .softReset) (hp : planning = false → ∀ fmt, i ≠ .plan fmt) :
    ∃ c, exec i s = runCmd c s ∧ Built true planning c := by
  cases i with
  | plan fmt =>
    cases planning with
    | false => exact absurd rfl (hp rfl fmt)
    | true => exact execPlan_built fmt s
  | compress ovr => exact execCompress_built ovr s
  | decompress => exact execDecompress_built s
  | softReset => exact absurd rfl hi
  | nodeLeaf =>
    exact ⟨_, rfl, .bind built_takeSymbol fun _ => .bind (built_alloc _ _ _) fun _ => .bind (.change (.res0 _)) fun _ =>
      built_doneUsed⟩
  | nodeInfo =>
    exact ⟨_, rfl, .bind built_takeNode fun _ => .bind (built_nodeRead _) fun _ => .bind (.change (.res0 _)) fun _ =>
      .bind (.change (.res1 _)) fun _ => .bind (.change (.res2 _)) fun _ => .bind (.change (.res3 _)) fun _ => built_done _⟩
  | qEnqueue =>
    exact ⟨_, rfl, .bind built_takeNode fun _ => .bind (built_nodeRead _) fun _ => .ite (.raise _)
      (.bind (built_enqueue _) fun _ => built_doneUsed)⟩
  | qDequeue => exact ⟨_, rfl, .bind built_dequeue fun _ => .bind (.change (.res0 _)) fun _ => built_doneUsed⟩
  | qFront => exact execQFront_built s
  | qIsEmpty => exact ⟨_, rfl, .bind (.change (.res0 _)) fun _ => built_done _⟩
  | qSize => exact ⟨_, rfl, .bind (.change (.res0 _)) fun _ => built_done _⟩
  | tCreate =>
    exact ⟨_, rfl, .bind built_createTree fun _ => .get_bind fun _ => .bind (.change (.res0 _)) fun _ => built_doneUsed⟩
  | tTravel => exact ⟨_, rfl, .bind built_buildTable fun _ => built_doneUsed⟩
  | pathRead =>
    exact ⟨_, rfl, .bind built_takeSymbol fun _ => .bind (.change (.res0 _)) fun _ => .bind (.change (.res1 _)) fun _ =>
      built_done _⟩
  | tEmit =>
    exact ⟨_, rfl, .bind built_takeSymbol fun _ => .bind (built_emitPath _) fun _ => .bind (.change (.bitsWritten _)) fun _ =>
      built_doneUsed⟩
  | tCountBits =>
    exact ⟨_, rfl, .ite (.raise _) (.bind (built_countTree _) fun _ => .bind (.change (.res0 _)) fun _ => built_done _)⟩
  | tWrite =>
    exact ⟨_, rfl, .ite (.raise _) (.bind (built_writeTree _ _) fun _ => .bind (.change (.bitsWritten _)) fun _ =>
      built_doneUsed)⟩
  | tRecreate =>
    exact ⟨_, rfl, .bind built_readTree fun _ => .get_bind fun _ => .bind (.change (.res0 _)) fun _ =>
      .bind (.change (.res1 _)) fun _ => built_doneUsed⟩
  | tDecode => exact ⟨_, rfl, .ite (.raise _) (.bind (.change (.decode _ _)) fun _ => built_decodeAndEnd _)⟩
  | freqRead => exact ⟨_, rfl, .bind built_takeSymbol fun _ => .bind (.change (.res0 _)) fun _ => built_done _⟩
  | inRewind => exact ⟨_, rfl, .bind built_inRewind fun _ => built_doneUsed⟩

/-! ### The frame of a command -/

/-- What a command neither writes nor lets the host write while nothing lands: parameters, port IN, arguments, latches, the
host's own fields. -/
def State.fixed (s : State) : List HostEvent × List (Nat × Word) × Config × List Bit × Word × Word × Word × Word × Word :=
  (s.host, s.seen, s.cfg, s.input, s.arg0, s.arg1, s.lcmd, s.larg0, s.larg1)

/-- The registers of the plan (spec/10_state.md R39, R42). -/
def State.planRegs (s : State) : DWord × HeaderFormat := (s.bitsSaved, s.pfmt)

/-- `t` has the fixed fields of `s`, and its plan's registers unless `planning`. -/
def SameFrame (planning : Bool) (s t : State) : Prop :=
  t.fixed = s.fixed ∧ (planning = false → t.planRegs = s.planRegs)

theorem SameFrame.refl (s : State) : SameFrame planning s s := ⟨rfl, fun _ => rfl⟩

theorem SameFrame.trans {s t u : State} (h : SameFrame planning s t) (h' : SameFrame planning t u) :
    SameFrame planning s u :=
  ⟨h'.1.trans h.1, fun hp => (h'.2 hp).trans (h.2 hp)⟩

theorem SameFrame.hostQuiet {s t : State} (h : SameFrame planning s t) (hw : s.hostQuiet = true) : t.hostQuiet = true := by
  have hhost : t.host = s.host := congrArg Prod.fst h.1
  simpa [State.hostQuiet, hhost] using hw

theorem Update.sameFrame {f : State → State} (hf : Update stores planning f) (s : State) : SameFrame planning s (f s) := by
  cases hf with
  | bitsSaved v => exact ⟨rfl, nofun⟩
  | pfmt f => exact ⟨rfl, nofun⟩
  | _ => exact ⟨rfl, fun _ => rfl⟩

theorem ok_ne_error {ε σ : Type} {a : α} {e : ε} {s t : σ} : (.ok a s : EStateM.Result ε σ α) ≠ .error e t := nofun

/-- With nothing to land, a built rule keeps the frame and is not stopped by the reset input. -/
theorem Built.sameFrame {c : Cmd α} (h : Built stores planning c) (s : State) (hw : s.hostQuiet = true) :
    SameFrame planning s (reached (c s)) ∧ ∀ t, c s ≠ .error .resetInput t := by
  induction h generalizing s with
  | pure a =>
    rw [pure_apply]
    exact ⟨.refl s, fun _ => ok_ne_error⟩
  | point =>
    rw [point_quiet hw]
    exact ⟨.refl s, fun _ => ok_ne_error⟩
  | throw e he =>
    rw [throw_apply]
    exact ⟨.refl s, fun t ht => he (EStateM.Result.error.inj ht).1⟩
  | modify hf =>
    rw [modify_apply]
    exact ⟨hf.sameFrame s, fun _ => ok_ne_error⟩
  | byState c' heq _ ih =>
    rw [heq]
    exact ih s s hw
  | @bind _ _ x f _ _ ihx ihf =>
    obtain ⟨hs, hr⟩ := ihx s hw
    cases hx : x s with
    | ok a t =>
      rw [hx] at hs
      obtain ⟨ht, hr'⟩ := ihf a t (hs.hostQuiet hw)
      rw [bind_of_ok hx]
      exact ⟨hs.trans ht, hr'⟩
    | error e t =>
      rw [bind_of_error hx]
      rw [hx] at hs hr
      exact ⟨hs, fun u hu => hr t (by rw [(EStateM.Result.error.inj hu).1])⟩

theorem runCmd_sameFrame {c : Cmd Unit} {s t : State} (h : Built stores planning c) (hw : s.hostQuiet = true)
    (ht : runCmd c s = .next t) : SameFrame planning s t := by
  rw [runCmd_quiet c hw] at ht
  obtain ⟨hs, hr⟩ := h.sameFrame s hw
  obtain hok | ⟨f, u, hfault, rfl⟩ | ⟨u, hreset, -⟩ := settle_next ht
  · rwa [hok] at hs
  · rw [hfault] at hs
    exact hs.trans ⟨rfl, fun _ => rfl⟩
  · exact absurd hreset (hr u)

theorem exec_sameFrame {i : Instr} {s t : State} (hw : s.hostQuiet = true) (hi : i ≠ .softReset)
    (hp : planning = false → ∀ fmt, i ≠ .plan fmt) (ht : exec i s = .next t) : SameFrame planning s t := by
  obtain ⟨c, hc, hbuilt⟩ := exec_built s hi hp
  exact runCmd_sameFrame hbuilt hw (hc ▸ ht)

/-- Settles O26: every command but SOFT_RESET is built from updates that keep the frame, and a fault keeps it too. -/
theorem whatNoCommandChanges : Obligations.WhatNoCommandChanges := by
  intro i s t hw hi ht
  have hfixed := (exec_sameFrame (planning := true) hw hi nofun ht).1
  simp only [State.fixed, Prod.mk.injEq] at hfixed
  obtain ⟨hhost, hseen, hcfg, hinput, harg0, harg1, hlcmd, hlarg0, hlarg1⟩ := hfixed
  refine ⟨hcfg, hinput, harg0, harg1, hlcmd, hlarg0, hlarg1, hhost, hseen, fun hp => ?_⟩
  have hplan := (exec_sameFrame (planning := false) hw hi (fun _ => hp) ht).2 rfl
  simpa [State.planRegs] using hplan

end Sys2Proof.Machine

end

section
/-!
PROOF. Pools of records: what keeps a record's tree, and the three ways a forest grows (spec/10_state.md R53): a leaf, an
internal record over two old ones, and the records of a reconstructed tree.
-/

namespace Sys2Proof.Machine

/-! ### References -/

theorem eq_ofNat_iff {r : NodeRef} {k : Nat} (hk : k ≤ 0xFFFF) : r = BitVec.ofNat 16 k ↔ r.toNat = k := by
  rw [← BitVec.toNat_inj, BitVec.toNat_ofNat, Nat.mod_eq_of_lt (by omega)]

/-! ### Pools -/

/-- What a tree of the pool is made of: every field but the frequency and OWNED. -/
def NodeRec.shape (n : NodeRec) : NodeKind × Nat × NodeRef × NodeRef := (n.kind, n.sym, n.left, n.right)

/-- Every record of `ns` has kept its shape in `ms`. -/
def Extends (ns ms : List NodeRec) : Prop :=
  ∀ (i : Nat) (n : NodeRec), ns[i]? = some n → ∃ m, ms[i]? = some m ∧ m.shape = n.shape

theorem Extends.trans {ns ms ls : List NodeRec} (h : Extends ns ms) (h' : Extends ms ls) : Extends ns ls := by
  intro i n hn
  obtain ⟨m, hm, hs⟩ := h i n hn
  obtain ⟨l, hl, hs'⟩ := h' i m hm
  exact ⟨l, hl, hs'.trans hs⟩

theorem extends_append (ns ms : List NodeRec) : Extends ns (ns ++ ms) := by
  intro i n hn
  exact ⟨n, by rw [List.getElem?_append_left (List.getElem?_eq_some_iff.mp hn).1, hn], rfl⟩

theorem extends_modify (ns : List NodeRec) (k : Nat) {f : NodeRec → NodeRec} (hf : ∀ n, (f n).shape = n.shape) :
    Extends ns (ns.modify k f) := by
  intro i n hn
  rw [List.getElem?_modify, hn]
  by_cases h : k = i
  · exact ⟨f n, by simp [h], hf n⟩
  · exact ⟨n, by simp [h], rfl⟩

theorem childrenOf_append (ns ms : List NodeRec) : childrenOf (ns ++ ms) = childrenOf ns ++ childrenOf ms :=
  List.flatMap_append

theorem childrenOf_modify (ns : List NodeRec) (k : Nat) {f : NodeRec → NodeRec} (hf : ∀ n, (f n).shape = n.shape) :
    childrenOf (ns.modify k f) = childrenOf ns := by
  induction ns generalizing k with
  | nil => simp
  | cons n ns ih =>
    cases k with
    | zero =>
      have h := hf n
      simp only [NodeRec.shape, Prod.mk.injEq] at h
      obtain ⟨hk, -, hl, hr⟩ := h
      simp [childrenOf, hk, hl, hr]
    | succ k => simpa [childrenOf] using ih k

theorem treeAt_extends {ns ms : List NodeRec} (h : Extends ns ms) {fuel : Nat} {r : NodeRef} {t : CodeTree}
    (ht : treeAt ns fuel r = some t) : treeAt ms fuel r = some t := by
  induction fuel generalizing r t with
  | zero => simp [treeAt] at ht
  | succ fuel ih =>
    obtain ⟨n, hn, hcase⟩ := treeAt_succ ht
    obtain ⟨m, hm, hs⟩ := h _ _ hn
    simp only [NodeRec.shape, Prod.mk.injEq] at hs
    obtain ⟨hk, hsym, hl, hr⟩ := hs
    obtain ⟨hleaf, rfl⟩ | ⟨hint, a, b, ha, hb, rfl⟩ := hcase
    · simp [treeAt, hm, hk, hleaf, hsym]
    · simp [treeAt, hm, hk, hint, hl, hr, ih ha, ih hb]

theorem treeAt_le {ns : List NodeRec} {fuel k : Nat} {r : NodeRef} {t : CodeTree} (hk : fuel ≤ k)
    (h : treeAt ns fuel r = some t) : treeAt ns k r = some t := by
  obtain ⟨d, rfl⟩ := Nat.exists_eq_add_of_le hk
  exact treeAt_mono h

theorem treeAt_depth_lt {ns : List NodeRec} {fuel : Nat} {r : NodeRef} {t : CodeTree} (h : treeAt ns fuel r = some t) :
    t.depth < fuel := by
  induction fuel generalizing r t with
  | zero => simp [treeAt] at h
  | succ fuel ih =>
    obtain ⟨n, -, ⟨-, rfl⟩ | ⟨-, a, b, ha, hb, rfl⟩⟩ := treeAt_succ h
    · exact Nat.succ_pos _
    · have := ih ha
      have := ih hb
      simp only [CodeTree.depth]
      omega

theorem CodeTree.path_length_le {t : CodeTree} {sym : Nat} {p : List Bit} (h : t.path sym = some p) :
    p.length ≤ t.depth := by
  induction t generalizing p with
  | leaf x =>
    simp only [CodeTree.path] at h
    split at h
    · cases h
      exact Nat.le_refl _
    · cases h
  | node l r ihl ihr =>
    simp only [CodeTree.path] at h
    simp only [CodeTree.depth]
    split at h
    · next q hq =>
      cases h
      have := ihr hq
      simp only [List.length_cons]
      omega
    · next q _ hq =>
      cases h
      have := ihl hq
      simp only [List.length_cons]
      omega
    · cases h

/-! ### Forests -/

/-- `State.forest` of a pool (spec/10_state.md R53). -/
structure Forest (ns : List NodeRec) : Prop where
  valid : ∀ r ∈ childrenOf ns, r.toNat < ns.length
  nodup : (childrenOf ns).Nodup
  owned : ∀ (i : Nat) (n : NodeRec), ns[i]? = some n → (n.owned = true ↔ BitVec.ofNat 16 i ∈ childrenOf ns)
  trees : ∀ i < ns.length, (treeAt ns ns.length (BitVec.ofNat 16 i)).isSome = true

theorem forest_iff (s : State) : s.forest ↔ Forest s.nodes :=
  ⟨fun ⟨h1, h2, h3, h4⟩ => ⟨h1, h2, h3, h4⟩, fun ⟨h1, h2, h3, h4⟩ => ⟨h1, h2, h3, h4⟩⟩

theorem forest_nil : Forest [] := ⟨nofun, List.nodup_nil, by simp, nofun⟩

theorem Forest.tree {ns : List NodeRec} (h : Forest ns) {r : NodeRef} (hr : r.toNat < ns.length) :
    ∃ t, treeAt ns ns.length r = some t := by
  have := h.trees r.toNat hr
  rwa [BitVec.ofNat_toNat, BitVec.setWidth_eq, Option.isSome_iff_exists] at this

/-- A forest grows: the old records keep their shape, the new children `cs` become owned, and the new records stand for
trees. -/
theorem Forest.extend {ns ms : List NodeRec} {cs : List NodeRef} (h : Forest ns) (hext : Extends ns ms)
    (hlen : ns.length ≤ ms.length) (hcap : ms.length ≤ 0xFFFF) (hch : childrenOf ms = childrenOf ns ++ cs) (hnodup : cs.Nodup)
    (hcs : ∀ r ∈ cs, r.toNat < ms.length ∧ r ∉ childrenOf ns)
    (howned : ∀ (i : Nat) (m : NodeRec), ms[i]? = some m →
      (m.owned = true ↔ (∃ n, ns[i]? = some n ∧ n.owned = true) ∨ BitVec.ofNat 16 i ∈ cs))
    (htrees : ∀ i, ns.length ≤ i → i < ms.length → (treeAt ms ms.length (BitVec.ofNat 16 i)).isSome = true) : Forest ms where
  valid r hr := by
    rw [hch, List.mem_append] at hr
    obtain hr | hr := hr
    · exact (h.valid r hr).trans_le hlen
    · exact (hcs r hr).1
  nodup := by
    rw [hch, List.nodup_append']
    exact ⟨h.nodup, hnodup, fun r hr hr' => (hcs r hr').2 hr⟩
  owned i m hm := by
    rw [howned i m hm, hch, List.mem_append]
    refine or_congr_left ?_
    constructor
    · rintro ⟨n, hn, ho⟩
      exact (h.owned i n hn).mp ho
    · intro hi
      have hlt := h.valid _ hi
      have hi' := (List.getElem?_eq_some_iff.mp hm).1
      rw [BitVec.toNat_ofNat, Nat.mod_eq_of_lt (by omega)] at hlt
      exact ⟨_, List.getElem?_eq_getElem hlt, (h.owned i _ (List.getElem?_eq_getElem hlt)).mpr hi⟩
  trees i hi := by
    by_cases hold : i < ns.length
    · obtain ⟨t, ht⟩ := Option.isSome_iff_exists.mp (h.trees i hold)
      rw [treeAt_le hlen (treeAt_extends hext ht)]
      rfl
    · exact htrees i (by omega) hi

/-- A new leaf. -/
theorem Forest.append_leaf {ns : List NodeRec} (h : Forest ns) (hcap : ns.length < 0xFFFF) (sym freq : Nat) :
    Forest (ns ++ [⟨.leaf, sym, freq, NIL, NIL, false⟩]) := by
  refine h.extend (cs := []) (extends_append _ _) (by simp) (by simp; omega) ?_ List.nodup_nil nofun ?_ ?_
  · rw [childrenOf_append]
    rfl
  · intro i m hm
    by_cases hi : i < ns.length
    · rw [List.getElem?_append_left hi] at hm
      simp [hm]
    · obtain rfl : i = ns.length := by
        have := (List.getElem?_eq_some_iff.mp hm).1
        simp at this
        omega
      simp at hm
      simp [← hm]
  · intro i hlo hhi
    obtain rfl : i = ns.length := by simp at hhi; omega
    have hi : ns.length % 65536 = ns.length := Nat.mod_eq_of_lt (by omega)
    simp [treeAt, hi]

/-- OWNED is set (spec/10_state.md R53). -/
def NodeRec.own (n : NodeRec) : NodeRec := { n with owned := true }

@[simp] theorem NodeRec.own_owned (n : NodeRec) : n.own.owned = true := rfl

@[simp] theorem NodeRec.own_own (n : NodeRec) : n.own.own = n.own := rfl

theorem NodeRec.own_shape (n : NodeRec) : n.own.shape = n.shape := rfl

/-- The pool with a new internal record over two old ones, which it owns (spec/40_node_queue.md R111). -/
def joined (ns : List NodeRec) (sym freq : Nat) (a b : NodeRef) : List NodeRec :=
  ((ns ++ [(⟨.internal, sym, freq, a, b, false⟩ : NodeRec)]).modify a.toNat NodeRec.own).modify b.toNat NodeRec.own

theorem joined_length (ns : List NodeRec) (sym freq : Nat) (a b : NodeRef) :
    (joined ns sym freq a b).length = ns.length + 1 := by
  simp [joined]

/-- The records of a joined pool: OWNED is set on the two children, the new record is not owned. -/
theorem joined_getElem? {ns : List NodeRec} {sym freq : Nat} {a b : NodeRef} (ha : a.toNat < ns.length)
    (hb : b.toNat < ns.length) (i : Nat) :
    (joined ns sym freq a b)[i]? =
      if i = ns.length then some ⟨.internal, sym, freq, a, b, false⟩
      else if a.toNat = i ∨ b.toNat = i then ns[i]?.map NodeRec.own
      else ns[i]? := by
  rw [joined, List.getElem?_modify, List.getElem?_modify]
  by_cases hi : i = ns.length
  · subst hi
    simp [ha.ne, hb.ne]
  · have hget : (ns ++ [(⟨.internal, sym, freq, a, b, false⟩ : NodeRec)])[i]? = ns[i]? := by
      by_cases hlt : i < ns.length
      · exact List.getElem?_append_left hlt
      · rw [List.getElem?_eq_none (by simp; omega), List.getElem?_eq_none (by omega)]
    rw [hget, if_neg hi]
    cases ns[i]? with
    | none => simp
    | some n => by_cases hia : a.toNat = i <;> by_cases hib : b.toNat = i <;> simp [hia, hib]

theorem Forest.joined {ns : List NodeRec} (h : Forest ns) (hcap : ns.length < 0xFFFF) {sym freq : Nat} {a b : NodeRef}
    {na nb : NodeRec} (ha : ns[a.toNat]? = some na) (hb : ns[b.toNat]? = some nb) (hoa : na.owned = false)
    (hob : nb.owned = false) (hab : a ≠ b) : Forest (joined ns sym freq a b) := by
  have hla := (List.getElem?_eq_some_iff.mp ha).1
  have hlb := (List.getElem?_eq_some_iff.mp hb).1
  have hext : Extends ns (Machine.joined ns sym freq a b) :=
    ((extends_append _ _).trans (extends_modify _ _ NodeRec.own_shape)).trans (extends_modify _ _ NodeRec.own_shape)
  have hnot {r : NodeRef} {n : NodeRec} (hr : ns[r.toNat]? = some n) (ho : n.owned = false) : r ∉ childrenOf ns := by
    intro hmem
    have := (h.owned _ _ hr).mpr (by rwa [BitVec.ofNat_toNat, BitVec.setWidth_eq])
    simp [ho] at this
  have hlen := joined_length ns sym freq a b
  refine h.extend (cs := [a, b]) hext (by omega) (by omega) ?_ (by simp [hab]) ?_ ?_ ?_
  · rw [Machine.joined, childrenOf_modify _ _ NodeRec.own_shape, childrenOf_modify _ _ NodeRec.own_shape, childrenOf_append]
    rfl
  · intro r hr
    simp only [List.mem_cons, List.not_mem_nil, or_false] at hr
    obtain rfl | rfl := hr
    · exact ⟨by omega, hnot ha hoa⟩
    · exact ⟨by omega, hnot hb hob⟩
  · intro i m hm
    have hi := (List.getElem?_eq_some_iff.mp hm).1
    rw [joined_getElem? hla hlb] at hm
    have hia : BitVec.ofNat 16 i = a ↔ a.toNat = i := by rw [eq_comm, eq_ofNat_iff (by omega)]
    have hib : BitVec.ofNat 16 i = b ↔ b.toNat = i := by rw [eq_comm, eq_ofNat_iff (by omega)]
    simp only [List.mem_cons, List.not_mem_nil, or_false, hia, hib]
    split at hm
    · next hnew =>
      subst hnew
      cases hm
      simp [hla.ne, hlb.ne]
    · split at hm
      · next hchild =>
        obtain ⟨n, -, rfl⟩ := Option.map_eq_some_iff.mp hm
        simp [hchild]
      · next hchild => simp [hchild, hm]
  · intro i hlo hhi
    obtain rfl : i = ns.length := by omega
    obtain ⟨ta, hta⟩ := h.tree hla
    obtain ⟨tb, htb⟩ := h.tree hlb
    have hi : (BitVec.ofNat 16 ns.length).toNat = ns.length := toNat_ref (by omega)
    have hroot := joined_getElem? (sym := sym) (freq := freq) hla hlb ns.length
    rw [if_pos rfl] at hroot
    rw [hlen, treeAt, hi, hroot]
    simp [treeAt_extends hext hta, treeAt_extends hext htb]

/-! ### The records of a reconstructed tree -/

variable {c : Config} {base : Nat} {o : Bool}

theorem CodeTree.mem_childrenOf_pool {t : CodeTree} (hcap : base + t.size ≤ 0xFFFF) (r : NodeRef) :
    r ∈ childrenOf (t.pool c base o) ↔ base < r.toNat ∧ r.toNat < base + t.size := by
  induction t generalizing base o with
  | leaf sym => simp [CodeTree.pool, childrenOf, CodeTree.size]
  | node a b iha ihb =>
    have ha := a.size_pos
    have hb := b.size_pos
    simp only [CodeTree.size] at hcap ⊢
    have hnode : childrenOf ((CodeTree.node a b).pool c base o) =
        [BitVec.ofNat 16 (base + 1), BitVec.ofNat 16 (base + 1 + a.size)] ++
          (childrenOf (a.pool c (base + 1) true) ++ childrenOf (b.pool c (base + 1 + a.size) true)) := by
      rw [← childrenOf_append]
      rfl
    rw [hnode]
    simp only [List.mem_append, List.mem_cons, List.not_mem_nil, or_false, iha (base := base + 1) (by omega),
      ihb (base := base + 1 + a.size) (by omega), eq_ofNat_iff (r := r) (k := base + 1) (by omega),
      eq_ofNat_iff (r := r) (k := base + 1 + a.size) (by omega)]
    omega

theorem CodeTree.nodup_childrenOf_pool {t : CodeTree} (hcap : base + t.size ≤ 0xFFFF) :
    (childrenOf (t.pool c base o)).Nodup := by
  induction t generalizing base o with
  | leaf sym => exact List.nodup_nil
  | node a b iha ihb =>
    have ha := a.size_pos
    have hb := b.size_pos
    simp only [CodeTree.size] at hcap
    have hnode : childrenOf ((CodeTree.node a b).pool c base o) =
        BitVec.ofNat 16 (base + 1) :: BitVec.ofNat 16 (base + 1 + a.size) ::
          (childrenOf (a.pool c (base + 1) true) ++ childrenOf (b.pool c (base + 1 + a.size) true)) := by
      rw [← childrenOf_append]
      rfl
    rw [hnode, List.nodup_cons, List.nodup_cons, List.nodup_append']
    have h1 : (BitVec.ofNat 16 (base + 1)).toNat = base + 1 := toNat_ref (by omega)
    have h2 : (BitVec.ofNat 16 (base + 1 + a.size)).toNat = base + 1 + a.size := toNat_ref (by omega)
    refine ⟨?_, ?_, iha (by omega), ihb (by omega), fun r hr hr' => ?_⟩
    · rw [List.mem_cons, List.mem_append, mem_childrenOf_pool (by omega), mem_childrenOf_pool (by omega),
        eq_ofNat_iff (by omega), h1]
      omega
    · rw [List.mem_append, mem_childrenOf_pool (by omega), mem_childrenOf_pool (by omega), h2]
      omega
    · rw [mem_childrenOf_pool (by omega)] at hr hr'
      omega

theorem CodeTree.pool_owned {t : CodeTree} {k : Nat} {n : NodeRec} (hn : (t.pool c base o)[k]? = some n) :
    n.owned = true ↔ o = true ∨ 0 < k := by
  induction t generalizing base o k with
  | leaf sym =>
    cases k with
    | zero =>
      cases hn
      simp
    | succ k => simp [CodeTree.pool] at hn
  | node a b iha ihb =>
    cases k with
    | zero =>
      cases hn
      simp
    | succ k =>
      have hn' : (a.pool c (base + 1) true ++ b.pool c (base + 1 + a.size) true)[k]? = some n := hn
      have ho : n.owned = true := by
        rw [List.getElem?_append] at hn'
        split at hn'
        · exact (iha hn').mpr (.inl rfl)
        · exact (ihb hn').mpr (.inl rfl)
      simp [ho]

/-- Every record of a reconstructed tree stands for a tree, wherever in the pool the tree's records are. -/
theorem CodeTree.treeAt_pool {t : CodeTree} (pre post : List NodeRec) {fuel : Nat} (hbase : pre.length = base)
    (hcap : base + t.size ≤ 0xFFFF) (hfuel : t.size ≤ fuel) :
    treeAt (pre ++ t.pool c base o ++ post) fuel (BitVec.ofNat 16 base) = some t := by
  induction t generalizing base o pre post fuel with
  | leaf sym =>
    obtain ⟨fuel, rfl⟩ : ∃ k, fuel = k + 1 := ⟨fuel - 1, by simp [CodeTree.size] at hfuel; omega⟩
    simp only [CodeTree.size] at hcap
    have hb : base % 65536 = base := Nat.mod_eq_of_lt (by omega)
    simp [treeAt, CodeTree.pool, hb, hbase]
  | node a b iha ihb =>
    have ha := a.size_pos
    have hb := b.size_pos
    simp only [CodeTree.size] at hcap hfuel
    obtain ⟨fuel, rfl⟩ : ∃ k, fuel = k + 1 := ⟨fuel - 1, by omega⟩
    generalize hx : (⟨.internal, c.symPlaceholder, c.freqPlaceholder, BitVec.ofNat 16 (base + 1),
      BitVec.ofNat 16 (base + 1 + a.size), o⟩ : NodeRec) = x
    have hpool : (CodeTree.node a b).pool c base o = x :: (a.pool c (base + 1) true ++ b.pool c (base + 1 + a.size) true) := by
      rw [← hx]
      rfl
    have hl := iha (o := true) (pre ++ [x]) (b.pool c (base + 1 + a.size) true ++ post) (fuel := fuel)
      (base := base + 1) (by simp [hbase]) (by omega) (by omega)
    have hr := ihb (o := true) (pre ++ [x] ++ a.pool c (base + 1) true) post (fuel := fuel)
      (base := base + 1 + a.size) (by simp [hbase]; omega) (by omega) (by omega)
    have hroot : (pre ++ (CodeTree.node a b).pool c base o ++ post)[(BitVec.ofNat 16 base).toNat]? = some x := by
      rw [toNat_ref (by omega), hpool]
      simp [← hbase]
    rw [treeAt, hroot, hpool]
    simp only [List.append_assoc, List.cons_append, List.nil_append] at hl hr ⊢
    subst hx
    simp [hl, hr]

theorem CodeTree.treeAt_pool_isSome {t : CodeTree} (pre post : List NodeRec) {fuel i : Nat} (hbase : pre.length = base)
    (hcap : base + t.size ≤ 0xFFFF) (hfuel : t.size ≤ fuel) (hlo : base ≤ i) (hhi : i < base + t.size) :
    (treeAt (pre ++ t.pool c base o ++ post) fuel (BitVec.ofNat 16 i)).isSome = true := by
  induction t generalizing base o pre post with
  | leaf sym =>
    obtain rfl : i = base := by simp only [CodeTree.size] at hhi; omega
    rw [treeAt_pool pre post hbase hcap hfuel]
    rfl
  | node a b iha ihb =>
    by_cases hroot : i = base
    · rw [hroot, treeAt_pool pre post hbase hcap hfuel]
      rfl
    · have ha := a.size_pos
      have hb := b.size_pos
      simp only [CodeTree.size] at hcap hfuel hhi
      generalize hx : (⟨.internal, c.symPlaceholder, c.freqPlaceholder, BitVec.ofNat 16 (base + 1),
        BitVec.ofNat 16 (base + 1 + a.size), o⟩ : NodeRec) = x
      have hpool : (CodeTree.node a b).pool c base o = x :: (a.pool c (base + 1) true ++ b.pool c (base + 1 + a.size) true) := by
        rw [← hx]
        rfl
      rw [hpool]
      by_cases hleft : i < base + 1 + a.size
      · have := iha (o := true) (pre ++ [x]) (b.pool c (base + 1 + a.size) true ++ post) (base := base + 1) (by simp [hbase])
          (by omega) (by omega) (by omega) hleft
        simpa using this
      · have := ihb (o := true) (pre ++ [x] ++ a.pool c (base + 1) true) post (base := base + 1 + a.size)
          (by simp [hbase]; omega) (by omega) (by omega) (by omega) (by omega)
        simpa using this

/-- A forest with a reconstructed tree behind it. -/
theorem Forest.append_pool {ns : List NodeRec} (h : Forest ns) {t : CodeTree} (hcap : ns.length + t.size ≤ 0xFFFF) :
    Forest (ns ++ t.pool c ns.length false) := by
  refine h.extend (extends_append _ _) (by simp) (by simpa using hcap) (childrenOf_append _ _)
    (CodeTree.nodup_childrenOf_pool hcap) ?_ ?_ ?_
  · intro r hr
    rw [CodeTree.mem_childrenOf_pool hcap] at hr
    refine ⟨by simpa using hr.2, fun hold => ?_⟩
    have := h.valid r hold
    omega
  · intro i m hm
    have hi := (List.getElem?_eq_some_iff.mp hm).1
    simp only [List.length_append, CodeTree.pool_length] at hi
    rw [CodeTree.mem_childrenOf_pool hcap, BitVec.toNat_ofNat, Nat.mod_eq_of_lt (by omega)]
    by_cases hlt : i < ns.length
    · rw [List.getElem?_append_left hlt] at hm
      simp [hm]
      omega
    · rw [List.getElem?_append_right (by omega)] at hm
      rw [CodeTree.pool_owned hm, List.getElem?_eq_none (by omega)]
      simp
      omega
  · intro i hlo hhi
    simp only [List.length_append, CodeTree.pool_length] at hhi
    have := CodeTree.treeAt_pool_isSome (c := c) (o := false) (t := t) ns [] (fuel := ns.length + t.size) rfl hcap (by omega)
      hlo hhi
    simpa using this

end Sys2Proof.Machine

end

section
/-!
PROOF. The stores, the part of the state that the invariant speaks of, and how a rule ends when it starts from given stores
(`Ends`), whatever lands inside it.
-/

namespace Sys2Proof

/-! ### The parameters -/

section Config
variable {c : Config} (h : c.valid = true)
include h

theorem Config.ncap_le : c.ncap ≤ 0xFFFE := by
  simp only [Config.valid, Bool.and_eq_true, decide_eq_true_eq] at h
  omega

theorem Config.freqPlaceholder_lt : c.freqPlaceholder < 2 ^ c.fw := by
  simp only [Config.valid, Bool.and_eq_true, decide_eq_true_eq] at h
  omega

theorem Config.symPlaceholder_lt : c.symPlaceholder < 2 ^ (c.sw + 1) := by
  simp only [Config.valid, Bool.and_eq_true, decide_eq_true_eq] at h
  omega

theorem Config.one_lt_two_pow_iw : 1 < 2 ^ c.iw := by
  simp only [Config.valid, Bool.and_eq_true, decide_eq_true_eq] at h
  exact Nat.one_lt_two_pow (by omega)

end Config

theorem Config.two_pow_iw_le (c : Config) : 2 ^ c.iw ≤ 2 ^ c.fw :=
  Nat.pow_le_pow_right (by decide) (by simp only [Config.fw]; omega)

end Sys2Proof

namespace Sys2Proof.Machine

/-! ### The stores -/

/-- The part of a state that the invariant speaks of, every other field at its reset value. No host act that leaves the
command running changes it; IPOS, OLOG, the latches and the result registers are outside it. -/
def State.stores (s : State) : State :=
  { State.reset with
    cfg := s.cfg
    busy := s.busy
    fault := s.fault
    dstate := s.dstate
    nodes := s.nodes
    queue := s.queue
    pt := s.pt
    freq := s.freq
    rootRef := s.rootRef
    cursor := s.cursor
    stack := s.stack
    input := s.input }

/-- A record within its widths (spec/10_state.md R51), as `State.recordsOk` asks of every one. -/
def RecordOk (c : Config) (n : NodeRec) : Prop :=
  n.sym < 2 ^ (c.sw + 1) ∧ n.freq < 2 ^ c.fw ∧ (n.kind = .leaf → n.left = NIL ∧ n.right = NIL ∧ n.sym ≤ c.eofsym)

/-- What holds of the stores at every point of a command, wherever it stops: `State.BasicInv` but for what a fault clears. -/
structure State.StoresOk (s : State) : Prop where
  cfg_valid : s.cfg.valid = true
  pool_fits : s.nodes.length ≤ s.cfg.ncap
  records_ok : ∀ n ∈ s.nodes, RecordOk s.cfg n
  tables_ok : s.tablesOk
  root_ok : s.rootRef = NIL ∨ s.rootRef.toNat < s.nodes.length
  input_fits : s.input.length < 2 ^ 64

theorem State.BasicInv.storesOk {s : State} (h : s.BasicInv) : s.stores.StoresOk :=
  ⟨h.cfg_valid, h.pool_fits, h.records_ok, h.tables_ok, h.root_ok, h.input_fits⟩

theorem inv_stores {s : State} : s.stores.Inv ↔ s.Inv :=
  ⟨fun ⟨⟨h1, h2, h3, h4, h5, h6, h7⟩, h8, h9, h10, h11⟩ => ⟨⟨h1, h2, h3, h4, h5, h6, h7⟩, h8, h9, h10, h11⟩,
    fun ⟨⟨h1, h2, h3, h4, h5, h6, h7⟩, h8, h9, h10, h11⟩ => ⟨⟨h1, h2, h3, h4, h5, h6, h7⟩, h8, h9, h10, h11⟩⟩

/-- The invariant is the same of two states with the same stores. -/
theorem inv_congr {s t : State} (h : t.stores = s.stores) (hs : s.Inv) : t.Inv :=
  inv_stores.mp (h ▸ inv_stores.mpr hs)

/-! ### Ending from given stores -/

/-- However `c` ends when it starts from the stores `u`, the stores are in order, and when it answers, the answer and the
stores it leaves meet `Q`. -/
def Ends {α : Type} (u : State) (c : Cmd α) (Q : α → State → Prop) : Prop :=
  u.StoresOk → ∀ s : State, s.stores = u →
    match c s with
    | .ok a t => t.stores.StoresOk ∧ Q a t.stores
    | .error _ t => t.stores.StoresOk

namespace Ends

variable {α β : Type} {u v : State} {Q : α → State → Prop} {R : β → State → Prop}

/-- The stores are in order at the start. -/
theorem of_storesOk {c : Cmd α} (h : u.StoresOk → Ends u c Q) : Ends u c Q := fun hu => h hu hu

theorem mono {c : Cmd α} {Q' : α → State → Prop} (h : Ends u c Q) (hQ : ∀ a v, Q a v → Q' a v) : Ends u c Q' := by
  intro hu s hs
  have := h hu s hs
  cases hc : c s with
  | ok a t =>
    rw [hc] at this
    exact ⟨this.1, hQ _ _ this.2⟩
  | error e t =>
    rw [hc] at this
    exact this

theorem pure {a : α} (h : Q a u) : Ends u (Pure.pure a) Q := by
  rintro hu s rfl
  exact ⟨hu, h⟩

theorem throw (e : Stop) : Ends u (MonadExcept.throw e : Cmd α) Q := by
  rintro hu s rfl
  exact hu

theorem bind {x : Cmd α} {f : α → Cmd β} (hx : Ends u x Q) (hf : ∀ a v, Q a v → Ends v (f a) R) : Ends u (x >>= f) R := by
  intro hu s hs
  have h := hx hu s hs
  cases hc : x s with
  | ok a t =>
    rw [hc] at h
    rw [bind_of_ok hc]
    exact hf a _ h.2 h.1 t rfl
  | error e t =>
    rw [hc] at h
    rw [bind_of_error hc]
    exact h

theorem get_bind {f : State → Cmd β} (h : ∀ s : State, s.stores = u → Ends u (f s) R) :
    Ends u ((get : Cmd State) >>= f) R := fun hu s hs => h s hs hu s hs

end Ends

theorem Update.stores_eq {f : State → State} (hf : Update false true f) (s : State) : (f s).stores = s.stores := by
  cases hf <;> rfl

/-- `t` has the stores of `s`. -/
def SameStores (s t : State) : Prop := t.stores = s.stores

theorem SameStores.refl (s : State) : SameStores s s := rfl

theorem SameStores.trans {s t w : State} (h : SameStores s t) (h' : SameStores t w) : SameStores s w := Eq.trans h' h

/-- No update that a rule without store updates makes, and no host act at a point, touches the stores. -/
theorem Built.keeps_stores {α : Type} {c : Cmd α} (h : Built false true c) : Keeps SameStores c := by
  induction h with
  | pure a => exact keeps_pure .refl a
  | point => exact keeps_point .refl fun _ _ _ _ _ _ => rfl
  | throw e _ => exact keeps_throw .refl e
  | modify hf => exact keeps_modify hf.stores_eq
  | bind _ _ ihx ihf => exact keeps_bind (fun _ _ _ => .trans) ihx ihf
  | byState c' heq _ ih =>
    intro s
    rw [heq]
    exact ih s s

namespace Ends

variable {α β : Type} {u : State} {Q : α → State → Prop} {R : β → State → Prop}

/-- A rule without store updates leaves the stores as they are. -/
theorem of_built {c : Cmd α} (h : Built false true c) : Ends u c fun _ v => v = u := by
  rintro hu s rfl
  have hs : (reached (c s)).stores = s.stores := h.keeps_stores s
  cases hc : c s with
  | ok a t =>
    rw [hc] at hs
    exact ⟨hs ▸ hu, hs⟩
  | error e t =>
    rw [hc] at hs
    exact hs ▸ hu

/-- A rule without store updates, and what follows it. -/
theorem after {x : Cmd α} {f : α → Cmd β} (hx : Built false true x) (hf : ∀ a, Ends u (f a) R) : Ends u (x >>= f) R :=
  (of_built hx).bind fun a _ hv => hv ▸ hf a

theorem set {t : State} {Q : PUnit → State → Prop} (hok : t.stores.StoresOk) (hQ : Q ⟨⟩ t.stores) :
    Ends u (MonadStateOf.set t : Cmd PUnit) Q := fun _ _ _ => ⟨hok, hQ⟩

theorem modify {f g : State → State} {Q : PUnit → State → Prop} (hf : ∀ s : State, (f s).stores = g s.stores)
    (hok : (g u).StoresOk) (hQ : Q ⟨⟩ (g u)) : Ends u (modify f : Cmd PUnit) Q := by
  rintro hu s rfl
  rw [modify_apply]
  dsimp only
  rw [hf]
  exact ⟨hok, hQ⟩

theorem change {f g : State → State} {Q : Unit → State → Prop} (hf : ∀ s : State, (f s).stores = g s.stores)
    (hok : (g u).StoresOk) (hQ : Q ⟨⟩ (g u)) : Ends u (Machine.change f) Q :=
  after .point fun _ => modify hf hok hQ

theorem raise (f : FaultCode) : Ends u (Machine.raise f : Cmd α) Q :=
  after .point fun _ => throw _

theorem ite {p : Prop} [Decidable p] {x y : Cmd α} (hx : p → Ends u x Q) (hy : ¬ p → Ends u y Q) :
    Ends u (if p then x else y) Q := by
  split
  · next h => exact hx h
  · next h => exact hy h

end Ends

end Sys2Proof.Machine

end

section
/-!
PROOF. Building keeps the stores in order: the queue, the node primitives, CreateTree, BuildFromFreq, BuildTable, and the
frequency table (spec/40_node_queue.md, spec/41_tree_build.md, spec/42_path_table.md R150, spec/45_driver.md R211, R220).
-/

namespace Sys2Proof.Machine

variable {u : State} {c : Config} {d : DState}

/-! ### Updates of the stores -/

namespace State.StoresOk

theorem setQueue (h : u.StoresOk) (q : List NodeRef) : (u.setQueue q).StoresOk :=
  ⟨h.cfg_valid, h.pool_fits, h.records_ok, h.tables_ok, h.root_ok, h.input_fits⟩

theorem setStack (h : u.StoresOk) (st : List (NodeRef × AwaitSide)) : (u.setStack st).StoresOk :=
  ⟨h.cfg_valid, h.pool_fits, h.records_ok, h.tables_ok, h.root_ok, h.input_fits⟩

theorem setDecode (h : u.StoresOk) (cur : Option NodeRef) (m : Nat) : (u.setDecode cur m).StoresOk :=
  ⟨h.cfg_valid, h.pool_fits, h.records_ok, h.tables_ok, h.root_ok, h.input_fits⟩

theorem setDState (h : u.StoresOk) (d : DState) : (u.setDState d).StoresOk :=
  ⟨h.cfg_valid, h.pool_fits, h.records_ok, h.tables_ok, h.root_ok, h.input_fits⟩

theorem setRoot (h : u.StoresOk) {r : NodeRef} (hr : r.toNat < u.nodes.length) : (u.setRoot r).StoresOk :=
  ⟨h.cfg_valid, h.pool_fits, h.records_ok, h.tables_ok, .inr hr, h.input_fits⟩

/-- The pool grows or changes within its widths. -/
theorem setNodes (h : u.StoresOk) {ns : List NodeRec} (hlen : u.nodes.length ≤ ns.length) (hfit : ns.length ≤ u.cfg.ncap)
    (hrec : ∀ n ∈ ns, RecordOk u.cfg n) : (u.setNodes ns).StoresOk :=
  ⟨h.cfg_valid, hfit, hrec, h.tables_ok, h.root_ok.imp_right fun hr => hr.trans_le hlen, h.input_fits⟩

/-- A new record. -/
theorem append (h : u.StoresOk) {n : NodeRec} (hroom : u.nodes.length < u.cfg.ncap) (hn : RecordOk u.cfg n) :
    (u.setNodes (u.nodes ++ [n])).StoresOk := by
  refine h.setNodes (by simp) (by simpa using hroom) fun m hm => ?_
  rw [List.mem_append, List.mem_singleton] at hm
  obtain hm | rfl := hm
  · exact h.records_ok m hm
  · exact hn

/-- A changed record. -/
theorem modify (h : u.StoresOk) (k : Nat) {f : NodeRec → NodeRec}
    (hf : ∀ n, u.nodes[k]? = some n → RecordOk u.cfg n → RecordOk u.cfg (f n)) :
    (u.setNodes (u.nodes.modify k f)).StoresOk := by
  refine h.setNodes (by simp) (by simpa using h.pool_fits) fun m hm => ?_
  obtain ⟨i, hi⟩ := List.mem_iff_getElem?.mp hm
  rw [List.getElem?_modify] at hi
  obtain ⟨n, hn, rfl⟩ := Option.map_eq_some_iff.mp hi
  have hok := h.records_ok n (List.mem_iff_getElem?.mpr ⟨i, hn⟩)
  split
  · next hk => exact hf n (hk ▸ hn) hok
  · exact hok

theorem setPt (h : u.StoresOk) {pt : List (Option (List Bit))} (hlen : pt.length = u.cfg.eofsym + 1)
    (hfit : ∀ p, some p ∈ pt → p.length ≤ u.cfg.ncap) : (u.setPt pt).StoresOk := by
  obtain ⟨-, hfreq, -, hcounts⟩ := h.tables_ok
  exact ⟨h.cfg_valid, h.pool_fits, h.records_ok, ⟨hlen, hfreq, hfit, hcounts⟩, h.root_ok, h.input_fits⟩

theorem setFreq (h : u.StoresOk) {f : List Nat} (hlen : f.length = u.cfg.eofsym + 1) (hfit : ∀ n ∈ f, n < 2 ^ u.cfg.iw) :
    (u.setFreq f).StoresOk := by
  obtain ⟨hpt, -, hpaths, -⟩ := h.tables_ok
  exact ⟨h.cfg_valid, h.pool_fits, h.records_ok, ⟨hpt, hlen, hpaths, hfit⟩, h.root_ok, h.input_fits⟩

/-- A changed count. -/
theorem setFreq_set (h : u.StoresOk) (sym : Nat) {n : Nat} (hn : n < 2 ^ u.cfg.iw) :
    (u.setFreq (u.freq.set sym n)).StoresOk := by
  obtain ⟨-, hlen, -, hfit⟩ := h.tables_ok
  refine h.setFreq (by simpa using hlen) fun m hm => ?_
  obtain hm | rfl := List.mem_or_eq_of_mem_set hm
  · exact hfit m hm
  · exact hn

theorem freqAt_lt (h : u.StoresOk) (sym : Nat) : u.freqAt sym < 2 ^ u.cfg.iw := by
  obtain ⟨-, -, -, hfit⟩ := h.tables_ok
  rw [State.freqAt, List.getD_eq_getElem?_getD]
  cases hget : u.freq[sym]? with
  | none => exact Nat.two_pow_pos _
  | some n => exact hfit n (List.mem_iff_getElem?.mpr ⟨sym, hget⟩)

end State.StoresOk

theorem recordOk_leaf {c : Config} {sym freq : Nat} {o : Bool} (hsym : sym ≤ c.eofsym) (hfreq : freq < 2 ^ c.fw) :
    RecordOk c ⟨.leaf, sym, freq, NIL, NIL, o⟩ :=
  ⟨hsym.trans_lt (Nat.pow_lt_pow_succ (by decide)), hfreq, fun _ => ⟨rfl, rfl, hsym⟩⟩

theorem recordOk_internal {c : Config} {sym freq : Nat} {a b : NodeRef} {o : Bool} (hsym : sym < 2 ^ (c.sw + 1))
    (hfreq : freq < 2 ^ c.fw) : RecordOk c ⟨.internal, sym, freq, a, b, o⟩ :=
  ⟨hsym, hfreq, nofun⟩

theorem RecordOk.own {c : Config} {n : NodeRec} (h : RecordOk c n) : RecordOk c n.own := h

/-! ### The queue -/

/-- A sorted list stays sorted when an element goes before the first greater one (spec/40_node_queue.md R113). -/
theorem pairwise_insert {α : Type} {g : α → Nat} {r : α} {q : List α} (h : q.Pairwise fun a b => g a ≤ g b) :
    (q.take (q.findIdx fun x => decide (g x > g r)) ++ r :: q.drop (q.findIdx fun x => decide (g x > g r))).Pairwise
      fun a b => g a ≤ g b := by
  induction q with
  | nil => simp
  | cons x xs ih =>
    rw [List.pairwise_cons] at h
    obtain ⟨hx, hxs⟩ := h
    by_cases hgt : g x > g r
    · simp only [List.findIdx_cons, hgt, decide_true, cond_true, List.take_zero, List.drop_zero, List.nil_append,
        List.pairwise_cons, List.mem_cons, forall_eq_or_imp]
      exact ⟨⟨hgt.le, fun y hy => hgt.le.trans (hx y hy)⟩, hx, hxs⟩
    · simp only [List.findIdx_cons, hgt, decide_false, cond_false, List.take_succ_cons, List.drop_succ_cons, List.cons_append,
        List.pairwise_cons]
      refine ⟨fun y hy => ?_, ih hxs⟩
      rw [List.mem_append, List.mem_cons] at hy
      obtain hy | rfl | hy := hy
      · exact hx y (List.mem_of_mem_take hy)
      · omega
      · exact hx y (List.mem_of_mem_drop hy)

/-- The queue is in order when it is the same and so are the records of its entries. -/
theorem queueOk_congr {s t : State} (h : s.queueOk) (hq : t.queue = s.queue)
    (hn : ∀ r ∈ s.queue, t.nodes[r.toNat]? = s.nodes[r.toNat]?) : t.queueOk := by
  obtain ⟨hvalid, hnodup, hsorted⟩ := h
  rw [← hq] at hvalid hnodup hsorted hn
  refine ⟨fun r hr => hn r hr ▸ hvalid r hr, hnodup, hsorted.imp_of_mem fun {a b} ha hb hab => ?_⟩
  rwa [State.freqOfRef, State.freqOfRef, hn a ha, hn b hb]

/-- A reference fit for the queue: valid, unowned and not in it. -/
def State.Loose (s : State) (r : NodeRef) : Prop := ∃ n, s.nodes[r.toNat]? = some n ∧ n.owned = false ∧ r ∉ s.queue

theorem queueOk_insert {s : State} (h : s.queueOk) {r : NodeRef} (hr : s.Loose r) :
    (s.setQueue (s.queue.take (insertAt s (s.freqOfRef r) s.queue) ++
      r :: s.queue.drop (insertAt s (s.freqOfRef r) s.queue))).queueOk := by
  obtain ⟨hvalid, hnodup, hsorted⟩ := h
  obtain ⟨n, hn, ho, hnot⟩ := hr
  have hperm (k : Nat) : (s.queue.take k ++ r :: s.queue.drop k).Perm (r :: s.queue) := by
    simpa using List.perm_middle (a := r) (l₁ := s.queue.take k) (l₂ := s.queue.drop k)
  refine ⟨fun x hx => ?_, (hperm _).nodup_iff.mpr (List.nodup_cons.mpr ⟨hnot, hnodup⟩), pairwise_insert hsorted⟩
  obtain rfl | hx := List.mem_cons.mp ((hperm _).mem_iff.mp hx)
  · exact ⟨n, hn, ho⟩
  · exact hvalid x hx

theorem queueOk_tail {s : State} (h : s.queueOk) {r : NodeRef} {q : List NodeRef} (hq : s.queue = r :: q) :
    (s.setQueue q).queueOk := by
  obtain ⟨hvalid, hnodup, hsorted⟩ := h
  rw [hq] at hvalid hnodup hsorted
  exact ⟨fun x hx => hvalid x (List.mem_cons_of_mem _ hx), (List.nodup_cons.mp hnodup).2, (List.pairwise_cons.mp hsorted).2⟩

/-! ### A command at work -/

/-- The stores of a command that has neither faulted nor ended, outside a decode and a reconstruction. -/
structure State.Working (c : Config) (d : DState) (u : State) : Prop where
  cfg_eq : u.cfg = c
  busy : u.busy = true
  no_fault : u.fault = none
  dstate_eq : u.dstate = d
  forest : Forest u.nodes
  queue_ok : u.queueOk
  stack_nil : u.stack = []
  cursor_none : u.cursor = none

namespace State.Working

theorem setFreq (h : u.Working c d) (f : List Nat) : (u.setFreq f).Working c d :=
  ⟨h.cfg_eq, h.busy, h.no_fault, h.dstate_eq, h.forest, h.queue_ok, h.stack_nil, h.cursor_none⟩

theorem setPt (h : u.Working c d) (pt : List (Option (List Bit))) : (u.setPt pt).Working c d :=
  ⟨h.cfg_eq, h.busy, h.no_fault, h.dstate_eq, h.forest, h.queue_ok, h.stack_nil, h.cursor_none⟩

theorem setRoot (h : u.Working c d) (r : NodeRef) : (u.setRoot r).Working c d :=
  ⟨h.cfg_eq, h.busy, h.no_fault, h.dstate_eq, h.forest, h.queue_ok, h.stack_nil, h.cursor_none⟩

theorem setQueue (h : u.Working c d) {q : List NodeRef} (hq : (u.setQueue q).queueOk) : (u.setQueue q).Working c d :=
  ⟨h.cfg_eq, h.busy, h.no_fault, h.dstate_eq, h.forest, hq, h.stack_nil, h.cursor_none⟩

/-- A bigger forest in which the entries of the queue have the same records. -/
theorem setNodes (h : u.Working c d) {ns : List NodeRec} (hforest : Forest ns)
    (hqueue : ∀ r ∈ u.queue, ns[r.toNat]? = u.nodes[r.toNat]?) : (u.setNodes ns).Working c d :=
  ⟨h.cfg_eq, h.busy, h.no_fault, h.dstate_eq, hforest, queueOk_congr h.queue_ok rfl hqueue, h.stack_nil, h.cursor_none⟩

/-- An entry of the queue is a reference below NEXT. -/
theorem queue_valid (h : u.Working c d) {r : NodeRef} (hr : r ∈ u.queue) : r.toNat < u.nodes.length := by
  obtain ⟨hvalid, -, -⟩ := h.queue_ok
  obtain ⟨n, hn, -⟩ := hvalid r hr
  exact (List.getElem?_eq_some_iff.mp hn).1

/-- New records leave the records of the queue's entries. -/
theorem append (h : u.Working c d) {ms : List NodeRec} (hforest : Forest (u.nodes ++ ms)) :
    (u.setNodes (u.nodes ++ ms)).Working c d :=
  h.setNodes hforest fun _ hr => List.getElem?_append_left (h.queue_valid hr)

/-- A root that is not NIL stands for a tree. -/
theorem root_tree (h : u.Working c d) (hr : u.rootRef.toNat < u.nodes.length) : ∃ t, u.tree? u.rootRef = some t :=
  h.forest.tree hr

end State.Working

/-! ### What the primitives answer -/

theorem ofBits_lt (bits : List Bit) : ofBits bits < 2 ^ bits.length := by
  induction bits using List.reverseRecOn with
  | nil => simp [ofBits]
  | append_singleton bits b ih =>
    have hb := b.toNat_lt
    simp only [ofBits, List.foldl_append, List.foldl_cons, List.foldl_nil, List.length_append, List.length_singleton,
      pow_succ] at ih ⊢
    omega

/-- InRead leaves the stores and gives a value of its width. -/
theorem ends_inRead (n : Nat) : Ends u (inRead n) fun o v => v = u ∧ ∀ x, o = some x → x < 2 ^ n := by
  refine .after .point fun _ => .get_bind fun s hs => .ite (fun _ => .pure ⟨rfl, nofun⟩) fun hn => ?_
  subst hs
  refine .of_storesOk fun hu => Ends.bind (Q := fun _ v => v = s.stores) (.set hu rfl) fun _ v hv => .pure ⟨hv, fun x hx => ?_⟩
  obtain rfl := Option.some.inj hx
  exact (ofBits_lt _).trans_le (Nat.pow_le_pow_right (by decide) (by simp))

theorem ends_nodeRead (r : NodeRef) : Ends u (nodeRead r) fun n v => v = u ∧ u.nodes[r.toNat]? = some n := by
  rintro hu s rfl
  unfold nodeRead
  cases hn : s.nodes[r.toNat]? with
  | none => exact hu
  | some n => exact ⟨hu, rfl, hn⟩

/-- Alloc appends a record within its widths, when there is room. -/
theorem ends_alloc {kind : NodeKind} {sym freq : Nat} (hn : RecordOk u.cfg ⟨kind, sym, freq, NIL, NIL, false⟩) :
    Ends u (alloc kind sym freq) fun r v => u.nodes.length < u.cfg.ncap ∧ r = BitVec.ofNat 16 u.nodes.length ∧
      v = u.setNodes (u.nodes ++ [⟨kind, sym, freq, NIL, NIL, false⟩]) := by
  refine .of_storesOk fun hu => .get_bind fun s hs => .ite (fun hroom => ?_) fun _ => .raise _
  subst hs
  refine Ends.bind (Q := fun _ v => v = s.stores.setNodes (s.nodes ++ [⟨kind, sym, freq, NIL, NIL, false⟩]))
    (.set (hu.append hroom hn) rfl) fun _ v hv => .pure ⟨hroom, rfl, hv⟩

theorem ends_nodeWrite (r : NodeRef) {f : NodeRec → NodeRec}
    (hf : ∀ n, u.nodes[r.toNat]? = some n → RecordOk u.cfg n → RecordOk u.cfg (f n)) :
    Ends u (nodeWrite r f) fun _ v => v = u.setNodes (u.nodes.modify r.toNat f) :=
  .of_storesOk fun hu => .modify (g := fun s => s.setNodes (s.nodes.modify r.toNat f)) (fun _ => rfl) (hu.modify _ hf) rfl

/-- The symbol operand is at most EOFSYM. -/
theorem ends_takeSymbol : Ends u takeSymbol fun sym v => v = u ∧ sym ≤ u.cfg.eofsym := by
  refine .get_bind fun s hs => .ite (fun _ => .raise _) fun hsym => .pure ⟨rfl, ?_⟩
  subst hs
  exact Nat.not_lt.mp hsym

/-! ### Building -/

theorem ends_alloc_leaf {sym freq : Nat} (h : u.Working c d) (hsym : sym ≤ c.eofsym) (hfreq : freq < 2 ^ c.fw) :
    Ends u (alloc .leaf sym freq) fun r v => v.Working c d ∧ v.Loose r := by
  rw [← h.cfg_eq] at hsym hfreq
  refine .of_storesOk fun hu => (ends_alloc (recordOk_leaf hsym hfreq)).mono ?_
  rintro r v ⟨hroom, rfl, rfl⟩
  have hcap := Config.ncap_le hu.cfg_valid
  have hr : (BitVec.ofNat 16 u.nodes.length).toNat = u.nodes.length := toNat_ref (by omega)
  have hnot : BitVec.ofNat 16 u.nodes.length ∉ u.queue := fun hmem => by
    have := h.queue_valid hmem
    omega
  exact ⟨h.append (h.forest.append_leaf (by omega) _ _),
    ⟨_, by rw [hr]; exact List.getElem?_concat_length, rfl, hnot⟩⟩

theorem ends_insertByFreq {r : NodeRef} {f : Nat} {q : List NodeRef} (hq : ∀ x ∈ q, x.toNat < u.nodes.length) :
    Ends u (insertByFreq r f q) fun q' v => v = u ∧ q' = q.take (insertAt u f q) ++ r :: q.drop (insertAt u f q) := by
  rintro hu s rfl
  rw [insertByFreq_valid (s := s) r f q hq]
  exact ⟨hu, rfl, rfl⟩

theorem ends_enqueue {r : NodeRef} (h : u.Working c d) (hr : u.Loose r) :
    Ends u (enqueue r) fun _ v => v.Working c d := by
  refine (ends_nodeRead r).bind ?_
  rintro n v ⟨rfl, hn⟩
  have hf : v.freqOfRef r = n.freq := by rw [State.freqOfRef, hn]
  refine .get_bind fun s hs => ?_
  have hq : s.queue = v.queue := by
    rw [← hs]
    rfl
  rw [hq]
  refine (ends_insertByFreq fun x => h.queue_valid).bind ?_
  rintro q w ⟨rfl, rfl⟩
  have hins := queueOk_insert h.queue_ok hr
  rw [hf] at hins
  exact .of_storesOk fun hu => .change (g := (·.setQueue _)) (fun _ => rfl) (hu.setQueue _) (h.setQueue hins)

/-- Dequeue takes the front off a queue in order. -/
theorem ends_dequeue (h : u.Working c d) :
    Ends u dequeue fun r v => ∃ q, u.queue = r :: q ∧ v = u.setQueue q ∧ v.Working c d ∧ v.Loose r := by
  refine .get_bind fun s hs => ?_
  have hq : s.queue = u.queue := by
    rw [← hs]
    rfl
  rw [hq]
  split
  · exact .raise _
  · next r q hqueue =>
    have hok := h.setQueue (queueOk_tail h.queue_ok hqueue)
    obtain ⟨hvalid, hnodup, -⟩ := h.queue_ok
    rw [hqueue] at hvalid hnodup
    obtain ⟨n, hn, ho⟩ := hvalid r List.mem_cons_self
    refine .of_storesOk fun hu => Ends.bind (Q := fun _ v => v = u.setQueue q)
      (.change (g := (·.setQueue q)) (fun _ => rfl) (hu.setQueue q) rfl) ?_
    rintro - v rfl
    exact .pure ⟨q, hqueue, rfl, hok, n, hn, ho, (List.nodup_cons.mp hnodup).1⟩

/-- The records MkInternal leaves (spec/40_node_queue.md R111). -/
theorem modify_joined {ns : List NodeRec} (hcap : ns.length ≤ 0xFFFE) (sym freq : Nat) (a b : NodeRef) :
    (((ns ++ [(⟨.internal, sym, freq, NIL, NIL, false⟩ : NodeRec)]).modify (BitVec.ofNat 16 ns.length).toNat
      fun n => { n with left := a, right := b }).modify a.toNat NodeRec.own).modify b.toNat NodeRec.own =
    joined ns sym freq a b := by
  have hmodify := modify_append_right ns [(⟨.internal, sym, freq, NIL, NIL, false⟩ : NodeRec)] 0
    fun n => { n with left := a, right := b }
  rw [toNat_ref hcap, ← Nat.add_zero ns.length, hmodify]
  rfl

theorem ends_mkInternal {a b : NodeRef} (h : u.Working c d) (ha : u.Loose a) (hb : u.Loose b) (hab : a ≠ b) :
    Ends u (mkInternal a b) fun r v => v.Working c d ∧ v.Loose r := by
  obtain ⟨na, hna, hoa, hqa⟩ := ha
  obtain ⟨nb, hnb, hob, hqb⟩ := hb
  refine .of_storesOk fun hu => (ends_nodeRead a).bind ?_
  rintro na' v ⟨rfl, hna'⟩
  refine (ends_nodeRead b).bind ?_
  rintro nb' v' ⟨rfl, hnb'⟩
  refine .get_bind fun s hs => .ite (fun _ => .raise _) fun hfreq => ?_
  have hcfg : s.cfg = v'.cfg := by
    rw [← hs]
    rfl
  rw [hcfg, Nat.not_le] at hfreq
  rw [hcfg]
  have hcap := Config.ncap_le hu.cfg_valid
  have hfit := hu.pool_fits
  have hla := (List.getElem?_eq_some_iff.mp hna).1
  have hlb := (List.getElem?_eq_some_iff.mp hnb).1
  refine (ends_alloc (recordOk_internal (Config.symPlaceholder_lt hu.cfg_valid) hfreq)).bind ?_
  rintro r w ⟨hroom, rfl, rfl⟩
  refine (ends_nodeWrite (f := fun n => { n with left := a, right := b }) _ ?_).bind ?_
  · intro n hn hok
    rw [toNat_ref (by omega), State.setNodes_nodes, List.getElem?_concat_length] at hn
    cases hn
    exact recordOk_internal hok.1 hok.2.1
  rintro - w rfl
  refine (ends_nodeWrite (f := NodeRec.own) a fun _ _ => RecordOk.own).bind ?_
  rintro - w rfl
  refine (ends_nodeWrite (f := NodeRec.own) b fun _ _ => RecordOk.own).bind ?_
  rintro - w rfl
  have hnodes : ∀ ns ms : List NodeRec, (v'.setNodes ns).setNodes ms = v'.setNodes ms := fun _ _ => rfl
  simp only [hnodes, State.setNodes_nodes, modify_joined (by omega : v'.nodes.length ≤ 0xFFFE)]
  have hget := joined_getElem? (sym := v'.cfg.symPlaceholder) (freq := na'.freq + nb'.freq) hla hlb
  refine .pure ⟨h.setNodes (h.forest.joined (by omega) hna hnb hoa hob hab) fun x hx => ?_, ?_⟩
  · have hxlt := h.queue_valid hx
    have hxa : a.toNat ≠ x.toNat := fun heq => hqa (BitVec.eq_of_toNat_eq heq ▸ hx)
    have hxb : b.toNat ≠ x.toNat := fun heq => hqb (BitVec.eq_of_toNat_eq heq ▸ hx)
    rw [hget, if_neg hxlt.ne, if_neg (by simp [hxa, hxb])]
  · refine ⟨_, by rw [State.setNodes_nodes, toNat_ref (by omega), hget, if_pos rfl], rfl, fun hmem => ?_⟩
    have := h.queue_valid hmem
    rw [toNat_ref (by omega)] at this
    omega

theorem ends_combineLoop (fuel : Nat) (h : u.Working c d) : Ends u (combineLoop fuel) fun _ v => v.Working c d := by
  induction fuel generalizing u with
  | zero => exact .pure h
  | succ fuel ih =>
    refine .get_bind fun s hs => .ite (fun _ => ?_) fun _ => .pure h
    refine (ends_dequeue h).bind ?_
    rintro a v ⟨q, -, -, hv, ha⟩
    refine (ends_dequeue hv).bind ?_
    rintro b w ⟨q', hq', rfl, hw, hb⟩
    obtain ⟨n, hn, ho, hnot⟩ := ha
    rw [hq', List.mem_cons, not_or] at hnot
    obtain ⟨hab, hnot⟩ := hnot
    refine (ends_mkInternal hw ⟨n, hn, ho, hnot⟩ hb hab).bind ?_
    rintro r x ⟨hx, hr⟩
    exact (ends_enqueue hx hr).bind fun _ _ hy => ih hy

/-- CreateTree ends with a root. -/
theorem ends_createTree (h : u.Working c d) :
    Ends u createTree fun _ v => v.Working c d ∧ v.rootRef.toNat < v.nodes.length := by
  refine .get_bind fun s hs => .ite (fun _ => .raise _) fun _ => ?_
  refine (ends_combineLoop _ h).bind fun _ v hv => (ends_dequeue hv).bind ?_
  rintro r w ⟨q, -, -, hw, n, hn, -⟩
  have hr := (List.getElem?_eq_some_iff.mp hn).1
  exact .of_storesOk fun hok => .change (g := (·.setRoot r)) (fun _ => rfl) (hok.setRoot hr) ⟨hw.setRoot r, hr⟩

theorem ends_leavesLoop (count sym : Nat) (h : u.Working c d) (hsym : sym + count ≤ c.alph) :
    Ends u (leavesLoop count sym) fun _ v => v.Working c d := by
  induction count generalizing u sym with
  | zero => exact .pure h
  | succ count ih =>
    refine .of_storesOk fun hu => .get_bind fun s hs => .ite (fun _ => ?_) fun _ => ih _ h (by omega)
    subst hs
    have hfreq : s.freqAt sym < 2 ^ c.fw := (h.cfg_eq ▸ hu.freqAt_lt sym).trans_le c.two_pow_iw_le
    refine (ends_alloc_leaf h (show sym ≤ c.alph by omega) hfreq).bind ?_
    rintro r v ⟨hv, hr⟩
    exact (ends_enqueue hv hr).bind fun _ _ hw => ih _ hw (by omega)

/-- BuildFromFreq ends with a root. -/
theorem ends_buildFromFreq (h : u.Working c d) :
    Ends u buildFromFreq fun _ v => v.Working c d ∧ v.rootRef.toNat < v.nodes.length := by
  refine .of_storesOk fun hu => .get_bind fun s hs => ?_
  have hcfg : s.cfg = c := by
    rw [← h.cfg_eq, ← hs]
    rfl
  have hone : 1 < 2 ^ c.fw := (Config.one_lt_two_pow_iw (h.cfg_eq ▸ hu.cfg_valid)).trans_le c.two_pow_iw_le
  rw [hcfg]
  refine (ends_leavesLoop c.alph 0 h (by omega)).bind fun _ v hv => (ends_alloc_leaf hv le_rfl hone).bind ?_
  rintro r w ⟨hw, hr⟩
  exact (ends_enqueue hw hr).bind fun _ _ hx => ends_createTree hx

/-! ### Paths -/

theorem CodeTree.table_length (t : CodeTree) (eofsym : Nat) : (t.table eofsym).length = eofsym + 1 := by
  simp [CodeTree.table]

theorem CodeTree.table_path_le {t : CodeTree} {eofsym : Nat} {p : List Bit} (h : some p ∈ t.table eofsym) :
    p.length ≤ t.depth := by
  obtain ⟨sym, -, hp⟩ := List.mem_map.mp h
  exact CodeTree.path_length_le hp

/-- BuildTable enters the table of the tree at the root. -/
theorem ends_buildTable (h : u.Working c d) :
    Ends u buildTable fun _ v => ∃ t, u.tree? u.rootRef = some t ∧ v = u.setPt (t.table c.eofsym) := by
  refine .of_storesOk fun hu => ?_
  have hcap := Config.ncap_le hu.cfg_valid
  have hfit := hu.pool_fits
  obtain hnil | hroot := hu.root_ok
  · refine .get_bind fun s hs => .ite (fun _ => .raise _) fun hne => ?_
    subst hs
    exact absurd hnil hne
  · obtain ⟨t, ht⟩ := h.root_tree hroot
    rintro - s rfl
    rw [buildTable_tree (s := s) (t := t) (by exact hfit.trans (by omega)) ht]
    obtain rfl : s.cfg = c := h.cfg_eq
    refine ⟨hu.setPt (t.table_length _) fun p hp => ?_, t, ht, rfl⟩
    exact (CodeTree.table_path_le hp).trans ((treeAt_depth_lt ht).le.trans hfit)

/-! ### Scanning and reading counts -/

theorem ends_scanLoop (fuel : Nat) (h : u.Working c d) : Ends u (scanLoop fuel) fun _ v => v.Working c d := by
  induction fuel generalizing u with
  | zero => exact .throw _
  | succ fuel ih =>
    refine .get_bind fun s hs => (ends_inRead _).bind ?_
    rintro o v ⟨rfl, -⟩
    split
    · exact .pure h
    · next sym =>
      refine .of_storesOk fun hv => .get_bind fun s' hs' => .ite (fun _ => .raise _) fun hlt => ?_
      subst hs'
      have hcount : s'.freqAt sym + 1 < 2 ^ s'.cfg.iw := by
        have : s'.freqAt sym < 2 ^ s'.cfg.iw := hv.freqAt_lt sym
        omega
      refine Ends.bind (Q := fun _ w => w = s'.stores.setFreq _) (.set (hv.setFreq_set sym hcount) rfl) ?_
      rintro - w rfl
      exact ih (h.setFreq _)

theorem ends_modify_freq {f : State → List Nat} (hf : ∀ s : State, f s.stores = f s) (hok : (u.setFreq (f u)).StoresOk)
    (h : u.Working c d) : Ends u (modify fun s => s.setFreq (f s)) fun _ v => v.Working c d :=
  .modify (g := fun s => s.setFreq (f s)) (fun s => by rw [hf]; rfl) hok (h.setFreq _)

theorem ends_readCounts (count sym : Nat) (h : u.Working c d) : Ends u (readCounts count sym) fun _ v => v.Working c d := by
  induction count generalizing u sym with
  | zero => exact .pure h
  | succ count ih =>
    refine .get_bind fun s hs => (ends_inRead _).bind ?_
    subst hs
    rintro o v ⟨rfl, hbound⟩
    split
    · exact .raise _
    · next n =>
      refine .of_storesOk fun hv => ?_
      exact (ends_modify_freq (fun _ => rfl) (hv.setFreq_set sym (hbound n rfl)) h).bind fun _ _ hw => ih _ hw

/-- The EOF count. -/
theorem ends_setEof (h : u.Working c d) :
    Ends u (modify fun s => s.setFreq (s.freq.set s.cfg.eofsym 1)) fun _ v => v.Working c d :=
  .of_storesOk fun hu => ends_modify_freq (fun _ => rfl) (hu.setFreq_set _ (Config.one_lt_two_pow_iw hu.cfg_valid)) h

theorem ends_scanInput (h : u.Working c d) : Ends u scanInput fun _ v => v.Working c d := by
  refine .after built_inRewind fun _ => .of_storesOk fun hu => ?_
  have hclear : (u.setFreq (List.replicate (u.cfg.eofsym + 1) 0)).StoresOk :=
    hu.setFreq (by simp) fun n hn => by
      rw [List.eq_of_mem_replicate hn]
      exact Nat.two_pow_pos _
  refine (ends_modify_freq (f := fun s => List.replicate (s.cfg.eofsym + 1) 0) (fun _ => rfl) hclear h).bind fun _ v hv => ?_
  exact .get_bind fun s _ => (ends_scanLoop _ hv).bind fun _ _ hw => ends_setEof hw

end Sys2Proof.Machine

end

section
/-!
PROOF. Reconstruction: ReadNode adds the records of a tree to the pool, whatever port IN presents (spec/43_serialize.md
R172).
-/

namespace Sys2Proof.Machine

variable {s u : State} {c : Config} {d : DState}

/-! ### Reconstruction -/

/-- The stores in the middle of a reconstruction: another pool and another stack. -/
def State.withPool (u : State) (ns : List NodeRec) (st : List (NodeRef × AwaitSide)) : State := (u.setNodes ns).setStack st

/-- A child is attached to an internal record and owned: the two writes of ReadNode (spec/43_serialize.md R172). -/
theorem ends_attach {α : Type} {Q : α → State → Prop} {x : Cmd α} {ns ms : List NodeRec} {st : List (NodeRef × AwaitSide)}
    {y : NodeRec} {r q : NodeRef} {k : Nat} {f : NodeRec → NodeRec} (hr : r.toNat = ns.length)
    (hq : q.toNat = ns.length + (k + 1)) (hf : RecordOk u.cfg y → RecordOk u.cfg (f y))
    (hx : Ends (u.withPool (ns ++ f y :: ms.modify k NodeRec.own) st) x Q) :
    Ends (u.withPool (ns ++ y :: ms) st) (do
      nodeWrite r f
      nodeWrite q NodeRec.own
      x) Q := by
  have hfirst : (ns ++ y :: ms).modify r.toNat f = ns ++ f y :: ms := by
    rw [hr, ← Nat.add_zero ns.length, modify_append_right]
    rfl
  have hsecond : (ns ++ f y :: ms).modify q.toNat NodeRec.own = ns ++ f y :: ms.modify k NodeRec.own := by
    rw [hq, modify_append_right]
    rfl
  refine Ends.bind (Q := fun _ w => w = u.withPool (ns ++ f y :: ms) st) ((ends_nodeWrite r fun n hn => ?_).mono ?_) ?_
  · obtain rfl : y = n := by simpa [State.withPool, hr] using hn
    exact hf
  · rintro - w rfl
    rw [← hfirst]
    rfl
  rintro - w rfl
  refine Ends.bind (Q := fun _ w => w = u.withPool (ns ++ f y :: ms.modify k NodeRec.own) st)
    ((ends_nodeWrite q fun _ _ => RecordOk.own).mono ?_) ?_
  · rintro - w rfl
    rw [← hsecond]
    rfl
  rintro - w rfl
  exact hx

theorem CodeTree.modify_pool_own (t : CodeTree) (base : Nat) :
    (t.pool c base false).modify 0 NodeRec.own = t.pool c base true := CodeTree.pool_own c base t

/-- The record of an internal marker before its children are read. -/
def openRecord (c : Config) : NodeRec := ⟨.internal, c.symPlaceholder, c.freqPlaceholder, NIL, NIL, false⟩

theorem ends_setStack {α : Type} {Q : α → State → Prop} {x : Cmd α} {ns : List NodeRec} {st : List (NodeRef × AwaitSide)}
    (f : List (NodeRef × AwaitSide) → List (NodeRef × AwaitSide)) (hx : Ends (u.withPool ns (f st)) x Q) :
    Ends (u.withPool ns st) (do
      modify fun s => s.setStack (f s.stack)
      x) Q := by
  refine .of_storesOk fun hu => Ends.bind (Q := fun _ w => w = u.withPool ns (f st))
    (.modify (g := fun s => s.setStack (f s.stack)) (fun _ => rfl) (hu.setStack _) rfl) ?_
  rintro - w rfl
  exact hx

/-- ReadNode allocates the records of a tree, in pre-order, and leaves the rest of the stores. -/
theorem ends_readNode (fuel : Nat) : Ends u (readNode fuel) fun r v => ∃ t : CodeTree,
    r = BitVec.ofNat 16 u.nodes.length ∧ v = u.setNodes (u.nodes ++ t.pool u.cfg u.nodes.length false) := by
  induction fuel generalizing u with
  | zero => exact .throw _
  | succ fuel ih =>
    refine .of_storesOk fun hu => (ends_inRead 1).bind ?_
    have hcap := Config.ncap_le hu.cfg_valid
    have hfreq := Config.freqPlaceholder_lt hu.cfg_valid
    have hsymbol := Config.symPlaceholder_lt hu.cfg_valid
    rintro o v ⟨rfl, -⟩
    split
    · exact .raise _
    · refine .get_bind fun s hs => (ends_inRead _).bind ?_
      rintro o v' ⟨rfl, -⟩
      have hcfg : s.cfg = v'.cfg := by
        rw [← hs]
        rfl
      split
      · exact .raise _
      · next sym =>
        refine .ite (fun _ => .raise _) fun hsym => ?_
        rw [hcfg] at hsym ⊢
        refine (ends_alloc (recordOk_leaf (Nat.not_lt.mp hsym) hfreq)).mono ?_
        rintro r w ⟨-, rfl, rfl⟩
        exact ⟨.leaf sym, rfl, rfl⟩
    · refine .get_bind fun s hs => ?_
      have hcfg : s.cfg = v.cfg := by
        rw [← hs]
        rfl
      rw [hcfg]
      have hsub (ns : List NodeRec) (st : List (NodeRef × AwaitSide)) : Ends (v.withPool ns st) (readNode fuel) fun r w =>
          ∃ t : CodeTree, r = BitVec.ofNat 16 ns.length ∧ w = v.withPool (ns ++ t.pool v.cfg ns.length false) st := ih
      refine Ends.bind (Q := fun r w => v.nodes.length < v.cfg.ncap ∧ r = BitVec.ofNat 16 v.nodes.length ∧
        w = v.withPool (v.nodes ++ [openRecord v.cfg]) v.stack) (ends_alloc (recordOk_internal hsymbol hfreq)) ?_
      rintro r w ⟨hroom, rfl, rfl⟩
      have hr := toNat_ref (n := v.nodes.length) (by omega)
      refine ends_setStack (fun st => (_, .leftChild) :: st) ((hsub _ _).bind ?_)
      rintro l w ⟨a, rfl, rfl⟩
      have ha := a.size_pos
      rw [List.append_assoc, List.singleton_append, List.length_append, List.length_singleton]
      refine .of_storesOk fun hw => ?_
      have hfit : v.nodes.length + (1 + a.size) ≤ v.cfg.ncap := by
        simpa [State.withPool, Nat.add_comm] using hw.pool_fits
      refine ends_attach (k := 0) (f := fun n => { n with left := BitVec.ofNat 16 (v.nodes.length + 1) }) hr
        (toNat_ref (by omega)) (fun hy => recordOk_internal hy.1 hy.2.1) ?_
      rw [CodeTree.modify_pool_own]
      refine ends_setStack (fun st => (_, .rightChild) :: st.tail) ((hsub _ _).bind ?_)
      rintro q w ⟨b, rfl, rfl⟩
      have hb := b.size_pos
      rw [List.append_assoc, List.cons_append]
      refine .of_storesOk fun hw' => ?_
      have hfit' : v.nodes.length + (1 + a.size + b.size) ≤ v.cfg.ncap := by
        have := hw'.pool_fits
        simp [State.withPool] at this
        omega
      have hlen : (v.nodes ++ ({ openRecord v.cfg with left := BitVec.ofNat 16 (v.nodes.length + 1) } : NodeRec) ::
          a.pool v.cfg (v.nodes.length + 1) true).length = v.nodes.length + 1 + a.size := by
        simp
        omega
      rw [hlen]
      have hq := toNat_ref (n := v.nodes.length + 1 + a.size) (by omega)
      refine ends_attach (k := a.size) (f := fun n => { n with right := BitVec.ofNat 16 (v.nodes.length + 1 + a.size) }) hr
        (by omega) (fun hy => recordOk_internal hy.1 hy.2.1) ?_
      have hright : (a.pool v.cfg (v.nodes.length + 1) true ++ b.pool v.cfg (v.nodes.length + 1 + a.size) false).modify a.size
          NodeRec.own = a.pool v.cfg (v.nodes.length + 1) true ++ b.pool v.cfg (v.nodes.length + 1 + a.size) true := by
        have := modify_append_right (a.pool v.cfg (v.nodes.length + 1) true)
          (b.pool v.cfg (v.nodes.length + 1 + a.size) false) 0 NodeRec.own
        rwa [CodeTree.pool_length, Nat.add_zero, CodeTree.modify_pool_own] at this
      rw [hright]
      exact ends_setStack List.tail (.pure ⟨.node a b, rfl, rfl⟩)

/-- ReadTree adds a tree to the pool and makes it the root. -/
theorem ends_readTree (h : u.Working c d) :
    Ends u readTree fun _ v => v.Working c d ∧ v.rootRef.toNat < v.nodes.length := by
  refine .get_bind fun s hs => (ends_readNode _).bind ?_
  rintro r v ⟨t, rfl, rfl⟩
  refine .of_storesOk fun hv => ?_
  have hfit : u.nodes.length + t.size ≤ u.cfg.ncap := by simpa using hv.pool_fits
  have hcap := Config.ncap_le hv.cfg_valid
  rw [State.setNodes_cfg] at hcap
  have hwork : (u.setNodes (u.nodes ++ t.pool u.cfg u.nodes.length false)).Working c d :=
    h.append (h.forest.append_pool (by omega))
  have hroot : (BitVec.ofNat 16 u.nodes.length).toNat < (u.nodes ++ t.pool u.cfg u.nodes.length false).length := by
    have := t.size_pos
    rw [toNat_ref (by omega), List.length_append, CodeTree.pool_length]
    omega
  refine Ends.bind (Q := fun _ w => w.Working c d ∧ w.rootRef.toNat < w.nodes.length)
    (.change (g := (·.setRoot _)) (fun _ => rfl) (hv.setRoot hroot) ⟨hwork.setRoot _, hroot⟩) fun _ w hw => ?_
  exact .get_bind fun _ _ => .pure hw

end Sys2Proof.Machine

end

section
/-!
PROOF. Every command and every step keeps the invariant of the machine (spec/10_state.md R51 to R63).
-/

namespace Sys2Proof.Machine

variable {s u : State} {c : Config} {d : DState}

/-! ### Ends of commands -/

/-- What the invariant says of a session (spec/45_driver.md R210, spec/10_state.md R59). -/
structure State.Session (u : State) : Prop where
  clean_empty : u.dstate = .clean → u.nodes = [] ∧ u.queue = [] ∧ u.rootRef = NIL
  planned_ok : u.dstate = .planned → u.plannedOk

/-- A used session is free of the conditions on a clean and on a planned one. -/
theorem session_used (h : u.dstate = .used) : u.Session := ⟨by simp [h], by simp [h]⟩

/-- BUSY is cleared. -/
def State.idle (u : State) : State := { u with busy := false }

theorem State.Working.inv_idle (h : u.Working c d) (hu : u.StoresOk) (hs : u.Session) : u.idle.Inv where
  basic := ⟨hu.cfg_valid, hu.pool_fits, hu.records_ok, hu.tables_ok, ⟨h.stack_nil, fun _ => h.cursor_none, nofun⟩, hu.root_ok,
    hu.input_fits⟩
  forest _ := (forest_iff _).mpr h.forest
  queue_ok _ := h.queue_ok
  clean_empty _ _ := hs.clean_empty
  planned_ok _ := hs.planned_ok

theorem ends_done (o : CmdOutcome) (h : u.Working c d) (hs : u.Session) : Ends u (done o) fun _ v => v.Inv :=
  .of_storesOk fun hu => .change (g := State.idle) (fun _ => rfl)
    ⟨hu.cfg_valid, hu.pool_fits, hu.records_ok, hu.tables_ok, hu.root_ok, hu.input_fits⟩ (h.inv_idle hu hs)

theorem State.Working.setDState (h : u.Working c d) (d' : DState) : (u.setDState d').Working c d' :=
  ⟨h.cfg_eq, h.busy, h.no_fault, rfl, h.forest, h.queue_ok, h.stack_nil, h.cursor_none⟩

/-- A session state is entered. -/
theorem ends_setDState {α : Type} {Q : α → State → Prop} {x : Cmd α} (d : DState) (hx : Ends (u.setDState d) x Q) :
    Ends u (do
      change (·.setDState d)
      x) Q := by
  refine .of_storesOk fun hu => Ends.bind (Q := fun _ v => v = u.setDState d)
    (.change (g := (·.setDState d)) (fun _ => rfl) (hu.setDState d) rfl) ?_
  rintro - v rfl
  exact hx

theorem ends_doneUsed (h : u.Working c d) : Ends u doneUsed fun _ v => v.Inv :=
  ends_setDState .used (ends_done .ok (h.setDState .used) (session_used rfl))

/-- Reset leaves a state of the invariant, whatever it starts from (spec/70_reset_and_hazards.md R280). -/
theorem resetHcc_inv (hcfg : s.cfg.valid = true) (hin : s.input.length < 2 ^ 64) : (resetHcc s).Inv where
  basic := by
    refine ⟨hcfg, Nat.zero_le _, nofun, ⟨by simp, by simp, fun p hp => ?_, fun n hn => ?_⟩, ⟨rfl, fun _ => rfl, nofun⟩, .inl rfl,
      hin⟩
    · exact absurd (List.eq_of_mem_replicate hp) nofun
    · rw [List.eq_of_mem_replicate hn]
      exact Nat.two_pow_pos _
  forest _ := (forest_iff _).mpr forest_nil
  queue_ok _ := ⟨nofun, List.nodup_nil, .nil⟩
  clean_empty _ _ _ := ⟨rfl, rfl, rfl⟩
  planned_ok _ := nofun

theorem ends_resetHcc : Ends u (change resetHcc) fun _ v => v.Inv :=
  .of_storesOk fun hu => by
    have h := resetHcc_inv hu.cfg_valid hu.input_fits
    exact .change (g := fun s => (resetHcc s).stores) (fun _ => rfl) h.basic.storesOk (inv_stores.mpr h)

/-! ### Decoding -/

/-- The stores while a decode is in flight (spec/10_state.md R60). -/
structure State.Decoding (u : State) : Prop where
  busy : u.busy = true
  no_fault : u.fault = none
  forest : Forest u.nodes
  queue_ok : u.queueOk
  stack_nil : u.stack = []
  root_valid : u.rootRef.toNat < u.nodes.length
  cursor_valid : ∃ cur, u.cursor = some cur ∧ cur.toNat < u.nodes.length
  planned_ok : u.dstate = .planned → u.plannedOk

namespace State.Decoding

theorem inv (h : u.Decoding) (hu : u.StoresOk) : u.Inv where
  basic := ⟨hu.cfg_valid, hu.pool_fits, hu.records_ok, hu.tables_ok,
    ⟨h.stack_nil, by simp [h.busy], fun _ => ⟨h.no_fault, h.root_valid, h.cursor_valid⟩⟩, hu.root_ok, hu.input_fits⟩
  forest _ := (forest_iff _).mpr h.forest
  queue_ok _ := h.queue_ok
  clean_empty _ := by simp [h.busy]
  planned_ok _ := h.planned_ok

theorem setDecode (h : u.Decoding) {cur : NodeRef} (hcur : cur.toNat < u.nodes.length) (m : Nat) :
    (u.setDecode (some cur) m).Decoding :=
  ⟨h.busy, h.no_fault, h.forest, h.queue_ok, h.stack_nil, h.root_valid, ⟨cur, rfl, hcur⟩, h.planned_ok⟩

/-- The decode has ended. -/
theorem ended (h : u.Decoding) (m : Nat) : (u.setDecode none m).Working u.cfg u.dstate :=
  ⟨rfl, h.busy, h.no_fault, rfl, h.forest, h.queue_ok, h.stack_nil, rfl⟩

/-- The children of an internal record are below NEXT. -/
theorem child_valid (h : u.Decoding) {r : NodeRef} {n : NodeRec} (hn : u.nodes[r.toNat]? = some n) (hk : n.kind = .internal)
    (right : Prop) [Decidable right] : (if right then n.left else n.right).toNat < u.nodes.length := by
  refine h.forest.valid _ (List.mem_flatMap.mpr ⟨n, List.mem_iff_getElem?.mpr ⟨_, hn⟩, ?_⟩)
  rw [hk]
  by_cases hr : right <;> simp [hr]

end State.Decoding

theorem ends_setCursor {α : Type} {Q : α → State → Prop} {x : Cmd α} {cur : State → Option NodeRef} {m : State → Nat}
    (hcur : ∀ s : State, cur s.stores = cur s) (hx : Ends (u.setDecode (cur u) 0) x Q) :
    Ends u (do
      change fun s => s.setDecode (cur s) (m s)
      x) Q := by
  refine .of_storesOk fun hu => Ends.bind (Q := fun _ v => v = u.setDecode (cur u) 0)
    (.change (g := fun s => s.setDecode (cur s) 0) (fun s => by rw [hcur]; rfl) (hu.setDecode _ _) rfl) ?_
  rintro - v rfl
  exact hx

theorem ends_decodeTurn (h : u.Decoding) : Ends u decodeTurn fun _ v => v.Decoding := by
  refine .after .point fun _ => .get_bind fun s hs => ?_
  split
  · exact .throw _
  · next cur _ =>
    refine (ends_nodeRead cur).bind ?_
    rintro n v ⟨rfl, hn⟩
    split
    · refine .ite (fun _ => .pure h) fun _ => .after (built_outWrite _ _) fun _ => ?_
      exact ends_setCursor (fun _ => rfl) (.pure (h.setDecode h.root_valid 0))
    · next hk =>
      refine .after (built_inRead 1) fun o => ?_
      split
      · exact .raise _
      · exact .ite (fun _ => .raise _) fun _ => ends_setCursor (fun _ => rfl) (.pure (h.setDecode (h.child_valid hn hk _) 0))

theorem ends_decodeTurns (fuel : Nat) (h : u.Decoding) : Ends u (decodeTurns fuel) fun _ v => v.Decoding := by
  induction fuel generalizing u with
  | zero => exact .pure h
  | succ fuel ih => exact (ends_decodeTurn h).bind fun _ _ hv => .ite (fun _ => .pure hv) fun _ => ih hv

theorem ends_decodeEnd (withRes0 : Bool) (h : u.Decoding) : Ends u (decodeEnd withRes0) fun _ v => v.Inv := by
  refine .get_bind fun s _ => .after (.change (.bitsWritten _)) fun _ => ?_
  have hend : Ends u (do
      change (·.setDecode none 0)
      doneUsed) fun _ v => v.Inv :=
    ends_setCursor (cur := fun _ => none) (m := fun _ => 0) (fun _ => rfl) (ends_doneUsed (h.ended 0))
  exact .ite (fun _ => .after (.change (.res0 _)) fun _ => hend) fun _ => hend

/-- A decode ends, or goes on in a later step. -/
theorem ends_decodeAndEnd (withRes0 : Bool) (h : u.Decoding) : Ends u (decodeAndEnd withRes0) fun _ v => v.Inv := by
  refine Ends.bind (Q := fun _ v => v.Decoding) (.get_bind fun _ _ => ends_decodeTurns _ h) fun _ v hv => ?_
  exact .ite (fun _ => ends_decodeEnd _ hv) fun _ => .of_storesOk fun hok => .pure (hv.inv hok)

/-- A decode from the root. -/
theorem ends_decode (withRes0 : Bool) (h : u.Working c d) (hroot : u.rootRef.toNat < u.nodes.length)
    (hplanned : d = .planned → u.plannedOk) :
    Ends u (do
      decodeStart
      decodeAndEnd withRes0) fun _ v => v.Inv := by
  refine ends_setCursor (cur := fun s => some s.rootRef) (m := fun _ => 0) (fun _ => rfl) (ends_decodeAndEnd _ ?_)
  exact ⟨h.busy, h.no_fault, h.forest, h.queue_ok, h.stack_nil, hroot, ⟨_, rfl, hroot⟩, fun hd => hplanned (h.dstate_eq ▸ hd)⟩

/-! ### The commands -/

theorem execPlan_ends (fmt : HeaderFormat) (h : s.stores.Working c d) :
    ∃ x, execPlan fmt s = runCmd x s ∧ Ends s.stores x fun _ v => v.Inv := by
  refine ⟨_, rfl, .ite (fun _ => .raise _) fun _ => ?_⟩
  refine (ends_scanInput h).bind fun _ v hv => (ends_buildFromFreq hv).bind ?_
  rintro - w ⟨hw, -⟩
  refine (ends_buildTable hw).bind ?_
  rintro - x ⟨t, ht, rfl⟩
  refine .get_bind fun _ _ => .after (built_bitsAfter fmt) fun _ => .after (.change (.bitsSaved _)) fun _ =>
    .after (.change (.pfmt _)) fun _ => ends_setDState .planned (ends_done _ ((hw.setPt _).setDState .planned) ⟨nofun, ?_⟩)
  exact fun _ => ⟨t, ht, by rw [← hw.cfg_eq]; rfl⟩

theorem execCompress_ends (ovr : Bool) (h : s.stores.Working c d) (hs : s.stores.Session) :
    ∃ x, execCompress ovr s = runCmd x s ∧ Ends s.stores x fun _ v => v.Inv := by
  refine ⟨_, rfl, .ite (fun _ => .raise _) fun _ => .after built_inRewind fun _ => .ite (fun _ => ?_) fun _ => ?_⟩
  · exact .after (.change (.bitsWritten _)) fun _ => ends_done _ h hs
  · exact .after built_sendHeader fun _ => .after (built_emitLoop _) fun _ => .after (built_emitPath _) fun _ =>
      .get_bind fun _ _ => .after (.change (.bitsWritten _)) fun _ => ends_done _ h hs

/-- The header of DECOMPRESS leaves a tree at the root. -/
theorem ends_readHeader (h : u.Working c d) :
    Ends u readHeader fun _ v => v.Working c d ∧ v.rootRef.toNat < v.nodes.length := by
  refine .get_bind fun s hs => .after (built_inRead _) fun o => ?_
  split
  · exact .raise _
  · refine .ite (fun _ => ?_) fun _ => .ite (fun _ => .after (built_inRead _) fun o => ?_) fun _ => .raise _
    · exact (ends_readCounts _ _ h).bind fun _ _ hv => (ends_setEof hv).bind fun _ _ hw => ends_buildFromFreq hw
    · split
      · exact .raise _
      · exact (ends_readTree h).bind fun _ _ hv => .ite (fun _ => .raise _) fun _ => .pure hv

theorem ends_endBadMagic (h : u.Working c d) : Ends u endBadMagic fun _ v => v.Inv :=
  .after (.change (.bitsWritten _)) fun _ => ends_setDState .used (ends_done _ (h.setDState .used) (session_used rfl))

theorem execDecompress_ends (h : s.stores.Working c d) :
    ∃ x, execDecompress s = runCmd x s ∧ Ends s.stores x fun _ v => v.Inv := by
  refine ⟨_, rfl, .ite (fun _ => .raise _) fun hclean => .after built_inRewind fun _ => .after (built_inRead _) fun o => ?_⟩
  have hd : d = .clean := h.dstate_eq.symm.trans (not_not.mp hclean)
  split
  · exact ends_endBadMagic h
  · refine .ite (fun _ => ends_endBadMagic h) fun _ => (ends_readHeader h).bind ?_
    rintro - v ⟨hv, hroot⟩
    exact ends_decode false hv hroot fun hp => by simp [hd] at hp

theorem execNodeLeaf_ends (h : s.stores.Working c d) :
    ∃ x, execNodeLeaf s = runCmd x s ∧ Ends s.stores x fun _ v => v.Inv := by
  refine ⟨_, rfl, ends_takeSymbol.bind ?_⟩
  rintro sym v ⟨rfl, hsym⟩
  have hfreq : s.freqOperand < 2 ^ s.cfg.fw := (Nat.mod_lt _ (Nat.two_pow_pos _)).trans_le s.cfg.two_pow_iw_le
  have hcfg : s.cfg = c := h.cfg_eq
  refine (ends_alloc_leaf h (hcfg ▸ hsym) (hcfg ▸ hfreq)).bind ?_
  rintro r v ⟨hv, -⟩
  exact .after (.change (.res0 _)) fun _ => ends_doneUsed hv

theorem execQEnqueue_ends (h : s.stores.Working c d) :
    ∃ x, execQEnqueue s = runCmd x s ∧ Ends s.stores x fun _ v => v.Inv := by
  refine ⟨_, rfl, .after built_takeNode fun r => (ends_nodeRead r).bind ?_⟩
  rintro n v ⟨rfl, hn⟩
  refine .ite (fun _ => .raise _) fun hfree => ?_
  simp only [State.inQueue, Bool.or_eq_true, List.contains_iff_mem, not_or, Bool.not_eq_true] at hfree
  obtain ⟨hq, ho⟩ := hfree
  exact (ends_enqueue h ⟨n, hn, ho, hq⟩).bind fun _ _ hv => ends_doneUsed hv

theorem execTDecode_ends (h : s.stores.Working c d) (hs : s.stores.Session) :
    ∃ x, execTDecode s = runCmd x s ∧ Ends s.stores x fun _ v => v.Inv := by
  refine ⟨_, rfl, .ite (fun _ => .raise _) fun hne => .of_storesOk fun hu => ?_⟩
  have hroot := hu.root_ok.resolve_left hne
  exact ends_decode true h hroot fun hd => hs.planned_ok (h.dstate_eq.trans hd)

theorem execQFront_ends (h : s.stores.Working c d) (hs : s.stores.Session) :
    ∃ x, execQFront s = runCmd x s ∧ Ends s.stores x fun _ v => v.Inv := by
  refine ⟨_, rfl, ?_⟩
  split
  · exact .raise _
  · exact .after (.change (.res0 _)) fun _ => ends_done _ h hs

/-- Every command, from the stores it starts with, ends with the invariant. -/
theorem exec_ends (i : Instr) (h : s.stores.Working c d) (hs : s.stores.Session) :
    ∃ x, exec i s = runCmd x s ∧ Ends s.stores x fun _ v => v.Inv := by
  cases i with
  | plan fmt => exact execPlan_ends fmt h
  | compress ovr => exact execCompress_ends ovr h hs
  | decompress => exact execDecompress_ends h
  | softReset => exact ⟨_, rfl, ends_resetHcc⟩
  | nodeLeaf => exact execNodeLeaf_ends h
  | nodeInfo =>
    exact ⟨_, rfl, .after built_takeNode fun _ => .after (built_nodeRead _) fun _ => .after (.change (.res0 _)) fun _ =>
      .after (.change (.res1 _)) fun _ => .after (.change (.res2 _)) fun _ => .after (.change (.res3 _)) fun _ =>
      ends_done _ h hs⟩
  | qEnqueue => exact execQEnqueue_ends h
  | qDequeue =>
    refine ⟨_, rfl, (ends_dequeue h).bind ?_⟩
    rintro r v ⟨q, -, -, hv, -⟩
    exact .after (.change (.res0 _)) fun _ => ends_doneUsed hv
  | qFront => exact execQFront_ends h hs
  | qIsEmpty => exact ⟨_, rfl, .after (.change (.res0 _)) fun _ => ends_done _ h hs⟩
  | qSize => exact ⟨_, rfl, .after (.change (.res0 _)) fun _ => ends_done _ h hs⟩
  | tCreate =>
    exact ⟨_, rfl, (ends_createTree h).bind fun _ _ hv => .get_bind fun _ _ => .after (.change (.res0 _)) fun _ =>
      ends_doneUsed hv.1⟩
  | tTravel =>
    refine ⟨_, rfl, (ends_buildTable h).bind ?_⟩
    rintro - v ⟨t, -, rfl⟩
    exact ends_doneUsed (h.setPt _)
  | pathRead =>
    exact ⟨_, rfl, .after built_takeSymbol fun _ => .after (.change (.res0 _)) fun _ => .after (.change (.res1 _)) fun _ =>
      ends_done _ h hs⟩
  | tEmit =>
    exact ⟨_, rfl, .after built_takeSymbol fun _ => .after (built_emitPath _) fun _ => .after (.change (.bitsWritten _)) fun _ =>
      ends_doneUsed h⟩
  | tCountBits =>
    exact ⟨_, rfl, .ite (fun _ => .raise _) fun _ => .after (built_countTree _) fun _ => .after (.change (.res0 _)) fun _ =>
      ends_done _ h hs⟩
  | tWrite =>
    exact ⟨_, rfl, .ite (fun _ => .raise _) fun _ => .after (built_writeTree _ _) fun _ =>
      .after (.change (.bitsWritten _)) fun _ => ends_doneUsed h⟩
  | tRecreate =>
    exact ⟨_, rfl, (ends_readTree h).bind fun _ _ hv => .get_bind fun _ _ => .after (.change (.res0 _)) fun _ =>
      .after (.change (.res1 _)) fun _ => ends_doneUsed hv.1⟩
  | tDecode => exact execTDecode_ends h hs
  | freqRead => exact ⟨_, rfl, .after built_takeSymbol fun _ => .after (.change (.res0 _)) fun _ => ends_done _ h hs⟩
  | inRewind => exact ⟨_, rfl, .after built_inRewind fun _ => ends_doneUsed h⟩

/-! ### The step -/

theorem takeFault_inv (f : FaultCode) (h : s.stores.StoresOk) : (takeFault f s).Inv where
  basic := ⟨h.cfg_valid, h.pool_fits, h.records_ok, h.tables_ok, ⟨rfl, fun _ => rfl, nofun⟩, h.root_ok, h.input_fits⟩
  forest := nofun
  queue_ok := nofun
  clean_empty := nofun
  planned_ok := nofun

/-- A command whose rule ends with the invariant ends with it by a fault and by the reset input too. -/
theorem runCmd_inv {x : Cmd Unit} {t : State} (hs : s.stores.StoresOk) (hx : Ends s.stores x fun _ v => v.Inv)
    (ht : runCmd x s = .next t) : t.Inv := by
  have h : Ends s.stores (do
      point
      x) fun _ v => v.Inv := .after .point fun _ => hx
  have hend := h hs s rfl
  obtain hok | ⟨f, w, hfault, rfl⟩ | ⟨w, hreset, rfl⟩ := settle_next ht
  · rw [hok] at hend
    exact inv_stores.mp hend.2
  · rw [hfault] at hend
    exact takeFault_inv f hend
  · rw [hreset] at hend
    exact resetHcc_inv hend.cfg_valid hend.input_fits

/-- The stores a legal CMD write starts its command with. -/
theorem working_latch (h : s.Inv) (hb : s.busy = false) (hf : s.fault = none) (w : Word) :
    (s.latch w).stores.Working s.cfg s.dstate := by
  obtain ⟨hstack, hcursor, -⟩ := h.basic.flight_ok
  exact ⟨rfl, rfl, hf, rfl, (forest_iff _).mp (h.forest hf), h.queue_ok hf, hstack, hcursor hb⟩

theorem onCmdWrite_inv {w : Word} {t : State} (h : s.Inv) (hb : s.busy = false) (ht : onCmdWrite w s = .next t) : t.Inv := by
  have hok := h.basic.storesOk
  have hlatch : (s.latch w).stores.StoresOk :=
    ⟨hok.cfg_valid, hok.pool_fits, hok.records_ok, hok.tables_ok, hok.root_ok, hok.input_fits⟩
  unfold onCmdWrite at ht
  split at ht
  · split at ht
    · exact runCmd_inv hok ends_resetHcc ht
    · exact Host.Outcome.next.inj ht ▸ h
  · next hfault =>
    have hf : s.fault = none := by simpa using hfault
    split at ht
    · exact runCmd_inv hlatch (.raise _) ht
    · next i _ =>
      obtain ⟨x, hx, hend⟩ := exec_ends i (working_latch h hb hf w) ⟨h.clean_empty hf hb, h.planned_ok hf⟩
      exact runCmd_inv hlatch hend (hx ▸ ht)

theorem stores_regWrite (off : Nat) (v : Word) : (regWrite s off v).stores = s.stores := by
  rw [regWrite_eq]
  rfl

theorem hostAct_inv {act : HostAct} {t : State} (h : s.Inv) (hb : s.busy = false) (ht : hostAct act s = .next t) : t.Inv := by
  cases act with
  | hardReset => exact Host.Outcome.next.inj ht ▸ resetHcc_inv h.basic.cfg_valid h.basic.input_fits
  | attach bits =>
    simp only [hostAct] at ht
    split at ht
    · next hbits =>
      obtain rfl := Host.Outcome.next.inj ht
      obtain ⟨⟨h1, h2, h3, h4, h5, h6, -⟩, h8, h9, h10, h11⟩ := h
      exact ⟨⟨h1, h2, h3, h4, h5, h6, of_decide_eq_true hbits⟩, h8, h9, h10, h11⟩
    · cases ht
  | read addr size =>
    simp only [hostAct] at ht
    split at ht
    · cases ht
    · exact inv_congr (Host.Outcome.next.inj ht ▸ rfl) h
  | write addr size v =>
    simp only [hostAct] at ht
    split at ht
    · cases ht
    · exact onCmdWrite_inv h hb ht
    · exact inv_congr (Host.Outcome.next.inj ht ▸ stores_regWrite _ _) h

/-- The stores of a decode in flight. -/
theorem decoding_of_busy (h : s.Inv) (hb : s.busy = true) : s.stores.Decoding := by
  obtain ⟨hstack, -, hflight⟩ := h.basic.flight_ok
  obtain ⟨hf, hroot, hcursor⟩ := hflight hb
  exact ⟨hb, hf, (forest_iff _).mp (h.forest hf), h.queue_ok hf, hstack, hroot, hcursor, h.planned_ok hf⟩

/-- Settles O21: a step is a host act, a command from the stores it latches, or more of a decode; each piece of a rule keeps the
stores in order, and each end of a rule meets the invariant. -/
theorem stepKeepsTheInvariant : Obligations.StepKeepsTheInvariant := by
  intro s t h ht
  by_cases hb : s.busy = true
  · rw [step_busy hb] at ht
    exact runCmd_inv h.basic.storesOk (ends_decodeAndEnd _ (decoding_of_busy h hb)) ht
  · rw [Bool.not_eq_true] at hb
    cases hh : s.host with
    | nil =>
      simp only [step, stepMachine, hb, hh] at ht
      exact Host.Outcome.next.inj ht ▸ h
    | cons e rest =>
      rw [step_idle hb hh] at ht
      exact hostAct_inv (s := s.setHost rest) (inv_congr (s := s) rfl h) hb ht

end Sys2Proof.Machine

end

section
/-!
PROOF. The accesses without a meaning (spec/20_memory.md R71), and the order of the bits InRead and OutWrite move (R74, R76).
-/

namespace Sys2Proof.Machine

/-! ### Unsupported accesses -/

theorem offsetOf_unsupported {c : Config} {addr size : Nat}
    (h : size ≠ 4 ∨ addr < c.hccBase ∨ c.hccBase + 0xFC < addr ∨ (addr - c.hccBase) % 4 ≠ 0) :
    offsetOf c addr size = none := by
  simp only [offsetOf, Config.accessOk, Bool.and_eq_true, decide_eq_true_eq, ite_eq_right_iff, reduceCtorEq, imp_false]
  omega

/-- Every command is the run of a rule. -/
theorem exec_eq_runCmd (i : Instr) (s : State) : ∃ c, exec i s = runCmd c s := by
  cases i <;> exact ⟨_, rfl⟩

/-- Settles O8: the access has no offset, so neither the idle core nor a command's first point gives it a meaning. -/
theorem unsupportedAccessesAreRefused : Obligations.UnsupportedAccessesAreRefused := by
  intro s addr size act rest v hbad hact
  have ho : offsetOf (s.setHost rest).cfg addr size = none := offsetOf_unsupported hbad
  constructor
  · intro gap hb hh
    rw [step_idle hb hh]
    obtain rfl | rfl := hact <;> simp only [hostAct, ho]
  · intro i hb hh
    have hland : landBusy act (s.setHost rest) = .error (.refuse .unsupportedAccess) (s.setHost rest) := by
      obtain rfl | rfl := hact <;> simp only [landBusy, ho]
    obtain ⟨c, hc⟩ := exec_eq_runCmd i s
    rw [hc, runCmd_stops c hb hh hland, settle_refuse]

/-! ### The order of the bits -/

theorem ofBits_append_singleton (bits : List Bit) (b : Bit) : ofBits (bits ++ [b]) = Nat.bit b (ofBits bits) := by
  simp [ofBits, Nat.bit_val]

/-- The first bit of a sequence is the most significant of its value. -/
theorem getElem?_eq_testBit_ofBits {bits : List Bit} {j : Nat} (hj : j < bits.length) :
    bits[j]? = some ((ofBits bits).testBit (bits.length - 1 - j)) := by
  induction bits using List.reverseRecOn with
  | nil => simp at hj
  | append_singleton bits b ih =>
    rw [ofBits_append_singleton, List.length_append, List.length_singleton, Nat.add_sub_cancel]
    by_cases hlt : j < bits.length
    · have hsucc : bits.length - j = bits.length - 1 - j + 1 := by omega
      rw [List.getElem?_append_left hlt, ih hlt, hsucc, Nat.testBit_bit_succ]
    · obtain rfl : j = bits.length := by
        simp only [List.length_append, List.length_singleton] at hj
        omega
      simp

theorem toBits_eq_map (n v : Nat) : toBits n v = (List.range n).map fun j => v.testBit (n - 1 - j) := by
  induction n with
  | zero => rfl
  | succ n ih =>
    rw [toBits, ih, List.range_succ_eq_map, List.map_cons, List.map_map]
    refine congrArg _ (List.map_congr_left fun j _ => ?_)
    rw [Function.comp_apply, Nat.add_sub_cancel, Nat.sub_sub, Nat.add_comm 1 j]

/-- The bits InRead takes are those of the value it answers. -/
theorem input_eq_testBit_field {input : List Bit} {k n j : Nat} (hn : k + n ≤ input.length) (hj : j < n) :
    input[k + j]? = some ((ofBits ((input.drop k).take n)).testBit (n - 1 - j)) := by
  have hlen : ((input.drop k).take n).length = n := by simp; omega
  have hbit := getElem?_eq_testBit_ofBits (hlen.symm ▸ hj : j < ((input.drop k).take n).length)
  rwa [hlen, List.getElem?_take_of_lt hj, List.getElem?_drop] at hbit

/-- Settles O28: InRead and OutWrite by their laws, the bits by the two lemmas on their order, and what was sent is the end of
OLOG. -/
theorem portsReadAndWriteMostSignificantBitFirst : Obligations.PortsReadAndWriteMostSignificantBitFirst := by
  intro s n v hw
  refine ⟨inRead_eof hw, fun hn => ⟨_, inRead_bits hw hn, ?_, fun j hj => input_eq_testBit_field hn hj⟩, ?_, ?_⟩
  · exact (ofBits_lt _).trans_le (Nat.pow_le_pow_right (by decide) (by simp))
  · rw [outWrite_quiet n v hw, toBits_eq_map]
    rfl
  · intro u t ht hu hin hpos
    rw [outWrite_quiet n v hw] at ht
    obtain ⟨-, rfl⟩ := EStateM.Result.ok.inj ht
    rw [State.send_olog] at hin
    have hfield : (u.input.drop u.pos).take n = toBits n v := by
      rw [hin, hpos, List.drop_left, List.take_of_length_le (by simp)]
    rw [inRead_bits hu (by simp [hin, hpos]), hfield, ofBits_toBits]
    rfl

end Sys2Proof.Machine

end

section
/-!
PROOF. What a relation that every piece of a step keeps says of the whole step, and OLOG, which only grows
(spec/20_memory.md R87).
-/

namespace Sys2Proof.Machine

/-! ### What every step keeps -/

/-- A relation that every piece of a step keeps: the updates of the rules, what the host's acts change, latching a command, and
the ends by a fault and by a reset. -/
structure KeptByPieces (R : State → State → Prop) : Prop where
  refl : ∀ s, R s s
  trans : ∀ s t u, R s t → R t u → R s u
  update : ∀ {f : State → State}, Update true true f → ∀ s, R s (f s)
  host : ∀ s h a0 a1 l d, R s { s with host := h, arg0 := a0, arg1 := a1, seen := l, draws := d }
  attach : ∀ s bits, R s (s.setInput bits)
  latch : ∀ s w, R s (s.latch w)
  fault : ∀ f s, R s (takeFault f s)
  reset : ∀ s, R s (resetHcc s)

namespace KeptByPieces

variable {R : State → State → Prop} (h : KeptByPieces R) {s t : State}
include h

theorem point : Keeps R Machine.point := keeps_point h.refl h.host

theorem built {α : Type} {c : Cmd α} (hc : Built true true c) : Keeps R c := by
  induction hc with
  | pure a => exact keeps_pure h.refl a
  | point => exact h.point
  | throw e _ => exact keeps_throw h.refl e
  | modify hf => exact keeps_modify (h.update hf)
  | bind _ _ ihx ihf => exact keeps_bind h.trans ihx ihf
  | byState c' heq _ ih =>
    intro s
    rw [heq]
    exact ih s s

theorem runCmd {c : Cmd Unit} (hc : Keeps R c) (ht : Machine.runCmd c s = .next t) : R s t :=
  keeps_runCmd h.trans h.point hc h.fault h.reset ht

theorem exec {i : Instr} (ht : Machine.exec i s = .next t) : R s t := by
  by_cases hi : i = .softReset
  · subst hi
    exact h.runCmd (keeps_change h.trans h.point h.reset) ht
  · obtain ⟨c, hc, hbuilt⟩ := exec_built (planning := true) s hi nofun
    exact h.runCmd (h.built hbuilt) (hc ▸ ht)

theorem onCmdWrite {w : Word} (ht : Machine.onCmdWrite w s = .next t) : R s t := by
  unfold Machine.onCmdWrite at ht
  split at ht
  · split at ht
    · exact h.exec ht
    · exact Host.Outcome.next.inj ht ▸ h.refl s
  · refine h.trans _ _ _ (h.latch s w) ?_
    split at ht
    · exact h.runCmd (h.built (.raise _)) ht
    · exact h.exec ht

theorem hostAct {act : HostAct} (ht : Machine.hostAct act s = .next t) : R s t := by
  cases act with
  | hardReset => exact Host.Outcome.next.inj ht ▸ h.reset s
  | attach bits =>
    simp only [Machine.hostAct] at ht
    split at ht
    · exact Host.Outcome.next.inj ht ▸ h.attach s bits
    · cases ht
  | read addr size =>
    simp only [Machine.hostAct] at ht
    split at ht
    · cases ht
    · exact Host.Outcome.next.inj ht ▸ h.host s s.host s.arg0 s.arg1 _ s.draws
  | write addr size v =>
    simp only [Machine.hostAct] at ht
    split at ht
    · cases ht
    · exact h.onCmdWrite ht
    · rw [regWrite_eq] at ht
      exact Host.Outcome.next.inj ht ▸ h.host s s.host _ _ s.seen s.draws

/-- A step is more of a decode, nothing, or the host's next act. -/
theorem step (ht : Machine.step s = .next t) : R s t := by
  by_cases hb : s.busy = true
  · rw [step_busy hb] at ht
    exact h.runCmd (h.built (built_decodeAndEnd _)) ht
  · rw [Bool.not_eq_true] at hb
    cases hh : s.host with
    | nil =>
      simp only [Machine.step, stepMachine, hb, hh] at ht
      exact Host.Outcome.next.inj ht ▸ h.refl s
    | cons e rest =>
      rw [step_idle hb hh] at ht
      exact h.trans _ _ _ (h.host s rest s.arg0 s.arg1 s.seen s.draws) (h.hostAct ht)

end KeptByPieces

/-! ### Bits sent -/

/-- OLOG is at most longer, and the parameters are the same (spec/20_memory.md R87, spec/00_scope.md R9). -/
def OnlySends (s t : State) : Prop := s.olog <+: t.olog ∧ t.cfg = s.cfg

theorem OnlySends.of_eq {s t : State} (holog : t.olog = s.olog) (hcfg : t.cfg = s.cfg) : OnlySends s t :=
  ⟨holog ▸ List.prefix_rfl, hcfg⟩

theorem Update.onlySends {stores planning : Bool} {f : State → State} (hf : Update stores planning f) (s : State) :
    OnlySends s (f s) := by
  cases hf with
  | send g => exact ⟨List.prefix_append _ _, rfl⟩
  | _ => exact .of_eq rfl rfl

theorem onlySends_keptByPieces : KeptByPieces OnlySends where
  refl _ := .of_eq rfl rfl
  trans _ _ _ h h' := ⟨h.1.trans h'.1, h'.2.trans h.2⟩
  update hf := hf.onlySends
  host _ _ _ _ _ _ := .of_eq rfl rfl
  attach _ _ := .of_eq rfl rfl
  latch _ _ := .of_eq rfl rfl
  fault _ _ := .of_eq rfl rfl
  reset _ := .of_eq rfl rfl

/-- Settles O23: every piece of a step leaves OLOG or appends to it, and so does the step. -/
theorem sentBitsAreNeverWithdrawn : Obligations.SentBitsAreNeverWithdrawn :=
  fun _ _ ht => onlySends_keptByPieces.step ht

end Sys2Proof.Machine

end

section
/-!
PROOF. The command word: its four fields in arithmetic on the word, decoding by the fields, and the rows of the opcode table
(spec/30_encoding.md R91, R92, R96, R101).
-/

namespace Sys2Proof

variable {w : Word} {i : Instr} {op : BitVec 8} {ovr fmt : Bool}

/-! ### The fields as numbers -/

theorem fieldOp_toNat (w : Word) : (fieldOp w).toNat = w.toNat % 256 := by
  simp [fieldOp, BitVec.extractLsb'_toNat]

theorem fieldRsv_toNat (w : Word) : (fieldRsv w).toNat = w.toNat / 1024 := by
  have := w.isLt
  simp only [fieldRsv, BitVec.extractLsb'_toNat, Nat.shiftRight_eq_div_pow]
  omega

theorem fieldOvr_toNat (w : Word) : (fieldOvr w).toNat = w.toNat / 256 % 2 := Nat.toNat_testBit _ 8

theorem fieldFmt_toNat (w : Word) : (fieldFmt w).toNat = w.toNat / 512 % 2 := Nat.toNat_testBit _ 9

theorem encode_toNat (i : Instr) :
    (encode i).toNat = (fmtOf i).toNat * 512 + (ovrOf i).toNat * 256 + (opcodeOf i).toNat := by
  simp only [encode, Machine.toNat_append_mul, BitVec.toNat_ofBool, BitVec.ofNat_eq_ofNat, BitVec.toNat_ofNat]
  omega

/-- A word is a command's word when its fields are the command's: the four fields are the whole word. -/
theorem eq_encode_iff :
    w = encode i ↔ fieldRsv w = 0 ∧ fieldFmt w = fmtOf i ∧ fieldOvr w = ovrOf i ∧ fieldOp w = opcodeOf i := by
  have hbit : ∀ a b : Bool, a = b ↔ a.toNat = b.toNat := by decide
  have hfmt := (fmtOf i).toNat_lt
  have hovr := (ovrOf i).toNat_lt
  have hop := (opcodeOf i).isLt
  simp only [← BitVec.toNat_inj, hbit, encode_toNat, fieldOp_toNat, fieldRsv_toNat, fieldOvr_toNat,
    fieldFmt_toNat, BitVec.ofNat_eq_ofNat, BitVec.toNat_ofNat, Nat.zero_mod]
  omega

/-! ### Decoding by the fields -/

/-- The procedure of R101 answers a command when none of its four checks fails. -/
theorem decode_eq_ok_iff :
    decode w = .ok i ↔ fieldRsv w = 0 ∧ commandOf (fieldOp w) (fieldOvr w) (fieldFmt w) = some i ∧
      (fieldOvr w = true → fieldOp w = 0x02) ∧ (fieldFmt w = true → fieldOp w = 0x01) := by
  unfold decode
  split
  · next hrsv => exact ⟨nofun, fun ⟨h, _⟩ => absurd h hrsv⟩
  · next hrsv =>
    rw [not_not] at hrsv
    cases commandOf (fieldOp w) (fieldOvr w) (fieldFmt w) with
    | none => exact ⟨nofun, fun ⟨_, h, _⟩ => nomatch h⟩
    | some j =>
      dsimp only
      split_ifs with hovr hfmt
      · exact ⟨nofun, fun ⟨_, _, h, _⟩ => absurd (h hovr.1) hovr.2⟩
      · exact ⟨nofun, fun ⟨_, _, _, h⟩ => absurd (h hfmt.1) hfmt.2⟩
      · rw [not_and_not_right] at hovr hfmt
        exact ⟨fun h => ⟨hrsv, congrArg some (Except.ok.inj h), hovr, hfmt⟩,
          fun ⟨_, h, _⟩ => congrArg _ (Option.some.inj h)⟩

/-- The opcodes of R92. -/
def opcodes : List Nat :=
  [0x01, 0x02, 0x03, 0x04, 0x10, 0x11, 0x18, 0x19, 0x1A, 0x1B, 0x1C, 0x20, 0x28, 0x29, 0x2A, 0x30, 0x31, 0x32, 0x38, 0x40, 0x41]

/-- The opcode map has a row for each of the opcodes, whatever the flags, and no other row. -/
theorem exists_commandOf_iff : (∃ i, commandOf op ovr fmt = some i) ↔ op.toNat ∈ opcodes := by
  unfold commandOf
  split <;> simp_all [opcodes]

theorem eq_opcodeOf_of_commandOf (h : commandOf op ovr fmt = some i) : op = opcodeOf i := by
  unfold commandOf at h
  split at h <;> cases h <;> exact BitVec.eq_of_toNat_eq ‹_›

/-- The opcode of a command gives the command back when the flag it takes, if any, is its own (R93, R94). -/
theorem commandOf_opcodeOf :
    commandOf (opcodeOf i) ovr fmt = some i ↔
      (opcodeOf i = 0x02 → ovr = ovrOf i) ∧ (opcodeOf i = 0x01 → fmt = fmtOf i) := by
  cases i with
  | plan f => cases f <;> cases fmt <;> simp [commandOf, opcodeOf, fmtOf, formatOfBit, bitOfFormat]
  | compress o => simp [commandOf, opcodeOf, ovrOf]
  | _ => simp [commandOf, opcodeOf]

theorem commandOf_eq_some_iff :
    commandOf op ovr fmt = some i ↔ op = opcodeOf i ∧ (op = 0x02 → ovr = ovrOf i) ∧ (op = 0x01 → fmt = fmtOf i) := by
  constructor
  · intro h
    obtain rfl := eq_opcodeOf_of_commandOf h
    exact ⟨rfl, commandOf_opcodeOf.mp h⟩
  · rintro ⟨rfl, h⟩
    exact commandOf_opcodeOf.mpr h

theorem opcodeOf_of_ovrOf (h : ovrOf i = true) : opcodeOf i = 0x02 := by
  cases i with
  | compress _ => rfl
  | _ => cases h

theorem opcodeOf_of_fmtOf (h : fmtOf i = true) : opcodeOf i = 0x01 := by
  cases i with
  | plan _ => rfl
  | _ => cases h

/-- Two flags that only `p` admits are equal when they are under `p`. -/
theorem flag_eq {p : Prop} {a b : Bool} (ha : a = true → p) (hb : b = true → p) (h : p → a = b) : a = b :=
  Bool.eq_iff_iff.mpr ⟨fun ht => h (ha ht) ▸ ht, fun ht => h (hb ht) ▸ ht⟩

/-- Settles O1: decoding answers `i` exactly when the word has the four fields of `i`, which are the whole word: the flags that
`i` does not take are 0 on both sides. -/
theorem everyCommandHasExactlyOneWord : Obligations.EveryCommandHasExactlyOneWord := by
  intro w i
  rw [decode_eq_ok_iff, eq_encode_iff, commandOf_eq_some_iff]
  constructor
  · rintro ⟨hrsv, ⟨hop, hovr, hfmt⟩, hovrOnly, hfmtOnly⟩
    exact ⟨hrsv, flag_eq hfmtOnly (fun h => hop.trans (opcodeOf_of_fmtOf h)) hfmt,
      flag_eq hovrOnly (fun h => hop.trans (opcodeOf_of_ovrOf h)) hovr, hop⟩
  · rintro ⟨hrsv, hfmt, hovr, hop⟩
    exact ⟨hrsv, ⟨hop, fun _ => hovr, fun _ => hfmt⟩, fun h => hop.trans (opcodeOf_of_ovrOf (hovr ▸ h)),
      fun h => hop.trans (opcodeOf_of_fmtOf (hfmt ▸ h))⟩

theorem decode_encode (i : Instr) : decode (encode i) = .ok i := (everyCommandHasExactlyOneWord _ i).mpr rfl

/-- A word is legal when it passes the four checks of R96, in arithmetic on the word. -/
theorem exists_decode_iff :
    (∃ i, decode w = .ok i) ↔ w.toNat % 256 ∈ opcodes ∧ w.toNat / 1024 = 0 ∧
      (w.toNat / 256 % 2 = 1 → w.toNat % 256 = 0x02) ∧ (w.toNat / 512 % 2 = 1 → w.toNat % 256 = 0x01) := by
  simp only [decode_eq_ok_iff, exists_and_left, exists_and_right, exists_commandOf_iff, ← BitVec.toNat_inj,
    ← Bool.toNat_eq_one, fieldOp_toNat, fieldRsv_toNat, fieldOvr_toNat, fieldFmt_toNat]
  exact and_left_comm

/-! ### The rows of the opcode table -/

/-- A row fixes every bit of the word, or every bit but one: the flag the row's command takes. -/
theorem mask_of_mem_opcodeTable :
    ∀ r ∈ opcodeTable, ~~~r.mask = 0 ∨ ~~~r.mask = .twoPow 32 8 ∨ ~~~r.mask = .twoPow 32 9 := by decide

/-- Both words a row can stand for, its flag being 0 or 1, are legal. -/
theorem legal_of_mem_opcodeTable :
    ∀ r ∈ opcodeTable, (decode r.bits).isOk = true ∧ (decode (r.bits ||| ~~~r.mask)).isOk = true := by decide

theorem eq_or_eq_of_matches {r : TableRow} (hr : r ∈ opcodeTable) (hw : r.matches w = true) :
    w = r.bits ∨ w = r.bits ||| ~~~r.mask := by
  have hsplit : w = r.bits ||| (w &&& ~~~r.mask) := by
    rw [← eq_of_beq hw, ← BitVec.and_or_distrib_left, BitVec.or_not_self, BitVec.and_allOnes]
  have hflag : w &&& ~~~r.mask = 0#32 ∨ w &&& ~~~r.mask = ~~~r.mask := by
    obtain h | h | h := mask_of_mem_opcodeTable r hr <;> rw [h]
    · exact .inl BitVec.and_zero
    all_goals
      rw [BitVec.and_twoPow]
      split
      · exact .inr rfl
      · exact .inl rfl
  obtain h | h := hflag
  · rw [h, BitVec.or_zero] at hsplit
    exact .inl hsplit
  · rw [h] at hsplit
    exact .inr hsplit

/-- A word that a row of the table matches is legal. -/
theorem exists_decode_of_matches {r : TableRow} (hr : r ∈ opcodeTable) (hw : r.matches w = true) : ∃ i, decode w = .ok i := by
  have hok : (decode w).isOk = true := by
    obtain rfl | rfl := eq_or_eq_of_matches hr hw
    · exact (legal_of_mem_opcodeTable r hr).1
    · exact (legal_of_mem_opcodeTable r hr).2
  cases h : decode w with
  | ok i => exact ⟨i, rfl⟩
  | error e =>
    rw [h] at hok
    cases hok

/-- The word of a command matches the row of the command and no other. -/
theorem matching_rows_encode (i : Instr) :
    (opcodeTable.filter fun r => r.matches (encode i)).map (·.mnemonic) = [mnemonicOf i] := by
  cases i with
  | plan fmt => cases fmt <;> rfl
  | compress ovr => cases ovr <;> rfl
  | _ => rfl

/-- Settles O3: a legal word is its command's, which the table is evaluated at; a word that a row matches is legal. -/
theorem opcodeTableAgreesWithDecode : Obligations.OpcodeTableAgreesWithDecode := by
  intro w
  cases h : decode w with
  | ok i =>
    rw [(everyCommandHasExactlyOneWord w i).mp h]
    exact matching_rows_encode i
  | error e =>
    rw [List.filter_eq_nil_iff.mpr fun r hr hw => ?_]
    · rfl
    · obtain ⟨i, hi⟩ := exists_decode_of_matches hr hw
      cases h.symm.trans hi

/-- Settles O4: the procedure of R101 is evaluated at each of the seventeen words. -/
theorem specWordsDecodeToTheirCommands : Obligations.SpecWordsDecodeToTheirCommands := by
  unfold Obligations.SpecWordsDecodeToTheirCommands
  decide

end Sys2Proof

end

section
/-!
PROOF. A write of CMD on an idle core (spec/30_encoding.md R90, R96, spec/60_exceptions.md R258).
-/

namespace Sys2Proof.Machine

variable {s : State} {w : Word} {i : Instr}

/-- A legal word, no fault recorded, is latched and its command executed. -/
theorem onCmdWrite_ok (hf : s.fault = none) (hw : decode w = .ok i) : onCmdWrite w s = exec i (s.latch w) := by
  simp [onCmdWrite, hf, hw]

/-- An illegal word, no fault recorded, is latched and raises ILLEGAL_CMD. -/
theorem onCmdWrite_illegal (hf : s.fault = none) (hw : ¬ ∃ i, decode w = .ok i) (hq : s.hostQuiet = true) :
    onCmdWrite w s = .next (takeFault .illegalCmd (s.latch w)) := by
  have hq' : (s.latch w).hostQuiet = true := hq
  cases h : decode w with
  | ok i => exact absurd ⟨i, h⟩ hw
  | error e =>
    simp only [onCmdWrite, hf, h, Option.isSome_none, Bool.false_eq_true, if_false]
    rw [runCmd_quiet _ hq', raise_quiet _ hq', settle_raised]

/-- Settles O2: the four checks in arithmetic, and an idle write of CMD latches the word and raises ILLEGAL_CMD. -/
theorem illegalWordsRaiseIllegalCmd : Obligations.IllegalWordsRaiseIllegalCmd := by
  intro w
  constructor
  · rw [exists_decode_iff, not_and_or, not_and_or, not_and_or, Classical.not_imp, Classical.not_imp]
    rfl
  · intro s gap rest hw hb hf hh hq
    rw [step_cmd hb hh, onCmdWrite_illegal (s := s.setHost rest) hf hw hq]
    rfl

/-- Settles O5: an idle write of CMD latches a legal word and executes it, and `withFetchWord` places that write on an idle core
without a fault. -/
theorem stepRunsTheWrittenCommand : Obligations.StepRunsTheWrittenCommand := by
  intro s w i hw
  constructor
  · intro gap rest hb hf hh
    rw [step_cmd hb hh, onCmdWrite_ok (s := s.setHost rest) hf hw]
    rfl
  · have hplace : s.withFetchWord 32 w.toNat = placeCmd s w := by
      simp [State.withFetchWord, Nat.mod_eq_of_lt w.isLt]
    rw [hplace, step_cmd (s := placeCmd s w) rfl rfl, onCmdWrite_ok rfl hw]
    rfl

end Sys2Proof.Machine

end

section
/-!
PROOF. What a command's rule does to the session state by its kind (spec/30_encoding.md R97): what the rule has kept where it
stops, and what holds where it ends.
-/

namespace Sys2Proof.Machine

variable {α β : Type} {stores : Bool} {s : State} {i : Instr} {I Q : State → Prop}

/-! ### Closing a rule -/

/-- From a state that meets `I`, with nothing to land, `c` is not stopped by the reset input, stops at a state that meets `I`,
and ends at one that meets `Q`. -/
def Closes (I Q : State → Prop) (c : Cmd α) : Prop :=
  ∀ s : State, s.hostQuiet = true → I s →
    match c s with
    | .ok _ t => t.hostQuiet = true ∧ Q t
    | .error e t => e ≠ .resetInput ∧ I t

namespace Closes

/-- A built rule that keeps `I`. -/
theorem of_keeps {c : Cmd α} (hc : Built stores true c) (hI : ∀ s, I s → I (reached (c s))) : Closes I I c := by
  intro s hw hs
  obtain ⟨hframe, hreset⟩ := hc.sameFrame s hw
  have hquiet := hframe.hostQuiet hw
  have hs' := hI s hs
  cases hr : c s with
  | ok a t =>
    rw [hr] at hquiet hs'
    exact ⟨hquiet, hs'⟩
  | error e t =>
    rw [hr] at hreset hs'
    exact ⟨fun he => hreset t (by rw [he]), hs'⟩

/-- A built rule without store updates keeps what is read off the stores. -/
theorem of_reading {c : Cmd α} (hc : Built false true c) (hI : ∀ s t : State, t.stores = s.stores → I s → I t) :
    Closes I I c :=
  .of_keeps hc fun s => hI s _ (hc.keeps_stores s)

theorem bind {x : Cmd α} {f : α → Cmd β} (hx : Closes I I x) (hf : ∀ a, Closes I Q (f a)) : Closes I Q (x >>= f) := by
  intro s hw hs
  have h := hx s hw hs
  cases hr : x s with
  | ok a t =>
    rw [hr] at h
    rw [bind_of_ok hr]
    exact hf a t h.1 h.2
  | error e t =>
    rw [hr] at h
    rw [bind_of_error hr]
    exact h

theorem pure {a : α} (hQ : ∀ t, I t → Q t) : Closes I Q (Pure.pure a) := fun _ hw hs => ⟨hw, hQ _ hs⟩

theorem get_bind {f : State → Cmd β} (h : ∀ s, Closes I Q (f s)) : Closes I Q ((get : Cmd State) >>= f) :=
  fun s => h s s

theorem ite {p : Prop} [Decidable p] {x y : Cmd α} (hx : Closes I Q x) (hy : Closes I Q y) :
    Closes I Q (if p then x else y) := by
  split
  · exact hx
  · exact hy

theorem throw (e : Stop) (he : e ≠ .resetInput) : Closes I Q (MonadExcept.throw e : Cmd α) := fun _ _ hs => ⟨he, hs⟩

theorem raise (f : FaultCode) : Closes I Q (Machine.raise f : Cmd α) := by
  intro s hw hs
  rw [raise_quiet f hw]
  exact ⟨nofun, hs⟩

theorem change {f : State → State} (hhost : ∀ s, (f s).hostQuiet = s.hostQuiet) (hQ : ∀ s, I s → Q (f s)) :
    Closes I Q (Machine.change f) := by
  intro s hw hs
  rw [change_quiet f hw]
  exact ⟨(hhost s).trans hw, hQ s hs⟩

end Closes

/-- A command that ends in a next state has ended its rule, or has faulted where the rule stopped. -/
theorem runCmd_closes {c : Cmd Unit} {t : State} (hc : Closes I Q c) (hw : s.hostQuiet = true) (hs : I s)
    (ht : runCmd c s = .next t) : Q t ∨ ∃ f u, t = takeFault f u ∧ I u := by
  have h := hc s hw hs
  rw [runCmd_quiet c hw] at ht
  obtain hok | ⟨f, u, hfault, rfl⟩ | ⟨u, hreset, -⟩ := settle_next ht
  · rw [hok] at h
    exact .inl h.2
  · rw [hfault] at h
    exact .inr ⟨f, u, rfl, h.2⟩
  · rw [hreset] at h
    exact absurd rfl h.1

/-! ### Read-only commands -/

/-- DSTATE is `d`. -/
def DStateIs (d : DState) (s : State) : Prop := s.dstate = d

/-- A rule without store updates keeps DSTATE, and so does what follows it. -/
theorem Closes.after_reading {d : DState} {x : Cmd α} {f : α → Cmd β} (hx : Built false true x)
    (hf : ∀ a, Closes (DStateIs d) (DStateIs d) (f a)) : Closes (DStateIs d) (DStateIs d) (x >>= f) :=
  .bind (.of_reading hx fun _ _ hstores hs => (congrArg State.dstate hstores).trans hs) hf

theorem closes_done {d : DState} (o : CmdOutcome) : Closes (DStateIs d) (DStateIs d) (done o) :=
  .change (fun _ => rfl) fun _ hs => hs

theorem execQFront_reads {d : DState} (s : State) :
    ∃ c, execQFront s = runCmd c s ∧ Closes (DStateIs d) (DStateIs d) c := by
  refine ⟨_, rfl, ?_⟩
  split
  · exact .raise _
  · exact .after_reading (.change (.res0 _)) fun _ => closes_done _

/-- A read-only command runs a rule that keeps DSTATE. -/
theorem exec_reads {d : DState} (s : State) (hi : kindOf i = .readOnly) :
    ∃ c, exec i s = runCmd c s ∧ Closes (DStateIs d) (DStateIs d) c := by
  cases i with
  | nodeInfo =>
    exact ⟨_, rfl, .after_reading built_takeNode fun _ => .after_reading (built_nodeRead _) fun _ =>
      .after_reading (.change (.res0 _)) fun _ => .after_reading (.change (.res1 _)) fun _ =>
      .after_reading (.change (.res2 _)) fun _ => .after_reading (.change (.res3 _)) fun _ => closes_done _⟩
  | qFront => exact execQFront_reads s
  | qIsEmpty => exact ⟨_, rfl, .after_reading (.change (.res0 _)) fun _ => closes_done _⟩
  | qSize => exact ⟨_, rfl, .after_reading (.change (.res0 _)) fun _ => closes_done _⟩
  | pathRead =>
    exact ⟨_, rfl, .after_reading built_takeSymbol fun _ => .after_reading (.change (.res0 _)) fun _ =>
      .after_reading (.change (.res1 _)) fun _ => closes_done _⟩
  | tCountBits =>
    exact ⟨_, rfl, .ite (.raise _) (.after_reading (built_countTree _) fun _ => .after_reading (.change (.res0 _)) fun _ =>
      closes_done _)⟩
  | freqRead =>
    exact ⟨_, rfl, .after_reading built_takeSymbol fun _ => .after_reading (.change (.res0 _)) fun _ => closes_done _⟩
  | _ => cases hi

/-! ### State-changing commands -/

/-- The command executes still (a decode in flight), or has set DSTATE to USED. -/
def BusyOrUsed (s : State) : Prop := s.busy = true ∨ s.dstate = .used

/-- No claim on where the rule stops. -/
def Anywhere (_ : State) : Prop := True

theorem closes_doneUsed : Closes I BusyOrUsed doneUsed := by
  intro s hw hs
  rw [doneUsed_quiet hw]
  exact ⟨hw, .inr rfl⟩

/-- Whatever a built rule does, what follows it decides. -/
theorem Closes.after {x : Cmd α} {f : α → Cmd β} (hx : Built true true x) (hf : ∀ a, Closes Anywhere Q (f a)) :
    Closes Anywhere Q (x >>= f) :=
  .bind (.of_keeps hx fun _ _ => trivial) hf

/-- BUSY is 1. -/
def IsBusy (s : State) : Prop := s.busy = true

/-- A rule without store updates keeps BUSY. -/
theorem Closes.busy_of_built {x : Cmd α} (hx : Built false true x) : Closes IsBusy IsBusy x :=
  .of_reading hx fun _ _ hstores hs => (congrArg State.busy hstores).trans hs

/-- A move of the decoder's cursor keeps BUSY. -/
theorem closes_setDecode (c : State → Option NodeRef) (m : State → Nat) :
    Closes IsBusy IsBusy (change fun s => s.setDecode (c s) (m s)) :=
  .change (fun _ => rfl) fun _ hs => hs

theorem closes_decodeTurn : Closes IsBusy IsBusy decodeTurn := by
  refine .bind (.busy_of_built .point) fun _ => .get_bind fun s => ?_
  split
  · exact .throw _ nofun
  · refine .bind (.busy_of_built (built_nodeRead _)) fun n => ?_
    split
    · exact .ite (.pure fun _ h => h) (.bind (.busy_of_built (built_outWrite _ _)) fun _ =>
        .bind (closes_setDecode _ _) fun _ => .pure fun _ h => h)
    · refine .bind (.busy_of_built (built_inRead 1)) fun o => ?_
      split
      · exact .raise _
      · exact .ite (.raise _) (.bind (closes_setDecode _ _) fun _ => .pure fun _ h => h)

theorem closes_decodeTurns (fuel : Nat) : Closes IsBusy IsBusy (decodeTurns fuel) := by
  induction fuel with
  | zero => exact .pure fun _ h => h
  | succ fuel ih => exact .bind closes_decodeTurn fun _ => .ite (.pure fun _ h => h) ih

theorem closes_decodeEnd (withRes0 : Bool) : Closes IsBusy BusyOrUsed (decodeEnd withRes0) := by
  refine .get_bind fun s => .bind (.busy_of_built (.change (.bitsWritten _))) fun _ => ?_
  have hend : Closes IsBusy BusyOrUsed (do
      change (·.setDecode none 0)
      doneUsed) := .bind (closes_setDecode _ _) fun _ => closes_doneUsed
  exact .ite (.bind (.busy_of_built (.change (.res0 _))) fun _ => hend) hend

/-- A decode that has not ended leaves BUSY = 1; one that has ends as every state-changing command does. -/
theorem closes_decodeAndEnd (withRes0 : Bool) : Closes IsBusy BusyOrUsed (decodeAndEnd withRes0) :=
  .bind (.get_bind fun _ => closes_decodeTurns _) fun _ => .ite (closes_decodeEnd _) (.pure fun _ h => .inl h)

/-- A state-changing command runs a rule that ends with DSTATE = USED, unless it goes on. -/
theorem exec_changes (hb : s.busy = true) (hi : kindOf i = .changing) :
    ∃ c I, exec i s = runCmd c s ∧ I s ∧ Closes I BusyOrUsed c := by
  cases i with
  | nodeLeaf =>
    exact ⟨_, Anywhere, rfl, trivial, .after built_takeSymbol fun _ => .after (built_alloc _ _ _) fun _ =>
      .after (.change (.res0 _)) fun _ => closes_doneUsed⟩
  | qEnqueue =>
    exact ⟨_, Anywhere, rfl, trivial, .after built_takeNode fun _ => .after (built_nodeRead _) fun _ =>
      .ite (.raise _) (.after (built_enqueue _) fun _ => closes_doneUsed)⟩
  | qDequeue =>
    exact ⟨_, Anywhere, rfl, trivial, .after built_dequeue fun _ => .after (.change (.res0 _)) fun _ => closes_doneUsed⟩
  | tCreate =>
    exact ⟨_, Anywhere, rfl, trivial, .after built_createTree fun _ => .get_bind fun _ => .after (.change (.res0 _)) fun _ =>
      closes_doneUsed⟩
  | tTravel => exact ⟨_, Anywhere, rfl, trivial, .after built_buildTable fun _ => closes_doneUsed⟩
  | tEmit =>
    exact ⟨_, Anywhere, rfl, trivial, .after built_takeSymbol fun _ => .after (built_emitPath _) fun _ =>
      .after (.change (.bitsWritten _)) fun _ => closes_doneUsed⟩
  | tWrite =>
    exact ⟨_, Anywhere, rfl, trivial, .ite (.raise _) (.after (built_writeTree _ _) fun _ =>
      .after (.change (.bitsWritten _)) fun _ => closes_doneUsed)⟩
  | tRecreate =>
    exact ⟨_, Anywhere, rfl, trivial, .after built_readTree fun _ => .get_bind fun _ => .after (.change (.res0 _)) fun _ =>
      .after (.change (.res1 _)) fun _ => closes_doneUsed⟩
  | tDecode =>
    exact ⟨_, IsBusy, rfl, hb, .ite (.raise _) (.bind (closes_setDecode _ _) fun _ => closes_decodeAndEnd _)⟩
  | inRewind => exact ⟨_, Anywhere, rfl, trivial, .after built_inRewind fun _ => closes_doneUsed⟩
  | _ => cases hi

/-- Settles O25: a state-changing rule ends by setting DSTATE to USED or with BUSY = 1, and a read-only rule keeps DSTATE
wherever it stops, as does taking the fault. -/
theorem sessionStateByCommandKind : Obligations.SessionStateByCommandKind := by
  intro i s t hb hw _ ht
  constructor
  · intro hi hidle hfault
    obtain ⟨c, I, hc, hs, hcloses⟩ := exec_changes hb hi
    obtain (hbusy | hused) | ⟨f, u, rfl, -⟩ := runCmd_closes hcloses hw hs (hc ▸ ht)
    · exact absurd hbusy (by simp [hidle])
    · exact hused
    · cases hfault
  · intro hi
    obtain ⟨c, hc, hcloses⟩ := exec_reads (d := s.dstate) s hi
    obtain hend | ⟨f, u, rfl, hu⟩ := runCmd_closes hcloses hw rfl (hc ▸ ht)
    · exact hend
    · exact hu

end Sys2Proof.Machine

end

section
/-!
PROOF. The node and queue commands, with nothing to land inside them: what each answers, what it leaves unchanged, and the
faults of its operands (spec/40_node_queue.md R113 to R126).
-/

namespace Sys2Proof

theorem Config.sw_le {c : Config} (h : c.valid = true) : c.sw ≤ 14 := by
  simp only [Config.valid, Bool.and_eq_true, decide_eq_true_eq] at h
  omega

end Sys2Proof

namespace Sys2Proof.Machine

variable {s t : State} {r : NodeRef} {n : NodeRec} {c : Cmd Unit} {f : FaultCode}

/-! ### How a command ends -/

theorem runCmd_ok (hw : s.hostQuiet = true) (hc : c s = .ok () t) : runCmd c s = .next t := by
  rw [runCmd_quiet c hw, hc, settle_ok]

theorem runCmd_raised (hw : s.hostQuiet = true) (hc : c s = .error (.raised f) t) : runCmd c s = .next (takeFault f t) := by
  rw [runCmd_quiet c hw, hc, settle_raised]

/-- What follows a change runs on from the changed state. -/
theorem change_then {α : Type} {g : Cmd α} {out : EStateM.Result Stop State α} (f : State → State) (hw : s.hostQuiet = true)
    (hg : g (f s) = out) : (do change f; g : Cmd α) s = out :=
  (bind_of_ok (change_quiet f hw)).trans hg

/-- The end of a command that only gives a result. -/
theorem setRes0_done (v : Word) (hw : s.hostQuiet = true) :
    (do change (·.setRes0 v); done .ok : Cmd Unit) s = .ok () ((s.setRes0 v).endWith .ok) :=
  change_then _ hw (done_quiet _ hw)

/-- The end of a state-changing command that gives a result. -/
theorem setRes0_doneUsed (v : Word) (hw : s.hostQuiet = true) :
    (do change (·.setRes0 v); doneUsed : Cmd Unit) s =
      .ok () (((s.setRes0 v).setDState .used).endWith .ok) :=
  change_then _ hw (doneUsed_quiet hw)

/-! ### The operands -/

theorem symOperand_eq (s : State) : s.symOperand = s.larg0.toNat % 2 ^ 16 := by
  simp [State.symOperand, BitVec.extractLsb'_toNat]

theorem refOperand_eq (s : State) : s.refOperand = s.larg0.setWidth 16 := by
  rw [State.refOperand, BitVec.setWidth_eq_extractLsb' (by decide)]

/-- A command of a node operand that is NIL raises NULL_NODE (spec/40_node_queue.md R121, R122). -/
theorem runCmd_takeNode_null {g : NodeRef → Cmd Unit} (hw : s.hostQuiet = true) (hr : s.refOperand = NIL) :
    runCmd (takeNode >>= g) s = .next (takeFault .nullNode s) :=
  runCmd_raised hw (bind_of_error (takeNode_null hw hr))

/-- A command of a node operand not below NEXT raises BAD_REF (spec/40_node_queue.md R121, R122). -/
theorem runCmd_takeNode_bad {g : NodeRef → Cmd Unit} (hw : s.hostQuiet = true) (hr : s.refOperand ≠ NIL)
    (hfree : s.nodes.length ≤ s.refOperand.toNat) : runCmd (takeNode >>= g) s = .next (takeFault .badRef s) :=
  runCmd_raised hw (bind_of_error (takeNode_bad hw hr hfree))

/-- A command of a valid node operand goes on with the operand and its record. -/
theorem takeNode_nodeRead {g : NodeRef → NodeRec → Cmd Unit} (hr : s.refOperand ≠ NIL)
    (hn : s.nodes[s.refOperand.toNat]? = some n) :
    (do let r ← takeNode; let n ← nodeRead r; g r n : Cmd Unit) s = g s.refOperand n s := by
  have hvalid : s.refOperand.toNat < s.nodes.length := (List.getElem?_eq_some_iff.mp hn).1
  rw [bind_of_ok (takeNode_ok hr hvalid), bind_of_ok (nodeRead_some hn)]

/-! ### NODE_INFO -/

/-- RES0 of NODE_INFO is the sum of its fields at their bits (spec/40_node_queue.md R121). -/
theorem infoWord_eq {c : Config} {inQ : Bool} (hc : c.valid = true) (hsym : n.sym < 2 ^ (c.sw + 1)) :
    infoWord c n inQ = BitVec.ofNat 32 ((if n.kind = .leaf then 2 ^ 31 else 0) + (if n.owned then 2 ^ 30 else 0) +
      (if inQ then 2 ^ 29 else 0) + n.sym) := by
  have hsw : 2 ^ (c.sw + 1) ≤ 2 ^ 15 := Nat.pow_le_pow_right (by decide) (by have := Config.sw_le hc; omega)
  have hkind : (if n.kind = .leaf then 2 ^ 31 else 0) = (n.kind == .leaf).toNat * 2 ^ 31 := by cases n.kind <;> rfl
  have howned : (if n.owned then 2 ^ 30 else 0) = n.owned.toNat * 2 ^ 30 := by cases n.owned <;> rfl
  have hinq : (if inQ then 2 ^ 29 else 0) = inQ.toNat * 2 ^ 29 := by cases inQ <;> rfl
  apply BitVec.eq_of_toNat_eq
  rw [infoWord, Nat.mod_eq_of_lt hsym]
  simp only [toNat_append_mul, BitVec.toNat_ofBool, BitVec.toNat_ofNat]
  rw [hkind, howned, hinq]
  have hkind_le := Bool.toNat_le (n.kind == .leaf)
  have howned_le := Bool.toNat_le n.owned
  have hinq_le := Bool.toNat_le inQ
  omega

theorem append_eq_ofNat (a b : NodeRef) : a ++ b = BitVec.ofNat 32 (a.toNat * 2 ^ 16 + b.toNat) := by
  apply BitVec.eq_of_toNat_eq
  rw [toNat_append_mul, BitVec.toNat_ofNat]
  omega

/-- The rule of NODE_INFO past its operand (spec/40_node_queue.md R121). -/
theorem setResults_done (v0 v1 v2 v3 : Word) (hw : s.hostQuiet = true) :
    (do
      change (·.setRes0 v0)
      change (·.setRes1 v1)
      change (·.setRes2 v2)
      change (·.setRes3 v3)
      done .ok : Cmd Unit) s =
      .ok () (((((s.setRes0 v0).setRes1 v1).setRes2 v2).setRes3 v3).endWith .ok) :=
  change_then _ hw (change_then _ hw (change_then _ hw (change_then _ hw (done_quiet _ hw))))

/-- Settles O30: the operand's faults, and a valid operand's record laid out in the four result words. -/
theorem nodeInfoReadsARecord : Obligations.NodeInfoReadsARecord := by
  intro s r n hc hw hr
  rw [← refOperand_eq] at hr
  subst hr
  refine ⟨runCmd_takeNode_null hw, runCmd_takeNode_bad hw, fun hr hn hsym _ => runCmd_ok hw ?_⟩
  have hlow : BitVec.ofNat 32 (n.freq % 2 ^ 32) = BitVec.ofNat 32 n.freq := BitVec.eq_of_toNat_eq (Nat.mod_mod _ _)
  have hinq : s.inQueue s.refOperand = true ↔ s.refOperand ∈ s.queue := List.contains_iff_mem
  rw [takeNode_nodeRead hr hn, setResults_done _ _ _ _ hw, infoWord_eq hc hsym, append_eq_ofNat, Nat.shiftRight_eq_div_pow, hlow]
  simp only [hinq]
  rfl

/-! ### Q_ENQUEUE -/

/-- No entry before the place of insertion is of greater frequency (spec/40_node_queue.md R113). -/
theorem freqOfRef_le_of_mem_take_insertAt {g : Nat} {q : List NodeRef} {x : NodeRef} (hx : x ∈ q.take (insertAt s g q)) :
    s.freqOfRef x ≤ g := by
  obtain ⟨i, hi, rfl⟩ := List.mem_take_iff_getElem.mp hx
  simpa using List.not_of_lt_findIdx (lt_of_lt_of_le hi (min_le_left _ _))

/-- The entry at the place of insertion is of greater frequency (spec/40_node_queue.md R113). -/
theorem lt_freqOfRef_at_insertAt {g : Nat} {q : List NodeRef} {x : NodeRef} (hx : q[insertAt s g q]? = some x) :
    g < s.freqOfRef x := by
  obtain ⟨hlt, rfl⟩ := List.getElem?_eq_some_iff.mp hx
  exact of_decide_eq_true (List.findIdx_getElem (w := hlt))

/-- Settles O31: the operand's faults, DUP_NODE, and the insertion at `insertAt`. -/
theorem enqueueInsertsBeforeTheFirstGreater : Obligations.EnqueueInsertsBeforeTheFirstGreater := by
  intro s r n hw hr
  rw [← refOperand_eq] at hr
  subst hr
  refine ⟨runCmd_takeNode_null hw, runCmd_takeNode_bad hw, fun hr hn hdup => runCmd_raised hw ?_,
    fun hr hn hout hown hq => ?_⟩
  · have hcheck : (s.inQueue s.refOperand || n.owned) = true := by simpa [State.inQueue] using hdup
    rw [takeNode_nodeRead hr hn, if_pos hcheck]
    exact raise_quiet _ hw
  · refine ⟨insertAt s n.freq s.queue, List.findIdx_le_length, fun x => freqOfRef_le_of_mem_take_insertAt,
      fun x => lt_freqOfRef_at_insertAt, runCmd_ok hw ?_⟩
    have hcheck : ¬ (s.inQueue s.refOperand || n.owned) = true := by simp [State.inQueue, hout, hown]
    rw [takeNode_nodeRead hr hn, if_neg hcheck, bind_of_ok (enqueue_quiet hw hn hq)]
    exact doneUsed_quiet hw

/-! ### NODE_LEAF -/

/-- Settles O29: the operand's fault, the full pool, and the leaf that Alloc appends. -/
theorem nodeLeafAllocatesALeaf : Obligations.NodeLeafAllocatesALeaf := by
  intro s hc hw
  rw [← symOperand_eq]
  refine ⟨fun hsym => runCmd_raised hw (bind_of_error (takeSymbol_bad hw hsym)), fun hsym hfull => runCmd_raised hw ?_,
    fun hsym hroom => runCmd_ok hw ?_⟩
  · rw [bind_of_ok (takeSymbol_ok hsym)]
    exact bind_of_error (alloc_full hw hfull)
  · have hwidth : (BitVec.ofNat 16 s.nodes.length).setWidth 32 = BitVec.ofNat 32 s.nodes.length := by
      have hcap := Config.ncap_le hc
      exact BitVec.setWidth_ofNat_of_le_of_lt (by decide) (by omega)
    rw [bind_of_ok (takeSymbol_ok hsym), bind_of_ok (alloc_room hroom), ← hwidth]
    exact setRes0_doneUsed _ hw

/-! ### Q_DEQUEUE and the reads of the queue -/

/-- Settles O32: Dequeue on an empty queue and on one with a front. -/
theorem dequeueTakesTheFront : Obligations.DequeueTakesTheFront := by
  intro s hw
  refine ⟨fun hq => runCmd_raised hw (bind_of_error (dequeue_nil hw hq)), fun r q hq => runCmd_ok hw ?_⟩
  rw [bind_of_ok (dequeue_cons hw hq)]
  exact setRes0_doneUsed _ hw

theorem execQFront_nil (hw : s.hostQuiet = true) (hq : s.queue = []) :
    execQFront s = .next (takeFault .emptyQueue s) := by
  simp only [execQFront, hq]
  exact runCmd_raised hw (raise_quiet _ hw)

theorem execQFront_cons {q : List NodeRef} (hw : s.hostQuiet = true) (hq : s.queue = r :: q) :
    execQFront s = .next ((s.setRes0 (r.setWidth 32)).endWith .ok) := by
  simp only [execQFront, hq]
  exact runCmd_ok hw (setRes0_done _ hw)

/-- Settles O33: each read gives its value in RES0 and ends, but for Q_FRONT on an empty queue. -/
theorem queueReadsChangeOnlyTheResult : Obligations.QueueReadsChangeOnlyTheResult := by
  intro s hw
  refine ⟨execQFront_nil hw, fun r q => execQFront_cons hw, runCmd_ok hw ?_, runCmd_ok hw (setRes0_done _ hw)⟩
  simp only [List.length_eq_zero_iff]
  exact setRes0_done _ hw

/-! ### What the queue commands leave unchanged -/

/-- What lies beside the queue: the records, the tree and the tables, the streams, and the results but RES0. -/
structure BesideQueue where
  nodes : List NodeRec
  rootRef : NodeRef
  pt : List (Option (List Bit))
  freq : List Nat
  ipos : DWord
  olog : List Bit
  res1 : Word
  res2 : Word
  res3 : Word
  bitsWritten : DWord

/-- What lies beside the queue in a state. -/
def State.besideQueue (s : State) : BesideQueue :=
  ⟨s.nodes, s.rootRef, s.pt, s.freq, s.ipos, s.olog, s.res1, s.res2, s.res3, s.bitsWritten⟩

/-- What lies beside the queue is `b`: what a queue command's rule keeps. -/
def Beside (b : BesideQueue) (s : State) : Prop := s.besideQueue = b

section
variable {b : BesideQueue}

theorem closes_nodeRead {I : State → Prop} (r : NodeRef) : Closes I I (nodeRead r) := by
  intro s hw hs
  unfold nodeRead
  cases s.nodes[r.toNat]? with
  | none => exact ⟨nofun, hs⟩
  | some n => exact ⟨hw, hs⟩

theorem closes_insertByFreq {I : State → Prop} (r : NodeRef) (g : Nat) (q : List NodeRef) :
    Closes I I (insertByFreq r g q) := by
  induction q with
  | nil => exact .pure fun _ h => h
  | cons x xs ih =>
    exact .bind (closes_nodeRead x) fun _ => .ite (.pure fun _ h => h) (.bind ih fun _ => .pure fun _ h => h)

theorem closes_takeNode {I : State → Prop} : Closes I I takeNode :=
  .get_bind fun _ => .ite (.raise _) (.ite (.raise _) (.pure fun _ h => h))

theorem beside_setQueue (q : List NodeRef) : Closes (Beside b) (Beside b) (change (·.setQueue q)) :=
  .change (fun _ => rfl) fun _ h => h

theorem beside_setRes0 (v : Word) : Closes (Beside b) (Beside b) (change (·.setRes0 v)) :=
  .change (fun _ => rfl) fun _ h => h

theorem beside_done (o : CmdOutcome) : Closes (Beside b) (Beside b) (done o) := .change (fun _ => rfl) fun _ h => h

theorem beside_doneUsed : Closes (Beside b) (Beside b) doneUsed :=
  .bind (.change (fun _ => rfl) fun _ h => h) fun _ => beside_done _

theorem beside_enqueue (r : NodeRef) : Closes (Beside b) (Beside b) (enqueue r) :=
  .bind (closes_nodeRead r) fun _ => .get_bind fun _ => .bind (closes_insertByFreq _ _ _) fun _ => beside_setQueue _

theorem beside_dequeue : Closes (Beside b) (Beside b) dequeue := by
  refine .get_bind fun s => ?_
  cases s.queue with
  | nil => exact .raise _
  | cons r q => exact .bind (beside_setQueue q) fun _ => .pure fun _ h => h

theorem execQFront_beside (s : State) : ∃ c, execQFront s = runCmd c s ∧ Closes (Beside b) (Beside b) c := by
  refine ⟨_, rfl, ?_⟩
  cases s.queue with
  | nil => exact .raise _
  | cons r q => exact .bind (beside_setRes0 _) fun _ => beside_done _

/-- A queue command runs a rule that keeps what lies beside the queue. -/
theorem exec_queue_beside {i : Instr} (s : State) (hi : i ∈ [.qEnqueue, .qDequeue, .qFront, .qIsEmpty, .qSize]) :
    ∃ c, exec i s = runCmd c s ∧ Closes (Beside b) (Beside b) c := by
  simp only [List.mem_cons, List.not_mem_nil, or_false] at hi
  obtain rfl | rfl | rfl | rfl | rfl := hi
  · exact ⟨_, rfl, .bind closes_takeNode fun _ => .bind (closes_nodeRead _) fun _ => .ite (.raise _)
      (.bind (beside_enqueue _) fun _ => beside_doneUsed)⟩
  · exact ⟨_, rfl, .bind beside_dequeue fun _ => .bind (beside_setRes0 _) fun _ => beside_doneUsed⟩
  · exact execQFront_beside s
  · exact ⟨_, rfl, .bind (beside_setRes0 _) fun _ => beside_done _⟩
  · exact ⟨_, rfl, .bind (beside_setRes0 _) fun _ => beside_done _⟩

end

/-- Settles O27: a queue command's rule keeps what lies beside the queue wherever it stops, and taking a fault changes the
results only. -/
theorem queueCommandsKeepEveryRecord : Obligations.QueueCommandsKeepEveryRecord := by
  intro i s t hi hw ht
  obtain ⟨c, hc, hcloses⟩ := exec_queue_beside (b := s.besideQueue) s hi
  obtain hend | ⟨f, u, rfl, hu⟩ := runCmd_closes hcloses hw rfl (hc ▸ ht)
  · obtain ⟨hnodes, hroot, hpt, hfreq, hipos, holog, hres⟩ := BesideQueue.mk.inj hend
    exact ⟨hnodes, hroot, hpt, hfreq, hipos, holog, fun _ => hres⟩
  · obtain ⟨hnodes, hroot, hpt, hfreq, hipos, holog, -⟩ := BesideQueue.mk.inj hu
    exact ⟨hnodes, hroot, hpt, hfreq, hipos, holog, nofun⟩

end Sys2Proof.Machine

end

section
/-!
PROOF. T_CREATE (spec/41_tree_build.md R140 to R142) refines the merging of weighted trees: one turn of its loop is one combine
step on what the queue stands for (`Loaded`), and its end is described from the state it started in (`Merged`).
-/

namespace Sys2Proof.Machine

variable {s t : State} {a b r : NodeRef} {q : List NodeRef} {ws : List (Nat × CodeTree)}

/-! ### What a queue stands for -/

/-- The reference stands for the tree, its record's frequency is the weight. -/
def State.StandsFor (s : State) (r : NodeRef) (w : Nat × CodeTree) : Prop := s.tree? r = some w.2 ∧ s.freqOfRef r = w.1

theorem State.StandsFor.lt {w : Nat × CodeTree} (h : s.StandsFor r w) : r.toNat < s.nodes.length := treeAt_lt h.1

/-- A reference stands for the same tree in states of the same records. -/
theorem tree?_congr (h : t.nodes = s.nodes) (r : NodeRef) : t.tree? r = s.tree? r := by
  rw [State.tree?, State.tree?, State.next_eq, State.next_eq, h]

theorem weightedQueue_eq_some_iff : s.weightedQueue = some ws ↔ List.Forall₂ s.StandsFor s.queue ws := by
  unfold State.weightedQueue
  induction s.queue generalizing ws with
  | nil => simp [eq_comm]
  | cons r q ih =>
    simp only [List.mapM_cons, bind, pure, Option.bind_eq_some_iff, Option.map_eq_some_iff, Option.some.injEq, ih,
      List.forall₂_cons_left_iff, State.StandsFor]
    constructor
    · rintro ⟨_, ⟨T, hT, rfl⟩, us, hus, rfl⟩
      exact ⟨_, us, ⟨hT, rfl⟩, hus, rfl⟩
    · rintro ⟨⟨f, T⟩, us, ⟨hT, rfl⟩, hus, rfl⟩
      exact ⟨_, ⟨T, hT, rfl⟩, us, hus, rfl⟩

/-- References that stand for trees are valid. -/
theorem State.StandsFor.forall_lt (h : List.Forall₂ s.StandsFor q ws) : ∀ x ∈ q, x.toNat < s.nodes.length := by
  induction h with
  | nil => nofun
  | cons hx _ ih => exact List.forall_mem_cons.mpr ⟨hx.lt, ih⟩

/-! ### The weights of a queue of trees -/

/-- The sum of the weights. -/
def weightSum (ws : List (Nat × CodeTree)) : Nat := (ws.map Prod.fst).sum

theorem weightSum_cons (w : Nat × CodeTree) (ws : List (Nat × CodeTree)) : weightSum (w :: ws) = w.1 + weightSum ws := rfl

theorem weightSum_insertW (f : Nat) (T : CodeTree) (ws : List (Nat × CodeTree)) :
    weightSum (insertW f T ws) = f + weightSum ws := by
  induction ws with
  | nil => rfl
  | cons w ws ih =>
    obtain ⟨g, U⟩ := w
    by_cases hgt : g > f
    · simp only [insertW, if_pos hgt, weightSum_cons]
    · simp only [insertW, if_neg hgt, weightSum_cons, ih]
      omega

/-! ### MkInternal -/

theorem freqOfRef_of_some {n : NodeRec} (hn : s.nodes[r.toNat]? = some n) : s.freqOfRef r = n.freq := by
  rw [State.freqOfRef, hn]

theorem getElem?_of_lt (hr : r.toNat < s.nodes.length) :
    ∃ n, s.nodes[r.toNat]? = some n ∧ s.freqOfRef r = n.freq :=
  ⟨_, List.getElem?_eq_getElem hr, freqOfRef_of_some (List.getElem?_eq_getElem hr)⟩

/-- The state MkInternal leaves: a new record over `a` and `b`, which are owned now (spec/40_node_queue.md R111). -/
def State.join (s : State) (a b : NodeRef) : State :=
  s.setNodes (joined s.nodes s.cfg.symPlaceholder (s.freqOfRef a + s.freqOfRef b) a b)

/-- The reference Alloc hands out next (spec/40_node_queue.md R110). -/
def State.nextRef (s : State) : NodeRef := BitVec.ofNat 16 s.nodes.length

theorem nextRef_toNat (hcap : s.nodes.length ≤ 0xFFFE) : s.nextRef.toNat = s.nodes.length := toNat_ref hcap

theorem setNodes_setNodes (s : State) (ns ms : List NodeRec) : (s.setNodes ns).setNodes ms = s.setNodes ms := rfl

section
variable (ha : a.toNat < s.nodes.length) (hb : b.toNat < s.nodes.length)
include ha hb

/-- MkInternal reads the two records, then tests the sum of their frequencies. -/
theorem mkInternal_overflow (hw : s.hostQuiet = true) (hsum : 2 ^ s.cfg.fw ≤ s.freqOfRef a + s.freqOfRef b) :
    mkInternal a b s = .error (.raised .freqOverflow) s := by
  obtain ⟨na, hna, hfa⟩ := getElem?_of_lt ha
  obtain ⟨nb, hnb, hfb⟩ := getElem?_of_lt hb
  rw [hfa, hfb] at hsum
  unfold mkInternal
  rw [bind_of_ok (nodeRead_some hna), bind_of_ok (nodeRead_some hnb), get_bind_apply, if_pos hsum]
  exact raise_quiet _ hw

theorem mkInternal_full (hw : s.hostQuiet = true) (hsum : s.freqOfRef a + s.freqOfRef b < 2 ^ s.cfg.fw)
    (hfull : s.cfg.ncap ≤ s.nodes.length) : mkInternal a b s = .error (.raised .poolFull) s := by
  obtain ⟨na, hna, hfa⟩ := getElem?_of_lt ha
  obtain ⟨nb, hnb, hfb⟩ := getElem?_of_lt hb
  rw [hfa, hfb] at hsum
  unfold mkInternal
  rw [bind_of_ok (nodeRead_some hna), bind_of_ok (nodeRead_some hnb), get_bind_apply, if_neg hsum.not_ge]
  exact bind_of_error (alloc_full hw hfull)

theorem mkInternal_room (hsum : s.freqOfRef a + s.freqOfRef b < 2 ^ s.cfg.fw) (hroom : s.nodes.length < s.cfg.ncap)
    (hcap : s.cfg.ncap ≤ 0xFFFE) : mkInternal a b s = .ok s.nextRef (s.join a b) := by
  obtain ⟨na, hna, hfa⟩ := getElem?_of_lt ha
  obtain ⟨nb, hnb, hfb⟩ := getElem?_of_lt hb
  rw [State.join, ← modify_joined (by omega)]
  rw [hfa, hfb] at hsum ⊢
  unfold mkInternal
  rw [bind_of_ok (nodeRead_some hna), bind_of_ok (nodeRead_some hnb), get_bind_apply, if_neg hsum.not_ge,
    bind_of_ok (alloc_room hroom), bind_of_ok (nodeWrite_apply _ _), bind_of_ok (nodeWrite_apply _ _),
    bind_of_ok (nodeWrite_apply _ _)]
  simp only [setNodes_setNodes, State.setNodes_nodes]
  rfl

end

theorem extends_joined (ns : List NodeRec) (sym freq : Nat) (a b : NodeRef) : Extends ns (joined ns sym freq a b) :=
  ((extends_append _ _).trans (extends_modify _ _ NodeRec.own_shape)).trans (extends_modify _ _ NodeRec.own_shape)

section
variable (ha : a.toNat < s.nodes.length) (hb : b.toNat < s.nodes.length)
include ha hb

/-- The new record of MkInternal. -/
theorem join_getElem?_new :
    (s.join a b).nodes[s.nodes.length]? =
      some ⟨.internal, s.cfg.symPlaceholder, s.freqOfRef a + s.freqOfRef b, a, b, false⟩ := by
  rw [State.join, State.setNodes_nodes, joined_getElem? ha hb, if_pos rfl]

/-- Of an old record MkInternal changes only OWNED. -/
theorem join_getElem?_old {i : Nat} {n : NodeRec} (hn : s.nodes[i]? = some n) :
    (s.join a b).nodes[i]? = some { n with owned := n.owned || decide (a.toNat = i ∨ b.toNat = i) } := by
  have hi : i ≠ s.nodes.length := (List.getElem?_eq_some_iff.mp hn).1.ne
  rw [State.join, State.setNodes_nodes, joined_getElem? ha hb, if_neg hi, hn]
  by_cases hchild : a.toNat = i ∨ b.toNat = i
  · simp [hchild, NodeRec.own]
  · simp [hchild]

/-- A valid reference stands for the same after MkInternal. -/
theorem State.StandsFor.join {w : Nat × CodeTree} (h : s.StandsFor r w) : (s.join a b).StandsFor r w := by
  obtain ⟨n, hn, hf⟩ := getElem?_of_lt h.lt
  refine ⟨treeAt_le (by simp [State.join, joined_length]) (treeAt_extends (extends_joined _ _ _ _ _) h.1), ?_⟩
  rw [freqOfRef_of_some (join_getElem?_old ha hb hn), ← h.2, hf]

end

/-- The new record stands for its two subtrees joined, at the sum of their weights. -/
theorem standsFor_nextRef {f g : Nat} {A B : CodeTree} (hcap : s.nodes.length ≤ 0xFFFE) (hA : s.StandsFor a (f, A))
    (hB : s.StandsFor b (g, B)) : (s.join a b).StandsFor s.nextRef (f + g, .node A B) := by
  have hnew := join_getElem?_new hA.lt hB.lt
  rw [hA.2, hB.2] at hnew
  have hext := extends_joined s.nodes s.cfg.symPlaceholder (s.freqOfRef a + s.freqOfRef b) a b
  have hlen : (s.join a b).next = s.nodes.length + 1 := joined_length _ _ _ _ _
  have href := nextRef_toNat hcap
  constructor
  · rw [State.tree?, hlen, treeAt, href, hnew]
    simp only [State.join, State.setNodes_nodes, treeAt_extends hext hA.1, treeAt_extends hext hB.1]
  · exact freqOfRef_of_some (href ▸ hnew)

/-! ### Enqueue -/

/-- The state Enqueue leaves (spec/40_node_queue.md R113). -/
def State.insertRef (s : State) (r : NodeRef) : State :=
  s.setQueue (s.queue.take (insertAt s (s.freqOfRef r) s.queue) ++ r :: s.queue.drop (insertAt s (s.freqOfRef r) s.queue))

theorem insertRef_queue_perm (s : State) (r : NodeRef) : (s.insertRef r).queue.Perm (r :: s.queue) := by
  simpa [State.insertRef] using List.perm_middle (a := r)
    (l₁ := s.queue.take (insertAt s (s.freqOfRef r) s.queue)) (l₂ := s.queue.drop (insertAt s (s.freqOfRef r) s.queue))

theorem enqueue_insertRef (hw : s.hostQuiet = true) (hr : r.toNat < s.nodes.length)
    (hq : ∀ x ∈ s.queue, x.toNat < s.nodes.length) : enqueue r s = .ok () (s.insertRef r) := by
  obtain ⟨n, hn, hf⟩ := getElem?_of_lt hr
  rw [State.insertRef, hf]
  exact enqueue_quiet hw hn hq

/-- Enqueue inserts a weighted tree where `insertW` does. -/
theorem forall₂_insertRef {f : Nat} {T : CodeTree} (hr : s.StandsFor r (f, T)) (hq : List.Forall₂ s.StandsFor s.queue ws) :
    List.Forall₂ s.StandsFor (s.insertRef r).queue (insertW f T ws) := by
  rw [State.insertRef, State.setQueue_queue, hr.2]
  generalize s.queue = q at hq ⊢
  induction hq with
  | nil => exact .cons hr .nil
  | @cons x w q ws hx hq ih =>
    obtain ⟨g, U⟩ := w
    by_cases hgt : g > f
    · simpa [insertAt, List.findIdx_cons, hx.2, insertW, hgt] using ⟨hr, hx, hq⟩
    · simpa [insertAt, List.findIdx_cons, hx.2, insertW, hgt] using ⟨hx, ih⟩

/-! ### One turn of the loop -/

/-- The state one turn of the loop leaves: the front nodes `a` and `b` are combined, `q` was behind them (spec/41_tree_build.md
R140). -/
def State.combine (s : State) (a b : NodeRef) (q : List NodeRef) : State := ((s.setQueue q).join a b).insertRef s.nextRef

section
variable (s : State) (a b : NodeRef) (q : List NodeRef)

theorem combine_nodes_length : (s.combine a b q).nodes.length = s.nodes.length + 1 := joined_length _ _ _ _ _

theorem combine_queue_perm : (s.combine a b q).queue.Perm (s.nextRef :: q) := insertRef_queue_perm _ _

theorem combine_queue_length : (s.combine a b q).queue.length = q.length + 1 := (combine_queue_perm s a b q).length_eq

theorem setNodes_nodes_self (s : State) : s.setNodes s.nodes = s := rfl

theorem setQueue_queue_self (s : State) : s.setQueue s.queue = s := rfl

/-- A turn changes the pool and the queue only. -/
theorem combine_frame (ns : List NodeRec) (p : List NodeRef) :
    ((s.combine a b q).setNodes ns).setQueue p = (s.setNodes ns).setQueue p := by
  cases s
  rfl

end

/-- The queue stands for the weighted trees `ws`, the pool is within its bounds, and nothing lands inside the command. -/
structure State.Loaded (s : State) (ws : List (Nat × CodeTree)) : Prop where
  quiet : s.hostQuiet = true
  cap : s.cfg.ncap ≤ 0xFFFE
  fits : s.nodes.length ≤ s.cfg.ncap
  queue : List.Forall₂ s.StandsFor s.queue ws

namespace State.Loaded

/-- A queue of two or more, taken apart with its trees. -/
theorem two_front (h : s.Loaded ws) (htwo : 2 ≤ s.queue.length) :
    ∃ a b q f g A B us, s.queue = a :: b :: q ∧ ws = (f, A) :: (g, B) :: us ∧ s.StandsFor a (f, A) ∧
      s.StandsFor b (g, B) ∧ List.Forall₂ s.StandsFor q us := by
  have hqueue := h.queue
  match hq : s.queue, htwo with
  | a :: b :: q, _ =>
    rw [hq] at hqueue
    obtain _ | ⟨ha, _ | ⟨hb, hrest⟩⟩ := hqueue
    exact ⟨a, b, q, _, _, _, _, _, rfl, rfl, ha, hb, hrest⟩

variable {f g : Nat} {A B : CodeTree}

/-- A combine step on the queue is one on its weighted trees. -/
theorem combine (h : s.Loaded ws) (hroom : s.nodes.length < s.cfg.ncap) (ha : s.StandsFor a (f, A))
    (hb : s.StandsFor b (g, B)) {us : List (Nat × CodeTree)} (hq : List.Forall₂ s.StandsFor q us) :
    (s.combine a b q).Loaded (insertW (f + g) (.node A B) us) where
  quiet := h.quiet
  cap := h.cap
  fits := (combine_nodes_length s a b q).trans_le hroom
  queue := forall₂_insertRef (s := (s.setQueue q).join a b)
    (standsFor_nextRef (s := s.setQueue q) (h.fits.trans h.cap) ha hb) (hq.imp fun _ _ hx => hx.join ha.lt hb.lt)

end State.Loaded

theorem combineLoop_singleton (k : Nat) (hq : s.queue = [r]) : combineLoop k s = .ok () s := by
  cases k with
  | zero => rfl
  | succ k =>
    rw [combineLoop, get_bind_apply, if_neg (by simp [hq])]
    rfl

theorem mergeW_singleton (k : Nat) (w : Nat × CodeTree) : mergeW k [w] = some w.2 := by
  rw [mergeW]

section
variable {k : Nat} (hw : s.hostQuiet = true) (hq : s.queue = a :: b :: q)
include hw hq

/-- A turn of the loop starts by taking the two front nodes. -/
theorem combineLoop_front : combineLoop (k + 1) s = (do
      let n ← mkInternal a b
      enqueue n
      combineLoop k : Cmd Unit) (s.setQueue q) := by
  have htwo : s.queue.length > 1 := by simp [hq]
  rw [combineLoop, get_bind_apply, if_pos htwo, bind_of_ok (dequeue_cons hw hq),
    bind_of_ok (dequeue_cons (s := s.setQueue (b :: q)) hw rfl)]
  rfl

variable {f g : Nat} {A B : CodeTree} (ha : s.StandsFor a (f, A)) (hb : s.StandsFor b (g, B))
include ha hb

theorem combineLoop_turn_overflow (hsum : 2 ^ s.cfg.fw ≤ f + g) :
    combineLoop (k + 1) s = .error (.raised .freqOverflow) (s.setQueue q) := by
  have hpair : 2 ^ s.cfg.fw ≤ s.freqOfRef a + s.freqOfRef b := by rwa [ha.2, hb.2]
  rw [combineLoop_front hw hq]
  exact bind_of_error (mkInternal_overflow (s := s.setQueue q) ha.lt hb.lt hw hpair)

variable (hsum : f + g < 2 ^ s.cfg.fw)
include hsum

theorem combineLoop_turn_full (hfull : s.cfg.ncap ≤ s.nodes.length) :
    combineLoop (k + 1) s = .error (.raised .poolFull) (s.setQueue q) := by
  have hpair : s.freqOfRef a + s.freqOfRef b < 2 ^ s.cfg.fw := by rwa [ha.2, hb.2]
  rw [combineLoop_front hw hq]
  exact bind_of_error (mkInternal_full (s := s.setQueue q) ha.lt hb.lt hw hpair hfull)

theorem combineLoop_turn_room (hroom : s.nodes.length < s.cfg.ncap) (hcap : s.cfg.ncap ≤ 0xFFFE)
    (hrest : ∀ x ∈ q, x.toNat < s.nodes.length) : combineLoop (k + 1) s = combineLoop k (s.combine a b q) := by
  have hpair : s.freqOfRef a + s.freqOfRef b < 2 ^ s.cfg.fw := by rwa [ha.2, hb.2]
  have href := nextRef_toNat (s := s) (by omega)
  have hlen : ((s.setQueue q).join a b).nodes.length = s.nodes.length + 1 := joined_length _ _ _ _ _
  have hmake : mkInternal a b (s.setQueue q) = .ok s.nextRef ((s.setQueue q).join a b) :=
    mkInternal_room (s := s.setQueue q) ha.lt hb.lt hpair hroom hcap
  have henqueue : enqueue s.nextRef ((s.setQueue q).join a b) = .ok () (s.combine a b q) :=
    enqueue_insertRef hw (by omega) fun x hx => (hrest x hx).trans (by omega)
  rw [combineLoop_front hw hq, bind_of_ok hmake, bind_of_ok henqueue]

end

/-! ### What the loop leaves -/

/-- The loop ended in `t` with `root` alone in the queue: a record for each combine step, the old records as they were but owned
when they were queued and combined, the new ones owned but for the root (spec/41_tree_build.md R142). -/
structure State.Merged (s t : State) (root : NodeRef) : Prop where
  frame : t = (s.setNodes t.nodes).setQueue [root]
  length : t.nodes.length = s.nodes.length + (s.queue.length - 1)
  old : ∀ (i : Nat) (n : NodeRec), s.nodes[i]? = some n → t.nodes[i]? = some { n with
    owned := n.owned || (decide (2 ≤ s.queue.length) && decide (BitVec.ofNat 16 i ∈ s.queue)) }
  new : ∀ (i : Nat) (n : NodeRec), s.nodes.length ≤ i → t.nodes[i]? = some n →
    n.kind = .internal ∧ n.sym = s.cfg.symPlaceholder ∧ n.freq = t.freqOfRef n.left + t.freqOfRef n.right ∧
      (n.owned = false ↔ BitVec.ofNat 16 i = root)
  root_cases : s.queue = [root] ∨ (2 ≤ s.queue.length ∧ s.nodes.length ≤ root.toNat)

namespace State.Merged

/-- No combine step. -/
theorem of_singleton (hq : s.queue = [r]) : s.Merged s r where
  frame := by rw [← hq, setNodes_nodes_self, setQueue_queue_self]
  length := by simp [hq]
  old i n hn := by simp [hn, hq]
  new i n hi hn := absurd (List.getElem?_eq_some_iff.mp hn).1 hi.not_gt
  root_cases := .inl hq

/-- The root after a turn is a new record, the turn's own when no node was behind the two. -/
theorem root_of_combine {root : NodeRef} (hcap : s.nodes.length ≤ 0xFFFE) (h : (s.combine a b q).Merged t root) :
    s.nodes.length ≤ root.toNat ∧ (BitVec.ofNat 16 s.nodes.length = root ↔ q = []) := by
  have href := nextRef_toNat hcap
  obtain hone | ⟨htwo, hroot⟩ := h.root_cases
  · obtain ⟨rfl, rfl⟩ := List.cons.inj (List.perm_singleton.mp (hone ▸ combine_queue_perm s a b q).symm)
    exact ⟨href.ge, iff_of_true rfl rfl⟩
  · rw [combine_nodes_length] at hroot
    refine ⟨by omega, iff_of_false ?_ ?_⟩
    · rintro rfl
      exact absurd (href ▸ hroot) (Nat.not_succ_le_self _)
    · rintro rfl
      simp [combine_queue_length] at htwo

section
variable {root : NodeRef} (h : (s.combine a b q).Merged t root) (ha : a.toNat < s.nodes.length)
  (hb : b.toNat < s.nodes.length)
include h ha hb

/-- The record of a turn, at the end of the loop. -/
theorem getElem?_combined : t.nodes[s.nodes.length]? =
    some ⟨.internal, s.cfg.symPlaceholder, s.freqOfRef a + s.freqOfRef b, a, b, decide (q ≠ [])⟩ := by
  have hmem : BitVec.ofNat 16 s.nodes.length ∈ (s.combine a b q).queue :=
    (combine_queue_perm s a b q).mem_iff.mpr List.mem_cons_self
  have htwo : 2 ≤ q.length + 1 ↔ q ≠ [] := by simp [Nat.one_le_iff_ne_zero]
  rw [h.old s.nodes.length _ (join_getElem?_new (s := s) ha hb), combine_queue_length]
  simp only [hmem, htwo, decide_true, Bool.and_true, Bool.false_or]

variable (hq : s.queue = a :: b :: q) (hcap : s.nodes.length ≤ 0xFFFE)
include hq hcap

/-- An old record after a turn, at the end of the loop. -/
theorem getElem?_old {i : Nat} {n : NodeRec} (hn : s.nodes[i]? = some n) :
    t.nodes[i]? = some { n with owned := n.owned || decide (BitVec.ofNat 16 i ∈ s.queue) } := by
  have hi := (List.getElem?_eq_some_iff.mp hn).1
  have href : (BitVec.ofNat 16 i).toNat = i := toNat_ref (by omega)
  have hchild (r : NodeRef) : r.toNat = i ↔ BitVec.ofNat 16 i = r := by rw [eq_comm, ← BitVec.toNat_inj, href]
  have hnew : BitVec.ofNat 16 i ≠ s.nextRef := by
    intro heq
    rw [heq, nextRef_toNat hcap] at href
    omega
  have hmem : BitVec.ofNat 16 i ∈ (s.combine a b q).queue ↔ BitVec.ofNat 16 i ∈ q := by
    rw [(combine_queue_perm s a b q).mem_iff, List.mem_cons, or_iff_right hnew]
  have htwo : BitVec.ofNat 16 i ∈ q → 2 ≤ q.length + 1 := fun hx => Nat.succ_le_succ (List.length_pos_of_mem hx)
  rw [h.old _ _ (join_getElem?_old ha hb hn), combine_queue_length, hq]
  simp only [hmem, hchild, List.mem_cons, Bool.or_assoc, ← Bool.decide_and, ← Bool.decide_or, and_iff_right_of_imp htwo,
    or_assoc]

/-- A turn, and the rest of the loop after it. -/
theorem of_combine : s.Merged t root := by
  have htwo : 2 ≤ s.queue.length := by simp [hq]
  have hold {i : Nat} {n : NodeRec} (hn : s.nodes[i]? = some n) := h.getElem?_old ha hb hq hcap hn
  have hfreq {r : NodeRef} (hr : r.toNat < s.nodes.length) : t.freqOfRef r = s.freqOfRef r := by
    obtain ⟨n, hn, hf⟩ := getElem?_of_lt hr
    rw [hf, freqOfRef_of_some (hold hn)]
  obtain ⟨hroot, hlast⟩ := h.root_of_combine hcap
  refine ⟨h.frame.trans (combine_frame s a b q _ _), ?_, fun i n hn => ?_, fun i n hi hn => ?_, .inr ⟨htwo, hroot⟩⟩
  · rw [h.length, combine_nodes_length, combine_queue_length, hq]
    simp only [List.length_cons]
    omega
  · simpa [htwo] using hold hn
  · by_cases hnew : i = s.nodes.length
    · rw [hnew, h.getElem?_combined ha hb] at hn
      cases hn
      simp [hfreq ha, hfreq hb, hlast, hnew]
    · exact h.new i n (by rw [combine_nodes_length]; omega) hn

end

end State.Merged

/-! ### The three ends of the loop -/

section
variable {k : Nat}

theorem combineLoop_merges_singleton (h : s.Loaded ws) (hq : s.queue = [r]) :
    ∃ t root T, combineLoop k s = .ok () t ∧ s.Merged t root ∧ mergeW k ws = some T ∧ t.tree? root = some T := by
  have hqueue := h.queue
  rw [hq] at hqueue
  obtain _ | ⟨hr, ⟨⟩⟩ := hqueue
  exact ⟨s, r, _, combineLoop_singleton k hq, .of_singleton hq, mergeW_singleton k _, hr.1⟩

/-- The loop with room for every combine step and a sum that fits: the queue's trees are merged. -/
theorem combineLoop_merges (h : s.Loaded ws) (hne : s.queue ≠ []) (hk : s.queue.length ≤ k + 1)
    (hroom : s.nodes.length + (s.queue.length - 1) ≤ s.cfg.ncap) (hsum : weightSum ws < 2 ^ s.cfg.fw) :
    ∃ t root T, combineLoop k s = .ok () t ∧ s.Merged t root ∧ mergeW k ws = some T ∧ t.tree? root = some T := by
  have hpos := List.length_pos_iff.mpr hne
  induction k generalizing s ws with
  | zero =>
    obtain ⟨r, hq⟩ := List.length_eq_one_iff.mp (show s.queue.length = 1 by omega)
    exact combineLoop_merges_singleton h hq
  | succ k ih =>
    by_cases hone : s.queue.length = 1
    · obtain ⟨r, hq⟩ := List.length_eq_one_iff.mp hone
      exact combineLoop_merges_singleton h hq
    · obtain ⟨a, b, q, f, g, A, B, us, hq, rfl, ha, hb, hrest⟩ := h.two_front (by omega)
      have hcap := h.cap
      have hlen : s.queue.length = q.length + 2 := by rw [hq]; rfl
      have hnodes := combine_nodes_length s a b q
      have hqueue := combine_queue_length s a b q
      simp only [weightSum_cons] at hsum
      obtain ⟨t, root, T, ht, hmerged, hT, htree⟩ := ih (h.combine (by omega) ha hb hrest)
        (List.ne_nil_of_length_pos (by omega)) (by omega) (show _ ≤ s.cfg.ncap by omega)
        (show _ < 2 ^ s.cfg.fw by rw [weightSum_insertW]; omega) (by omega)
      refine ⟨t, root, T, ?_, hmerged.of_combine ha.lt hb.lt hq (by omega), hT, htree⟩
      rw [combineLoop_turn_room h.quiet hq ha hb (by omega) (by omega) hcap
        (State.StandsFor.forall_lt hrest), ht]

/-- The loop with too little room and a sum that fits: the pool is filled first. -/
theorem combineLoop_poolFull (h : s.Loaded ws) (hk : s.queue.length ≤ k + 1)
    (hroom : s.cfg.ncap < s.nodes.length + (s.queue.length - 1)) (hsum : weightSum ws < 2 ^ s.cfg.fw) :
    ∃ t, combineLoop k s = .error (.raised .poolFull) t ∧ t.nodes.length = s.cfg.ncap ∧ t.rootRef = s.rootRef := by
  have hfits := h.fits
  induction k generalizing s ws with
  | zero => omega
  | succ k ih =>
    obtain ⟨a, b, q, f, g, A, B, us, hq, rfl, ha, hb, hrest⟩ := h.two_front (by omega)
    have hlen : s.queue.length = q.length + 2 := by rw [hq]; rfl
    have hnodes := combine_nodes_length s a b q
    have hqueue := combine_queue_length s a b q
    simp only [weightSum_cons] at hsum
    by_cases hfull : s.cfg.ncap ≤ s.nodes.length
    · exact ⟨_, combineLoop_turn_full h.quiet hq ha hb (by omega) hfull, hfits.antisymm hfull, rfl⟩
    · have hnext := h.combine (by omega) ha hb hrest
      rw [combineLoop_turn_room h.quiet hq ha hb (by omega) (by omega) h.cap (State.StandsFor.forall_lt hrest)]
      exact ih hnext (by omega) (show s.cfg.ncap < _ by omega)
        (show _ < 2 ^ s.cfg.fw by rw [weightSum_insertW]; omega) hnext.fits

/-- The loop with room for every combine step and a sum that does not fit. -/
theorem combineLoop_freqOverflow (h : s.Loaded ws) (htwo : 2 ≤ s.queue.length) (hk : s.queue.length ≤ k + 1)
    (hroom : s.nodes.length + (s.queue.length - 1) ≤ s.cfg.ncap) (hsum : 2 ^ s.cfg.fw ≤ weightSum ws) :
    ∃ t, combineLoop k s = .error (.raised .freqOverflow) t ∧ t.rootRef = s.rootRef := by
  induction k generalizing s ws with
  | zero => omega
  | succ k ih =>
    obtain ⟨a, b, q, f, g, A, B, us, hq, rfl, ha, hb, hrest⟩ := h.two_front htwo
    have hlen : s.queue.length = q.length + 2 := by rw [hq]; rfl
    have hnodes := combine_nodes_length s a b q
    have hqueue := combine_queue_length s a b q
    simp only [weightSum_cons] at hsum
    by_cases hpair : 2 ^ s.cfg.fw ≤ f + g
    · exact ⟨_, combineLoop_turn_overflow h.quiet hq ha hb hpair, rfl⟩
    · rw [combineLoop_turn_room h.quiet hq ha hb (by omega) (by omega) h.cap (State.StandsFor.forall_lt hrest)]
      have hmore : 2 ≤ (s.combine a b q).queue.length := by
        cases hrest with
        | nil => exact absurd hsum (by simp [weightSum]; omega)
        | cons _ _ => simp [hqueue]
      exact ih (h.combine (by omega) ha hb hrest) hmore (by omega) (show _ ≤ s.cfg.ncap by omega)
        (show 2 ^ s.cfg.fw ≤ _ by rw [weightSum_insertW]; omega)

end

/-! ### CreateTree and T_CREATE -/

theorem createTree_of_combineLoop (hne : s.queue ≠ []) :
    createTree s = (do
      combineLoop s.queue.length
      let r ← dequeue
      change (·.setRoot r) : Cmd Unit) s := by
  rw [createTree, get_bind_apply, if_neg (by simpa using hne)]

theorem createTree_nil (hw : s.hostQuiet = true) (hq : s.queue = []) : createTree s = .error (.raised .emptyQueue) s := by
  rw [createTree, get_bind_apply, if_pos (by simp [hq])]
  exact raise_quiet _ hw

/-- T_CREATE stops where its loop does. -/
theorem execTCreate_raised {f : FaultCode} (hw : s.hostQuiet = true) (hne : s.queue ≠ [])
    (h : combineLoop s.queue.length s = .error (.raised f) t) : exec .tCreate s = .next (takeFault f t) :=
  runCmd_raised hw (bind_of_error ((createTree_of_combineLoop hne).trans (bind_of_error h)))

/-- CreateTree takes the root the loop leaves (spec/41_tree_build.md R140). -/
theorem createTree_merged {root : NodeRef} (hw : s.hostQuiet = true) (hne : s.queue ≠ [])
    (h : combineLoop s.queue.length s = .ok () t) (hm : s.Merged t root) :
    createTree s = .ok () (((s.setNodes t.nodes).setQueue []).setRoot root) := by
  rw [createTree_of_combineLoop hne, bind_of_ok h, hm.frame,
    bind_of_ok (dequeue_cons (s := (s.setNodes t.nodes).setQueue [root]) hw rfl)]
  exact change_quiet _ hw

/-- T_CREATE gives the root and ends (spec/41_tree_build.md R140). -/
theorem execTCreate_merged {root : NodeRef} (hw : s.hostQuiet = true) (hne : s.queue ≠ [])
    (h : combineLoop s.queue.length s = .ok () t) (hm : s.Merged t root) :
    exec .tCreate s = .next { s with
      nodes := t.nodes
      queue := []
      rootRef := root
      res0 := root.setWidth 32
      dstate := .used
      outcome := .ok
      busy := false } := by
  refine runCmd_ok hw ?_
  rw [bind_of_ok (createTree_merged hw hne h hm), get_bind_apply,
    setRes0_doneUsed _ (by simpa using hw), State.setRoot_rootRef]
  simp only [State.setNodes, State.setQueue, State.setRoot, State.setRes0, State.setDState, State.endWith]

/-- Settles O34: an empty queue raises, and the three ends of the loop, from a queue loaded with the weighted trees. -/
theorem treeCreationMergesTheQueue : Obligations.TreeCreationMergesTheQueue := by
  intro s ws hc hw hfits
  have hloaded (hws : s.weightedQueue = some ws) : s.Loaded ws :=
    ⟨hw, Config.ncap_le hc, hfits, weightedQueue_eq_some_iff.mp hws⟩
  have hk := Nat.le_succ s.queue.length
  refine ⟨fun hq => runCmd_raised hw (bind_of_error (createTree_nil hw hq)), fun hws hne hroom hsum => ?_,
    fun hws hroom hsum => ?_, fun hws htwo hroom hsum => ?_⟩
  · obtain ⟨t, root, T, ht, hm, hT, htree⟩ := combineLoop_merges (hloaded hws) hne hk hroom hsum
    rw [(hloaded hws).queue.length_eq] at hT
    exact ⟨_, T, execTCreate_merged hw hne ht hm, hT,
      (tree?_congr (s := t) rfl _).trans htree, rfl, hm.length, hm.old, hm.new⟩
  · obtain ⟨t, ht, hfull, hroot⟩ := combineLoop_poolFull (hloaded hws) hk hroom hsum
    have hne : s.queue ≠ [] := List.ne_nil_of_length_pos (by omega)
    exact ⟨t, execTCreate_raised hw hne ht, hfull, hroot⟩
  · obtain ⟨t, ht, hroot⟩ := combineLoop_freqOverflow (hloaded hws) htwo hk hroom hsum
    have hne : s.queue ≠ [] := List.ne_nil_of_length_pos (by omega)
    exact ⟨t, execTCreate_raised hw hne ht, hroot⟩

end Sys2Proof.Machine

end

section
/-!
PROOF. T_TRAVEL, PATH_READ and T_EMIT, with nothing to land inside them, and the paths of a tree: of two symbols' paths
neither extends the other (spec/42_path_table.md R150 to R156).
-/

namespace Sys2Proof.Machine

variable {s : State} {T : CodeTree}

/-! ### T_TRAVEL -/

theorem execTTravel_nil (hw : s.hostQuiet = true) (hr : s.rootRef = NIL) :
    exec .tTravel s = .next (takeFault .noTree s) :=
  runCmd_raised hw (bind_of_error (buildTable_nil hw hr))

/-- T_TRAVEL on a tree leaves the tree's table (spec/42_path_table.md R150). -/
theorem execTTravel_tree (hw : s.hostQuiet = true) (hns : s.nodes.length ≤ 0xFFFE) (hT : s.tree? s.rootRef = some T) :
    exec .tTravel s = .next (((s.setPt (T.table s.cfg.eofsym)).setDState .used).endWith .ok) := by
  refine runCmd_ok hw ?_
  rw [bind_of_ok (buildTable_tree (hns.trans (by decide)) hT)]
  exact doneUsed_quiet hw

/-- Settles O35: BuildTable raises without a root, and fills the table with the tree's paths otherwise. -/
theorem travelBuildsThePathTable : Obligations.TravelBuildsThePathTable :=
  fun _ _ hw hns => ⟨execTTravel_nil hw, execTTravel_tree hw hns⟩

/-! ### The paths of a tree -/

theorem CodeTree.path_leaf_eq_some {x sym : Nat} {p : List Bit} (h : (CodeTree.leaf x).path sym = some p) :
    x = sym ∧ p = [] := by
  simp only [CodeTree.path] at h
  split at h
  · next hx => exact ⟨hx, (Option.some.inj h).symm⟩
  · cases h

/-- A path from an internal node goes on in the subtree its first bit selects. -/
theorem CodeTree.path_node_eq_some {l r : CodeTree} {sym : Nat} {p : List Bit} (h : (CodeTree.node l r).path sym = some p) :
    ∃ b q, p = b :: q ∧ (if b then r else l).path sym = some q := by
  simp only [CodeTree.path] at h
  split at h
  · next q hr => exact ⟨true, q, (Option.some.inj h).symm, hr⟩
  · next q _ hl => exact ⟨false, q, (Option.some.inj h).symm, hl⟩
  · cases h

/-- A path that extends another is of the same symbol: both take the same turns, and the shorter ends in a leaf. -/
theorem CodeTree.eq_of_path_prefix {a b : Nat} {p q : List Bit} (hp : T.path a = some p) (hq : T.path b = some q)
    (hpq : p <+: q) : a = b := by
  induction T generalizing p q with
  | leaf x =>
    obtain ⟨rfl, -⟩ := path_leaf_eq_some hp
    exact (path_leaf_eq_some hq).1
  | node l r ihl ihr =>
    obtain ⟨c, p, rfl, hp'⟩ := path_node_eq_some hp
    obtain ⟨d, q, rfl, hq'⟩ := path_node_eq_some hq
    obtain ⟨rfl, htail⟩ := List.cons_prefix_cons.mp hpq
    cases c with
    | false => exact ihl hp' hq' htail
    | true => exact ihr hp' hq' htail

/-- A present entry of a tree's table is its symbol's path. -/
theorem CodeTree.path_of_table {eofsym sym : Nat} {p : List Bit} (h : (T.table eofsym)[sym]? = some (some p)) :
    T.path sym = some p := by
  obtain ⟨x, hx, hp⟩ := Option.map_eq_some_iff.mp (List.getElem?_map.symm.trans h)
  obtain ⟨_, rfl⟩ := List.getElem?_eq_some_iff.mp hx
  rwa [List.getElem_range] at hp

/-- Settles O36: the entries T_TRAVEL leaves are the tree's paths, which `eq_of_path_prefix` and `path_length_le` speak of. -/
theorem pathsArePrefixFree : Obligations.PathsArePrefixFree := by
  intro s T hw hns hT _
  refine ⟨_, execTTravel_tree hw hns hT, fun a b p q hp hq => ?_⟩
  have hp := CodeTree.path_of_table hp
  have hq := CodeTree.path_of_table hq
  exact ⟨CodeTree.eq_of_path_prefix hp hq, CodeTree.path_length_le hp⟩

/-! ### A symbol's entry -/

/-- A command of a symbol operand above EOFSYM raises BAD_SYMBOL (spec/42_path_table.md R153, R156). -/
theorem runCmd_takeSymbol_bad {g : Nat → Cmd Unit} (hw : s.hostQuiet = true) (hsym : s.cfg.eofsym < s.symOperand) :
    runCmd (takeSymbol >>= g) s = .next (takeFault .badSymbol s) :=
  runCmd_raised hw (bind_of_error (takeSymbol_bad hw hsym))

theorem pathAt_of_getElem? {sym : Nat} {e : Option (List Bit)} (h : s.pt[sym]? = some e) : s.pathAt sym = e := by
  rw [State.pathAt, List.getD_eq_getElem?_getD, h, Option.getD_some]

/-! ### PATH_READ -/

/-- The window's bits from its most significant on are the path's from bit `k` on (spec/42_path_table.md R153). -/
theorem pathWindow_getLsbD (e : Option (List Bit)) (k : Nat) {j : Nat} (hj : j < 32) :
    (pathWindow e k).getLsbD (31 - j) = (e.getD []).getD (k + j) false := by
  cases e with
  | none => simp [pathWindow]
  | some p =>
    have hbit := getElem?_eq_testBit_ofBits (bits := (List.range 32).map fun j => p.getD (k + j) false) (j := j) (by simpa)
    have hlow : 31 - j < 32 := by omega
    rw [List.getElem?_map, List.getElem?_range hj, List.length_map, List.length_range] at hbit
    rw [pathWindow, BitVec.getLsbD_ofNat, decide_eq_true hlow, Bool.true_and]
    exact (Option.some.inj hbit).symm

/-- Settles O37: the operand's fault, and the two results of a symbol's entry. -/
theorem pathReadGivesLengthAndWindow : Obligations.PathReadGivesLengthAndWindow := by
  intro s e hw
  rw [← symOperand_eq]
  refine ⟨runCmd_takeSymbol_bad hw, fun hsym he =>
    ⟨pathWindow e s.larg1.toNat, runCmd_ok hw ?_, fun j => pathWindow_getLsbD e _⟩⟩
  rw [bind_of_ok (takeSymbol_ok hsym), pathAt_of_getElem? he]
  exact change_then _ hw (change_then _ hw (done_quiet _ hw))

/-! ### T_EMIT -/

/-- Settles O38: the operand's fault, EmitPath's, and the path it sends. -/
theorem emitSendsThePath : Obligations.EmitSendsThePath := by
  intro s p hw
  rw [← symOperand_eq]
  refine ⟨runCmd_takeSymbol_bad hw, fun hsym hnone => runCmd_raised hw ?_, fun hsym hp => runCmd_ok hw ?_⟩
  · rw [bind_of_ok (takeSymbol_ok hsym)]
    exact bind_of_error (emitPath_none hw (pathAt_of_getElem? hnone))
  · rw [bind_of_ok (takeSymbol_ok hsym), bind_of_ok (emitPath_some hw (pathAt_of_getElem? hp))]
    exact change_then _ hw (doneUsed_quiet hw)

end Sys2Proof.Machine

end

section
/-!
PROOF. T_COUNT_BITS and T_WRITE (spec/43_serialize.md R170, R171), and the size of a tree the pool can hold.
-/

namespace Sys2Proof.Machine

variable {s : State} {r : NodeRef} {T : CodeTree}

/-! ### T_COUNT_BITS -/

/-- A node costs at most a leaf's SW+2 bits (spec/43_serialize.md R170). -/
theorem CodeTree.bits_le (sw : Nat) (t : CodeTree) : t.bits sw ≤ t.size * (sw + 2) := by
  induction t with
  | leaf sym => simp [CodeTree.bits, CodeTree.size]
  | node l r ihl ihr =>
    simp only [CodeTree.bits, CodeTree.size, Nat.add_mul]
    omega

/-- The size field of a tree that fits the pool fits IW bits (spec/00_scope.md R9). -/
theorem CodeTree.bits_lt {c : Config} (hc : c.valid = true) (hT : T.size ≤ c.ncap) : T.bits c.sw < 2 ^ c.iw := by
  simp only [Config.valid, Bool.and_eq_true, decide_eq_true_eq] at hc
  have hncap : c.ncap * (c.sw + 2) < 2 ^ c.iw := by omega
  calc T.bits c.sw ≤ T.size * (c.sw + 2) := T.bits_le c.sw
    _ ≤ c.ncap * (c.sw + 2) := Nat.mul_le_mul_right _ hT
    _ < 2 ^ c.iw := hncap

/-- T_COUNT_BITS of a reference neither NIL nor valid (spec/43_serialize.md R170). -/
theorem execTCountBits_bad (hw : s.hostQuiet = true) (hne : s.refOperand ≠ NIL)
    (hfree : s.nodes.length ≤ s.refOperand.toNat) : exec .tCountBits s = .next (takeFault .badRef s) := by
  have hbad : s.refOperand ≠ NIL ∧ s.validRef s.refOperand = false := ⟨hne, by simpa [State.validRef] using hfree⟩
  refine runCmd_raised hw ?_
  rw [if_pos hbad]
  exact raise_quiet _ hw

/-- T_COUNT_BITS past its operand's check gives what Count answers (spec/43_serialize.md R170). -/
theorem execTCountBits_counts {k : Nat} (hw : s.hostQuiet = true)
    (hgood : s.refOperand = NIL ∨ s.refOperand.toNat < s.nodes.length) (hk : countTree s.refOperand s = .ok k s) :
    exec .tCountBits s = .next ((s.setRes0 (BitVec.ofNat 32 k)).endWith .ok) := by
  have hcheck : ¬ (s.refOperand ≠ NIL ∧ s.validRef s.refOperand = false) := by
    rintro ⟨hne, hfree⟩
    have hlt := hgood.resolve_left hne
    simp [State.validRef, hlt] at hfree
  refine runCmd_ok hw ?_
  rw [if_neg hcheck, bind_of_ok hk]
  exact setRes0_done _ hw

theorem execTCountBits_tree (hw : s.hostQuiet = true) (hns : s.nodes.length ≤ 0xFFFE)
    (hT : s.tree? s.refOperand = some T) :
    exec .tCountBits s = .next ((s.setRes0 (BitVec.ofNat 32 (T.bits s.cfg.sw))).endWith .ok) :=
  execTCountBits_counts hw (.inr (treeAt_lt hT)) (countTree_tree (hns.trans (by decide)) hT)

/-- Settles O39: the operand's fault, Count of NIL and of a tree, and the bound on the size of a tree of the pool. -/
theorem countBitsOfATree : Obligations.CountBitsOfATree := by
  intro s r T hw hns hr
  rw [← refOperand_eq] at hr
  subst hr
  refine ⟨fun hnil => ?_, execTCountBits_bad hw, execTCountBits_tree hw hns, CodeTree.bits_lt⟩
  exact execTCountBits_counts hw (.inl hnil) (hnil ▸ countTree_nil)

/-! ### T_WRITE -/

theorem execTWrite_nil (hw : s.hostQuiet = true) (hr : s.rootRef = NIL) : exec .tWrite s = .next (takeFault .noTree s) := by
  refine runCmd_raised hw ?_
  rw [if_pos hr]
  exact raise_quiet _ hw

/-- T_WRITE on a tree sends its encoding (spec/43_serialize.md R171). -/
theorem execTWrite_tree (hw : s.hostQuiet = true) (hns : s.nodes.length ≤ 0xFFFE) (hT : s.tree? s.rootRef = some T) :
    exec .tWrite s = .next ((((s.send (T.enc s.cfg.sw)).setBitsWritten (BitVec.ofNat 64 (T.bits s.cfg.sw))).setDState
      .used).endWith .ok) := by
  have hne : s.rootRef ≠ NIL := treeAt_ne_nil (hns.trans (by decide)) hT
  refine runCmd_ok hw ?_
  rw [if_neg hne, bind_of_ok (writeTree_treeAt hw hT)]
  exact change_then _ hw (doneUsed_quiet hw)

/-- Settles O40: T_WRITE raises without a root, and sends the tree's encoding otherwise. -/
theorem treeWriteSendsTheEncoding : Obligations.TreeWriteSendsTheEncoding :=
  fun _ _ hw hns => ⟨execTWrite_nil hw, execTWrite_tree hw hns⟩

end Sys2Proof.Machine

end

section
/-!
PROOF. The encodings ReadNode cannot read to their end (spec/43_serialize.md R172): which streams stop it with which fault,
and what it has done by then.
-/

namespace Sys2Proof.Machine

/-! ### Streams that stop ReadNode -/

/-- With room for `room` more records, ReadNode on a stream that is `bits` to its end raises `f` (spec/43_serialize.md R172): at
the marker or the symbol of a leaf, at the record of an internal node, or inside one of its subtrees. -/
inductive Blocked (c : Config) : FaultCode → Nat → List Bit → Prop
  | noMarker (room : Nat) : Blocked c .inputExhausted room []
  | noSymbol (room : Nat) {bits : List Bit} (hshort : bits.length < c.sw + 1) :
      Blocked c .inputExhausted room (true :: bits)
  | badSymbol (room : Nat) {sym : Nat} (rest : List Bit) (hbad : c.eofsym < sym) (hfit : sym < 2 ^ (c.sw + 1)) :
      Blocked c .badSymbol room (true :: (toBits (c.sw + 1) sym ++ rest))
  | noRoomForLeaf {sym : Nat} (rest : List Bit) (hsym : sym ≤ c.eofsym) :
      Blocked c .poolFull 0 (true :: (toBits (c.sw + 1) sym ++ rest))
  | noRoomForNode (rest : List Bit) : Blocked c .poolFull 0 (false :: rest)
  | left {f : FaultCode} {room : Nat} {bits : List Bit} (h : Blocked c f room bits) :
      Blocked c f (room + 1) (false :: bits)
  | right {f : FaultCode} {room : Nat} {bits : List Bit} {l : CodeTree} (hsym : ∀ x ∈ l.symbols, x ≤ c.eofsym)
      (h : Blocked c f room bits) : Blocked c f (room + l.size + 1) (false :: (l.enc c.sw ++ bits))

variable {c : Config} {T : CodeTree} {room : Nat}

theorem forall_mem_symbols_node {p : Nat → Prop} {l r : CodeTree} (h : ∀ x ∈ (CodeTree.node l r).symbols, p x) :
    (∀ x ∈ l.symbols, p x) ∧ ∀ x ∈ r.symbols, p x :=
  List.forall_mem_append.mp h

/-- An encoding cut short stops ReadNode with INPUT_EXHAUSTED. -/
theorem blocked_of_cut {k : Nat} (hk : k < T.bits c.sw) (hsym : ∀ x ∈ T.symbols, x ≤ c.eofsym) (hroom : T.size ≤ room) :
    Blocked c .inputExhausted room ((T.enc c.sw).take k) := by
  induction T generalizing k room with
  | leaf sym =>
    cases k with
    | zero => exact .noMarker _
    | succ k =>
      simp only [CodeTree.bits] at hk
      exact .noSymbol _ (by simp; omega)
  | node l r ihl ihr =>
    obtain ⟨hl, hr⟩ := forall_mem_symbols_node hsym
    simp only [CodeTree.size, CodeTree.bits] at hroom hk
    cases k with
    | zero => exact .noMarker _
    | succ k =>
      simp only [CodeTree.enc, List.take_succ_cons, List.take_append, CodeTree.enc_length]
      by_cases hkl : k < l.bits c.sw
      · obtain ⟨room, rfl⟩ : ∃ m, room = m + 1 := ⟨room - 1, by omega⟩
        rw [Nat.sub_eq_zero_of_le hkl.le, List.take_zero, List.append_nil]
        exact .left (ihl hkl hl (by omega))
      · obtain ⟨room, rfl⟩ : ∃ m, room = m + l.size + 1 := ⟨room - l.size - 1, by omega⟩
        rw [List.take_of_length_le (by simpa using hkl)]
        exact .right hl (ihr (by omega) hr (by omega))

/-- A leaf symbol above EOFSYM stops ReadNode with BAD_SYMBOL. -/
theorem blocked_of_bad_symbol {rest : List Bit} (hbad : ∃ x ∈ T.symbols, c.eofsym < x)
    (hfit : ∀ x ∈ T.symbols, x < 2 ^ (c.sw + 1)) (hroom : T.size ≤ room) :
    Blocked c .badSymbol room (T.enc c.sw ++ rest) := by
  induction T generalizing room rest with
  | leaf sym =>
    simp only [CodeTree.symbols, List.mem_singleton, exists_eq_left, forall_eq] at hbad hfit
    exact .badSymbol _ _ hbad hfit
  | node l r ihl ihr =>
    obtain ⟨hfitl, hfitr⟩ := forall_mem_symbols_node hfit
    simp only [CodeTree.size] at hroom
    rw [CodeTree.enc, List.cons_append, List.append_assoc]
    by_cases hl : ∃ x ∈ l.symbols, c.eofsym < x
    · obtain ⟨room, rfl⟩ : ∃ m, room = m + 1 := ⟨room - 1, by omega⟩
      exact .left (ihl hl hfitl (by omega))
    · obtain ⟨room, rfl⟩ : ∃ m, room = m + l.size + 1 := ⟨room - l.size - 1, by omega⟩
      push Not at hl
      obtain ⟨x, hx, hxbad⟩ := hbad
      have hxr : x ∈ r.symbols := (List.mem_append.mp hx).resolve_left fun hxl => (hl x hxl).not_gt hxbad
      exact .right hl (ihr ⟨x, hxr, hxbad⟩ hfitr (by omega))

/-- An encoding of more nodes than there is room for stops ReadNode with POOL_FULL. -/
theorem blocked_of_full {rest : List Bit} (hsym : ∀ x ∈ T.symbols, x ≤ c.eofsym) (hroom : room < T.size) :
    Blocked c .poolFull room (T.enc c.sw ++ rest) := by
  induction T generalizing room rest with
  | leaf sym =>
    obtain rfl : room = 0 := Nat.lt_one_iff.mp hroom
    exact .noRoomForLeaf _ (hsym sym (List.mem_singleton_self sym))
  | node l r ihl ihr =>
    obtain ⟨hl, hr⟩ := forall_mem_symbols_node hsym
    simp only [CodeTree.size] at hroom
    rw [CodeTree.enc, List.cons_append, List.append_assoc]
    cases room with
    | zero => exact .noRoomForNode _
    | succ room =>
      by_cases hroomL : room < l.size
      · exact .left (ihl hl hroomL)
      · obtain ⟨room, rfl⟩ := Nat.exists_eq_add_of_le' (Nat.not_lt.mp hroomL)
        exact .right hl (ihr hr (by omega))

/-! ### ReadNode, a marker at a time -/

variable {s t u : State} {f : FaultCode} {fuel : Nat} {e : Stop}

/-- The state in which ReadNode reads an internal node's left child: its marker consumed, its record allocated and on the
reconstruction stack (spec/43_serialize.md R172, spec/10_state.md R61). -/
def State.opened (s : State) : State :=
  ((s.setIpos (s.pos + 1)).setNodes (s.nodes ++ [openRecord s.cfg])).setStack ((s.nextRef, .leftChild) :: s.stack)

/-- The state in which ReadNode reads the right child of the internal node `r`: `l` is attached as its left child and owned
(spec/43_serialize.md R172). -/
def State.leftAttached (u : State) (r l : NodeRef) : State :=
  (u.setNodes ((u.nodes.modify r.toNat fun n => { n with left := l }).modify l.toNat NodeRec.own)).setStack
    ((r, .rightChild) :: u.stack.tail)

theorem inRead_marker {b : Bit} {bits : List Bit} (hw : s.hostQuiet = true) (hin : s.input.drop s.pos = b :: bits) :
    inRead 1 s = .ok (some b.toNat) (s.setIpos (s.pos + 1)) := by
  have h := inRead_field (n := 1) (bits := [b]) (rest := bits) hw (by decide) rfl hin
  cases b <;> exact h

/-- Behind a marker the stream goes on, and IPOS can count it. -/
theorem drop_marker {b : Bit} {bits : List Bit} (hlen : s.input.length < 2 ^ 64) (hin : s.input.drop s.pos = b :: bits) :
    s.pos + 1 + bits.length = s.input.length ∧ (s.setIpos (s.pos + 1)).pos = s.pos + 1 ∧
      s.input.drop (s.pos + 1) = bits := by
  have h := congrArg List.length hin
  rw [List.length_drop, List.length_cons] at h
  exact ⟨by omega, State.setIpos_toNat s (by omega), drop_field (bits := [b]) rfl hin⟩

theorem readNode_noMarker (hw : s.hostQuiet = true) (hin : s.input.length ≤ s.pos) :
    readNode (fuel + 1) s = .error (.raised .inputExhausted) s := by
  unfold readNode
  rw [bind_of_ok (inRead_eof hw (by omega))]
  exact raise_quiet _ hw

/-- A leaf marker with less than a symbol behind it. -/
theorem readNode_noSymbol {bits : List Bit} (hw : s.hostQuiet = true) (hlen : s.input.length < 2 ^ 64)
    (hin : s.input.drop s.pos = true :: bits) (hshort : bits.length < s.cfg.sw + 1) :
    readNode (fuel + 1) s = .error (.raised .inputExhausted) (s.setIpos (s.pos + 1)) := by
  obtain ⟨hend, hpos, -⟩ := drop_marker hlen hin
  unfold readNode
  rw [bind_of_ok (inRead_marker hw hin)]
  simp only [Bool.toNat_true, get_bind_apply]
  rw [bind_of_ok (inRead_eof (s := s.setIpos (s.pos + 1)) hw (by rw [hpos, State.setIpos_input, State.setIpos_cfg]; omega))]
  exact raise_quiet _ hw

/-- A leaf marker with a symbol behind it: the symbol is checked, then its record is allocated. -/
theorem readNode_symbol {sym : Nat} {rest : List Bit} (hw : s.hostQuiet = true) (hlen : s.input.length < 2 ^ 64)
    (hin : s.input.drop s.pos = true :: (toBits (s.cfg.sw + 1) sym ++ rest)) (hfit : sym < 2 ^ (s.cfg.sw + 1)) :
    readNode (fuel + 1) s =
      (if s.cfg.eofsym < sym then raise .badSymbol else alloc .leaf sym s.cfg.freqPlaceholder : Cmd NodeRef)
        (s.setIpos (s.pos + 1 + (s.cfg.sw + 1))) := by
  obtain ⟨-, hpos, hin'⟩ := drop_marker hlen hin
  unfold readNode
  rw [bind_of_ok (inRead_marker hw hin)]
  simp only [Bool.toNat_true, get_bind_apply, State.setIpos_cfg]
  rw [bind_of_ok (inRead_field (s := s.setIpos (s.pos + 1)) hw (Nat.succ_pos _) (toBits_length _ _) (hpos ▸ hin')),
    ofBits_toBits, Nat.mod_eq_of_lt hfit, hpos]
  rfl

/-- The symbol of a leaf is above EOFSYM. -/
theorem readNode_badSymbol {sym : Nat} {rest : List Bit} (hw : s.hostQuiet = true) (hlen : s.input.length < 2 ^ 64)
    (hin : s.input.drop s.pos = true :: (toBits (s.cfg.sw + 1) sym ++ rest)) (hbad : s.cfg.eofsym < sym)
    (hfit : sym < 2 ^ (s.cfg.sw + 1)) :
    readNode (fuel + 1) s = .error (.raised .badSymbol) (s.setIpos (s.pos + 1 + (s.cfg.sw + 1))) := by
  rw [readNode_symbol hw hlen hin hfit, if_pos hbad]
  exact raise_quiet (s := s.setIpos _) _ hw

/-- There is no record for a leaf. -/
theorem readNode_noRoomForLeaf {sym : Nat} {rest : List Bit} (hw : s.hostQuiet = true) (hlen : s.input.length < 2 ^ 64)
    (hin : s.input.drop s.pos = true :: (toBits (s.cfg.sw + 1) sym ++ rest)) (hsym : sym ≤ s.cfg.eofsym)
    (hfull : s.cfg.ncap ≤ s.nodes.length) :
    readNode (fuel + 1) s = .error (.raised .poolFull) (s.setIpos (s.pos + 1 + (s.cfg.sw + 1))) := by
  have hfit : sym < 2 ^ (s.cfg.sw + 1) := hsym.trans_lt (Nat.pow_lt_pow_right (by decide) (Nat.lt_succ_self _))
  rw [readNode_symbol hw hlen hin hfit, if_neg hsym.not_gt]
  exact alloc_full (s := s.setIpos _) hw hfull

/-- There is no record for an internal node. -/
theorem readNode_noRoomForNode {bits : List Bit} (hw : s.hostQuiet = true) (hin : s.input.drop s.pos = false :: bits)
    (hfull : s.cfg.ncap ≤ s.nodes.length) :
    readNode (fuel + 1) s = .error (.raised .poolFull) (s.setIpos (s.pos + 1)) := by
  unfold readNode
  rw [bind_of_ok (inRead_marker hw hin)]
  simp only [Bool.toNat_false, get_bind_apply]
  exact bind_of_error (alloc_full (s := s.setIpos (s.pos + 1)) hw hfull)

section
variable {bits : List Bit} (hw : s.hostQuiet = true) (hin : s.input.drop s.pos = false :: bits)
  (hroom : s.nodes.length < s.cfg.ncap)
include hw hin hroom

/-- With room for its record, an internal node's children are read one after the other, whatever follows each. -/
theorem readNode_children : ∃ g : NodeRef → Cmd NodeRef, readNode (fuel + 1) s = (readNode fuel >>= g) s.opened ∧
    ∀ (l : NodeRef) (u : State), ∃ g' : NodeRef → Cmd NodeRef,
      g l u = (readNode fuel >>= g') (u.leftAttached s.nextRef l) := by
  rw [readNode, bind_of_ok (inRead_marker hw hin)]
  simp only [Bool.toNat_false, get_bind_apply]
  rw [bind_of_ok (alloc_room (s := s.setIpos (s.pos + 1)) hroom), bind_of_ok (pushNode_apply _)]
  exact ⟨_, rfl, fun _ _ => ⟨_, rfl⟩⟩

/-- What stops the left child's reading stops the node's. -/
theorem readNode_left_stops (hl : readNode fuel s.opened = .error e t) : readNode (fuel + 1) s = .error e t := by
  obtain ⟨g, hg, -⟩ := readNode_children (fuel := fuel) hw hin hroom
  rw [hg, bind_of_error hl]

/-- What stops the right child's reading, the left child read and attached, stops the node's. -/
theorem readNode_right_stops {l : NodeRef} (hl : readNode fuel s.opened = .ok l u)
    (hr : readNode fuel (u.leftAttached s.nextRef l) = .error e t) : readNode (fuel + 1) s = .error e t := by
  obtain ⟨g, hg, hright⟩ := readNode_children (fuel := fuel) hw hin hroom
  obtain ⟨g', hg'⟩ := hright l u
  rw [hg, bind_of_ok hl, hg', bind_of_error hr]

end

/-! ### What a stopped ReadNode has done -/

/-- `t` is `s` but for the pool, IPOS and the reconstruction stack. -/
def ReadApart (s t : State) : Prop := t = { s with nodes := t.nodes, ipos := t.ipos, stack := t.stack }

theorem ReadApart.refl (s : State) : ReadApart s s := rfl

theorem ReadApart.trans (h : ReadApart s u) (h' : ReadApart u t) : ReadApart s t := by
  rw [ReadApart] at h h' ⊢
  rw [h', h]

theorem ReadApart.cfg_eq (h : ReadApart s t) : t.cfg = s.cfg := by rw [h]

theorem ReadApart.input_eq (h : ReadApart s t) : t.input = s.input := by rw [h]

theorem ReadApart.rootRef_eq (h : ReadApart s t) : t.rootRef = s.rootRef := by rw [h]

theorem ReadApart.olog_eq (h : ReadApart s t) : t.olog = s.olog := by rw [h]

theorem ReadApart.dstate_eq (h : ReadApart s t) : t.dstate = s.dstate := by rw [h]

theorem ReadApart.hostQuiet_eq (h : ReadApart s t) : t.hostQuiet = s.hostQuiet := by
  rw [h]
  rfl

theorem ReadApart.setNodes (h : ReadApart s u) (ns : List NodeRec) : ReadApart s (u.setNodes ns) := h.trans rfl

theorem ReadApart.setIpos (h : ReadApart s u) (k : Nat) : ReadApart s (u.setIpos k) := h.trans rfl

theorem ReadApart.setStack (h : ReadApart s u) (st : List (NodeRef × AwaitSide)) : ReadApart s (u.setStack st) := h.trans rfl

theorem readApart_opened (s : State) : ReadApart s s.opened :=
  (((ReadApart.refl s).setIpos _).setNodes _).setStack _

/-- What ReadNode, started in `s`, has done when it raises `f` in `t`: it has only appended records, filled the pool if that is
the fault, and consumed port IN up to a started symbol if the end of port IN is (spec/43_serialize.md R172). -/
structure ReadStopped (f : FaultCode) (s t : State) : Prop where
  apart : ReadApart s t
  records_kept : s.nodes <+: t.nodes
  pool_full : f = .poolFull → t.nodes.length = s.cfg.ncap
  exhausted : f = .inputExhausted → s.pos ≤ s.input.length →
    t.pos ≤ s.input.length ∧ s.input.length ≤ t.pos + s.cfg.sw

/-- A stop after ReadNode has gone on from `s` to `u`. -/
theorem ReadStopped.of_later (h : ReadStopped f u t) (ha : ReadApart s u) (hn : s.nodes <+: u.nodes)
    (hpos : u.pos ≤ u.input.length) : ReadStopped f s t := by
  refine ⟨ha.trans h.apart, hn.trans h.records_kept, fun hf => ha.cfg_eq ▸ h.pool_full hf, fun hf _ => ?_⟩
  have := h.exhausted hf hpos
  rwa [ha.cfg_eq, ha.input_eq] at this

theorem opened_nodes_length (s : State) : s.opened.nodes.length = s.nodes.length + 1 := by
  simp [State.opened]

/-- The state in which ReadNode reads the right child of an internal node whose left child is `l`: the records of `l` are behind
the node's, and its encoding is consumed. -/
def State.leftRead (s : State) (l : CodeTree) : State :=
  ((s.opened.setNodes (s.opened.nodes ++ l.pool s.cfg s.opened.next false)).setIpos
    (s.opened.pos + l.bits s.cfg.sw)).leftAttached s.nextRef (BitVec.ofNat 16 s.opened.next)

theorem leftRead_apart (s : State) (l : CodeTree) : ReadApart s (s.leftRead l) :=
  ((((readApart_opened s).setNodes _).setIpos _).setNodes _).setStack _

theorem leftRead_pos {l : CodeTree} (hpos : s.opened.pos + l.bits s.cfg.sw < 2 ^ 64) :
    (s.leftRead l).pos = s.opened.pos + l.bits s.cfg.sw := by
  rw [State.leftRead, State.leftAttached, State.pos_eq, State.setStack_ipos, State.setNodes_ipos, State.setIpos_toNat _ hpos]

/-- The old records stand before the node's own, which stands before its left child's. -/
theorem leftRead_nodes (l : CodeTree) (hcap : s.nodes.length < 0xFFFE) :
    (s.leftRead l).nodes = s.nodes ++ { openRecord s.cfg with left := BitVec.ofNat 16 (s.nodes.length + 1) } ::
      l.pool s.cfg (s.nodes.length + 1) true := by
  have hr : s.nextRef.toNat = s.nodes.length + 0 := nextRef_toNat (by omega)
  have hq : (BitVec.ofNat 16 (s.nodes.length + 1)).toNat = s.nodes.length + 1 := toNat_ref (by omega)
  have hnodes : (s.leftRead l).nodes =
      ((s.nodes ++ [openRecord s.cfg] ++ l.pool s.cfg s.opened.next false).modify s.nextRef.toNat
        fun n => { n with left := BitVec.ofNat 16 s.opened.next }).modify (BitVec.ofNat 16 s.opened.next).toNat NodeRec.own := rfl
  rw [hnodes, State.next_eq, opened_nodes_length, List.append_assoc, hr, hq, modify_append_right, modify_append_right,
    ← CodeTree.modify_pool_own]
  rfl

/-- ReadNode, started in `s` on an internal marker, reads a child of the node from `w` on, where `bits` are left of port IN and
`n` records have been allocated; what stops it there stops the whole. -/
structure ReadsChild (fuel n : Nat) (bits : List Bit) (s w : State) : Prop where
  stops : ∀ e t, readNode fuel w = .error e t → readNode (fuel + 1) s = .error e t
  apart : ReadApart s w
  records_kept : s.nodes <+: w.nodes
  allocated : w.nodes.length = s.nodes.length + n
  consumed : w.pos + bits.length = s.input.length
  rest : s.input.drop w.pos = bits

theorem readsChild_left {bits : List Bit} (hw : s.hostQuiet = true) (hlen : s.input.length < 2 ^ 64)
    (hin : s.input.drop s.pos = false :: bits) (hroom : s.nodes.length < s.cfg.ncap) :
    ReadsChild fuel 1 bits s s.opened := by
  obtain ⟨hend, hpos, hrest⟩ := drop_marker hlen hin
  have hopened : s.opened.pos = s.pos + 1 := hpos
  exact ⟨fun _ _ => readNode_left_stops hw hin hroom, readApart_opened s, List.prefix_append _ _, opened_nodes_length s,
    by omega, hopened ▸ hrest⟩

/-- The right child is read once the left one's encoding is (spec/43_serialize.md R172, R173). -/
theorem readsChild_right {l : CodeTree} {bits : List Bit} (hw : s.hostQuiet = true) (hlen : s.input.length < 2 ^ 64)
    (hin : s.input.drop s.pos = false :: (l.enc s.cfg.sw ++ bits)) (hsym : ∀ x ∈ l.symbols, x ≤ s.cfg.eofsym)
    (hroom : s.nodes.length + 1 + l.size ≤ s.cfg.ncap) (hcap : s.cfg.ncap ≤ 0xFFFE) (hfuel : l.size ≤ fuel) :
    ∃ w, ReadsChild fuel (1 + l.size) bits s w := by
  obtain ⟨hend, hpos, hrest⟩ := drop_marker hlen hin
  have hopened : s.opened.pos = s.pos + 1 := hpos
  rw [List.length_append, CodeTree.enc_length] at hend
  have hread := readNode_enc (s := s.opened) (rest := bits) hw (hopened ▸ hrest) hsym
    (by rw [State.next_eq, opened_nodes_length]; exact hroom) hcap hfuel
    (show s.opened.pos + l.bits s.cfg.sw < 2 ^ 64 by omega)
  have hwpos := leftRead_pos (s := s) (l := l) (by omega)
  refine ⟨s.leftRead l, fun _ _ => readNode_right_stops hw hin (by omega) hread, leftRead_apart s l, ?records, ?allocated,
    by omega, ?rest⟩
  case records =>
    rw [leftRead_nodes l (by omega)]
    exact List.prefix_append _ _
  case allocated =>
    rw [leftRead_nodes l (by omega)]
    simp [Nat.add_comm]
  case rest =>
    rw [hwpos, hopened]
    exact drop_field (CodeTree.enc_length _ _) hrest

/-- What stops the reading of a child, with what the child's reading starts from, stops the whole. -/
theorem ReadsChild.stopped {n : Nat} {bits : List Bit} {w : State} (h : ReadsChild fuel n bits s w) (hw : s.hostQuiet = true)
    (hlen : s.input.length < 2 ^ 64)
    (hchild : w.cfg = s.cfg → w.hostQuiet = true → w.input.drop w.pos = bits → w.input.length < 2 ^ 64 →
      w.nodes.length = s.nodes.length + n → ∃ t, readNode fuel w = .error (.raised f) t ∧ ReadStopped f w t) :
    ∃ t, readNode (fuel + 1) s = .error (.raised f) t ∧ ReadStopped f s t := by
  have hinput := h.apart.input_eq
  obtain ⟨t, ht, hstop⟩ := hchild h.apart.cfg_eq (h.apart.hostQuiet_eq.trans hw) (hinput ▸ h.rest) (hinput ▸ hlen) h.allocated
  have hpos : w.pos ≤ w.input.length := by
    rw [hinput, ← h.consumed]
    exact Nat.le_add_right _ _
  exact ⟨t, h.stops _ _ ht, hstop.of_later h.apart h.records_kept hpos⟩

/-- ReadNode on a stream that stops it raises the fault, whatever the pool and the position it starts with. -/
theorem readNode_blocked {room : Nat} {bits : List Bit} (h : Blocked c f room bits) (hcfg : s.cfg = c)
    (hw : s.hostQuiet = true) (hin : s.input.drop s.pos = bits) (hlen : s.input.length < 2 ^ 64)
    (hroom : s.nodes.length + room = c.ncap) (hcap : c.ncap ≤ 0xFFFE) (hfuel : room ≤ fuel) :
    ∃ t, readNode (fuel + 1) s = .error (.raised f) t ∧ ReadStopped f s t := by
  induction h generalizing s fuel with
  | noMarker room =>
    have hend := List.drop_eq_nil_iff.mp hin
    exact ⟨s, readNode_noMarker hw hend, .refl s, List.prefix_rfl, nofun, fun _ hpos => ⟨hpos, by omega⟩⟩
  | noSymbol room hshort =>
    obtain ⟨hend, hpos, -⟩ := drop_marker hlen hin
    refine ⟨_, readNode_noSymbol hw hlen hin (hcfg ▸ hshort), (ReadApart.refl s).setIpos _, List.prefix_rfl, nofun, fun _ _ => ?_⟩
    rw [hpos, hcfg]
    omega
  | badSymbol room rest hbad hfit =>
    subst hcfg
    exact ⟨_, readNode_badSymbol hw hlen hin hbad hfit, (ReadApart.refl s).setIpos _, List.prefix_rfl, nofun, nofun⟩
  | noRoomForLeaf rest hsym =>
    subst hcfg
    exact ⟨_, readNode_noRoomForLeaf hw hlen hin hsym hroom.ge, (ReadApart.refl s).setIpos _, List.prefix_rfl,
      fun _ => hroom, nofun⟩
  | noRoomForNode rest =>
    subst hcfg
    exact ⟨_, readNode_noRoomForNode hw hin hroom.ge, (ReadApart.refl s).setIpos _, List.prefix_rfl, fun _ => hroom, nofun⟩
  | left h ih =>
    subst hcfg
    obtain ⟨fuel, rfl⟩ : ∃ k, fuel = k + 1 := ⟨fuel - 1, by omega⟩
    have hchild := readsChild_left (fuel := fuel + 1) hw hlen hin (by omega)
    exact hchild.stopped hw hlen fun hc hq hin' hlen' hn => ih hc hq hin' hlen' (by omega) (by omega)
  | right hsym h ih =>
    subst hcfg
    obtain ⟨fuel, rfl⟩ : ∃ k, fuel = k + 1 := ⟨fuel - 1, by omega⟩
    obtain ⟨w, hchild⟩ := readsChild_right (fuel := fuel + 1) hw hlen hin hsym (by omega) hcap (by omega)
    exact hchild.stopped hw hlen fun hc hq hin' hlen' hn => ih hc hq hin' hlen' (by omega) (by omega)

end Sys2Proof.Machine

end

section
/-!
PROOF. T_RECREATE (spec/43_serialize.md R172, R175), and its agreement with T_COUNT_BITS and T_WRITE (R173).
-/

namespace Sys2Proof.Machine

variable {s u : State} {T : CodeTree} {f : FaultCode} {rest : List Bit}

/-! ### ReadTree -/

/-- The state ReadTree leaves: the tree's records behind the old ones, its encoding consumed, its root the root
(spec/43_serialize.md R172). -/
def State.recreated (s : State) (T : CodeTree) : State :=
  ((s.setNodes (s.nodes ++ T.pool s.cfg s.nodes.length false)).setIpos (s.pos + T.bits s.cfg.sw)).setRoot s.nextRef

theorem CodeTree.bits_pos (sw : Nat) (t : CodeTree) : 0 < t.bits sw := by
  cases t <;> simp only [CodeTree.bits] <;> omega

/-- The end of an encoding on port IN is a position that IPOS can hold. -/
theorem pos_add_bits_lt (hlen : s.input.length < 2 ^ 64) (hin : s.input.drop s.pos = T.enc s.cfg.sw ++ rest) :
    s.pos + T.bits s.cfg.sw < 2 ^ 64 := by
  have h := congrArg List.length hin
  have hbits := T.bits_pos s.cfg.sw
  rw [List.length_drop, List.length_append, CodeTree.enc_length] at h
  omega

/-- ReadTree on a tree's encoding answers its size (spec/43_serialize.md R173). -/
theorem readTree_enc (hc : s.cfg.valid = true) (hw : s.hostQuiet = true) (hlen : s.input.length < 2 ^ 64)
    (hin : s.input.drop s.pos = T.enc s.cfg.sw ++ rest) (hsym : ∀ x ∈ T.symbols, x ≤ s.cfg.eofsym)
    (hroom : s.nodes.length + T.size ≤ s.cfg.ncap) : readTree s = .ok (T.bits s.cfg.sw) (s.recreated T) := by
  have hpos := pos_add_bits_lt hlen hin
  have hread := readNode_enc (fuel := s.cfg.ncap + 1) hw hin hsym hroom (Config.ncap_le hc) (by omega) hpos
  have hconsumed : (s.recreated T).pos - s.pos = T.bits s.cfg.sw := by
    rw [State.recreated, State.pos_eq, State.setRoot_ipos, State.setIpos_toNat _ hpos, Nat.add_sub_cancel_left]
  unfold readTree
  rw [get_bind_apply, bind_of_ok hread]
  refine change_then _ hw ?_
  rw [get_bind_apply]
  exact congrArg (EStateM.Result.ok · (s.recreated T)) hconsumed

/-- ReadTree on a stream that stops ReadNode stops with it. -/
theorem readTree_blocked (hc : s.cfg.valid = true) (hw : s.hostQuiet = true) (hfit : s.nodes.length ≤ s.cfg.ncap)
    (hlen : s.input.length < 2 ^ 64) (h : Blocked s.cfg f (s.cfg.ncap - s.nodes.length) (s.input.drop s.pos)) :
    ∃ t, readTree s = .error (.raised f) t ∧ ReadStopped f s t := by
  obtain ⟨t, ht, hstop⟩ := readNode_blocked h rfl hw rfl hlen (Nat.add_sub_cancel' hfit) (Config.ncap_le hc) (Nat.sub_le _ _)
  refine ⟨t, ?_, hstop⟩
  unfold readTree
  rw [get_bind_apply]
  exact bind_of_error ht

/-! ### T_RECREATE -/

theorem setWidth_nextRef (hcap : s.nodes.length ≤ 0xFFFE) : s.nextRef.setWidth 32 = BitVec.ofNat 32 s.nodes.length := by
  apply BitVec.eq_of_toNat_eq
  rw [BitVec.toNat_setWidth, nextRef_toNat hcap, BitVec.toNat_ofNat]

/-- The end of T_RECREATE (spec/43_serialize.md R172). -/
theorem setRes0_setRes1_doneUsed (v0 v1 : Word) (hw : s.hostQuiet = true) :
    (do change (·.setRes0 v0); change (·.setRes1 v1); doneUsed : Cmd Unit) s =
      .ok () ((((s.setRes0 v0).setRes1 v1).setDState .used).endWith .ok) :=
  change_then _ hw (change_then _ hw (doneUsed_quiet hw))

/-- T_RECREATE on a tree's encoding gives the root and the size, and ends (spec/43_serialize.md R172). -/
theorem execTRecreate_enc (hc : s.cfg.valid = true) (hw : s.hostQuiet = true) (hlen : s.input.length < 2 ^ 64)
    (hin : s.input.drop s.pos = T.enc s.cfg.sw ++ rest) (hsym : ∀ x ∈ T.symbols, x ≤ s.cfg.eofsym)
    (hroom : s.nodes.length + T.size ≤ s.cfg.ncap) :
    exec .tRecreate s = .next { s with
      nodes := s.nodes ++ T.pool s.cfg s.nodes.length false
      ipos := BitVec.ofNat 64 (s.pos + T.bits s.cfg.sw)
      rootRef := BitVec.ofNat 16 s.nodes.length
      res0 := BitVec.ofNat 32 s.nodes.length
      res1 := BitVec.ofNat 32 (T.bits s.cfg.sw)
      dstate := .used
      outcome := .ok
      busy := false } := by
  have hcap := Config.ncap_le hc
  have hquiet : (s.recreated T).hostQuiet = true := by simpa [State.recreated] using hw
  have hroot : (s.recreated T).rootRef.setWidth 32 = BitVec.ofNat 32 s.nodes.length := setWidth_nextRef (by omega)
  refine runCmd_ok hw ?_
  rw [bind_of_ok (readTree_enc hc hw hlen hin hsym hroom), get_bind_apply, hroot, setRes0_setRes1_doneUsed _ _ hquiet]
  simp only [State.recreated, State.setNodes, State.setIpos, State.setRoot, State.setRes0, State.setRes1, State.setDState,
    State.endWith, State.nextRef]

/-- T_RECREATE on a stream that stops ReadNode: ROOTREF, the old records, OLOG and DSTATE are as they were
(spec/43_serialize.md R172). -/
theorem execTRecreate_blocked (hc : s.cfg.valid = true) (hw : s.hostQuiet = true) (hfit : s.nodes.length ≤ s.cfg.ncap)
    (hlen : s.input.length < 2 ^ 64) (h : Blocked s.cfg f (s.cfg.ncap - s.nodes.length) (s.input.drop s.pos)) :
    ∃ t, exec .tRecreate s = .next (takeFault f t) ∧ ReadStopped f s t := by
  obtain ⟨t, ht, hstop⟩ := readTree_blocked hc hw hfit hlen h
  exact ⟨t, runCmd_raised hw (bind_of_error ht), hstop⟩

/-- Settles O41: the whole encoding is read; an encoding cut short, a bad symbol and a full pool are streams that stop ReadNode. -/
theorem recreateRebuildsTheTree : Obligations.RecreateRebuildsTheTree := by
  intro s T rest hc hw hfit hlen
  have hstops {f : FaultCode} (h : Blocked s.cfg f (s.cfg.ncap - s.nodes.length) (s.input.drop s.pos)) :=
    execTRecreate_blocked hc hw hfit hlen h
  refine ⟨fun hin hsym hroom => execTRecreate_enc hc hw hlen hin hsym hroom, fun k hin hk hsym hroom => ?cut,
    fun hin hbad hsymbits hroom => ?bad, fun hin hsym hfull => ?full⟩
  case cut =>
    obtain ⟨t, ht, hstop⟩ := hstops (hin ▸ blocked_of_cut hk hsym (by omega))
    exact ⟨t, ht, hstop.apart.rootRef_eq, hstop.records_kept, hstop.apart.olog_eq, hstop.apart.dstate_eq⟩
  case bad =>
    obtain ⟨t, ht, hstop⟩ := hstops (hin ▸ blocked_of_bad_symbol hbad hsymbits (by omega))
    exact ⟨t, ht, hstop.apart.rootRef_eq, hstop.records_kept, hstop.apart.olog_eq, hstop.apart.dstate_eq⟩
  case full =>
    obtain ⟨t, ht, hstop⟩ := hstops (hin ▸ blocked_of_full hsym (by omega))
    exact ⟨t, ht, hstop.apart.rootRef_eq, hstop.records_kept, hstop.pool_full rfl, hstop.apart.olog_eq, hstop.apart.dstate_eq⟩

/-! ### The three commands together -/

/-- The root ReadTree leaves stands for the tree that was read. -/
theorem recreated_tree? (hcap : s.nodes.length + T.size ≤ 0xFFFF) : (s.recreated T).tree? (s.recreated T).rootRef = some T := by
  have htree := CodeTree.treeAt_pool (t := T) (c := s.cfg) (o := false) s.nodes [] (fuel := s.nodes.length + T.size) rfl hcap
    (Nat.le_add_left _ _)
  rw [List.append_nil] at htree
  have hnext : (s.recreated T).next = s.nodes.length + T.size := by simp [State.recreated]
  rw [State.tree?, hnext]
  exact htree

/-- Settles O42: the bits are the tree's encoding, whose length T_COUNT_BITS gives and T_RECREATE consumes. -/
theorem countWriteAndRecreateAgree : Obligations.CountWriteAndRecreateAgree := by
  intro s T hc hw hfit hT hsym
  have hcap := Config.ncap_le hc
  refine ⟨T.enc s.cfg.sw, _, execTWrite_tree hw (by omega) hT, rfl, ?_, fun hroot => ?_, fun u rest hcfg hwu hlen hin hroom => ?_⟩
  · rw [CodeTree.enc_length]
    rfl
  · rw [← refOperand_eq] at hroot
    rw [CodeTree.enc_length]
    exact ⟨_, execTCountBits_tree hw (by omega) (hroot ▸ hT), rfl⟩
  · rw [← hcfg] at hc hin hsym hcap ⊢
    refine ⟨_, execTRecreate_enc hc hwu hlen hin hsym hroom, ?_, ?_⟩
    · rw [CodeTree.enc_length]
      exact State.setIpos_toNat u (pos_add_bits_lt hlen hin)
    · exact recreated_tree? (by omega)

end Sys2Proof.Machine

end

section
/-!
PROOF. DecodePayload and T_DECODE, with nothing to land inside them (spec/44_decode.md R190 to R195): the decoder goes down the
tree along the bits of port IN, and each leaf it comes to sends its symbol or ends the decode.
-/

namespace Sys2Proof.Machine

variable {s t : State} {T U l r : CodeTree} {p q rest : List Bit} {x fuel : Nat} {syms : List Nat}

/-! ### Subtrees by the bits that lead to them -/

/-- The subtree that a sequence of direction bits leads to (spec/44_decode.md R190). -/
def CodeTree.sub? : CodeTree → List Bit → Option CodeTree
  | T, [] => some T
  | .leaf _, _ :: _ => none
  | .node l r, b :: p => (if b then r else l).sub? p

@[simp] theorem CodeTree.sub?_nil (T : CodeTree) : T.sub? [] = some T := by
  cases T <;> rfl

@[simp] theorem CodeTree.sub?_node_cons (l r : CodeTree) (b : Bit) (p : List Bit) :
    (CodeTree.node l r).sub? (b :: p) = (if b then r else l).sub? p := rfl

/-- A symbol's path leads to a leaf of it. -/
theorem CodeTree.sub?_path (h : T.path x = some p) : T.sub? p = some (.leaf x) := by
  induction T generalizing p with
  | leaf y =>
    obtain ⟨rfl, rfl⟩ := path_leaf_eq_some h
    rfl
  | node l r ihl ihr =>
    obtain ⟨b, q, rfl, hq⟩ := path_node_eq_some h
    cases b with
    | false => exact ihl hq
    | true => exact ihr hq

/-- A path cut short leads to an internal node. -/
theorem CodeTree.sub?_path_take {k : Nat} (h : T.path x = some q) (hk : k < q.length) :
    ∃ a b, T.sub? (q.take k) = some (.node a b) := by
  induction k generalizing T q with
  | zero =>
    cases T with
    | leaf y =>
      obtain ⟨-, rfl⟩ := path_leaf_eq_some h
      cases hk
    | node l r => exact ⟨l, r, rfl⟩
  | succ k ih =>
    cases T with
    | leaf y =>
      obtain ⟨-, rfl⟩ := path_leaf_eq_some h
      cases hk
    | node l r =>
      obtain ⟨c, q, rfl, hq⟩ := path_node_eq_some h
      exact ih hq (Nat.lt_of_succ_lt_succ hk)

/-- Bits lead to a leaf on the way, or to an internal node at their end. -/
theorem CodeTree.sub?_leaf_or_node (T : CodeTree) (bits : List Bit) :
    (∃ p rest x, bits = p ++ rest ∧ T.sub? p = some (.leaf x)) ∨ ∃ a b, T.sub? bits = some (.node a b) := by
  induction bits generalizing T with
  | nil =>
    cases T with
    | leaf x => exact .inl ⟨[], [], x, rfl, rfl⟩
    | node l r => exact .inr ⟨l, r, rfl⟩
  | cons c bits ih =>
    cases T with
    | leaf x => exact .inl ⟨[], c :: bits, x, rfl, rfl⟩
    | node l r =>
      obtain ⟨p, rest, x, rfl, hp⟩ | ⟨a, b, hab⟩ := ih (if c then r else l)
      · exact .inl ⟨c :: p, rest, x, rfl, hp⟩
      · exact .inr ⟨a, b, hab⟩

/-- From an internal node no leaf is reached without a bit. -/
theorem CodeTree.sub?_leaf_ne_nil (h : (CodeTree.node l r).sub? p = some (.leaf x)) : p ≠ [] := by
  rintro rfl
  simp at h

/-- Every symbol of a tree has a path. -/
theorem CodeTree.exists_path_of_mem (h : x ∈ T.symbols) : ∃ p, T.path x = some p := by
  induction T with
  | leaf y =>
    obtain rfl := List.mem_singleton.mp h
    exact ⟨[], if_pos rfl⟩
  | node l r ihl ihr =>
    simp only [CodeTree.path]
    split
    · exact ⟨_, rfl⟩
    · exact ⟨_, rfl⟩
    · next hr hl =>
      obtain hx | hx := List.mem_append.mp h
      · obtain ⟨p, hp⟩ := ihl hx
        cases hl.symm.trans hp
      · obtain ⟨p, hp⟩ := ihr hx
        cases hr.symm.trans hp

/-! ### Codes -/

theorem codesOf_cons (h : T.path x = some p) (syms : List Nat) : codesOf T (x :: syms) = p ++ codesOf T syms := by
  simp [codesOf, h]

theorem codesOf_append (T : CodeTree) (xs ys : List Nat) : codesOf T (xs ++ ys) = codesOf T xs ++ codesOf T ys :=
  List.flatMap_append

theorem codesOf_singleton (h : T.path x = some p) : codesOf T [x] = p := by
  simp [codesOf, h]

/-- In a tree of one leaf the codes are empty. -/
theorem codesOf_leaf (x m : Nat) : codesOf (.leaf x) (List.replicate m x) = [] := by
  simp [codesOf, CodeTree.path]

theorem symbolBits_append (sw : Nat) (xs ys : List Nat) : symbolBits sw (xs ++ ys) = symbolBits sw xs ++ symbolBits sw ys :=
  List.flatMap_append

/-- With an internal root every symbol costs a bit at least (spec/44_decode.md R194). -/
theorem length_le_codesOf (h : ∀ y ∈ syms, y ∈ (CodeTree.node l r).symbols) :
    syms.length ≤ (codesOf (.node l r) syms).length := by
  induction syms with
  | nil => exact Nat.zero_le _
  | cons y syms ih =>
    obtain ⟨hy, hsyms⟩ := List.forall_mem_cons.mp h
    obtain ⟨p, hp⟩ := CodeTree.exists_path_of_mem hy
    have hpos := List.length_pos_iff.mpr (CodeTree.sub?_leaf_ne_nil (CodeTree.sub?_path hp))
    have hlen := ih hsyms
    rw [codesOf_cons hp, List.length_append, List.length_cons]
    omega

/-! ### The decoder's positions -/

/-- The decoder has gone down to `ref` along `k` bits (spec/44_decode.md R190). Irreducible, as `emitted` is: its fields are
read by the lemmas below, since comparing it with `s` by unfolding compares every field. -/
@[irreducible] def State.walked (s : State) (k : Nat) (ref : NodeRef) : State :=
  (s.setIpos (s.pos + k)).setDecode (some ref) s.decoded

/-- The decoder is back at the root, `k` bits on, and has sent `syms` (spec/44_decode.md R190). -/
@[irreducible] def State.emitted (s : State) (k : Nat) (syms : List Nat) : State :=
  ((s.setIpos (s.pos + k)).send (symbolBits s.cfg.sw syms)).setDecode (some s.rootRef) (s.decoded + syms.length)

section

variable (s : State) (k : Nat) (ref : NodeRef) (syms : List Nat)

@[simp] theorem walked_cfg : (s.walked k ref).cfg = s.cfg := by rw [State.walked]; rfl
@[simp] theorem walked_nodes : (s.walked k ref).nodes = s.nodes := by rw [State.walked]; rfl
@[simp] theorem walked_cursor : (s.walked k ref).cursor = some ref := by rw [State.walked]; rfl
@[simp] theorem walked_input : (s.walked k ref).input = s.input := by rw [State.walked]; rfl
@[simp] theorem walked_hostQuiet : (s.walked k ref).hostQuiet = s.hostQuiet := by rw [State.walked]; rfl

@[simp] theorem emitted_cfg : (s.emitted k syms).cfg = s.cfg := by rw [State.emitted]; rfl
@[simp] theorem emitted_busy : (s.emitted k syms).busy = s.busy := by rw [State.emitted]; rfl
@[simp] theorem emitted_fault : (s.emitted k syms).fault = s.fault := by rw [State.emitted]; rfl
@[simp] theorem emitted_nodes : (s.emitted k syms).nodes = s.nodes := by rw [State.emitted]; rfl
@[simp] theorem emitted_rootRef : (s.emitted k syms).rootRef = s.rootRef := by rw [State.emitted]; rfl
@[simp] theorem emitted_cursor : (s.emitted k syms).cursor = some s.rootRef := by rw [State.emitted]; rfl
@[simp] theorem emitted_input : (s.emitted k syms).input = s.input := by rw [State.emitted]; rfl
@[simp] theorem emitted_olog : (s.emitted k syms).olog = s.olog ++ symbolBits s.cfg.sw syms := by rw [State.emitted]; rfl
@[simp] theorem emitted_hostQuiet : (s.emitted k syms).hostQuiet = s.hostQuiet := by rw [State.emitted]; rfl

end

theorem setIpos_pos_self (s : State) : s.setIpos (s.pos + 0) = s := by
  simp [State.setIpos]

theorem walked_pos {k : Nat} (h : s.pos + k < 2 ^ 64) (ref : NodeRef) : (s.walked k ref).pos = s.pos + k := by
  rw [State.walked]
  exact s.setIpos_toNat h

theorem emitted_pos {k : Nat} (h : s.pos + k < 2 ^ 64) (syms : List Nat) : (s.emitted k syms).pos = s.pos + k := by
  rw [State.emitted]
  exact s.setIpos_toNat h

/-- What is left of port IN behind the bits the decoder has gone along. -/
theorem walked_drop (h : s.pos + p.length < 2 ^ 64) (hin : s.input.drop s.pos = p ++ rest) (ref : NodeRef) :
    (s.walked p.length ref).input.drop (s.walked p.length ref).pos = rest := by
  rw [walked_pos h, walked_input]
  exact drop_field rfl hin

theorem emitted_drop (h : s.pos + p.length < 2 ^ 64) (hin : s.input.drop s.pos = p ++ rest) (syms : List Nat) :
    (s.emitted p.length syms).input.drop (s.emitted p.length syms).pos = rest := by
  rw [emitted_pos h, emitted_input]
  exact drop_field rfl hin

theorem walked_zero {ref : NodeRef} (hc : s.cursor = some ref) : s.walked 0 ref = s := by
  rw [State.walked, setIpos_pos_self, ← hc]
  rfl

theorem walked_walked {j k : Nat} (h : s.pos + j < 2 ^ 64) (ref ref' : NodeRef) :
    (s.walked j ref).walked k ref' = s.walked (j + k) ref' := by
  rw [State.walked, walked_pos h, Nat.add_assoc]
  simp [State.walked, State.setIpos, State.setDecode]

theorem walked_emitted {j : Nat} (h : s.pos + j < 2 ^ 64) (ref : NodeRef) (syms : List Nat) :
    (s.walked j ref).emitted 0 syms = s.emitted j syms := by
  rw [State.emitted, walked_pos h]
  simp [State.walked, State.emitted, State.setIpos, State.send, State.setDecode]

theorem emitted_zero_ipos (s : State) (syms : List Nat) : (s.emitted 0 syms).ipos = s.ipos := by
  rw [State.emitted, setIpos_pos_self]
  rfl

theorem emitted_nil (hc : s.cursor = some s.rootRef) : s.emitted 0 [] = s := by
  rw [State.emitted, setIpos_pos_self, ← hc]
  simp [symbolBits, State.send, State.setDecode]

theorem emitted_emitted {j k : Nat} (h : s.pos + j < 2 ^ 64) (xs ys : List Nat) :
    (s.emitted j xs).emitted k ys = s.emitted (j + k) (xs ++ ys) := by
  rw [State.emitted, emitted_pos h, Nat.add_assoc]
  simp [State.emitted, State.setIpos, State.send, State.setDecode, symbolBits_append, Nat.add_assoc]

theorem emitted_walked {j k : Nat} (h : s.pos + j < 2 ^ 64) (syms : List Nat) (ref : NodeRef) :
    (s.emitted j syms).walked k ref = (s.emitted (j + k) syms).setDecode (some ref) (s.emitted (j + k) syms).decoded := by
  rw [State.walked, emitted_pos h, Nat.add_assoc]
  simp [State.emitted, State.setIpos, State.send, State.setDecode]

/-- The decoder stands at `ref`, which stands for the tree `T`, and nothing lands inside the command. -/
structure State.StandsAt (s : State) (ref : NodeRef) (T : CodeTree) : Prop where
  quiet : s.hostQuiet = true
  nodes_le : s.nodes.length ≤ 0xFFFE
  cursor_eq : s.cursor = some ref
  tree : ∃ depth, treeAt s.nodes depth ref = some T

namespace State.StandsAt

variable {ref : NodeRef}

/-- The record of a leaf the decoder stands at. -/
theorem leaf (h : s.StandsAt ref (.leaf x)) : ∃ n, s.nodes[ref.toNat]? = some n ∧ n.kind = .leaf ∧ n.sym = x := by
  obtain ⟨_ | depth, ht⟩ := h.tree
  · cases ht
  · obtain ⟨n, hn, ⟨hk, hx⟩ | ⟨_, _, _, _, _, hT⟩⟩ := treeAt_succ ht
    · exact ⟨n, hn, hk, (CodeTree.leaf.inj hx).symm⟩
    · cases hT

/-- The record of an internal node the decoder stands at, and its children. -/
theorem node (h : s.StandsAt ref (.node l r)) : ∃ n depth, s.nodes[ref.toNat]? = some n ∧ n.kind = .internal ∧
    treeAt s.nodes depth n.left = some l ∧ treeAt s.nodes depth n.right = some r := by
  obtain ⟨_ | depth, ht⟩ := h.tree
  · cases ht
  · obtain ⟨n, hn, ⟨_, hT⟩ | ⟨hk, a, b, ha, hb, hT⟩⟩ := treeAt_succ ht
    · cases hT
    · obtain ⟨rfl, rfl⟩ := CodeTree.node.inj hT
      exact ⟨n, depth, hn, hk, ha, hb⟩

/-- At the EOF leaf the loop ends. -/
theorem turns_eof (h : s.StandsAt ref (.leaf x)) (hx : x = s.cfg.eofsym) (fuel : Nat) :
    decodeTurns (fuel + 1) s = .ok true s := by
  obtain ⟨n, hn, hk, rfl⟩ := h.leaf
  exact decodeTurns_end (decodeTurn_eof h.quiet h.cursor_eq hn hk hx)

/-- At another leaf its symbol is sent. -/
theorem turns_leaf (h : s.StandsAt ref (.leaf x)) (hx : x ≠ s.cfg.eofsym) (fuel : Nat) :
    decodeTurns (fuel + 1) s = decodeTurns fuel (s.emitted 0 [x]) := by
  obtain ⟨n, hn, hk, rfl⟩ := h.leaf
  rw [decodeTurns_go (decodeTurn_leaf h.quiet h.cursor_eq hn hk hx), State.emitted, setIpos_pos_self]
  simp [symbolBits]

/-- At an internal node with no bit left the decode faults. -/
theorem turns_exhausted (h : s.StandsAt ref (.node l r)) (hl : s.input.length ≤ s.pos) (fuel : Nat) :
    decodeTurns (fuel + 1) s = .error (.raised .inputExhausted) s := by
  obtain ⟨n, depth, hn, hk, -, -⟩ := h.node
  exact bind_of_error (decodeTurn_exhausted h.quiet h.cursor_eq hn hk hl)

/-- At an internal node a bit leads to the child it selects. -/
theorem turns_child {b : Bit} (h : s.StandsAt ref (.node l r)) (hb : s.input[s.pos]? = some b) (fuel : Nat) :
    ∃ child, (s.walked 1 child).StandsAt child (if b then r else l) ∧
      decodeTurns (fuel + 1) s = decodeTurns fuel (s.walked 1 child) := by
  obtain ⟨n, depth, hn, hk, hleft, hright⟩ := h.node
  have hchild : treeAt s.nodes depth (if b then n.right else n.left) = some (if b then r else l) := by
    cases b with
    | false => exact hleft
    | true => exact hright
  have hne := treeAt_ne_nil (h.nodes_le.trans (by decide)) hchild
  refine ⟨_, ⟨by simpa using h.quiet, by simpa using h.nodes_le, walked_cursor s _ _, depth, by simpa using hchild⟩, ?_⟩
  rw [State.walked]
  exact decodeTurns_go (decodeTurn_child h.quiet h.cursor_eq hn hk hb hne)

/-- Bits that lead to a subtree bring the decoder to it, a turn a bit (spec/44_decode.md R190). -/
theorem turns_walk (h : s.StandsAt ref T) (hp : T.sub? p = some U) (hin : s.input.drop s.pos = p ++ rest)
    (hpos : s.pos + p.length < 2 ^ 64) (fuel : Nat) :
    ∃ ref', (s.walked p.length ref').StandsAt ref' U ∧
      decodeTurns (fuel + p.length) s = decodeTurns fuel (s.walked p.length ref') := by
  induction p generalizing s T ref with
  | nil =>
    obtain rfl := Option.some.inj (T.sub?_nil.symm.trans hp)
    rw [List.length_nil, Nat.add_zero]
    exact ⟨ref, (walked_zero h.cursor_eq).symm ▸ ⟨h, rfl⟩⟩
  | cons b p ih =>
    cases T with
    | leaf y => cases hp
    | node l r =>
      rw [List.length_cons] at hpos
      have hb : s.input[s.pos]? = some b := by
        rw [← Nat.add_zero s.pos, ← List.getElem?_drop, hin]
        rfl
      have hpos1 : s.pos + 1 < 2 ^ 64 := by omega
      obtain ⟨child, hchild, hturn⟩ := h.turns_child hb (fuel + p.length)
      obtain ⟨ref', href, hturns⟩ := ih hchild hp (walked_drop (p := [b]) hpos1 hin child) (by
        rw [walked_pos hpos1]
        omega)
      rw [walked_walked hpos1, Nat.add_comm 1] at href hturns
      exact ⟨ref', href, hturn.trans hturns⟩

/-! #### From the root -/

theorem emitted (h : s.StandsAt s.rootRef T) (k : Nat) (syms : List Nat) :
    (s.emitted k syms).StandsAt (s.emitted k syms).rootRef T :=
  ⟨by simpa using h.quiet, by simpa using h.nodes_le, by simp, by simpa using h.tree⟩

/-- The bits to a leaf of a symbol but EOFSYM send it (spec/44_decode.md R190). -/
theorem turns_symbol (h : s.StandsAt s.rootRef T) (hp : T.sub? p = some (.leaf x)) (hx : x ≠ s.cfg.eofsym)
    (hin : s.input.drop s.pos = p ++ rest) (hpos : s.pos + p.length < 2 ^ 64) (fuel : Nat) :
    decodeTurns (fuel + (p.length + 1)) s = decodeTurns fuel (s.emitted p.length [x]) := by
  obtain ⟨ref, href, hwalk⟩ := h.turns_walk hp hin hpos (fuel + 1)
  rw [← walked_emitted hpos ref, ← href.turns_leaf (by simpa using hx) fuel, ← hwalk, Nat.add_right_comm, Nat.add_assoc]

/-- The bits to a leaf of EOFSYM end the loop (spec/44_decode.md R190). -/
theorem turns_eofsym (h : s.StandsAt s.rootRef T) (hp : T.sub? p = some (.leaf x)) (hx : x = s.cfg.eofsym)
    (hin : s.input.drop s.pos = p ++ rest) (hpos : s.pos + p.length < 2 ^ 64) (fuel : Nat) :
    ∃ ref, decodeTurns (fuel + (p.length + 1)) s = .ok true (s.walked p.length ref) := by
  obtain ⟨ref, href, hwalk⟩ := h.turns_walk hp hin hpos (fuel + 1)
  refine ⟨ref, ?_⟩
  rw [← href.turns_eof (by simpa using hx) fuel, ← hwalk, Nat.add_right_comm, Nat.add_assoc]

/-- Bits that end before a leaf fault (spec/44_decode.md R192). -/
theorem turns_cut (h : s.StandsAt s.rootRef T) (hp : T.sub? p = some (.node l r)) (hin : s.input.drop s.pos = p)
    (hle : s.pos ≤ s.input.length) (hlen : s.input.length < 2 ^ 64) (fuel : Nat) :
    ∃ ref, decodeTurns (fuel + (p.length + 1)) s = .error (.raised .inputExhausted) (s.walked p.length ref) := by
  have hend : s.pos + p.length = s.input.length := by
    rw [← hin, List.length_drop]
    omega
  have hpos : s.pos + p.length < 2 ^ 64 := by omega
  obtain ⟨ref, href, hwalk⟩ := h.turns_walk hp (hin.trans (List.append_nil p).symm) hpos (fuel + 1)
  have hnone : (s.walked p.length ref).input.length ≤ (s.walked p.length ref).pos := by
    rw [walked_input, walked_pos hpos, hend]
  refine ⟨ref, ?_⟩
  rw [← href.turns_exhausted hnone fuel, ← hwalk, Nat.add_right_comm, Nat.add_assoc]

/-- The codes of symbols but EOFSYM send them, a turn a bit and a turn a symbol (spec/44_decode.md R195). -/
theorem turns_codes (h : s.StandsAt s.rootRef T) (hsyms : ∀ y ∈ syms, y ≠ s.cfg.eofsym ∧ y ∈ T.symbols)
    (hin : s.input.drop s.pos = codesOf T syms ++ rest) (hpos : s.pos + (codesOf T syms).length < 2 ^ 64) (fuel : Nat) :
    decodeTurns (fuel + ((codesOf T syms).length + syms.length)) s =
      decodeTurns fuel (s.emitted (codesOf T syms).length syms) := by
  induction syms generalizing s with
  | nil => exact congrArg (decodeTurns fuel) (emitted_nil h.cursor_eq).symm
  | cons y syms ih =>
    obtain ⟨⟨hy, hmem⟩, hrest⟩ := List.forall_mem_cons.mp hsyms
    obtain ⟨p, hp⟩ := CodeTree.exists_path_of_mem hmem
    rw [codesOf_cons hp] at hin hpos ⊢
    rw [List.length_append] at hpos ⊢
    have hposp : s.pos + p.length < 2 ^ 64 := by omega
    rw [List.append_assoc] at hin
    have hsymbol := h.turns_symbol (CodeTree.sub?_path hp) hy hin hposp (fuel + ((codesOf T syms).length + syms.length))
    have hcodes := ih (h.emitted p.length [y]) (by simpa using hrest) (emitted_drop hposp hin _) (by
      rw [emitted_pos hposp]
      omega)
    rw [emitted_emitted hposp] at hcodes
    rw [List.length_cons, ← List.singleton_append, ← hcodes, ← hsymbol]
    congr 1
    omega

end State.StandsAt

/-! ### T_DECODE -/

/-- The state that the end of a decode leaves (spec/44_decode.md R191, spec/45_driver.md R220). -/
def State.decodeEnded (s : State) (withRes0 : Bool) : State :=
  let t := s.setBitsWritten (BitVec.ofNat 64 (s.cfg.sw * s.decoded))
  (((if withRes0 then t.setRes0 (BitVec.ofNat 32 s.decoded) else t).setDecode none 0).setDState .used).endWith .ok

/-- The end of a decode clears the decoder's position. -/
theorem decodeEnded_setDecode (s : State) (withRes0 : Bool) (ref : Option NodeRef) :
    (s.setDecode ref s.decoded).decodeEnded withRes0 = s.decodeEnded withRes0 := by
  cases withRes0 <;> rfl

theorem takeFault_setDecode (s : State) (f : FaultCode) (ref : Option NodeRef) (m : Nat) :
    takeFault f (s.setDecode ref m) = takeFault f s := rfl

theorem decodeEnd_quiet (withRes0 : Bool) (hw : s.hostQuiet = true) : decodeEnd withRes0 s = .ok () (s.decodeEnded withRes0) := by
  unfold decodeEnd
  rw [get_bind_apply]
  refine change_then _ hw ?_
  cases withRes0 with
  | false => exact change_then _ hw (doneUsed_quiet hw)
  | true => exact change_then _ hw (change_then _ hw (doneUsed_quiet hw))

theorem decodeAndEnd_ended (withRes0 : Bool) (h : decodeTurns (decodeFuel s) s = .ok true t) (hw : t.hostQuiet = true) :
    decodeAndEnd withRes0 s = .ok () (t.decodeEnded withRes0) :=
  (bind_of_ok h).trans (decodeEnd_quiet withRes0 hw)

theorem decodeAndEnd_stopped {e : Stop} (withRes0 : Bool) (h : decodeTurns (decodeFuel s) s = .error e t) :
    decodeAndEnd withRes0 s = .error e t := bind_of_error h

theorem decodeAndEnd_goes_on (withRes0 : Bool) (h : decodeTurns (decodeFuel s) s = .ok false t) :
    decodeAndEnd withRes0 s = .ok () t := bind_of_ok h

/-- DecodePayload is entered: m <- 0, CUR <- ROOTREF (spec/44_decode.md R190). -/
def State.decodeStarted (s : State) : State := s.setDecode (some s.rootRef) 0

theorem decodeStarted_standsAt (hw : s.hostQuiet = true) (hns : s.nodes.length ≤ 0xFFFE) (hT : s.tree? s.rootRef = some T) :
    s.decodeStarted.StandsAt s.decodeStarted.rootRef T := ⟨hw, hns, rfl, _, hT⟩

theorem execTDecode_nil (hw : s.hostQuiet = true) (hr : s.rootRef = NIL) : exec .tDecode s = .next (takeFault .noTree s) := by
  refine runCmd_raised hw ?_
  rw [if_pos hr]
  exact raise_quiet _ hw

/-- T_DECODE with a root is a decode from it, and what follows it (spec/44_decode.md R191). -/
theorem execTDecode_root (hw : s.hostQuiet = true) (hr : s.rootRef ≠ NIL) :
    exec .tDecode s = settle (decodeAndEnd true s.decodeStarted) := by
  refine (runCmd_quiet _ hw).trans (congrArg settle ?_)
  rw [if_neg hr]
  exact change_then _ hw rfl

/-! ### The codes of a sequence of symbols -/

/-- What is left of port IN behind some bits of it. -/
theorem length_of_drop (hin : s.input.drop s.pos = p ++ rest) : s.input.length - s.pos = p.length + rest.length := by
  rw [← List.length_drop, hin, List.length_append]

/-- The end of some bits of port IN is a position that IPOS can hold. -/
theorem pos_add_length_lt (hlen : s.input.length < 2 ^ 64) (hin : s.input.drop s.pos = p ++ rest) :
    s.pos + p.length < 2 ^ 64 := by
  have hleft := length_of_drop hin
  have hpos := s.ipos.isLt
  simp only [State.pos_eq] at hleft ⊢
  omega

/-- A tree of natural symbols and EOFSYM codes each symbol in a bit at least: it is more than one leaf. -/
theorem length_le_codesOf_natural {eofsym : Nat} (hsyms : ∀ y ∈ syms, y < eofsym ∧ y ∈ T.symbols) (heof : eofsym ∈ T.symbols) :
    syms.length ≤ (codesOf T syms).length := by
  cases T with
  | node l r => exact length_le_codesOf fun y hy => (hsyms y hy).2
  | leaf z =>
    cases syms with
    | nil => exact Nat.zero_le _
    | cons y syms =>
      obtain ⟨hlt, hy⟩ := hsyms y List.mem_cons_self
      exact absurd hlt (List.mem_singleton.mp hy ▸ List.mem_singleton.mp heof ▸ Nat.lt_irrefl _)

/-- The turns the codes take leave turns enough for the bits behind them (spec/44_decode.md R194). -/
theorem decodeTurns_decodeFuel_codes {k : Nat} (h : s.StandsAt s.rootRef T) (hlen : s.input.length < 2 ^ 64)
    (hsyms : ∀ y ∈ syms, y < s.cfg.eofsym ∧ y ∈ T.symbols) (hcost : syms.length ≤ (codesOf T syms).length)
    (hin : s.input.drop s.pos = codesOf T syms ++ rest) (hk : k ≤ rest.length) :
    ∃ fuel, decodeTurns (decodeFuel s) s = decodeTurns (fuel + (k + 1)) (s.emitted (codesOf T syms).length syms) := by
  have hfuel : k + 1 + ((codesOf T syms).length + syms.length) ≤ decodeFuel s := by
    rw [decodeFuel, length_of_drop hin]
    omega
  refine ⟨decodeFuel s - (k + 1 + ((codesOf T syms).length + syms.length)), ?_⟩
  rw [← h.turns_codes (fun y hy => ⟨(hsyms y hy).1.ne, (hsyms y hy).2⟩) hin (pos_add_length_lt hlen hin), Nat.add_assoc,
    Nat.sub_add_cancel hfuel]

/-- A decode of the codes of natural symbols and EOFSYM sends the symbols and ends (spec/44_decode.md R195). -/
theorem decodeAndEnd_codes (withRes0 : Bool) (h : s.StandsAt s.rootRef T) (hlen : s.input.length < 2 ^ 64)
    (hsyms : ∀ y ∈ syms, y < s.cfg.eofsym ∧ y ∈ T.symbols) (heof : s.cfg.eofsym ∈ T.symbols)
    (hin : s.input.drop s.pos = codesOf T (syms ++ [s.cfg.eofsym]) ++ rest) :
    decodeAndEnd withRes0 s =
      .ok () ((s.emitted (codesOf T (syms ++ [s.cfg.eofsym])).length syms).decodeEnded withRes0) := by
  obtain ⟨p, hp⟩ := CodeTree.exists_path_of_mem heof
  rw [codesOf_append, codesOf_singleton hp] at hin ⊢
  have hposend := pos_add_length_lt hlen hin
  rw [List.append_assoc] at hin
  have hpos := pos_add_length_lt hlen hin
  have hineof := emitted_drop hpos hin syms
  have hposeof : (s.emitted (codesOf T syms).length syms).pos + p.length < 2 ^ 64 := by
    rwa [emitted_pos hpos, Nat.add_assoc, ← List.length_append]
  have hcost := length_le_codesOf_natural hsyms heof
  obtain ⟨fuel, hturns⟩ := decodeTurns_decodeFuel_codes (k := p.length) h hlen hsyms hcost hin (by simp)
  obtain ⟨ref, hend⟩ := (h.emitted _ syms).turns_eofsym (CodeTree.sub?_path hp) (by rw [emitted_cfg]) hineof hposeof fuel
  rw [decodeAndEnd_ended withRes0 (hturns.trans hend) (by simpa using h.quiet), emitted_walked hpos, decodeEnded_setDecode,
    List.length_append]

/-- A decode of codes cut short sends the symbols before the cut and stops at the end of port IN (spec/44_decode.md R192). -/
theorem decodeAndEnd_cut {k : Nat} (withRes0 : Bool) (h : s.StandsAt s.rootRef (.node l r)) (hle : s.pos ≤ s.input.length)
    (hlen : s.input.length < 2 ^ 64) (hsyms : ∀ y ∈ syms, y < s.cfg.eofsym ∧ y ∈ (CodeTree.node l r).symbols)
    (hq : (CodeTree.node l r).path x = some q) (hk : k < q.length)
    (hin : s.input.drop s.pos = codesOf (.node l r) syms ++ q.take k) :
    ∃ ref m, decodeAndEnd withRes0 s = .error (.raised .inputExhausted)
      ((s.emitted (s.input.length - s.pos) syms).setDecode ref m) := by
  obtain ⟨a, b, hab⟩ := CodeTree.sub?_path_take hq hk
  have hpos := pos_add_length_lt hlen hin
  have hleft := length_of_drop hin
  have hlecut : (s.emitted (codesOf (.node l r) syms).length syms).pos ≤
      (s.emitted (codesOf (.node l r) syms).length syms).input.length := by
    rw [emitted_pos hpos, emitted_input]
    omega
  have hcost := length_le_codesOf fun y hy => (hsyms y hy).2
  obtain ⟨fuel, hturns⟩ := decodeTurns_decodeFuel_codes h hlen hsyms hcost hin (Nat.le_refl _)
  obtain ⟨ref, hcut⟩ := (h.emitted _ syms).turns_cut hab (emitted_drop hpos hin syms) hlecut (by simpa using hlen) fuel
  rw [decodeAndEnd_stopped withRes0 (hturns.trans hcut), emitted_walked hpos, hleft]
  exact ⟨_, _, rfl⟩

theorem decodeEnded_emitted (s : State) (k : Nat) (syms : List Nat) :
    (s.decodeStarted.emitted k syms).decodeEnded true = { s with
      ipos := BitVec.ofNat 64 (s.pos + k)
      olog := s.olog ++ symbolBits s.cfg.sw syms
      bitsWritten := BitVec.ofNat 64 (s.cfg.sw * syms.length)
      res0 := BitVec.ofNat 32 syms.length
      cursor := none
      decoded := 0
      dstate := .used
      outcome := .ok
      busy := false } := by
  simp [State.decodeEnded, State.emitted, State.decodeStarted, State.setIpos, State.send, State.setDecode,
    State.setBitsWritten, State.setRes0, State.setDState, State.endWith]

/-- Settles O43: T_DECODE is a decode from the root, which the codes end. -/
theorem decodeInvertsTheCodes : Obligations.DecodeInvertsTheCodes := by
  intro s T syms rest hw hns hlen hT hsyms heof hin
  rw [execTDecode_root hw (treeAt_ne_nil (hns.trans (by decide)) hT),
    decodeAndEnd_codes true (decodeStarted_standsAt hw hns hT) hlen hsyms heof hin, settle_ok, decodeEnded_emitted]
  rfl

/-! ### Where a decode faults -/

/-- At an internal node a bit that selects an absent child faults, the bit consumed (spec/44_decode.md R190). -/
theorem decodeTurn_nullChild {ref : NodeRef} {n : NodeRec} {b : Bit} (hw : s.hostQuiet = true) (hc : s.cursor = some ref)
    (hn : s.nodes[ref.toNat]? = some n) (hk : n.kind = .internal) (hb : s.input[s.pos]? = some b)
    (hchild : (if b then n.right else n.left) = NIL) :
    decodeTurn s = .error (.raised .nullChild) (s.setIpos (s.pos + 1)) := by
  obtain ⟨hlt, hget⟩ := List.getElem?_eq_some_iff.mp hb
  have hread : inRead 1 s = .ok (some (ofBits [b])) (s.setIpos (s.pos + 1)) :=
    inRead_field hw Nat.one_pos rfl (hget ▸ List.drop_eq_getElem_cons hlt)
  have hnil : (if ofBits [b] = 0 then n.left else n.right) = NIL := by
    cases b with
    | false => exact hchild
    | true => exact hchild
  unfold decodeTurn
  rw [bind_of_ok (point_quiet hw)]
  simp only [get_bind_apply, hc]
  rw [bind_of_ok (nodeRead_some hn)]
  simp only [hk]
  rw [bind_of_ok hread]
  simp only [hnil, if_true]
  exact raise_quiet _ hw

theorem takeFault_emitted (s : State) (f : FaultCode) (k : Nat) (syms : List Nat) :
    takeFault f (s.decodeStarted.emitted k syms) = takeFault f { s with
      ipos := BitVec.ofNat 64 (s.pos + k)
      olog := s.olog ++ symbolBits s.cfg.sw syms } := by
  simp [takeFault, State.emitted, State.decodeStarted, State.setIpos, State.send, State.setDecode]

/-- Settles O44: the check of the root, codes cut short, and an absent child at the first turn. -/
theorem decodeFaults : Obligations.DecodeFaults := by
  intro s hw hns
  refine ⟨execTDecode_nil hw, fun l r syms x q k hT hsyms hq hk hin hle hlen => ?cut, fun n b hr hn hk hb hchild => ?null⟩
  case cut =>
    obtain ⟨ref, m, hstop⟩ := decodeAndEnd_cut true (decodeStarted_standsAt hw hns hT) hle hlen hsyms hq hk hin
    have hend : s.pos + (s.decodeStarted.input.length - s.decodeStarted.pos) = s.input.length := Nat.add_sub_of_le hle
    rw [execTDecode_root hw (treeAt_ne_nil (hns.trans (by decide)) hT), hstop, settle_raised, takeFault_setDecode,
      takeFault_emitted, hend]
  case null =>
    have hturn : decodeTurn s.decodeStarted = _ := decodeTurn_nullChild hw rfl hn hk hb hchild
    rw [execTDecode_root hw hr, decodeAndEnd_stopped true (bind_of_error hturn), settle_raised]
    rfl

/-! ### A decode from an internal root ends -/

/-- The decoder changes IPOS, OLOG, its position and its count only. -/
def DecodeApart (s t : State) : Prop :=
  t = { s with ipos := t.ipos, olog := t.olog, cursor := t.cursor, decoded := t.decoded }

theorem decodeApart_walked (s : State) (k : Nat) (ref : NodeRef) : DecodeApart s (s.walked k ref) := by
  rw [State.walked]
  rfl

theorem decodeApart_emitted (s : State) (k : Nat) (syms : List Nat) : DecodeApart s (s.emitted k syms) := by
  rw [State.emitted]
  rfl

theorem DecodeApart.trans {u : State} (h : DecodeApart s t) (h' : DecodeApart t u) : DecodeApart s u := by
  unfold DecodeApart at *
  rw [h', h]

theorem DecodeApart.fault_eq (h : DecodeApart s t) : t.fault = s.fault := by rw [h]

theorem DecodeApart.hostQuiet_eq (h : DecodeApart s t) : t.hostQuiet = s.hostQuiet := by
  rw [h]
  rfl

/-- The loop has ended, or port IN has. -/
structure DecodeReturns (s : State) (fuel : Nat) (t : State) : Prop where
  returns : decodeTurns fuel s = .ok true t ∨ decodeTurns fuel s = .error (.raised .inputExhausted) t
  apart : DecodeApart s t
  pos_ge : s.pos ≤ t.pos
  pos_le : t.pos ≤ s.input.length

/-- From an internal root the loop ends within twice the bits left: each symbol costs a bit at least
(spec/44_decode.md R194). -/
theorem decodeTurns_returns (h : s.StandsAt s.rootRef (.node l r)) (hle : s.pos ≤ s.input.length)
    (hlen : s.input.length < 2 ^ 64) (hfuel : 2 * (s.input.length - s.pos) < fuel) : ∃ t, DecodeReturns s fuel t := by
  induction fuel using Nat.strong_induction_on generalizing s with
  | _ fuel ih =>
    obtain ⟨p, rest, x, hin, hp⟩ | ⟨a, b, hp⟩ := (CodeTree.node l r).sub?_leaf_or_node (s.input.drop s.pos)
    · have hpos := pos_add_length_lt hlen hin
      have hleft := length_of_drop hin
      have hcost := List.length_pos_iff.mpr (CodeTree.sub?_leaf_ne_nil hp)
      obtain ⟨fuel, rfl⟩ := Nat.exists_eq_add_of_le' (show p.length + 1 ≤ fuel by omega)
      by_cases hx : x = s.cfg.eofsym
      · obtain ⟨ref, hend⟩ := h.turns_eofsym hp hx hin hpos fuel
        have hposr := walked_pos hpos ref
        exact ⟨_, .inl hend, decodeApart_walked _ _ _, by omega, by omega⟩
      · have hpose := emitted_pos hpos [x]
        have hine := emitted_input s p.length [x]
        obtain ⟨t, hreturns, hapart, hge, hle'⟩ := ih fuel (by omega) (h.emitted p.length [x])
          (by rw [hpose, hine]; omega) (by rwa [hine]) (by rw [hpose, hine]; omega)
        rw [hpose] at hge
        rw [hine] at hle'
        refine ⟨t, ?_, (decodeApart_emitted _ _ _).trans hapart, by omega, hle'⟩
        rwa [h.turns_symbol hp hx hin hpos]
    · have hleft : (s.input.drop s.pos).length = s.input.length - s.pos := List.length_drop
      have hpos : s.pos + (s.input.drop s.pos).length < 2 ^ 64 := by omega
      obtain ⟨fuel, rfl⟩ := Nat.exists_eq_add_of_le' (show (s.input.drop s.pos).length + 1 ≤ fuel by omega)
      obtain ⟨ref, hstop⟩ := h.turns_cut hp rfl hle hlen fuel
      have hposr := walked_pos hpos ref
      exact ⟨_, .inr hstop, decodeApart_walked _ _ _, by omega, by omega⟩

/-- Settles O45: the loop that T_DECODE enters ends, or faults with INPUT_EXHAUSTED, before the turns it is given are used up. -/
theorem decodeFromAnInternalRootEnds : Obligations.DecodeFromAnInternalRootEnds := by
  intro s l r hw hns hle hlen hT
  obtain ⟨t, hreturns, hapart, hge, hle'⟩ := decodeTurns_returns (decodeStarted_standsAt hw hns hT) hle hlen
    (fuel := decodeFuel s.decodeStarted) (Nat.lt_succ_self _)
  have hfault : t.fault = s.fault := hapart.fault_eq
  rw [execTDecode_root hw (treeAt_ne_nil (hns.trans (by decide)) hT)]
  obtain hend | hstop := hreturns
  · have hwt : t.hostQuiet = true := hapart.hostQuiet_eq.trans hw
    rw [decodeAndEnd_ended true hend hwt]
    exact ⟨_, rfl, rfl, hge, hle', .inl ⟨rfl, hfault⟩⟩
  · rw [decodeAndEnd_stopped true hstop]
    exact ⟨_, rfl, rfl, hge, hle', .inr ⟨rfl, rfl⟩⟩

/-! ### A decode from a natural leaf never ends -/

/-- From a root that is a leaf of a symbol but EOFSYM each turn sends the symbol and consumes no bit (spec/44_decode.md R193). -/
theorem decodeTurns_leaf (h : s.StandsAt s.rootRef (.leaf x)) (hx : x ≠ s.cfg.eofsym) (m : Nat) :
    decodeTurns m s = .ok false (s.emitted 0 (List.replicate m x)) := by
  have hcodes := codesOf_leaf x m
  have hturns := h.turns_codes (syms := List.replicate m x) (rest := s.input.drop s.pos) (fuel := 0)
    (fun y hy => (List.eq_of_mem_replicate hy).symm ▸ ⟨hx, List.mem_singleton_self x⟩) (by rw [hcodes]; rfl)
    (by rw [hcodes]; exact s.ipos.isLt)
  rwa [hcodes, List.length_nil, List.length_replicate, Nat.zero_add, Nat.zero_add] at hturns

/-- The core goes on with such a decode (spec/44_decode.md R193). -/
theorem step_decodeLeaf (h : s.StandsAt s.rootRef (.leaf x)) (hx : x ≠ s.cfg.eofsym) (hb : s.busy = true) :
    step s = .next (s.emitted 0 (List.replicate (decodeFuel s) x)) := by
  rw [step_busy hb]
  exact runCmd_ok h.quiet (decodeAndEnd_goes_on _ (decodeTurns_leaf h hx _))

theorem run_succ (M : Host.Core) {s t : M.State} (n : Nat) (h : M.step s = .next t) : M.run (n + 1) s = M.run n t := by
  rw [Host.Core.run, h]

/-- However many steps the core makes, it has only sent the symbol again, once a step at least (spec/44_decode.md R193). -/
theorem run_decodeLeaf (h : s.StandsAt s.rootRef (.leaf x)) (hx : x ≠ s.cfg.eofsym) (hb : s.busy = true) (n : Nat) :
    ∃ m, n ≤ m ∧ Host.Core.run core n s = .next (s.emitted 0 (List.replicate m x)) := by
  induction n generalizing s with
  | zero => exact ⟨0, Nat.le_refl _, congrArg Host.Outcome.next (emitted_nil h.cursor_eq).symm⟩
  | succ n ih =>
    obtain ⟨m, hm, hrun⟩ := ih (h.emitted 0 (List.replicate (decodeFuel s) x)) (by simpa using hx) (by simpa using hb)
    rw [emitted_emitted s.ipos.isLt, ← List.replicate_add] at hrun
    have hfuel : 1 ≤ decodeFuel s := Nat.le_add_left _ _
    exact ⟨decodeFuel s + m, by omega, (run_succ core n (step_decodeLeaf h hx hb)).trans hrun⟩

/-- Settles O46: T_DECODE uses up its turns at the leaf, and every further step does. -/
theorem degenerateDecodeNeverEnds : Obligations.DegenerateDecodeNeverEnds := by
  intro s sym hb hw hns hT hsym
  have h := decodeStarted_standsAt hw hns hT
  have hexec := (execTDecode_root hw (treeAt_ne_nil (hns.trans (by decide)) hT)).trans
    (congrArg settle (decodeAndEnd_goes_on true (decodeTurns_leaf h hsym _)))
  have hbusy (k : Nat) (syms : List Nat) : (s.decodeStarted.emitted k syms).busy = true := (emitted_busy _ _ _).trans hb
  refine ⟨_, hexec, hbusy _ _, fun n => ?_⟩
  obtain ⟨m, hm, hrun⟩ := run_decodeLeaf (h.emitted 0 (List.replicate (decodeFuel s.decodeStarted) sym))
    (by rwa [emitted_cfg]) (hbusy _ _) n
  rw [emitted_emitted s.ipos.isLt, ← List.replicate_add] at hrun
  have hfuel : 1 ≤ decodeFuel s.decodeStarted := Nat.le_add_left _ _
  refine ⟨_, hrun, hbusy _ _, emitted_fault _ _ _, emitted_zero_ipos _ _, _, by omega, emitted_olog _ _ _⟩

end Sys2Proof.Machine

end

section
/-!
PROOF. The small Driver commands: FREQ_READ and IN_REWIND (spec/45_driver.md R224, R225).
-/

namespace Sys2Proof.Machine

variable {s : State}

theorem freqAt_of_getElem? {sym n : Nat} (h : s.freq[sym]? = some n) : s.freqAt sym = n := by
  rw [State.freqAt, List.getD_eq_getElem?_getD, h, Option.getD_some]

/-- Settles O58: the operand's fault, and the count of a symbol in RES0. -/
theorem freqReadGivesTheCount : Obligations.FreqReadGivesTheCount := by
  intro s n hw
  rw [← symOperand_eq]
  refine ⟨runCmd_takeSymbol_bad hw, fun hsym hn => runCmd_ok hw ?_⟩
  rw [bind_of_ok (takeSymbol_ok hsym), freqAt_of_getElem? hn]
  exact setRes0_done _ hw

/-- Settles O59: InRewind, then the end of a state-changing command. -/
theorem inRewindRestartsPortIn : Obligations.InRewindRestartsPortIn :=
  fun _ hw => runCmd_ok hw (change_then _ hw (doneUsed_quiet hw))

end Sys2Proof.Machine

end

section
/-!
PROOF. Streams as sequences of fields: a bit sequence is its symbols and a tail too short for one, and the fields of a port
read where they stand (spec/20_memory.md R74, spec/45_driver.md R211).
-/

namespace Sys2Proof.Machine

variable {s : State} {bits tail rest : List Bit} {syms : List Nat} {n k w x : Nat}

/-! ### Fields -/

/-- What `ofBits` reads, `toBits` writes back. -/
theorem toBits_ofBits (bits : List Bit) : toBits bits.length (ofBits bits) = bits := by
  refine List.ext_getElem (toBits_length _ _) fun j _ hj => ?_
  have hbit := getElem?_eq_testBit_ofBits hj
  rw [List.getElem?_eq_getElem hj] at hbit
  simp only [toBits_eq_map, List.getElem_map, List.getElem_range]
  exact (Option.some.inj hbit).symm

/-- A bit sequence of at least `n` bits starts with a field of `n` bits. -/
theorem exists_field (h : n ≤ bits.length) : ∃ v rest, v < 2 ^ n ∧ bits = toBits n v ++ rest := by
  have hlen : (bits.take n).length = n := List.length_take_of_le h
  have hfield := toBits_ofBits (bits.take n)
  rw [hlen] at hfield
  refine ⟨ofBits (bits.take n), bits.drop n, (ofBits_lt _).trans_eq (congrArg _ hlen), ?_⟩
  rw [hfield, List.take_append_drop]

/-- Reading the field that port IN holds at a position. -/
theorem inRead_toBits {v : Nat} (hw : s.hostQuiet = true) (hn : 0 < n) (hv : v < 2 ^ n)
    (hin : s.input.drop s.pos = toBits n v ++ rest) : inRead n s = .ok (some v) (s.setIpos (s.pos + n)) := by
  rw [inRead_field hw hn (toBits_length _ _) hin, ofBits_toBits, Nat.mod_eq_of_lt hv]

/-- No field of `n` bits is left. -/
theorem inRead_tail (hw : s.hostQuiet = true) (hin : s.input.drop s.pos = tail) (htail : tail.length < n) :
    inRead n s = .ok none s := by
  have hleft := congrArg List.length hin
  rw [List.length_drop] at hleft
  exact inRead_eof hw (by omega)

/-! ### Symbols -/

theorem symbolBits_cons (w x : Nat) (syms : List Nat) : symbolBits w (x :: syms) = toBits w x ++ symbolBits w syms := rfl

@[simp] theorem symbolBits_length (w : Nat) (syms : List Nat) : (symbolBits w syms).length = syms.length * w := by
  induction syms with
  | nil => simp [symbolBits]
  | cons x syms ih => rw [symbolBits_cons, List.length_append, toBits_length, ih, List.length_cons, Nat.succ_mul, Nat.add_comm]

/-- Enough turns split a bit sequence into symbols and a tail (spec/45_driver.md R211). -/
theorem symbolsN_split (hw : 0 < w) (h : bits.length ≤ k) :
    ∃ tail, bits = symbolBits w (symbolsN w k bits) ++ tail ∧ tail.length < w ∧ ∀ x ∈ symbolsN w k bits, x < 2 ^ w := by
  induction k generalizing bits with
  | zero =>
    obtain rfl := List.eq_nil_of_length_eq_zero (Nat.le_zero.mp h)
    exact ⟨[], rfl, hw, nofun⟩
  | succ k ih =>
    rw [symbolsN]
    split
    · next hshort => exact ⟨bits, rfl, hshort, nofun⟩
    · next hlong =>
      have hlen : (bits.take w).length = w := List.length_take_of_le (Nat.not_lt.mp hlong)
      have hfield := toBits_ofBits (bits.take w)
      rw [hlen] at hfield
      obtain ⟨tail, hsplit, htail, hlt⟩ := ih (bits := bits.drop w) (by rw [List.length_drop]; omega)
      refine ⟨tail, ?_, htail, List.forall_mem_cons.mpr ⟨(ofBits_lt _).trans_eq (congrArg _ hlen), hlt⟩⟩
      rw [symbolBits_cons, hfield, List.append_assoc, ← hsplit, List.take_append_drop]

/-- A bit sequence is its symbols and a tail too short for one. -/
theorem symbolsOf_split (hw : 0 < w) (bits : List Bit) :
    ∃ tail, bits = symbolBits w (symbolsOf w bits) ++ tail ∧ tail.length < w ∧ ∀ x ∈ symbolsOf w bits, x < 2 ^ w :=
  symbolsN_split hw le_rfl

theorem symbolsOf_lt (hw : 0 < w) (h : x ∈ symbolsOf w bits) : x < 2 ^ w := by
  obtain ⟨-, -, -, hlt⟩ := symbolsOf_split hw bits
  exact hlt x h

theorem symbolsOf_length (hw : 0 < w) (bits : List Bit) : (symbolsOf w bits).length = bits.length / w := by
  obtain ⟨tail, hsplit, htail, -⟩ := symbolsOf_split hw bits
  have hlen := congrArg List.length hsplit
  rw [List.length_append, symbolBits_length] at hlen
  rw [hlen, Nat.add_comm, Nat.add_mul_div_right _ _ hw, Nat.div_eq_of_lt htail, Nat.zero_add]

/-- A sequence of whole symbols is its symbols (spec/45_driver.md R223). -/
theorem symbolBits_symbolsOf (hw : 0 < w) (h : bits.length % w = 0) : symbolBits w (symbolsOf w bits) = bits := by
  obtain ⟨tail, hsplit, htail, -⟩ := symbolsOf_split hw bits
  have hlen := congrArg List.length hsplit
  rw [List.length_append, symbolBits_length] at hlen
  rw [hlen, Nat.mul_comm, Nat.mul_add_mod, Nat.mod_eq_of_lt htail] at h
  rw [List.eq_nil_of_length_eq_zero h, List.append_nil] at hsplit
  exact hsplit.symm

theorem symbolsN_symbolBits (hw : 0 < w) (h : ∀ x ∈ syms, x < 2 ^ w) (hk : syms.length ≤ k) :
    symbolsN w k (symbolBits w syms) = syms := by
  induction syms generalizing k with
  | nil => cases k <;> simp [symbolsN, symbolBits, hw]
  | cons x syms ih =>
    obtain ⟨hx, hxs⟩ := List.forall_mem_cons.mp h
    obtain ⟨k, rfl⟩ := Nat.exists_eq_add_of_le' (Nat.one_le_of_lt hk)
    have hlong : ¬ (toBits w x ++ symbolBits w syms).length < w := by simp
    have hlen : (toBits w x).length = w := toBits_length w x
    rw [symbolBits_cons, symbolsN, if_neg hlong, List.take_left' hlen, List.drop_left' hlen, ofBits_toBits,
      Nat.mod_eq_of_lt hx, ih hxs (by simpa using hk)]

/-- The symbols of a sequence of symbols. -/
theorem symbolsOf_symbolBits (hw : 0 < w) (h : ∀ x ∈ syms, x < 2 ^ w) : symbolsOf w (symbolBits w syms) = syms := by
  refine symbolsN_symbolBits hw h ?_
  rw [symbolBits_length]
  exact Nat.le_mul_of_pos_right _ hw

end Sys2Proof.Machine

end

section
/-!
PROOF. The tree of a frequency table (spec/41_tree_build.md R143): what leaves it is made of, and that BuildFromFreq builds it.
-/

namespace Sys2Proof

theorem Config.room_for_leaves {c : Config} (h : c.valid = true) : 2 * c.alph + 1 ≤ c.ncap := by
  simp only [Config.valid, Bool.and_eq_true, decide_eq_true_eq] at h
  have hncap : 2 ^ (c.sw + 1) + 1 ≤ c.ncap := by omega
  rwa [Nat.pow_succ, Nat.mul_comm] at hncap

end Sys2Proof

namespace Sys2Proof.Machine

variable {s t : State} {c : Config} {T : CodeTree} {ws : List (Nat × CodeTree)} {freq : List Nat} {r : NodeRef}
  {f k n sym x : Nat}

/-! ### Merging weighted trees -/

theorem insertW_perm (f : Nat) (T : CodeTree) (ws : List (Nat × CodeTree)) : (insertW f T ws).Perm ((f, T) :: ws) := by
  induction ws with
  | nil => exact .refl _
  | cons w ws ih =>
    obtain ⟨g, U⟩ := w
    rw [insertW]
    split
    · exact .refl _
    · exact (ih.cons _).trans (.swap _ _ _)

/-- Merging starts with one tree, or takes a combine step and goes on (spec/41_tree_build.md R140). -/
theorem mergeW_cases (h : mergeW k ws = some T) :
    (∃ f, ws = [(f, T)]) ∨ ∃ j f g A B q, k = j + 1 ∧ ws = (f, A) :: (g, B) :: q ∧
      mergeW j (insertW (f + g) (.node A B) q) = some T := by
  unfold mergeW at h
  split at h
  · next f U => exact .inl ⟨f, by rw [Option.some.inj h]⟩
  · next j f A g B q => exact .inr ⟨j, f, g, A, B, q, rfl, rfl, h⟩
  · cases h

/-- The symbols of the merged tree are those of the trees. -/
theorem mem_symbols_of_mergeW (h : mergeW k ws = some T) : x ∈ T.symbols ↔ ∃ w ∈ ws, x ∈ w.2.symbols := by
  induction k generalizing ws with
  | zero =>
    obtain ⟨f, rfl⟩ | ⟨j, -, -, -, -, -, hj, -⟩ := mergeW_cases h
    · simp
    · cases hj
  | succ k ih =>
    obtain ⟨f, rfl⟩ | ⟨j, f, g, A, B, q, hj, rfl, hmerge⟩ := mergeW_cases h
    · simp
    · obtain rfl := Nat.succ.inj hj
      rw [ih hmerge]
      simp only [(insertW_perm _ _ _).mem_iff, List.exists_mem_cons_iff, CodeTree.symbols, List.mem_append, or_assoc]

/-- The nodes of the merged tree are those of the trees and one for each combine step. -/
theorem size_of_mergeW (h : mergeW k ws = some T) : T.size + 1 = (ws.map fun w => w.2.size + 1).sum := by
  induction k generalizing ws with
  | zero =>
    obtain ⟨f, rfl⟩ | ⟨j, -, -, -, -, -, hj, -⟩ := mergeW_cases h
    · simp
    · cases hj
  | succ k ih =>
    obtain ⟨f, rfl⟩ | ⟨j, f, g, A, B, q, hj, rfl, hmerge⟩ := mergeW_cases h
    · simp
    · obtain rfl := Nat.succ.inj hj
      rw [ih hmerge, ((insertW_perm _ _ _).map _).sum_eq]
      simp only [List.map_cons, List.sum_cons, CodeTree.size]
      omega

/-! ### The leaves of a frequency table -/

/-- A queue with a leaf inserted for each of `syms` that occurs, `freq` giving the counts (spec/41_tree_build.md R143). -/
def insertLeaves (freq : Nat → Nat) (syms : List Nat) (ws : List (Nat × CodeTree)) : List (Nat × CodeTree) :=
  syms.foldl (fun q sym => if freq sym > 0 then insertW (freq sym) (.leaf sym) q else q) ws

theorem leavesW_eq (c : Config) (freq : List Nat) :
    leavesW c freq = insertW 1 (.leaf c.eofsym) (insertLeaves (freq.getD · 0) (List.range c.alph) []) := rfl

/-- The symbols that occur, with their counts. -/
def occurring (freq : Nat → Nat) (syms : List Nat) : List (Nat × CodeTree) :=
  (syms.filter fun sym => decide (0 < freq sym)).map fun sym => (freq sym, .leaf sym)

theorem insertLeaves_perm (freq : Nat → Nat) (syms : List Nat) (ws : List (Nat × CodeTree)) :
    (insertLeaves freq syms ws).Perm (occurring freq syms ++ ws) := by
  induction syms generalizing ws with
  | nil => exact .refl _
  | cons sym syms ih =>
    by_cases hpos : 0 < freq sym
    · have hstep : insertLeaves freq (sym :: syms) ws = insertLeaves freq syms (insertW (freq sym) (.leaf sym) ws) := by
        simp [insertLeaves, hpos]
      have hocc : occurring freq (sym :: syms) = (freq sym, .leaf sym) :: occurring freq syms := by simp [occurring, hpos]
      rw [hstep, hocc]
      exact (ih _).trans (((insertW_perm _ _ _).append_left _).trans List.perm_middle)
    · have hstep : insertLeaves freq (sym :: syms) ws = insertLeaves freq syms ws := by simp [insertLeaves, hpos]
      have hocc : occurring freq (sym :: syms) = occurring freq syms := by simp [occurring, hpos]
      rw [hstep, hocc]
      exact ih _

/-- The leaves of a frequency table: EOFSYM's and one for each natural symbol that occurs. -/
theorem leavesW_perm (c : Config) (freq : List Nat) :
    (leavesW c freq).Perm ((1, .leaf c.eofsym) :: occurring (freq.getD · 0) (List.range c.alph)) := by
  rw [leavesW_eq]
  exact (insertW_perm _ _ _).trans (((insertLeaves_perm _ _ _).trans (.of_eq (List.append_nil _))).cons _)

theorem leavesW_length (c : Config) (freq : List Nat) :
    (leavesW c freq).length = (List.range c.alph).countP (fun sym => decide (0 < freq.getD sym 0)) + 1 := by
  rw [(leavesW_perm c freq).length_eq, List.length_cons, occurring, List.length_map, List.countP_eq_length_filter]

theorem leavesW_length_le (c : Config) (freq : List Nat) : (leavesW c freq).length ≤ c.alph + 1 := by
  rw [leavesW_length]
  exact Nat.succ_le_succ (List.countP_le_length.trans_eq List.length_range)

/-- The records of the tree of a frequency table fit a reference (spec/00_scope.md R9). -/
theorem records_le_of_leavesW (hc : c.valid = true) {m : Nat} (h : m + 1 = 2 * (leavesW c freq).length) : m ≤ 0xFFFE := by
  have hleaves := leavesW_length_le c freq
  have hroom := Config.room_for_leaves hc
  have hncap := Config.ncap_le hc
  omega

/-- Counts below 2^IW have a sum below 2^FW (spec/00_scope.md R9). -/
theorem weightSum_leavesW_lt (hc : c.valid = true) (hfit : ∀ sym < c.alph, freq.getD sym 0 < 2 ^ c.iw) :
    weightSum (leavesW c freq) < 2 ^ c.fw := by
  have hsum : ((occurring (freq.getD · 0) (List.range c.alph)).map Prod.fst).sum ≤ c.alph * 2 ^ c.iw := by
    refine (List.sum_le_card_nsmul _ (2 ^ c.iw) fun g hg => ?_).trans (Nat.mul_le_mul_right _ ?_)
    · simp only [occurring, List.map_map, List.mem_map, List.mem_filter, List.mem_range] at hg
      obtain ⟨sym, ⟨hsym, -⟩, rfl⟩ := hg
      exact (hfit sym hsym).le
    · rw [List.length_map, occurring, List.length_map]
      exact (List.length_filter_le _ _).trans_eq List.length_range
  have hone := Config.one_lt_two_pow_iw hc
  have hweight : weightSum (leavesW c freq) ≤ c.alph * 2 ^ c.iw + 1 := by
    rw [weightSum, ((leavesW_perm c freq).map _).sum_eq, List.map_cons, List.sum_cons]
    omega
  have halph : 0 < c.alph := Nat.two_pow_pos _
  calc weightSum (leavesW c freq) ≤ c.alph * 2 ^ c.iw + 1 := hweight
    _ < c.alph * 2 ^ c.iw + c.alph * 2 ^ c.iw := by
      have := Nat.mul_le_mul halph hone
      omega
    _ = 2 ^ c.fw := by
      rw [Config.fw, Config.alph, pow_succ, pow_add]
      ring

/-- The symbols of the tree of a frequency table. -/
theorem mem_symbols_huffTree (h : huffTree c freq = some T) :
    x ∈ T.symbols ↔ x = c.eofsym ∨ (x < c.alph ∧ 0 < freq.getD x 0) := by
  rw [mem_symbols_of_mergeW h]
  simp only [(leavesW_perm c freq).mem_iff, List.exists_mem_cons_iff, occurring, List.mem_map, List.mem_filter, List.mem_range,
    decide_eq_true_eq]
  simp [CodeTree.symbols]

/-- The tree of a frequency table has a leaf for each symbol, and one node less between them. -/
theorem size_huffTree (h : huffTree c freq = some T) : T.size + 1 = 2 * (leavesW c freq).length := by
  rw [size_of_mergeW h, ((leavesW_perm c freq).map _).sum_eq, (leavesW_perm c freq).length_eq]
  simp [occurring, CodeTree.size, Function.comp_def]
  omega

/-- The tree of a frequency table fits the pool (spec/00_scope.md R9). -/
theorem size_huffTree_le (hc : c.valid = true) (h : huffTree c freq = some T) : T.size ≤ c.ncap := by
  have hsize := size_huffTree h
  have hlen := leavesW_length_le c freq
  have hroom := Config.room_for_leaves hc
  omega

/-- The symbols of the tree of a frequency table are symbols. -/
theorem symbols_huffTree_le (h : huffTree c freq = some T) : ∀ x ∈ T.symbols, x ≤ c.eofsym := by
  intro x hx
  obtain rfl | ⟨hlt, -⟩ := (mem_symbols_huffTree h).mp hx
  · exact le_rfl
  · exact hlt.le

theorem eofsym_mem_huffTree (h : huffTree c freq = some T) : c.eofsym ∈ T.symbols :=
  (mem_symbols_huffTree h).mpr (.inl rfl)

/-! ### A leaf more -/

theorem State.StandsFor.append {w : Nat × CodeTree} (h : s.StandsFor r w) (ms : List NodeRec) :
    (s.setNodes (s.nodes ++ ms)).StandsFor r w := by
  obtain ⟨n, hn, hf⟩ := getElem?_of_lt h.lt
  refine ⟨treeAt_le (by simp) (treeAt_extends (extends_append _ _) h.1), ?_⟩
  rw [freqOfRef_of_some (s := s.setNodes _) ((List.getElem?_append_left h.lt).trans hn), ← hf, h.2]

/-- The record of a new leaf (spec/40_node_queue.md R110). -/
def leafRecord (sym f : Nat) : NodeRec := ⟨.leaf, sym, f, NIL, NIL, false⟩

theorem standsFor_newLeaf (hcap : s.nodes.length ≤ 0xFFFE) :
    (s.setNodes (s.nodes ++ [leafRecord sym f])).StandsFor s.nextRef (f, .leaf sym) := by
  have hnew : (s.nodes ++ [leafRecord sym f])[s.nextRef.toNat]? = some (leafRecord sym f) := by
    rw [nextRef_toNat hcap]
    exact List.getElem?_concat_length
  refine ⟨?_, freqOfRef_of_some (s := s.setNodes _) hnew⟩
  rw [State.tree?, State.next_eq, State.setNodes_nodes, List.length_append, List.length_singleton, treeAt, hnew]
  rfl

/-- The state with a new leaf in the queue (spec/41_tree_build.md R143). -/
def State.withLeaf (s : State) (sym f : Nat) : State := (s.setNodes (s.nodes ++ [leafRecord sym f])).insertRef s.nextRef

theorem withLeaf_nodes_length (s : State) (sym f : Nat) : (s.withLeaf sym f).nodes.length = s.nodes.length + 1 := by
  simp [State.withLeaf, State.insertRef]

theorem withLeaf_queue_length (s : State) (sym f : Nat) : (s.withLeaf sym f).queue.length = s.queue.length + 1 :=
  (insertRef_queue_perm _ _).length_eq

theorem State.Loaded.withLeaf (h : s.Loaded ws) (hroom : s.nodes.length < s.cfg.ncap) (sym f : Nat) :
    (s.withLeaf sym f).Loaded (insertW f (.leaf sym) ws) where
  quiet := h.quiet
  cap := h.cap
  fits := (withLeaf_nodes_length s sym f).trans_le hroom
  queue := forall₂_insertRef (standsFor_newLeaf (h.fits.trans h.cap)) (h.queue.imp fun _ _ hx => hx.append _)

/-- Alloc and Enqueue of a leaf. -/
theorem alloc_enqueue {α : Type} {g : Cmd α} (h : s.Loaded ws) (hroom : s.nodes.length < s.cfg.ncap) :
    (do let r ← alloc .leaf sym f; enqueue r; g : Cmd α) s = g (s.withLeaf sym f) := by
  have hnew := standsFor_newLeaf (sym := sym) (f := f) (h.fits.trans h.cap)
  have hqueue := State.StandsFor.forall_lt (h.queue.imp fun _ _ hx => hx.append [leafRecord sym f])
  rw [bind_of_ok (alloc_room hroom)]
  exact bind_of_ok (enqueue_insertRef (s := s.setNodes _) h.quiet hnew.lt hqueue)

/-! ### BuildFromFreq -/

/-- `t` is `s` but for the pool and the queue, which have grown alike. -/
structure GrownAlike (s t : State) : Prop where
  frame : t = (s.setNodes t.nodes).setQueue t.queue
  lengths : t.nodes.length + s.queue.length = s.nodes.length + t.queue.length

theorem GrownAlike.refl (s : State) : GrownAlike s s := ⟨rfl, rfl⟩

theorem GrownAlike.of_withLeaf (h : GrownAlike (s.withLeaf sym f) t) : GrownAlike s t := by
  have hlengths := h.lengths
  rw [withLeaf_nodes_length, withLeaf_queue_length] at hlengths
  exact ⟨h.frame, by omega⟩

/-- The loop of BuildFromFreq inserts a leaf for each symbol that occurs. -/
theorem leavesLoop_loads (h : s.Loaded ws) (hroom : s.nodes.length + n ≤ s.cfg.ncap) :
    ∃ t, leavesLoop n sym s = .ok () t ∧ t.Loaded (insertLeaves s.freqAt (List.range' sym n) ws) ∧ GrownAlike s t := by
  induction n generalizing s sym ws with
  | zero => exact ⟨s, rfl, h, .refl s⟩
  | succ n ih =>
    rw [leavesLoop, get_bind_apply, List.range'_succ]
    by_cases hpos : s.freqAt sym > 0
    · have hlen := withLeaf_nodes_length s sym (s.freqAt sym)
      obtain ⟨t, ht, hloaded, hgrown⟩ := ih (h.withLeaf (by omega) sym (s.freqAt sym)) (sym := sym + 1)
        (show _ ≤ s.cfg.ncap by omega)
      rw [if_pos hpos, alloc_enqueue h (by omega)]
      refine ⟨t, ht, ?_, hgrown.of_withLeaf⟩
      rw [insertLeaves, List.foldl_cons, if_pos hpos]
      exact hloaded
    · obtain ⟨t, ht, hloaded, hgrown⟩ := ih h (sym := sym + 1) (by omega)
      rw [if_neg hpos]
      refine ⟨t, ht, ?_, hgrown⟩
      rw [insertLeaves, List.foldl_cons, if_neg hpos]
      exact hloaded

theorem GrownAlike.withLeaf (h : GrownAlike s t) (sym f : Nat) : GrownAlike s (t.withLeaf sym f) := by
  have hlengths := h.lengths
  refine ⟨?_, by rw [withLeaf_nodes_length, withLeaf_queue_length]; omega⟩
  rw [h.frame]
  rfl

section
variable (hc : s.cfg.valid = true) (hw : s.hostQuiet = true) (hn : s.nodes = []) (hq : s.queue = [])
include hc hw hn hq

/-- BuildFromFreq on an empty pool and queue is CreateTree from the leaves of the frequency table. -/
theorem buildFromFreq_loads : ∃ u, buildFromFreq s = createTree u ∧ u.Loaded (leavesW s.cfg s.freq) ∧ GrownAlike s u := by
  have hroom := Config.room_for_leaves hc
  have hempty : s.Loaded [] := ⟨hw, Config.ncap_le hc, by simp [hn], by rw [hq]; exact .nil⟩
  obtain ⟨u, hu, hleaves, hgrown⟩ := leavesLoop_loads (n := s.cfg.alph) (sym := 0) hempty (by rw [hn, List.length_nil]; omega)
  have hall : insertW 1 (.leaf s.cfg.eofsym) (insertLeaves s.freqAt (List.range' 0 s.cfg.alph) []) = leavesW s.cfg s.freq := by
    rw [leavesW_eq, List.range_eq_range']
    rfl
  have hlengths := hgrown.lengths
  have hcount := leavesW_length_le s.cfg s.freq
  simp only [hn, hq, List.length_nil, hleaves.queue.length_eq] at hlengths
  rw [← hall, (insertW_perm _ _ _).length_eq, List.length_cons] at hcount
  have huroom : u.nodes.length < u.cfg.ncap := by
    have hcfg : u.cfg = s.cfg := by rw [hgrown.frame]; rfl
    rw [hcfg]
    omega
  refine ⟨u.withLeaf s.cfg.eofsym 1, ?_, hall ▸ hleaves.withLeaf huroom _ _, hgrown.withLeaf _ _⟩
  rw [buildFromFreq, get_bind_apply, bind_of_ok hu, alloc_enqueue hleaves huroom]

/-- BuildFromFreq on an empty pool and queue leaves the tree of the frequency table at the root (spec/41_tree_build.md R143). -/
theorem buildFromFreq_builds (hfit : ∀ sym < s.cfg.alph, s.freqAt sym < 2 ^ s.cfg.iw) :
    ∃ (ns : List NodeRec) (root : NodeRef) (T : CodeTree), huffTree s.cfg s.freq = some T ∧
      buildFromFreq s = .ok () ((s.setNodes ns).setRoot root) ∧ ((s.setNodes ns).setRoot root).tree? root = some T ∧
      ns.length + 1 = 2 * (leavesW s.cfg s.freq).length := by
  obtain ⟨u, hu, hloaded, hgrown⟩ := buildFromFreq_loads hc hw hn hq
  have hroom := Config.room_for_leaves hc
  have hcfg : u.cfg = s.cfg := by rw [hgrown.frame]; rfl
  have hlengths := hgrown.lengths
  have hqueue := hloaded.queue.length_eq
  have hcount := leavesW_length_le s.cfg s.freq
  have hpos : 0 < (leavesW s.cfg s.freq).length := by
    rw [leavesW_length]
    exact Nat.succ_pos _
  simp only [hn, hq, List.length_nil] at hlengths
  have hne : u.queue ≠ [] := List.ne_nil_of_length_pos (by omega)
  obtain ⟨t, root, T, ht, hmerged, hT, htree⟩ := combineLoop_merges hloaded hne (Nat.le_succ _)
    (by rw [hcfg]; omega) (by rw [hcfg]; exact weightSum_leavesW_lt hc hfit)
  have hlen := hmerged.length
  rw [hqueue] at hT
  refine ⟨t.nodes, root, T, hT, ?_, htree, by omega⟩
  rw [hu, createTree_merged hloaded.quiet hne ht hmerged, hgrown.frame, ← hq]
  rfl

end

end Sys2Proof.Machine

end

section
/-!
PROOF. PLAN (spec/45_driver.md R211 to R214): ScanInput counts the symbols, BitsAfter is the cost of the stream, and the
command leaves the plan.
-/

namespace Sys2Proof

variable {c : Config}

theorem Config.sw_pos (h : c.valid = true) : 0 < c.sw := by
  simp only [Config.valid, Bool.and_eq_true, decide_eq_true_eq] at h
  omega

theorem Config.iw_pos (h : c.valid = true) : 0 < c.iw := by
  simp only [Config.valid, Bool.and_eq_true, decide_eq_true_eq] at h
  omega

end Sys2Proof

namespace Sys2Proof.Machine

variable {s t : State} {T : CodeTree} {syms freq : List Nat} {tail : List Bit} {fuel x k : Nat} {fmt : HeaderFormat}

/-! ### Counting -/

/-- A frequency table with one more of each of `syms` (spec/45_driver.md R211). -/
def tally (freq syms : List Nat) : List Nat := syms.foldl (fun f x => f.set x (f.getD x 0 + 1)) freq

theorem tally_cons (freq : List Nat) (x : Nat) (syms : List Nat) :
    tally freq (x :: syms) = tally (freq.set x (freq.getD x 0 + 1)) syms := rfl

@[simp] theorem tally_length (freq syms : List Nat) : (tally freq syms).length = freq.length := by
  induction syms generalizing freq with
  | nil => rfl
  | cons x syms ih => rw [tally_cons, ih, List.length_set]

theorem getD_set_succ (hx : x < freq.length) (k : Nat) :
    (freq.set x (freq.getD x 0 + 1)).getD k 0 = freq.getD k 0 + if x = k then 1 else 0 := by
  by_cases hk : x = k
  · subst hk
    simp [hx]
  · simp [hk]

/-- Counting one symbol leaves the counts that all the symbols give. -/
theorem getD_set_add_count (hx : x < freq.length) (syms : List Nat) (k : Nat) :
    (freq.set x (freq.getD x 0 + 1)).getD k 0 + syms.count k = freq.getD k 0 + (x :: syms).count k := by
  rw [getD_set_succ hx, List.count_cons]
  simp only [beq_iff_eq]
  omega

theorem tally_getD (h : ∀ x ∈ syms, x < freq.length) (k : Nat) :
    (tally freq syms).getD k 0 = freq.getD k 0 + syms.count k := by
  induction syms generalizing freq with
  | nil => rfl
  | cons x syms ih =>
    obtain ⟨hx, hxs⟩ := List.forall_mem_cons.mp h
    rw [tally_cons, ih (by simpa using hxs), getD_set_add_count hx]

/-! ### The frequency table of an input -/

theorem countsOf_length (c : Config) (bits : List Bit) : (countsOf c bits).length = c.alph + 1 := by
  simp [countsOf]

theorem countsOf_getD {c : Config} (hx : x < c.alph) (bits : List Bit) :
    (countsOf c bits).getD x 0 = (symbolsOf c.sw bits).count x := by
  rw [countsOf, List.getD_append _ _ _ _ (by simpa using hx)]
  simp [hx]

/-- The counts of natural symbols are entries of the frequency table. -/
theorem count_mem_countsOf {c : Config} (hx : x < c.alph) (bits : List Bit) :
    (symbolsOf c.sw bits).count x ∈ countsOf c bits :=
  List.mem_append_left _ (List.mem_map.mpr ⟨x, List.mem_range.mpr hx, rfl⟩)

theorem countsOf_getD_lt {c : Config} {bits : List Bit} (hfit : ∀ n ∈ countsOf c bits, n < 2 ^ c.iw) (hx : x < c.alph) :
    (countsOf c bits).getD x 0 < 2 ^ c.iw := by
  rw [countsOf_getD hx]
  exact hfit _ (count_mem_countsOf hx _)

/-- Counting the symbols of an input in a cleared table, then one EOFSYM, gives its frequency table (spec/45_driver.md R211). -/
theorem tally_eq_countsOf {c : Config} (hc : c.valid = true) (bits : List Bit) :
    (tally (List.replicate (c.eofsym + 1) 0) (symbolsOf c.sw bits)).set c.eofsym 1 = countsOf c bits := by
  have hsyms : ∀ x ∈ symbolsOf c.sw bits, x < (List.replicate (c.eofsym + 1) 0).length := fun x hx => by
    rw [List.length_replicate]
    exact (symbolsOf_lt (Config.sw_pos hc) hx).trans (Nat.lt_succ_self _)
  refine List.ext_getElem (by simp [countsOf]) fun k hk hk' => ?_
  rw [← List.getD_eq_getElem _ 0 hk, ← List.getD_eq_getElem _ 0 hk']
  by_cases heof : c.eofsym = k
  · subst heof
    simp [countsOf]
  · have hlt : k < c.alph := by
      rw [countsOf_length] at hk'
      exact lt_of_le_of_ne (Nat.lt_succ_iff.mp hk') (Ne.symm heof)
    rw [countsOf_getD hlt, List.getD_eq_getElem?_getD, List.getElem?_set_ne heof, ← List.getD_eq_getElem?_getD, tally_getD hsyms]
    simp

/-- The leaves of an input's tree are as many as its frequency table has entries that are not 0. -/
theorem leavesW_countsOf_length (c : Config) (bits : List Bit) :
    (leavesW c (countsOf c bits)).length = (countsOf c bits).countP fun n => decide (0 < n) := by
  have hnatural : (List.range c.alph).countP (fun sym => decide (0 < (countsOf c bits).getD sym 0)) =
      (List.range c.alph).countP fun sym => decide (0 < (symbolsOf c.sw bits).count sym) :=
    List.countP_congr fun sym hsym => by rw [countsOf_getD (List.mem_range.mp hsym)]
  rw [leavesW_length, hnatural, countsOf, List.countP_append, List.countP_map]
  rfl

/-! ### ScanInput -/

/-- The state in which ScanInput has counted `syms` (spec/45_driver.md R211). -/
def State.counted (s : State) (syms : List Nat) : State :=
  (s.setIpos (s.pos + syms.length * s.cfg.sw)).setFreq (tally s.freq syms)

theorem counted_nil (s : State) : s.counted [] = s := by
  rw [State.counted, List.length_nil, Nat.zero_mul, setIpos_pos_self]
  rfl

theorem counted_singleton (s : State) (x : Nat) :
    s.counted [x] = (s.setIpos (s.pos + s.cfg.sw)).setFreq (s.freq.set x (s.freqAt x + 1)) := by
  rw [State.counted, List.length_singleton, Nat.one_mul]
  rfl

theorem counted_cons (hpos : (s.counted [x]).pos = s.pos + s.cfg.sw) (syms : List Nat) :
    (s.counted [x]).counted syms = s.counted (x :: syms) := by
  have hend : s.pos + s.cfg.sw + syms.length * s.cfg.sw = s.pos + (x :: syms).length * s.cfg.sw := by
    rw [List.length_cons]
    ring
  rw [State.counted, hpos]
  show (s.setIpos (s.pos + s.cfg.sw + syms.length * s.cfg.sw)).setFreq _ = _
  rw [hend]
  rfl

/-- `t` is `s` but for IPOS and the frequency table. -/
def ScanApart (s t : State) : Prop := t = { s with ipos := t.ipos, freq := t.freq }

theorem ScanApart.trans {u : State} (h : ScanApart s u) (h' : ScanApart u t) : ScanApart s t := by
  rw [ScanApart] at h h' ⊢
  rw [h', h]

theorem scanApart_counted (s : State) (syms : List Nat) : ScanApart s (s.counted syms) := rfl

/-- Port IN at the first of some symbols, and behind it. -/
theorem drop_symbol (hlen : s.input.length < 2 ^ 64)
    (hin : s.input.drop s.pos = symbolBits s.cfg.sw (x :: syms) ++ tail) :
    s.input.drop s.pos = toBits s.cfg.sw x ++ (symbolBits s.cfg.sw syms ++ tail) ∧ s.pos + s.cfg.sw < 2 ^ 64 ∧
      s.input.drop (s.pos + s.cfg.sw) = symbolBits s.cfg.sw syms ++ tail := by
  have hfield : s.input.drop s.pos = toBits s.cfg.sw x ++ (symbolBits s.cfg.sw syms ++ tail) := by
    rw [hin, symbolBits_cons, List.append_assoc]
  have hpos := pos_add_length_lt hlen hfield
  rw [toBits_length] at hpos
  exact ⟨hfield, hpos, drop_field (toBits_length _ _) hfield⟩

/-- Port IN presents the symbols `syms`, and a tail too short for another, to a command that nothing lands inside. -/
structure State.Presents (s : State) (syms : List Nat) : Prop where
  quiet : s.hostQuiet = true
  sw_pos : 0 < s.cfg.sw
  input_fits : s.input.length < 2 ^ 64
  symbols : ∃ tail, s.input.drop s.pos = symbolBits s.cfg.sw syms ++ tail ∧ tail.length < s.cfg.sw
  symbols_lt : ∀ x ∈ syms, x < 2 ^ s.cfg.sw

namespace State.Presents

theorem inRead_end (h : s.Presents []) : inRead s.cfg.sw s = .ok none s := by
  obtain ⟨tail, hin, htail⟩ := h.symbols
  exact inRead_tail h.quiet hin htail

theorem inRead_symbol (h : s.Presents (x :: syms)) : inRead s.cfg.sw s = .ok (some x) (s.setIpos (s.pos + s.cfg.sw)) := by
  obtain ⟨tail, hin, -⟩ := h.symbols
  obtain ⟨hfield, -, -⟩ := drop_symbol h.input_fits hin
  exact inRead_toBits h.quiet h.sw_pos (h.symbols_lt x List.mem_cons_self) hfield

theorem pos_behind (h : s.Presents (x :: syms)) : (s.setIpos (s.pos + s.cfg.sw)).pos = s.pos + s.cfg.sw := by
  obtain ⟨tail, hin, -⟩ := h.symbols
  obtain ⟨-, hpos, -⟩ := drop_symbol h.input_fits hin
  exact State.setIpos_toNat s hpos

theorem behind (h : s.Presents (x :: syms)) : (s.setIpos (s.pos + s.cfg.sw)).Presents syms := by
  obtain ⟨tail, hin, htail⟩ := h.symbols
  obtain ⟨-, -, hrest⟩ := drop_symbol h.input_fits hin
  refine ⟨h.quiet, h.sw_pos, h.input_fits, ⟨tail, ?_, htail⟩, (List.forall_mem_cons.mp h.symbols_lt).2⟩
  rw [h.pos_behind]
  exact hrest

end State.Presents

/-- Port IN from its start. -/
theorem presents_symbolsOf (hsw : 0 < s.cfg.sw) (hw : s.hostQuiet = true) (hlen : s.input.length < 2 ^ 64) :
    (s.setIpos 0).Presents (symbolsOf s.cfg.sw s.input) := by
  obtain ⟨tail, hin, htail, hlt⟩ := symbolsOf_split hsw s.input
  exact ⟨hw, hsw, hlen, ⟨tail, hin, htail⟩, hlt⟩

/-- ScanInput before the symbols `syms`, with turns enough. -/
structure State.Scanning (s : State) (syms : List Nat) (fuel : Nat) : Prop where
  presents : s.Presents syms
  table : s.cfg.alph < s.freq.length
  fuel_lt : syms.length < fuel

namespace State.Scanning

theorem counted_pos (h : s.Scanning (x :: syms) fuel) : (s.counted [x]).pos = s.pos + s.cfg.sw := by
  rw [counted_singleton]
  exact h.presents.pos_behind

theorem counted (h : s.Scanning (x :: syms) (fuel + 1)) : (s.counted [x]).Scanning syms fuel := by
  obtain ⟨hquiet, hsw, hlen, hsymbols, hlt⟩ := h.presents.behind
  refine ⟨?_, h.table.trans_eq (tally_length _ _).symm, Nat.lt_of_succ_lt_succ h.fuel_lt⟩
  rw [counted_singleton]
  exact ⟨hquiet, hsw, hlen, hsymbols, hlt⟩

/-- A turn of ScanInput counts a symbol, unless its count is at its end (spec/45_driver.md R211). -/
theorem turn (h : s.Scanning (x :: syms) (fuel + 1)) : scanLoop (fuel + 1) s = if s.freqAt x = 2 ^ s.cfg.iw - 1 then
        .error (.raised .inputTooLong) (s.setIpos (s.pos + s.cfg.sw))
      else scanLoop fuel (s.counted [x]) := by
  rw [scanLoop, get_bind_apply, bind_of_ok h.presents.inRead_symbol, counted_singleton]
  simp only [get_bind_apply]
  by_cases hfull : s.freqAt x = 2 ^ s.cfg.iw - 1
  · rw [if_pos hfull]
    exact (congrFun (if_pos hfull) _).trans (raise_quiet (s := s.setIpos _) _ h.presents.quiet)
  · rw [if_neg hfull]
    exact congrFun (if_neg hfull) _

/-- The end of port IN ends the loop of ScanInput. -/
theorem turn_end (h : s.Scanning [] (fuel + 1)) : scanLoop (fuel + 1) s = .ok () s := by
  rw [scanLoop, get_bind_apply, bind_of_ok h.presents.inRead_end]
  rfl

theorem counted_freqAt (h : s.Scanning (x :: syms) fuel) (y : Nat) :
    (s.counted [x]).freqAt y = s.freqAt y + if x = y then 1 else 0 :=
  getD_set_succ ((h.presents.symbols_lt x List.mem_cons_self).trans h.table) y

/-- ScanInput counts the symbols of port IN (spec/45_driver.md R211). -/
theorem counts (h : s.Scanning syms fuel) (hfit : ∀ x, s.freqAt x + syms.count x < 2 ^ s.cfg.iw) :
    scanLoop fuel s = .ok () (s.counted syms) := by
  induction syms generalizing s fuel with
  | nil =>
    obtain ⟨fuel, rfl⟩ := Nat.exists_eq_succ_of_ne_zero h.fuel_lt.ne_bot
    rw [h.turn_end, counted_nil]
  | cons x syms ih =>
    obtain ⟨fuel, rfl⟩ := Nat.exists_eq_succ_of_ne_zero h.fuel_lt.ne_bot
    have hroom : ¬ s.freqAt x = 2 ^ s.cfg.iw - 1 := by
      have := hfit x
      rw [List.count_cons_self] at this
      omega
    rw [h.turn, if_neg hroom, ← counted_cons h.counted_pos syms]
    refine ih h.counted fun y => ?_
    have hy := hfit y
    rw [List.count_cons] at hy
    simp only [beq_iff_eq] at hy
    rw [h.counted_freqAt]
    show _ < 2 ^ s.cfg.iw
    omega

/-- ScanInput stops where a count would reach 2^IW (spec/45_driver.md R211). -/
theorem tooLong (h : s.Scanning syms fuel) {y : Nat} (hfit : s.freqAt y < 2 ^ s.cfg.iw)
    (hmany : 2 ^ s.cfg.iw ≤ s.freqAt y + syms.count y) :
    ∃ t, scanLoop fuel s = .error (.raised .inputTooLong) t ∧ ScanApart s t := by
  induction syms generalizing s fuel with
  | nil => exact absurd hfit (Nat.not_lt.mpr hmany)
  | cons x syms ih =>
    obtain ⟨fuel, rfl⟩ := Nat.exists_eq_succ_of_ne_zero h.fuel_lt.ne_bot
    rw [h.turn]
    split
    · exact ⟨_, rfl, rfl⟩
    · next hroom =>
      rw [List.count_cons] at hmany
      simp only [beq_iff_eq] at hmany
      have hy := h.counted_freqAt y
      have hlt : (s.counted [x]).freqAt y < 2 ^ s.cfg.iw := by
        rw [hy]
        split
        · next hxy =>
          subst hxy
          omega
        · exact hfit
      obtain ⟨t, ht, hframe⟩ := ih h.counted hlt (show 2 ^ s.cfg.iw ≤ _ by omega)
      exact ⟨t, ht, (scanApart_counted s [x]).trans hframe⟩

end State.Scanning

/-- ScanInput from a rewound port IN and a cleared table. -/
theorem scanInput_eq (hw : s.hostQuiet = true) :
    scanInput s = (do
      scanLoop (s.input.length + 1)
      modify fun s => s.setFreq (s.freq.set s.cfg.eofsym 1) : Cmd Unit)
        ((s.setIpos 0).setFreq (List.replicate (s.cfg.eofsym + 1) 0)) :=
  change_then _ hw rfl

section
variable (hc : s.cfg.valid = true) (hw : s.hostQuiet = true) (hlen : s.input.length < 2 ^ 64)
include hc hw hlen

theorem scanning_start : ((s.setIpos 0).setFreq (List.replicate (s.cfg.eofsym + 1) 0)).Scanning
    (symbolsOf s.cfg.sw s.input) (s.input.length + 1) := by
  have hsw := Config.sw_pos hc
  obtain ⟨hquiet, -, hfits, hsymbols, hlt⟩ := presents_symbolsOf hsw hw hlen
  refine ⟨⟨hquiet, hsw, hfits, hsymbols, hlt⟩, ?_, ?_⟩
  · exact (Nat.lt_succ_self _).trans_eq List.length_replicate.symm
  · rw [symbolsOf_length hsw]
    exact Nat.lt_succ_of_le (Nat.div_le_self _ _)

/-- ScanInput leaves the frequency table of port IN (spec/45_driver.md R211). -/
theorem scanInput_counts (hfit : ∀ n ∈ countsOf s.cfg s.input, n < 2 ^ s.cfg.iw) :
    scanInput s = .ok ()
      ((s.setIpos (s.input.length / s.cfg.sw * s.cfg.sw)).setFreq (countsOf s.cfg s.input)) := by
  have hsw := Config.sw_pos hc
  have hcount (x : Nat) : (symbolsOf s.cfg.sw s.input).count x < 2 ^ s.cfg.iw := by
    by_cases hx : x < s.cfg.alph
    · exact hfit _ (count_mem_countsOf hx _)
    · rw [List.count_eq_zero.mpr fun hmem => hx (symbolsOf_lt hsw hmem)]
      exact Nat.two_pow_pos _
  have hzero (x : Nat) : (List.replicate (s.cfg.eofsym + 1) 0).getD x 0 = 0 := by
    simp only [List.getD_eq_getElem?_getD, List.getElem?_replicate]
    split <;> rfl
  rw [scanInput_eq hw, bind_of_ok ((scanning_start hc hw hlen).counts fun x => ?_), modify_apply, ← tally_eq_countsOf hc,
    ← symbolsOf_length hsw, State.counted]
  · simp [State.setIpos, State.setFreq]
  · show (List.replicate (s.cfg.eofsym + 1) 0).getD x 0 + _ < _
    rw [hzero, Nat.zero_add]
    exact hcount x

/-- ScanInput raises INPUT_TOO_LONG where a count reaches 2^IW (spec/45_driver.md R211). -/
theorem scanInput_tooLong (hmany : ∃ x < s.cfg.alph, 2 ^ s.cfg.iw ≤ (symbolsOf s.cfg.sw s.input).count x) :
    ∃ t, scanInput s = .error (.raised .inputTooLong) t ∧ ScanApart s t := by
  obtain ⟨x, hx, hcount⟩ := hmany
  have hzero : ((s.setIpos 0).setFreq (List.replicate (s.cfg.eofsym + 1) 0)).freqAt x = 0 := by
    simp [State.freqAt, State.setFreq, hx.trans (Nat.lt_succ_self _)]
  obtain ⟨t, ht, hframe⟩ := (scanning_start hc hw hlen).tooLong (y := x) (by rw [hzero]; exact Nat.two_pow_pos _)
    (hcount.trans (Nat.le_add_left _ _))
  have hstart : ScanApart s ((s.setIpos 0).setFreq (List.replicate (s.cfg.eofsym + 1) 0)) := rfl
  exact ⟨t, (scanInput_eq hw).trans (bind_of_error ht), hstart.trans hframe⟩

end

/-! ### What the stream costs -/

theorem sumTo_eq_sum (n : Nat) (f : Nat → Nat) : sumTo n f = ∑ x ∈ Finset.range n, f x := by
  induction n with
  | zero => rfl
  | succ n ih => rw [sumTo, ih, Finset.sum_range_succ]

/-- An entry of a tree's table is its symbol's path. -/
theorem pathAt_table (hpt : s.pt = T.table s.cfg.eofsym) (hx : x ≤ s.cfg.eofsym) : s.pathAt x = T.path x := by
  rw [State.pathAt, hpt, CodeTree.table, List.getD_eq_getElem?_getD, List.getElem?_map,
    List.getElem?_range (Nat.lt_succ_of_le hx)]
  rfl

theorem pathLen_table (hpt : s.pt = T.table s.cfg.eofsym) (hx : x ≤ s.cfg.eofsym) : s.pathLen x = T.pathLen x := by
  rw [State.pathLen, pathAt_table hpt hx]
  rfl

theorem headerBits_counts : headerBits .counts s = .ok (s.cfg.alph * s.cfg.iw) s := rfl

/-- The cost of a tree-shape header (spec/45_driver.md R214). -/
theorem headerBits_tree (hcap : s.nodes.length ≤ 0xFFFF) (hT : s.tree? s.rootRef = some T) :
    headerBits .tree s = .ok (s.cfg.iw + T.bits s.cfg.sw) s := by
  rw [headerBits, get_bind_apply]
  exact bind_of_ok (countTree_tree hcap hT)

/-- BitsAfter is the cost of the stream of a planned tree (spec/45_driver.md R214). -/
theorem bitsAfter_tree (hcap : s.nodes.length ≤ 0xFFFF) (hT : s.tree? s.rootRef = some T)
    (hpt : s.pt = T.table s.cfg.eofsym) (fmt : HeaderFormat) :
    bitsAfter fmt s = .ok (afterOf s.cfg fmt s.freq T) s := by
  have hcodes : codeBits s = (sumTo s.cfg.alph fun x => s.freq.getD x 0 * T.pathLen x) + T.pathLen s.cfg.eofsym := by
    rw [codeBits, sumTo_eq_sum, sumTo_eq_sum, pathLen_table hpt le_rfl]
    refine congrArg (· + _) (Finset.sum_congr rfl fun x hx => ?_)
    rw [pathLen_table hpt (Finset.mem_range.mp hx).le]
    rfl
  cases fmt with
  | counts =>
    rw [bitsAfter, bind_of_ok headerBits_counts, get_bind_apply, pure_apply, hcodes, ← Nat.add_assoc]
    rfl
  | tree =>
    rw [bitsAfter, bind_of_ok (headerBits_tree hcap hT), get_bind_apply, pure_apply, hcodes, ← Nat.add_assoc]
    rfl

/-! ### PLAN -/

/-- The state PLAN leaves (spec/45_driver.md R212): `ns` the pool, `root` the root, which stands for `T`. -/
def State.planned (s : State) (fmt : HeaderFormat) (ns : List NodeRec) (root : NodeRef) (T : CodeTree) : State :=
  { s with
    nodes := ns
    rootRef := root
    freq := countsOf s.cfg s.input
    pt := T.table s.cfg.eofsym
    ipos := BitVec.ofNat 64 (s.input.length / s.cfg.sw * s.cfg.sw)
    bitsSaved := BitVec.ofInt 64 ((beforeOf s.cfg (countsOf s.cfg s.input) : Int) -
      (afterOf s.cfg fmt (countsOf s.cfg s.input) T : Int))
    pfmt := fmt
    dstate := .planned
    outcome := .ok
    busy := false }

theorem execPlan_notClean (hw : s.hostQuiet = true) (hd : s.dstate ≠ .clean) :
    exec (.plan fmt) s = .next (takeFault .notClean s) := by
  refine runCmd_raised hw ?_
  rw [if_pos hd]
  exact raise_quiet _ hw

theorem execPlan_tooLong (hc : s.cfg.valid = true) (hw : s.hostQuiet = true) (hd : s.dstate = .clean)
    (hlen : s.input.length < 2 ^ 64)
    (hmany : ∃ x < s.cfg.alph, 2 ^ s.cfg.iw ≤ (symbolsOf s.cfg.sw s.input).count x) :
    ∃ t, exec (.plan fmt) s = .next (takeFault .inputTooLong t) ∧ ScanApart s t := by
  obtain ⟨t, ht, hframe⟩ := scanInput_tooLong hc hw hlen hmany
  refine ⟨t, runCmd_raised hw ?_, hframe⟩
  rw [if_neg (not_not.mpr hd)]
  exact bind_of_error ht

/-- The end of PLAN (spec/45_driver.md R212). -/
theorem setPlan_done (v : DWord) (fmt : HeaderFormat) (hw : s.hostQuiet = true) :
    (do
      change (·.setBitsSaved v)
      change (·.setPfmt fmt)
      change (·.setDState .planned)
      done .ok : Cmd Unit) s = .ok () ((((s.setBitsSaved v).setPfmt fmt).setDState .planned).endWith .ok) :=
  change_then _ hw (change_then _ hw (change_then _ hw (done_quiet _ hw)))

/-- PLAN on an empty pool and queue leaves the plan of the tree of the counts (spec/45_driver.md R212). -/
theorem execPlan_plans (hc : s.cfg.valid = true) (hw : s.hostQuiet = true) (hd : s.dstate = .clean) (hn : s.nodes = [])
    (hq : s.queue = []) (hlen : s.input.length < 2 ^ 64) (hfit : ∀ n ∈ countsOf s.cfg s.input, n < 2 ^ s.cfg.iw)
    (fmt : HeaderFormat) : ∃ ns root T, huffTree s.cfg (countsOf s.cfg s.input) = some T ∧
      exec (.plan fmt) s = .next (s.planned fmt ns root T) ∧ (s.planned fmt ns root T).tree? root = some T ∧
      ns.length + 1 = 2 * (leavesW s.cfg (countsOf s.cfg s.input)).length := by
  obtain ⟨ns, root, T, hT, hbuild, htree, hns⟩ := buildFromFreq_builds
    (s := (s.setIpos (s.input.length / s.cfg.sw * s.cfg.sw)).setFreq (countsOf s.cfg s.input)) hc hw hn hq
    fun _ => countsOf_getD_lt hfit
  have hcap : ns.length ≤ 0xFFFF := (records_le_of_leavesW hc hns).trans (by decide)
  refine ⟨ns, root, T, hT, runCmd_ok hw ?_, htree, hns⟩
  rw [if_neg (not_not.mpr hd), bind_of_ok (scanInput_counts hc hw hlen hfit), bind_of_ok hbuild,
    bind_of_ok (buildTable_tree hcap htree), get_bind_apply]
  refine (bind_of_ok (bitsAfter_tree (T := T) ?cap ?tree ?table fmt)).trans ?rest
  case cap => exact hcap
  case tree => exact htree
  case table => rfl
  refine (setPlan_done _ fmt (by simpa using hw)).trans ?_
  simp only [State.setBitsSaved, State.setPfmt, State.setDState, State.endWith, State.setPt, State.setRoot, State.setNodes,
    State.setFreq, State.setIpos, State.planned]
  rfl

/-- Settles O47: the check of the session, a count that reaches 2^IW, and the plan. -/
theorem planComputesTableTreeAndSavings : Obligations.PlanComputesTableTreeAndSavings := by
  intro s fmt hc hw
  refine ⟨execPlan_notClean hw, fun hd hlen hmany => ?_, fun hd hn hq hlen hfit => ?_⟩
  · obtain ⟨t, ht, hframe⟩ := execPlan_tooLong (fmt := fmt) hc hw hd hlen hmany
    rw [hframe] at ht
    exact ⟨_, ht, rfl, rfl, rfl, hd⟩
  · obtain ⟨ns, root, T, hT, hplan, htree, hns⟩ := execPlan_plans hc hw hd hn hq hlen hfit fmt
    refine ⟨T, _, hT, hplan, htree, ?_, rfl⟩
    rw [← leavesW_countsOf_length, ← hns]
    rfl

end Sys2Proof.Machine

end

section
/-!
PROOF. BITS_SAVED (spec/45_driver.md R215): the difference of the two costs fits its 64 bits, and its closed form for copies of
one symbol.
-/

namespace Sys2Proof.Machine

variable {c : Config} {T : CodeTree} {freq : List Nat} {x N sym : Nat}

/-! ### Bounds -/

theorem CodeTree.depth_lt_size (T : CodeTree) : T.depth < T.size := by
  induction T with
  | leaf x => exact Nat.one_pos
  | node l r ihl ihr =>
    simp only [CodeTree.depth, CodeTree.size]
    omega

theorem CodeTree.pathLen_lt_size (T : CodeTree) (x : Nat) : T.pathLen x < T.size := by
  rw [CodeTree.pathLen]
  cases hp : T.path x with
  | none => exact T.size_pos
  | some p => exact (CodeTree.path_length_le hp).trans_lt T.depth_lt_size

theorem sumTo_le {n b : Nat} {f : Nat → Nat} (h : ∀ x < n, f x ≤ b) : sumTo n f ≤ n * b := by
  rw [sumTo_eq_sum]
  exact (Finset.sum_le_card_nsmul _ f b fun x hx => h x (Finset.mem_range.mp hx)).trans_eq (by simp)

section
variable (hc : c.valid = true) (hfit : ∀ x < c.alph, freq.getD x 0 < 2 ^ c.iw)
include hc hfit

/-- A sum over the natural symbols of counts, each of a cost below 2^16, is at most 2^62 (spec/00_scope.md R9). -/
theorem sumTo_counts_le {g : Nat → Nat} (hg : ∀ x < c.alph, g x ≤ 2 ^ 16) :
    (sumTo c.alph fun x => freq.getD x 0 * g x) ≤ 2 ^ 62 := by
  simp only [Config.valid, Bool.and_eq_true, decide_eq_true_eq] at hc
  have halph : c.alph ≤ 2 ^ 14 := Nat.pow_le_pow_right (by decide) (by omega)
  have hiw : 2 ^ c.iw ≤ 2 ^ 32 := Nat.pow_le_pow_right (by decide) (by omega)
  calc (sumTo c.alph fun x => freq.getD x 0 * g x) ≤ c.alph * (2 ^ 32 * 2 ^ 16) :=
        sumTo_le fun x hx => Nat.mul_le_mul ((hfit x hx).le.trans hiw) (hg x hx)
    _ ≤ 2 ^ 14 * (2 ^ 32 * 2 ^ 16) := Nat.mul_le_mul_right _ halph
    _ = 2 ^ 62 := by norm_num

theorem beforeOf_lt : beforeOf c freq < 2 ^ 63 := by
  have hsw := Config.sw_le hc
  refine (sumTo_counts_le hc hfit fun x _ => ?_).trans_lt (by norm_num)
  omega

theorem afterOf_lt (hT : T.size ≤ c.ncap) (fmt : HeaderFormat) : afterOf c fmt freq T < 2 ^ 63 := by
  have hncap := Config.ncap_le hc
  have hlen (x : Nat) : T.pathLen x ≤ 2 ^ 16 := by
    have := T.pathLen_lt_size x
    omega
  have hsum := sumTo_counts_le hc hfit fun x _ => hlen x
  have heof := hlen c.eofsym
  have hbits := CodeTree.bits_lt hc hT
  simp only [Config.valid, Bool.and_eq_true, decide_eq_true_eq] at hc
  have hiw : 2 ^ c.iw ≤ 2 ^ 32 := Nat.pow_le_pow_right (by decide) (by omega)
  have halph : c.alph * c.iw ≤ 2 ^ 14 * 32 :=
    Nat.mul_le_mul (Nat.pow_le_pow_right (by decide) (by omega)) (by omega)
  cases fmt <;> simp only [afterOf] <;> omega

/-- BITS_SAVED holds the difference (spec/45_driver.md R215). -/
theorem savings_toInt (hT : T.size ≤ c.ncap) (fmt : HeaderFormat) :
    (BitVec.ofInt 64 ((beforeOf c freq : Int) - (afterOf c fmt freq T : Int))).toInt =
      (beforeOf c freq : Int) - (afterOf c fmt freq T : Int) := by
  have hbefore := beforeOf_lt hc hfit
  have hafter := afterOf_lt hc hfit hT fmt
  refine BitVec.toInt_ofInt_eq_self (by decide) ?_ ?_ <;> norm_num <;> omega

end

/-! ### Copies of one symbol -/

theorem CodeTree.eq_node_of_size_eq_three (h : T.size = 3) : ∃ a b, T = .node (.leaf a) (.leaf b) := by
  cases T with
  | leaf x => cases h
  | node l r =>
    have hl := l.size_pos
    have hr := r.size_pos
    simp only [CodeTree.size] at h
    match l, r with
    | .leaf a, .leaf b => exact ⟨a, b, rfl⟩
    | .node l l', r =>
      have := l.size_pos
      simp only [CodeTree.size] at h
      omega
    | .leaf a, .node r r' =>
      have := r.size_pos
      simp only [CodeTree.size] at h
      omega

theorem CodeTree.pathLen_pair {a b : Nat} (hx : x ∈ (CodeTree.node (.leaf a) (.leaf b)).symbols) :
    (CodeTree.node (.leaf a) (.leaf b)).pathLen x = 1 := by
  obtain ⟨p, hp⟩ := CodeTree.exists_path_of_mem hx
  obtain ⟨c, q, rfl, hq⟩ := CodeTree.path_node_eq_some hp
  have hnil : q = [] := by
    cases c with
    | false => exact (CodeTree.path_leaf_eq_some hq).2
    | true => exact (CodeTree.path_leaf_eq_some hq).2
  rw [CodeTree.pathLen, hp, hnil]
  rfl

section
variable (hsym : sym < c.alph) (hfreq : ∀ x < c.alph, freq.getD x 0 = if x = sym then N else 0)
include hsym hfreq

/-- With one natural symbol the tree is two leaves. -/
theorem huffTree_of_one_symbol (hN : 1 ≤ N) (hT : huffTree c freq = some T) : ∃ a b, T = .node (.leaf a) (.leaf b) := by
  have hone : (List.range c.alph).countP (fun x => decide (0 < freq.getD x 0)) = 1 := by
    rw [← List.count_eq_one_of_mem List.nodup_range (List.mem_range.mpr hsym), List.count]
    refine List.countP_congr fun x hx => ?_
    rw [hfreq x (List.mem_range.mp hx)]
    by_cases hxs : x = sym
    · simp [hxs, Nat.lt_of_succ_le hN]
    · simp [hxs]
  have hsize := size_huffTree hT
  rw [leavesW_length, hone] at hsize
  exact CodeTree.eq_node_of_size_eq_three (by omega)

theorem sumTo_of_one_symbol (g : Nat → Nat) : (sumTo c.alph fun x => freq.getD x 0 * g x) = N * g sym := by
  rw [sumTo_eq_sum, Finset.sum_eq_single sym]
  · rw [hfreq sym hsym, if_pos rfl]
  · intro x hx hne
    rw [hfreq x (Finset.mem_range.mp hx), if_neg hne, Nat.zero_mul]
  · intro hout
    exact absurd (Finset.mem_range.mpr hsym) hout

/-- The closed form of the savings (spec/45_driver.md R215). -/
theorem savings_of_one_symbol (hN : 1 ≤ N) (hT : huffTree c freq = some T) :
    (beforeOf c freq : Int) - (afterOf c .tree freq T : Int) = ((c.sw : Int) - 1) * N - (3 * c.iw + 2 * c.sw + 6) := by
  have hmem : sym ∈ T.symbols := (mem_symbols_huffTree hT).mpr (.inr ⟨hsym, by rw [hfreq sym hsym, if_pos rfl]; exact hN⟩)
  have heof := eofsym_mem_huffTree hT
  obtain ⟨a, b, rfl⟩ := huffTree_of_one_symbol hsym hfreq hN hT
  have hafter : afterOf c .tree freq (.node (.leaf a) (.leaf b)) = 3 * c.iw + 2 * c.sw + 6 + N := by
    rw [afterOf, sumTo_of_one_symbol hsym hfreq, CodeTree.pathLen_pair hmem, CodeTree.pathLen_pair heof]
    simp only [CodeTree.bits]
    omega
  rw [beforeOf, sumTo_of_one_symbol hsym hfreq, hafter]
  push_cast
  ring

end

/-- Settles O48: the difference fits by the bounds on the two costs, and the closed form is that of the two-leaf tree. -/
theorem savingsAreExact : Obligations.SavingsAreExact := by
  intro s fmt hc hw hd hn hq hlen hfit
  obtain ⟨ns, root, T, hT, hplan, -, -⟩ := execPlan_plans hc hw hd hn hq hlen hfit fmt
  have hexact := savings_toInt hc (fun _ => countsOf_getD_lt hfit) (size_huffTree_le hc hT) fmt
  refine ⟨T, _, hT, hplan, hexact, fun N sym hfmt hN hsym hin => ?_⟩
  subst hfmt
  have hclosed : (s.planned .tree ns root T).bitsSaved.toInt =
      ((s.cfg.sw : Int) - 1) * N - (3 * s.cfg.iw + 2 * s.cfg.sw + 6) := by
    refine hexact.trans (savings_of_one_symbol hsym (fun x hx => ?_) hN hT)
    have hsyms : symbolsOf s.cfg.sw s.input = List.replicate N sym := by
      rw [hin]
      exact symbolsOf_symbolBits (Config.sw_pos hc) fun y hy => (List.eq_of_mem_replicate hy).trans_lt hsym
    rw [countsOf_getD hx, hsyms, List.count_replicate]
    simp only [beq_iff_eq, eq_comm (a := x)]
  refine ⟨hclosed, fun hsw hiw => ?_⟩
  rw [hclosed, hsw, hiw]
  omega

end Sys2Proof.Machine

end

section
/-!
PROOF. COMPRESS (spec/45_driver.md R216 to R218): the header, the codes of the symbols re-read from port IN, and the EOF code
are the stream of spec/30_encoding.md R102.
-/

namespace Sys2Proof.Machine

variable {s t u : State} {c : Config} {T : CodeTree} {syms freq : List Nat} {fuel x : Nat} {ovr : Bool} {fmt : HeaderFormat}

/-! ### The header -/

/-- The header of a stream (spec/30_encoding.md R102), from the counts of the natural symbols. -/
def headerOf (c : Config) (fmt : HeaderFormat) (counts : List Nat) (T : CodeTree) : List Bit :=
  match fmt with
  | .counts => toBits c.iw c.magic ++ (toBits c.iw c.selCounts ++ symbolBits c.iw counts)
  | .tree => toBits c.iw c.magic ++ (toBits c.iw c.selTree ++ (toBits c.iw (T.bits c.sw) ++ T.enc c.sw))

theorem streamOf_eq (c : Config) (fmt : HeaderFormat) (freq : List Nat) (T : CodeTree) (syms : List Nat) :
    streamOf c fmt freq T syms = headerOf c fmt (freq.take c.alph) T ++ codesOf T (syms ++ [c.eofsym]) := by
  cases fmt <;> simp [streamOf, headerOf, symbolBits]

/-- The counts of a header are sent one after the other (spec/45_driver.md R216). -/
theorem sendCounts_sends (hw : s.hostQuiet = true) (n sym : Nat) :
    sendCounts n sym s = .ok () (s.send (symbolBits s.cfg.iw ((List.range' sym n).map s.freqAt))) := by
  induction n generalizing s sym with
  | zero => rw [List.range'_zero, List.map_nil, symbolBits, List.flatMap_nil, send_nil]; rfl
  | succ n ih =>
    rw [sendCounts, get_bind_apply, bind_of_ok (outWrite_quiet _ _ hw), ih (by simpa using hw), send_send, List.range'_succ]
    rfl

/-- The header of the planned format is sent (spec/45_driver.md R216). -/
theorem sendHeader_sends (hw : s.hostQuiet = true) (hcap : s.nodes.length ≤ 0xFFFF) (hT : s.tree? s.rootRef = some T) :
    sendHeader s = .ok () (s.send (headerOf s.cfg s.pfmt ((List.range s.cfg.alph).map s.freqAt) T)) := by
  rw [sendHeader, get_bind_apply, bind_of_ok (outWrite_quiet _ _ hw), List.range_eq_range']
  cases s.pfmt with
  | counts =>
    refine (bind_of_ok (outWrite_quiet _ _ (by simpa using hw))).trans ?_
    rw [sendCounts_sends (by simpa using hw), send_send, send_send]
    rfl
  | tree =>
    refine (bind_of_ok (outWrite_quiet _ _ (by simpa using hw))).trans ?_
    refine (bind_of_ok (countTree_tree (s := (s.send _).send _) (t := T) hcap hT)).trans ?_
    refine (bind_of_ok (outWrite_quiet _ _ (by simpa using hw))).trans ?_
    refine (bind_of_ok (writeTree_treeAt (s := ((s.send _).send _).send _) (t := T) (by simpa using hw) hT)).trans ?_
    simp [headerOf]

/-- The counts a state holds are the entries of its frequency table. -/
theorem map_freqAt (h : s.freq.length = s.cfg.alph + 1) : (List.range s.cfg.alph).map s.freqAt = s.freq.take s.cfg.alph := by
  refine List.ext_getElem (by simp [h]) fun k _ hk => ?_
  have hlt : k < s.freq.length := hk.trans_le (List.length_take_le' _ _)
  rw [List.getElem_map, List.getElem_range, List.getElem_take, State.freqAt, List.getD_eq_getElem _ _ hlt]

/-! ### The codes -/

theorem State.Presents.send (h : s.Presents syms) (bits : List Bit) : (s.send bits).Presents syms :=
  ⟨h.quiet, h.sw_pos, h.input_fits, h.symbols, h.symbols_lt⟩

/-- A turn of the re-scan loop reads a symbol and sends its path (spec/45_driver.md R216). -/
theorem emitLoop_symbol (h : s.Presents (x :: syms)) : emitLoop (fuel + 1) s =
    (do let _ ← emitPath x; emitLoop fuel : Cmd Unit) (s.setIpos (s.pos + s.cfg.sw)) := by
  rw [emitLoop, get_bind_apply, bind_of_ok h.inRead_symbol]

theorem emitLoop_end (h : s.Presents []) : emitLoop (fuel + 1) s = .ok () s := by
  rw [emitLoop, get_bind_apply, bind_of_ok h.inRead_end]
  rfl

/-- The re-scan loop sends the codes of the symbols of port IN (spec/45_driver.md R216). -/
theorem emitLoop_sends (h : s.Presents syms) (hfuel : syms.length < fuel)
    (hpaths : ∀ x ∈ syms, s.pathAt x = T.path x ∧ x ∈ T.symbols) :
    emitLoop fuel s = .ok () ((s.setIpos (s.pos + syms.length * s.cfg.sw)).send (codesOf T syms)) := by
  obtain ⟨fuel, rfl⟩ := Nat.exists_eq_succ_of_ne_zero hfuel.ne_bot
  induction syms generalizing s fuel with
  | nil =>
    rw [emitLoop_end h, List.length_nil, Nat.zero_mul, setIpos_pos_self, codesOf, List.flatMap_nil, send_nil]
  | cons x syms ih =>
    obtain ⟨⟨hpath, hmem⟩, hrest⟩ := List.forall_mem_cons.mp hpaths
    obtain ⟨p, hp⟩ := CodeTree.exists_path_of_mem hmem
    obtain ⟨fuel, rfl⟩ := Nat.exists_eq_succ_of_ne_zero (Nat.lt_of_succ_lt_succ hfuel).ne_bot
    have hbehind := h.behind.send p
    have hpos : ((s.setIpos (s.pos + s.cfg.sw)).send p).pos = s.pos + s.cfg.sw := h.pos_behind
    have hend : s.pos + s.cfg.sw + syms.length * s.cfg.sw = s.pos + (x :: syms).length * s.cfg.sw := by
      rw [List.length_cons]
      ring
    rw [emitLoop_symbol h, bind_of_ok (emitPath_some h.behind.quiet (hpath.trans hp)),
      ih hbehind hrest _ (Nat.lt_of_succ_lt_succ hfuel), hpos]
    show EStateM.Result.ok () (((s.setIpos (s.pos + s.cfg.sw)).send p |>.setIpos
      (s.pos + s.cfg.sw + syms.length * s.cfg.sw)).send (codesOf T syms)) = _
    rw [hend, codesOf_cons hp, ← send_send]
    rfl

/-- `t` is `s` but for port IN's position and what has been sent. -/
structure SendApart (s t : State) : Prop where
  frame : t = { s with ipos := t.ipos, olog := t.olog }
  sent : s.olog <+: t.olog

theorem SendApart.trans (h : SendApart s u) (h' : SendApart u t) : SendApart s t := by
  refine ⟨?_, h.sent.trans h'.sent⟩
  rw [h'.frame, h.frame]

theorem SendApart.refl (s : State) : SendApart s s := ⟨rfl, List.prefix_rfl⟩

theorem sendApart_setIpos (s : State) (k : Nat) : SendApart s (s.setIpos k) := ⟨rfl, List.prefix_rfl⟩

theorem sendApart_send (s : State) (bits : List Bit) : SendApart s (s.send bits) := ⟨rfl, List.prefix_append _ _⟩

theorem SendApart.pathAt_eq (h : SendApart s t) (x : Nat) : t.pathAt x = s.pathAt x := by rw [h.frame]; rfl

theorem SendApart.hostQuiet_eq (h : SendApart s t) : t.hostQuiet = s.hostQuiet := by rw [h.frame]; rfl

/-- The re-scan loop sends until a symbol has no path, or all have (spec/45_driver.md R216). -/
theorem emitLoop_stops (h : s.Presents syms) (hfuel : syms.length < fuel) : ∃ t, SendApart s t ∧
    (emitLoop fuel s = .error (.raised .noPath) t ∨ emitLoop fuel s = .ok () t ∧ ∀ x ∈ syms, s.pathAt x ≠ none) := by
  obtain ⟨fuel, rfl⟩ := Nat.exists_eq_succ_of_ne_zero hfuel.ne_bot
  induction syms generalizing s fuel with
  | nil => exact ⟨s, .refl s, .inr ⟨emitLoop_end h, nofun⟩⟩
  | cons x syms ih =>
    have hsymbol := emitLoop_symbol (fuel := fuel) h
    cases hp : s.pathAt x with
    | none =>
      refine ⟨_, sendApart_setIpos s (s.pos + s.cfg.sw), .inl ?_⟩
      rw [hsymbol]
      exact bind_of_error (emitPath_none h.behind.quiet hp)
    | some p =>
      obtain ⟨fuel, rfl⟩ := Nat.exists_eq_succ_of_ne_zero (Nat.lt_of_succ_lt_succ hfuel).ne_bot
      obtain ⟨t, hapart, hstop⟩ := ih (h.behind.send p) _ (Nat.lt_of_succ_lt_succ hfuel)
      rw [bind_of_ok (emitPath_some h.behind.quiet hp)] at hsymbol
      refine ⟨t, ((sendApart_setIpos s _).trans (sendApart_send _ p)).trans hapart, ?_⟩
      rw [hsymbol]
      obtain hnone | ⟨hok, hall⟩ := hstop
      · exact .inl hnone
      · exact .inr ⟨hok, List.forall_mem_cons.mpr ⟨by rw [hp]; nofun, hall⟩⟩

/-! ### COMPRESS -/

theorem execCompress_notPlanned (hw : s.hostQuiet = true) (hd : s.dstate ≠ .planned) :
    exec (.compress ovr) s = .next (takeFault .notPlanned s) := by
  refine runCmd_raised hw ?_
  rw [if_pos hd]
  exact raise_quiet _ hw

theorem execCompress_refused (hw : s.hostQuiet = true) (hd : s.dstate = .planned) (hsaved : s.bitsSaved.toInt ≤ 0) :
    exec (.compress false) s = .next { s with ipos := 0, bitsWritten := 0, outcome := .refused, busy := false } := by
  refine runCmd_ok hw ?_
  rw [if_neg (not_not.mpr hd)]
  refine change_then _ hw ?_
  rw [if_pos ⟨hsaved, rfl⟩]
  exact change_then _ hw (done_quiet _ hw)

/-- COMPRESS behind its header: the codes and the number of bits sent since `start` (spec/45_driver.md R216). -/
def sendPayload (start : State) : Cmd Unit := do
  emitLoop (start.input.length + 1)
  let _ ← emitPath start.cfg.eofsym
  let t ← get
  change (·.setBitsWritten (BitVec.ofNat 64 (t.olog.length - start.olog.length)))
  done .ok

/-- The payload of the symbols of port IN (spec/45_driver.md R216). -/
theorem sendPayload_sends {start : State} (h : s.Presents syms) (hcfg : s.cfg = start.cfg)
    (hfuel : syms.length < start.input.length + 1)
    (hpaths : ∀ x ∈ syms ++ [s.cfg.eofsym], s.pathAt x = T.path x ∧ x ∈ T.symbols) :
    sendPayload start s = .ok () ((((s.setIpos (s.pos + syms.length * s.cfg.sw)).send
      (codesOf T (syms ++ [s.cfg.eofsym]))).setBitsWritten (BitVec.ofNat 64
        ((s.olog ++ codesOf T (syms ++ [s.cfg.eofsym])).length - start.olog.length))).endWith .ok) := by
  obtain ⟨hsyms, heof⟩ := List.forall_mem_append.mp hpaths
  obtain ⟨hpath, hmem⟩ := List.forall_mem_singleton.mp heof
  obtain ⟨p, hp⟩ := CodeTree.exists_path_of_mem hmem
  have hw : ((s.setIpos (s.pos + syms.length * s.cfg.sw)).send (codesOf T syms)).hostQuiet = true := h.quiet
  rw [sendPayload, bind_of_ok (emitLoop_sends h hfuel hsyms), ← hcfg,
    bind_of_ok (emitPath_some hw (hpath.trans hp)), send_send, codesOf_append, codesOf_singleton hp]
  exact change_then _ hw (done_quiet _ hw)

section
variable (hc : s.cfg.valid = true) (hw : s.hostQuiet = true) (hd : s.dstate = .planned)
  (hnot : 0 < s.bitsSaved.toInt ∨ ovr = true) (hcap : s.nodes.length ≤ 0xFFFE) (hlen : s.input.length < 2 ^ 64)
  (hT : s.tree? s.rootRef = some T)
include hc hw hlen

/-- The rewound port IN behind the header presents the input, and the loop is given turns enough. -/
theorem presents_rewound (bits : List Bit) : ((s.setIpos 0).send bits).Presents (symbolsOf s.cfg.sw s.input) ∧
    (symbolsOf s.cfg.sw s.input).length < s.input.length + 1 := by
  have hsw := Config.sw_pos hc
  refine ⟨(presents_symbolsOf hsw hw hlen).send _, ?_⟩
  rw [symbolsOf_length hsw]
  exact Nat.lt_succ_of_le (Nat.div_le_self _ _)

include hd hnot hcap hT

omit hc hlen in
/-- COMPRESS that is not refused sends the header and goes on (spec/45_driver.md R216). -/
theorem execCompress_emits : exec (.compress ovr) s = settle
    (sendPayload s ((s.setIpos 0).send (headerOf s.cfg s.pfmt ((List.range s.cfg.alph).map s.freqAt) T))) := by
  have hgo : ¬ (s.bitsSaved.toInt ≤ 0 ∧ ovr = false) := by
    rintro ⟨hle, rfl⟩
    exact hnot.elim hle.not_gt nofun
  refine (runCmd_quiet _ hw).trans (congrArg settle ?_)
  rw [if_neg (not_not.mpr hd)]
  refine change_then _ hw ?_
  rw [if_neg hgo]
  exact bind_of_ok (sendHeader_sends (s := s.setIpos 0) hw (hcap.trans (by decide)) hT)

/-- COMPRESS sends the stream of the plan (spec/45_driver.md R216). -/
theorem execCompress_sends (hpt : s.pt = T.table s.cfg.eofsym) (hfreq : s.freq.length = s.cfg.alph + 1)
    (hmem : ∀ x ∈ symbolsOf s.cfg.sw s.input ++ [s.cfg.eofsym], x ∈ T.symbols) :
    exec (.compress ovr) s = .next { s with
      ipos := BitVec.ofNat 64 (s.input.length / s.cfg.sw * s.cfg.sw)
      olog := s.olog ++ streamOf s.cfg s.pfmt s.freq T (symbolsOf s.cfg.sw s.input)
      bitsWritten := BitVec.ofNat 64 (streamOf s.cfg s.pfmt s.freq T (symbolsOf s.cfg.sw s.input)).length
      outcome := .ok
      busy := false } := by
  obtain ⟨hpresents, hfuel⟩ := presents_rewound hc hw hlen (headerOf s.cfg s.pfmt (s.freq.take s.cfg.alph) T)
  have hpaths : ∀ x ∈ symbolsOf s.cfg.sw s.input ++ [s.cfg.eofsym], s.pathAt x = T.path x ∧ x ∈ T.symbols := fun x hx => by
    refine ⟨pathAt_table hpt ?_, hmem x hx⟩
    obtain hsym | heof := List.mem_append.mp hx
    · exact (symbolsOf_lt (Config.sw_pos hc) hsym).le
    · exact (List.mem_singleton.mp heof).le
  rw [execCompress_emits hw hd hnot hcap hT, map_freqAt hfreq, sendPayload_sends (start := s) hpresents rfl hfuel hpaths,
    settle_ok, symbolsOf_length (Config.sw_pos hc), streamOf_eq]
  simp [State.setIpos, State.send, State.setBitsWritten, State.endWith]

/-- COMPRESS on an input with a symbol that has no path (spec/45_driver.md R216). -/
theorem execCompress_noPath (hnone : ∃ x ∈ symbolsOf s.cfg.sw s.input ++ [s.cfg.eofsym], s.pathAt x = none) :
    ∃ t, exec (.compress ovr) s = .next (takeFault .noPath t) ∧ SendApart s t := by
  obtain ⟨hpresents, hfuel⟩ := presents_rewound hc hw hlen
    (headerOf s.cfg s.pfmt ((List.range s.cfg.alph).map s.freqAt) T)
  have hheader := (sendApart_setIpos s 0).trans (sendApart_send _
    (headerOf s.cfg s.pfmt ((List.range s.cfg.alph).map s.freqAt) T))
  obtain ⟨t, hloop, hstop⟩ := emitLoop_stops hpresents hfuel
  have hapart := hheader.trans hloop
  refine ⟨t, ?_, hapart⟩
  rw [execCompress_emits hw hd hnot hcap hT, sendPayload]
  obtain hstop | ⟨hok, hall⟩ := hstop
  · rw [bind_of_error hstop, settle_raised]
  · have heof : t.pathAt s.cfg.eofsym = none := by
      obtain ⟨x, hx, hx0⟩ := hnone
      obtain hsym | hx := List.mem_append.mp hx
      · exact absurd hx0 (hall x hsym)
      · rw [hapart.pathAt_eq, ← List.mem_singleton.mp hx, hx0]
    rw [bind_of_ok hok, bind_of_error (emitPath_none (hapart.hostQuiet_eq.trans hw) heof), settle_raised]

end

/-- Settles O49: the checks of the plan, the stream, and a symbol without a path. -/
theorem compressSendsTheStream : Obligations.CompressSendsTheStream := by
  intro s ovr hc hw
  refine ⟨execCompress_notPlanned hw, fun hd hsaved hovr => ?_, fun T hd hnot hcap hlen hT hpt hfreq hmem =>
    execCompress_sends hc hw hd hnot hcap hlen hT hpt hfreq hmem, fun T hd hnot hcap hlen hT hnone _ => ?_⟩
  · rw [hovr]
    exact execCompress_refused hw hd hsaved
  · obtain ⟨x, hx, hx0⟩ := hnone
    obtain ⟨t, ht, hapart⟩ := execCompress_noPath hc hw hd hnot hcap hlen hT ⟨x, hx, pathAt_of_getElem? hx0⟩
    refine ⟨t, ht, hapart.sent, ?_⟩
    rw [hapart.frame]
    exact ⟨hd, rfl, rfl, rfl, rfl⟩

/-! ### The size of the stream -/

theorem codesOf_length (T : CodeTree) (syms : List Nat) : (codesOf T syms).length = (syms.map T.pathLen).sum := by
  rw [codesOf, List.length_flatMap]
  rfl

/-- A sum over symbols is one over their counts. -/
theorem sum_map_eq_sumTo {n : Nat} (h : ∀ x ∈ syms, x < n) (g : Nat → Nat) :
    (syms.map g).sum = sumTo n fun x => syms.count x * g x := by
  rw [sumTo_eq_sum, Finset.sum_list_map_count]
  refine Finset.sum_subset (fun x hx => Finset.mem_range.mpr (h x (List.mem_toFinset.mp hx))) fun x _ hx => ?_
  rw [List.count_eq_zero.mpr fun hmem => hx (List.mem_toFinset.mpr hmem), zero_smul]

theorem sumTo_congr {n : Nat} {f g : Nat → Nat} (h : ∀ x < n, f x = g x) : sumTo n f = sumTo n g := by
  rw [sumTo_eq_sum, sumTo_eq_sum]
  exact Finset.sum_congr rfl fun x hx => h x (Finset.mem_range.mp hx)

/-- The stream of an input is as long as BitsAfter says (spec/45_driver.md R214, R218). -/
theorem streamOf_length (hc : c.valid = true) (fmt : HeaderFormat) (T : CodeTree) (bits : List Bit) :
    (streamOf c fmt (countsOf c bits) T (symbolsOf c.sw bits)).length = afterOf c fmt (countsOf c bits) T := by
  have hcodes : (sumTo c.alph fun x => (countsOf c bits).getD x 0 * T.pathLen x) = (codesOf T (symbolsOf c.sw bits)).length := by
    rw [codesOf_length, sum_map_eq_sumTo fun x hx => symbolsOf_lt (Config.sw_pos hc) hx]
    exact sumTo_congr fun x hx => by rw [countsOf_getD hx]
  have heof : (codesOf T [c.eofsym]).length = T.pathLen c.eofsym := by
    rw [codesOf_length]
    exact Nat.add_zero _
  have hcounts : ((countsOf c bits).take c.alph).length = c.alph :=
    List.length_take_of_le ((Nat.le_succ _).trans_eq (countsOf_length c bits).symm)
  rw [streamOf_eq, codesOf_append, List.length_append, List.length_append, heof, ← hcodes]
  cases fmt with
  | counts =>
    simp only [headerOf, afterOf, List.length_append, toBits_length, symbolBits_length, hcounts]
    ring
  | tree =>
    simp only [headerOf, afterOf, List.length_append, toBits_length, CodeTree.enc_length]
    ring

/-- The symbols of an input, and EOFSYM, are in its tree. -/
theorem mem_huffTree_countsOf (hc : c.valid = true) {bits : List Bit} (hT : huffTree c (countsOf c bits) = some T) :
    ∀ x ∈ symbolsOf c.sw bits ++ [c.eofsym], x ∈ T.symbols := by
  intro x hx
  rw [mem_symbols_huffTree hT]
  obtain hsym | heof := List.mem_append.mp hx
  · have hlt := symbolsOf_lt (Config.sw_pos hc) hsym
    exact .inr ⟨hlt, by rw [countsOf_getD hlt]; exact List.count_pos_iff.mpr hsym⟩
  · exact .inl (List.mem_singleton.mp heof)

/-- The state holds the plan of the input on port IN, whose tree is `T` (spec/45_driver.md R212). -/
structure State.HoldsPlan (s : State) (T : CodeTree) : Prop where
  valid : s.cfg.valid = true
  planned : s.dstate = .planned
  input_fits : s.input.length < 2 ^ 64
  nodes_le : s.nodes.length ≤ 0xFFFE
  tree : s.tree? s.rootRef = some T
  table : s.pt = T.table s.cfg.eofsym
  counts : s.freq = countsOf s.cfg s.input
  tree_of_counts : huffTree s.cfg (countsOf s.cfg s.input) = some T

/-- PLAN leaves the plan (spec/45_driver.md R212). -/
theorem execPlan_holdsPlan (hc : s.cfg.valid = true) (hw : s.hostQuiet = true) (hd : s.dstate = .clean) (hn : s.nodes = [])
    (hq : s.queue = []) (hlen : s.input.length < 2 ^ 64) (hfit : ∀ n ∈ countsOf s.cfg s.input, n < 2 ^ s.cfg.iw)
    (fmt : HeaderFormat) : ∃ ns root T, exec (.plan fmt) s = .next (s.planned fmt ns root T) ∧
      (s.planned fmt ns root T).HoldsPlan T := by
  obtain ⟨ns, root, T, hT, hplan, htree, hns⟩ := execPlan_plans hc hw hd hn hq hlen hfit fmt
  exact ⟨ns, root, T, hplan, hc, rfl, hlen, records_le_of_leavesW hc hns, htree, rfl, rfl, hT⟩

/-- COMPRESS of the plan sends the stream of its input (spec/45_driver.md R218). -/
theorem State.HoldsPlan.compress (h : s.HoldsPlan T) (hw : s.hostQuiet = true)
    (hnot : 0 < s.bitsSaved.toInt ∨ ovr = true) : exec (.compress ovr) s = .next { s with
      ipos := BitVec.ofNat 64 (s.input.length / s.cfg.sw * s.cfg.sw)
      olog := s.olog ++ streamOf s.cfg s.pfmt (countsOf s.cfg s.input) T (symbolsOf s.cfg.sw s.input)
      bitsWritten := BitVec.ofNat 64 (streamOf s.cfg s.pfmt (countsOf s.cfg s.input) T (symbolsOf s.cfg.sw s.input)).length
      outcome := .ok
      busy := false } := by
  have hfreq : s.freq.length = s.cfg.alph + 1 := by rw [h.counts, countsOf_length]
  rw [← h.counts]
  exact execCompress_sends h.valid hw h.planned hnot h.nodes_le h.input_fits h.tree h.table hfreq
    (mem_huffTree_countsOf h.valid h.tree_of_counts)

/-- Settles O50: PLAN leaves the plan, of which COMPRESS sends the stream, and the stream's length is BitsAfter. -/
theorem compressedSizeIsBitsAfter : Obligations.CompressedSizeIsBitsAfter := by
  intro s p fmt ovr T hc hw hd hn hq hlen hfit hplan hnot hT
  obtain ⟨ns, root, U, hplans, hholds⟩ := execPlan_holdsPlan hc hw hd hn hq hlen hfit fmt
  obtain rfl := Host.Outcome.next.inj (hplans.symm.trans hplan)
  obtain rfl := Option.some.inj (hholds.tree_of_counts.symm.trans hT)
  have hsize := streamOf_length hc fmt U s.input
  have hquiet : (s.planned fmt ns root U).hostQuiet = true := hw
  refine ⟨_, hholds.compress hquiet hnot, rfl, rfl, ?_, congrArg (BitVec.ofNat 64) hsize⟩
  rw [← hsize]
  exact List.length_append

end Sys2Proof.Machine

end

section
/-!
PROOF. The header of DECOMPRESS (spec/45_driver.md R220, R221): the magic number, the selector, and the counts or the tree.
-/

namespace Sys2Proof

variable {c : Config}

theorem Config.iw_le (h : c.valid = true) : c.iw ≤ 32 := by
  simp only [Config.valid, Bool.and_eq_true, decide_eq_true_eq] at h
  omega

theorem Config.magic_lt (h : c.valid = true) : c.magic < 2 ^ c.iw := by
  simp only [Config.valid, Bool.and_eq_true, decide_eq_true_eq] at h
  omega

/-- The two selectors are distinct IW-bit values (spec/30_encoding.md R102). -/
theorem Config.selectors (h : c.valid = true) : c.selCounts < 2 ^ c.iw ∧ c.selTree < 2 ^ c.iw ∧ c.selCounts ≠ c.selTree := by
  simp only [Config.valid, Bool.and_eq_true, decide_eq_true_eq] at h
  omega

end Sys2Proof

namespace Sys2Proof.Machine

variable {s t u : State} {f : FaultCode} {T : CodeTree} {bits rest : List Bit} {cs freq : List Nat} {k m sym x sel size : Nat}

/-! ### Fields at a position of port IN -/

section
variable (hw : s.hostQuiet = true) (hk : k < 2 ^ 64)
include hw hk

theorem inRead_at {v : Nat} (hiw : 0 < s.cfg.iw) (hv : v < 2 ^ s.cfg.iw) (hin : s.input.drop k = toBits s.cfg.iw v ++ rest) :
    inRead s.cfg.iw (s.setIpos k) = .ok (some v) (s.setIpos (k + s.cfg.iw)) := by
  have hpos : (s.setIpos k).pos = k := State.setIpos_toNat s hk
  have hread := inRead_toBits (s := s.setIpos k) hw hiw hv (by rw [hpos]; exact hin)
  rwa [hpos] at hread

theorem inRead_short_at (hshort : (s.input.drop k).length < s.cfg.iw) :
    inRead s.cfg.iw (s.setIpos k) = .ok none (s.setIpos k) := by
  have hpos : (s.setIpos k).pos = k := State.setIpos_toNat s hk
  exact inRead_tail (s := s.setIpos k) hw (congrArg (List.drop · s.input) hpos) hshort

end

/-! ### The magic number -/

theorem execDecompress_notClean (hw : s.hostQuiet = true) (hd : s.dstate ≠ .clean) :
    exec .decompress s = .next (takeFault .notClean s) := by
  refine runCmd_raised hw ?_
  rw [if_pos hd]
  exact raise_quiet _ hw

theorem endBadMagic_quiet (hw : s.hostQuiet = true) :
    endBadMagic s = .ok () (((s.setBitsWritten 0).setDState .used).endWith .badMagic) :=
  change_then _ hw (change_then _ hw (done_quiet _ hw))

theorem execDecompress_shortMagic (hw : s.hostQuiet = true) (hd : s.dstate = .clean) (hshort : s.input.length < s.cfg.iw) :
    exec .decompress s = .next ((((s.setIpos 0).setBitsWritten 0).setDState .used).endWith .badMagic) := by
  refine runCmd_ok hw ?_
  rw [if_neg (not_not.mpr hd)]
  refine change_then _ hw ?_
  rw [bind_of_ok (inRead_short_at (k := 0) hw (by decide) hshort)]
  exact endBadMagic_quiet (s := s.setIpos 0) hw

theorem execDecompress_wrongMagic (hw : s.hostQuiet = true) (hd : s.dstate = .clean) (hlong : s.cfg.iw ≤ s.input.length)
    (hmagic : ofBits (s.input.take s.cfg.iw) ≠ s.cfg.magic) :
    exec .decompress s = .next ((((s.setIpos s.cfg.iw).setBitsWritten 0).setDState .used).endWith .badMagic) := by
  have hread : inRead s.cfg.iw (s.setIpos 0) = .ok (some (ofBits (s.input.take s.cfg.iw))) (s.setIpos s.cfg.iw) := by
    have h := inRead_bits (s := s.setIpos 0) (n := s.cfg.iw) hw (by simpa using hlong)
    rwa [show (s.setIpos 0).pos = 0 from rfl, Nat.zero_add] at h
  refine runCmd_ok hw ?_
  rw [if_neg (not_not.mpr hd)]
  refine change_then _ hw ?_
  rw [bind_of_ok hread]
  exact (congrFun (if_pos hmagic) _).trans (endBadMagic_quiet (s := s.setIpos s.cfg.iw) hw)

/-- Settles O53: fewer than IW bits, and IW bits that are not MAGIC. -/
theorem wrongMagicIsReported : Obligations.WrongMagicIsReported :=
  fun _ hw hd => ⟨execDecompress_shortMagic hw hd, execDecompress_wrongMagic hw hd⟩

section
variable (hc : s.cfg.valid = true) (hw : s.hostQuiet = true) (hd : s.dstate = .clean)
  (hin : s.input = toBits s.cfg.iw s.cfg.magic ++ rest)
include hc hw hd hin

/-- Behind its magic number DECOMPRESS reads the header and decodes (spec/45_driver.md R220). -/
theorem execDecompress_magic : exec .decompress s =
    settle ((do readHeader; decodeStart; decodeAndEnd false : Cmd Unit) (s.setIpos s.cfg.iw)) := by
  refine (runCmd_quiet _ hw).trans (congrArg settle ?_)
  rw [if_neg (not_not.mpr hd)]
  refine change_then _ hw ?_
  rw [bind_of_ok (inRead_at (k := 0) hw (by decide) (Config.iw_pos hc) (Config.magic_lt hc) hin), Nat.zero_add]
  exact congrFun (if_neg (not_not.mpr rfl)) _

theorem execDecompress_headerStops (hstop : readHeader (s.setIpos s.cfg.iw) = .error (.raised f) t) :
    exec .decompress s = .next (takeFault f t) := by
  rw [execDecompress_magic hc hw hd hin, bind_of_error hstop, settle_raised]

/-- Behind its header DECOMPRESS decodes from the root (spec/45_driver.md R220). -/
theorem execDecompress_payload (hhead : readHeader (s.setIpos s.cfg.iw) = .ok () t) (hwt : t.hostQuiet = true) :
    exec .decompress s = settle (decodeAndEnd false t.decodeStarted) := by
  rw [execDecompress_magic hc hw hd hin, bind_of_ok hhead]
  exact congrArg settle (change_then _ hwt rfl)

end

/-! ### The selector -/

section
variable (hc : s.cfg.valid = true) (hw : s.hostQuiet = true)
include hc hw

omit hw in
/-- The positions of the header's fields. -/
theorem fieldPos_lt (hm : m ≤ 3) : m * s.cfg.iw < 2 ^ 64 := by
  have h := Nat.mul_le_mul hm (Config.iw_le hc)
  omega

omit hw in
theorem iw_lt : s.cfg.iw < 2 ^ 64 := by simpa using fieldPos_lt (m := 1) hc (by decide)

theorem readHeader_noSelector (hshort : (s.input.drop s.cfg.iw).length < s.cfg.iw) :
    readHeader (s.setIpos s.cfg.iw) = .error (.raised .inputExhausted) (s.setIpos s.cfg.iw) := by
  rw [readHeader, get_bind_apply]
  refine (bind_of_ok (inRead_short_at hw (iw_lt hc) hshort)).trans ?_
  exact raise_quiet (s := s.setIpos s.cfg.iw) _ hw

/-- The selector of the flat table is followed by the counts (spec/45_driver.md R220). -/
theorem readHeader_counts (hin : s.input.drop s.cfg.iw = toBits s.cfg.iw s.cfg.selCounts ++ rest) :
    readHeader (s.setIpos s.cfg.iw) = (do
      readCounts s.cfg.alph 0
      modify fun t => t.setFreq (t.freq.set t.cfg.eofsym 1)
      buildFromFreq : Cmd Unit) (s.setIpos (2 * s.cfg.iw)) := by
  rw [readHeader, get_bind_apply, Nat.two_mul]
  refine (bind_of_ok (inRead_at hw (iw_lt hc) (Config.iw_pos hc) (Config.selectors hc).1 hin)).trans ?_
  exact congrFun (if_pos rfl) _

/-- Another selector is a fault (spec/45_driver.md R220). -/
theorem readHeader_badFormat (hsel : sel < 2 ^ s.cfg.iw) (hcounts : sel ≠ s.cfg.selCounts) (htree : sel ≠ s.cfg.selTree)
    (hin : s.input.drop s.cfg.iw = toBits s.cfg.iw sel ++ rest) :
    readHeader (s.setIpos s.cfg.iw) = .error (.raised .badFormat) (s.setIpos (2 * s.cfg.iw)) := by
  rw [readHeader, get_bind_apply, Nat.two_mul]
  refine (bind_of_ok (inRead_at hw (iw_lt hc) (Config.iw_pos hc) hsel hin)).trans ?_
  refine (congrFun (if_neg hcounts) _).trans ((congrFun (if_neg htree) _).trans ?_)
  exact raise_quiet (s := s.setIpos _) _ hw

/-- The selector of the tree-shape header is followed by a size field. -/
theorem readHeader_noSize (hin : s.input.drop s.cfg.iw = toBits s.cfg.iw s.cfg.selTree ++ rest)
    (hshort : (s.input.drop (2 * s.cfg.iw)).length < s.cfg.iw) :
    readHeader (s.setIpos s.cfg.iw) = .error (.raised .inputExhausted) (s.setIpos (2 * s.cfg.iw)) := by
  obtain ⟨-, htree, hne⟩ := Config.selectors hc
  rw [readHeader, get_bind_apply]
  refine (bind_of_ok (inRead_at hw (iw_lt hc) (Config.iw_pos hc) htree hin)).trans ?_
  refine (congrFun (if_neg hne.symm) _).trans ((congrFun (if_pos rfl) _).trans ?_)
  rw [← Nat.two_mul]
  refine (bind_of_ok (inRead_short_at hw (fieldPos_lt (m := 2) hc (by decide)) hshort)).trans ?_
  exact raise_quiet (s := s.setIpos _) _ hw

/-- The selector of the tree-shape header and its size field are followed by the tree (spec/45_driver.md R220). -/
theorem readHeader_tree (hsize : size < 2 ^ s.cfg.iw)
    (hin : s.input.drop s.cfg.iw = toBits s.cfg.iw s.cfg.selTree ++ (toBits s.cfg.iw size ++ rest)) :
    readHeader (s.setIpos s.cfg.iw) = (do
      let n ← readTree
      if n ≠ size then raise .treeSizeMismatch else pure () : Cmd Unit) (s.setIpos (3 * s.cfg.iw)) := by
  obtain ⟨-, htree, hne⟩ := Config.selectors hc
  have hin2 : s.input.drop (2 * s.cfg.iw) = toBits s.cfg.iw size ++ rest := by
    rw [Nat.two_mul]
    exact drop_field (toBits_length _ _) hin
  rw [readHeader, get_bind_apply]
  refine (bind_of_ok (inRead_at hw (iw_lt hc) (Config.iw_pos hc) htree hin)).trans ?_
  refine (congrFun (if_neg hne.symm) _).trans ((congrFun (if_pos rfl) _).trans ?_)
  rw [← Nat.two_mul, show 3 * s.cfg.iw = 2 * s.cfg.iw + s.cfg.iw by omega]
  exact bind_of_ok (inRead_at hw (fieldPos_lt (m := 2) hc (by decide)) (Config.iw_pos hc) hsize hin2)

end

/-! ### The flat table -/

/-- A frequency table with `cs` entered from symbol `sym` on. -/
def enterCounts (freq : List Nat) (sym : Nat) : List Nat → List Nat
  | [] => freq
  | n :: cs => enterCounts (freq.set sym n) (sym + 1) cs

/-- ReadCounts takes one count after the other from port IN (spec/45_driver.md R220). -/
theorem readCounts_enters (hw : s.hostQuiet = true) (hiw : 0 < s.cfg.iw) (hk : k + cs.length * s.cfg.iw < 2 ^ 64)
    (hfit : ∀ n ∈ cs, n < 2 ^ s.cfg.iw) (hin : s.input.drop k = symbolBits s.cfg.iw cs ++ rest) :
    readCounts (cs.length + m) sym (s.setIpos k) =
      readCounts m (sym + cs.length) ((s.setIpos (k + cs.length * s.cfg.iw)).setFreq (enterCounts s.freq sym cs)) := by
  induction cs generalizing s k sym with
  | nil => simp [enterCounts, State.setFreq, State.setIpos]
  | cons n cs ih =>
    obtain ⟨hn, hcs⟩ := List.forall_mem_cons.mp hfit
    rw [List.length_cons, Nat.succ_mul] at hk
    rw [symbolBits_cons, List.append_assoc] at hin
    have hrest : s.input.drop (k + s.cfg.iw) = symbolBits s.cfg.iw cs ++ rest := drop_field (toBits_length _ _) hin
    have hend : k + s.cfg.iw + cs.length * s.cfg.iw = k + (n :: cs).length * s.cfg.iw := by
      rw [List.length_cons]
      ring
    have hcounts := ih (s := s.setFreq (s.freq.set sym n)) (sym := sym + 1) (k := k + s.cfg.iw) hw hiw
      (show k + s.cfg.iw + cs.length * s.cfg.iw < _ by omega) hcs hrest
    rw [show (n :: cs).length + m = cs.length + m + 1 by simp only [List.length_cons]; omega, readCounts, get_bind_apply]
    refine (bind_of_ok (inRead_at hw (by omega) hiw hn hin)).trans (hcounts.trans ?_)
    rw [List.length_cons, ← Nat.add_assoc sym, Nat.add_right_comm sym]
    exact congrArg (fun j => readCounts m _ ((s.setIpos j).setFreq _)) hend

/-- ReadCounts at the end of port IN (spec/45_driver.md R220). -/
theorem readCounts_short (hw : s.hostQuiet = true) (hk : k < 2 ^ 64) (hshort : (s.input.drop k).length < s.cfg.iw) :
    readCounts (m + 1) sym (s.setIpos k) = .error (.raised .inputExhausted) (s.setIpos k) := by
  rw [readCounts, get_bind_apply]
  exact (bind_of_ok (inRead_short_at hw hk hshort)).trans (raise_quiet (s := s.setIpos k) _ hw)

end Sys2Proof.Machine

end

section
/-!
PROOF. What the header of DECOMPRESS leaves (spec/45_driver.md R220): a filled frequency table and its tree, or the tree that the
header encodes; and where it faults (spec/43_serialize.md R172).
-/

namespace Sys2Proof.Machine

variable {s t u : State} {f : FaultCode} {T : CodeTree} {bits rest : List Bit} {cs freq : List Nat} {k m n sym x size : Nat}

/-! ### The flat table -/

/-- Entering counts behind `pre` in a table with room for them. -/
theorem enterCounts_append (pre old : List Nat) (h : cs.length ≤ old.length) :
    enterCounts (pre ++ old) pre.length cs = pre ++ cs ++ old.drop cs.length := by
  induction cs generalizing pre old with
  | nil => simp [enterCounts]
  | cons n cs ih =>
    cases old with
    | nil => simp at h
    | cons o old =>
      have hstep := ih (pre ++ [n]) old (Nat.le_of_succ_le_succ h)
      rw [List.length_append, List.length_singleton] at hstep
      simpa [enterCounts] using hstep

/-- The counts of all natural symbols, then EOFSYM's, are the whole table (spec/45_driver.md R220). -/
theorem enterCounts_all (hfreq : freq.length = cs.length + 1) : (enterCounts freq 0 cs).set cs.length 1 = cs ++ [1] := by
  have henter := enterCounts_append [] freq (cs := cs) (by omega)
  obtain ⟨y, hy⟩ := List.length_eq_one_iff.mp (show (freq.drop cs.length).length = 1 by rw [List.length_drop]; omega)
  rw [List.nil_append, List.length_nil, List.nil_append, hy] at henter
  rw [henter]
  simp

theorem enterCounts_getD_below (h : x < sym) : (enterCounts freq sym cs).getD x 0 = freq.getD x 0 := by
  induction cs generalizing freq sym with
  | nil => rfl
  | cons n cs ih =>
    rw [enterCounts, ih (h.trans (Nat.lt_succ_self _)), List.getD_eq_getElem?_getD, List.getElem?_set_ne h.ne',
      List.getD_eq_getElem?_getD]

/-- An entry of a table of any size is the count entered, or there is none. -/
theorem enterCounts_getD_lt {b : Nat} (hb : 0 < b) (hfit : ∀ n ∈ cs, n < b) (hle : sym ≤ x) (hlt : x < sym + cs.length) :
    (enterCounts freq sym cs).getD x 0 < b := by
  induction cs generalizing freq sym with
  | nil => exact absurd hlt (Nat.not_lt.mpr hle)
  | cons n cs ih =>
    obtain ⟨hn, hcs⟩ := List.forall_mem_cons.mp hfit
    rw [List.length_cons] at hlt
    obtain rfl | hlt' := hle.eq_or_lt
    · rw [enterCounts, enterCounts_getD_below (Nat.lt_succ_self _)]
      by_cases hroom : sym < freq.length
      · simpa [hroom] using hn
      · simpa [hroom] using hb
    · exact ih hcs hlt' (by omega)

/-- The frequency table that a flat-table header leaves (spec/45_driver.md R220). -/
def State.entered (s : State) (cs : List Nat) : List Nat := (enterCounts s.freq 0 cs).set s.cfg.eofsym 1

theorem entered_all (hfreq : s.freq.length = s.cfg.alph + 1) (hcs : cs.length = s.cfg.alph) : s.entered cs = cs ++ [1] := by
  have hall := enterCounts_all (cs := cs) (freq := s.freq) (hcs ▸ hfreq)
  rwa [hcs] at hall

/-- What goes on from equal results goes on equally. -/
theorem bind_congr_at {α β : Type} {a b : Cmd α} {g : α → Cmd β} (h : a s = b t) : (a >>= g) s = (b >>= g) t := by
  simp only [bind, EStateM.bind, h]

theorem tableEnd_lt (hc : s.cfg.valid = true) (hm : m ≤ s.cfg.alph) : 2 * s.cfg.iw + m * s.cfg.iw < 2 ^ 64 := by
  have hiw := Config.iw_le hc
  have halph : s.cfg.alph ≤ 2 ^ 14 := Nat.pow_le_pow_right (by decide) (Config.sw_le hc)
  have hcounts := Nat.mul_le_mul (hm.trans halph) hiw
  omega

section
variable (hc : s.cfg.valid = true) (hw : s.hostQuiet = true) (hcs : ∀ n ∈ cs, n < 2 ^ s.cfg.iw)
  (hin : s.input.drop s.cfg.iw = toBits s.cfg.iw s.cfg.selCounts ++ (symbolBits s.cfg.iw cs ++ rest))
include hc hw hcs hin

/-- The state in which ReadCounts has entered `cs`. -/
theorem readHeader_enters (hlen : cs.length + m = s.cfg.alph) : readHeader (s.setIpos s.cfg.iw) = (do
      readCounts m cs.length
      modify fun t => t.setFreq (t.freq.set t.cfg.eofsym 1)
      buildFromFreq : Cmd Unit)
    ((s.setIpos (2 * s.cfg.iw + cs.length * s.cfg.iw)).setFreq (enterCounts s.freq 0 cs)) := by
  have hin2 : s.input.drop (2 * s.cfg.iw) = symbolBits s.cfg.iw cs ++ rest := by
    rw [Nat.two_mul]
    exact drop_field (toBits_length _ _) hin
  have hpos := tableEnd_lt hc (m := cs.length) (by omega)
  have hcounts := readCounts_enters (m := m) (sym := 0) hw (Config.iw_pos hc) hpos hcs hin2
  rw [readHeader_counts hc hw hin, ← hlen, bind_congr_at hcounts, Nat.zero_add]

/-- Counts cut short (spec/45_driver.md R220). -/
theorem readHeader_cutCounts (hlen : cs.length < s.cfg.alph) (hshort : rest.length < s.cfg.iw) :
    readHeader (s.setIpos s.cfg.iw) = .error (.raised .inputExhausted)
      ((s.setIpos (2 * s.cfg.iw + cs.length * s.cfg.iw)).setFreq (enterCounts s.freq 0 cs)) := by
  obtain ⟨m, hm⟩ := Nat.exists_eq_add_of_lt hlen
  have hrest : s.input.drop (2 * s.cfg.iw + cs.length * s.cfg.iw) = rest := by
    rw [Nat.two_mul]
    exact drop_field (symbolBits_length _ _) (drop_field (toBits_length _ _) hin)
  rw [readHeader_enters (m := m + 1) hc hw hcs hin (by omega)]
  exact bind_of_error (readCounts_short (s := s.setFreq (enterCounts s.freq 0 cs)) hw (tableEnd_lt hc hlen.le) (hrest ▸ hshort))

/-- A whole flat table on an empty pool and queue leaves its tree at the root (spec/45_driver.md R220, R143). -/
theorem readHeader_table (hlen : cs.length = s.cfg.alph) (hn : s.nodes = []) (hq : s.queue = []) :
    ∃ ns root T, huffTree s.cfg (s.entered cs) = some T ∧ readHeader (s.setIpos s.cfg.iw) = .ok ()
        ((((s.setIpos (2 * s.cfg.iw + s.cfg.alph * s.cfg.iw)).setFreq (s.entered cs)).setNodes ns).setRoot root) ∧
      ((((s.setIpos (2 * s.cfg.iw + s.cfg.alph * s.cfg.iw)).setFreq (s.entered cs)).setNodes ns).setRoot root).tree? root =
        some T ∧ ns.length ≤ 0xFFFE := by
  have hfit : ∀ sym < s.cfg.alph, (s.entered cs).getD sym 0 < 2 ^ s.cfg.iw := fun sym hsym => by
    rw [State.entered, List.getD_eq_getElem?_getD, List.getElem?_set_ne hsym.ne', ← List.getD_eq_getElem?_getD]
    exact enterCounts_getD_lt (Nat.two_pow_pos _) hcs (Nat.zero_le _) (by omega)
  obtain ⟨ns, root, T, hT, hbuild, htree, hns⟩ := buildFromFreq_builds
    (s := (s.setIpos (2 * s.cfg.iw + s.cfg.alph * s.cfg.iw)).setFreq (s.entered cs)) hc hw hn hq hfit
  refine ⟨ns, root, T, hT, ?_, htree, ?_⟩
  · rw [readHeader_enters (m := 0) hc hw hcs hin hlen, hlen]
    exact hbuild
  · exact records_le_of_leavesW hc hns

end

/-- A flat table that port IN ends in (spec/45_driver.md R220). -/
theorem readHeader_cutTable (hc : s.cfg.valid = true) (hw : s.hostQuiet = true)
    (hin : s.input.drop s.cfg.iw = toBits s.cfg.iw s.cfg.selCounts ++ rest) (hshort : rest.length < s.cfg.alph * s.cfg.iw) :
    (symbolsOf s.cfg.iw rest).length < s.cfg.alph ∧ readHeader (s.setIpos s.cfg.iw) = .error (.raised .inputExhausted)
      ((s.setIpos (2 * s.cfg.iw + (symbolsOf s.cfg.iw rest).length * s.cfg.iw)).setFreq
        (enterCounts s.freq 0 (symbolsOf s.cfg.iw rest))) := by
  have hiw := Config.iw_pos hc
  obtain ⟨tail, hsplit, htail, hcs⟩ := symbolsOf_split hiw rest
  have hlen : (symbolsOf s.cfg.iw rest).length < s.cfg.alph := by
    rw [symbolsOf_length hiw]
    exact (Nat.div_lt_iff_lt_mul hiw).mpr hshort
  exact ⟨hlen, readHeader_cutCounts hc hw hcs (hin.trans (congrArg _ hsplit)) hlen htail⟩

/-! ### The tree shape -/

section
variable (hc : s.cfg.valid = true) (hw : s.hostQuiet = true) (hpos : s.pos + T.bits s.cfg.sw < 2 ^ 64)
  (hin : s.input.drop s.pos = T.enc s.cfg.sw ++ rest) (hsym : ∀ x ∈ T.symbols, x ≤ s.cfg.eofsym)
  (hroom : s.nodes.length + T.size ≤ s.cfg.ncap)
include hc hw hpos hin hsym hroom

/-- ReadTree on a tree's encoding, whatever the length of port IN (spec/43_serialize.md R173). -/
theorem readTree_tree : readTree s = .ok (T.bits s.cfg.sw) (s.recreated T) := by
  have hread := readNode_enc (fuel := s.cfg.ncap + 1) hw hin hsym hroom (Config.ncap_le hc) (by omega) hpos
  have hconsumed : (s.recreated T).pos - s.pos = T.bits s.cfg.sw := by
    rw [State.recreated, State.pos_eq, State.setRoot_ipos, State.setIpos_toNat _ hpos, Nat.add_sub_cancel_left]
  unfold readTree
  rw [get_bind_apply, bind_of_ok hread]
  refine change_then _ hw ?_
  rw [get_bind_apply]
  exact congrArg (EStateM.Result.ok · (s.recreated T)) hconsumed

end

section
variable (hc : s.cfg.valid = true) (hw : s.hostQuiet = true) (hsize : size < 2 ^ s.cfg.iw)
  (hin : s.input.drop s.cfg.iw = toBits s.cfg.iw s.cfg.selTree ++ (toBits s.cfg.iw size ++ rest))
include hc hw hsize hin

omit hw hsize in
theorem drop_header : (s.setIpos (3 * s.cfg.iw)).pos = 3 * s.cfg.iw ∧ s.input.drop (3 * s.cfg.iw) = rest := by
  refine ⟨State.setIpos_toNat s (fieldPos_lt hc le_rfl), ?_⟩
  rw [show 3 * s.cfg.iw = s.cfg.iw + s.cfg.iw + s.cfg.iw by omega]
  exact drop_field (toBits_length _ _) (drop_field (toBits_length _ _) hin)

theorem readHeader_treeStops (hstop : readTree (s.setIpos (3 * s.cfg.iw)) = .error (.raised f) t) :
    readHeader (s.setIpos s.cfg.iw) = .error (.raised f) t := by
  rw [readHeader_tree hc hw hsize hin]
  exact bind_of_error hstop

end

theorem recreated_hostQuiet (s : State) (T : CodeTree) : (s.recreated T).hostQuiet = s.hostQuiet := by
  simp [State.recreated]

theorem recreated_cfg (s : State) (T : CodeTree) : (s.recreated T).cfg = s.cfg := by simp [State.recreated]

theorem recreated_fault (s : State) (T : CodeTree) : (s.recreated T).fault = s.fault := by simp [State.recreated]

theorem recreated_olog (s : State) (T : CodeTree) : (s.recreated T).olog = s.olog := by simp [State.recreated]

theorem recreated_host (s : State) (T : CodeTree) : (s.recreated T).host = s.host := by simp [State.recreated]

theorem recreated_input (s : State) (T : CodeTree) : (s.recreated T).input = s.input := by simp [State.recreated]

/-- The end of a tree-shape header. -/
theorem treeHeaderEnd_lt (hc : s.cfg.valid = true) (hroom : s.nodes.length + T.size ≤ s.cfg.ncap) :
    3 * s.cfg.iw + T.bits s.cfg.sw < 2 ^ 64 := by
  have hbits := CodeTree.bits_lt hc (T := T) (by omega)
  have hiw : 2 ^ s.cfg.iw ≤ 2 ^ 32 := Nat.pow_le_pow_right (by decide) (Config.iw_le hc)
  have hlen : 3 * s.cfg.iw ≤ 96 := Nat.mul_le_mul_left 3 (Config.iw_le hc)
  omega

/-- The state a tree-shape header leaves. -/
theorem recreated_header (hc : s.cfg.valid = true) : (s.setIpos (3 * s.cfg.iw)).recreated T = { s with
    ipos := BitVec.ofNat 64 (3 * s.cfg.iw + T.bits s.cfg.sw)
    nodes := s.nodes ++ T.pool s.cfg s.nodes.length false
    rootRef := BitVec.ofNat 16 s.nodes.length } := by
  have hpos : (s.setIpos (3 * s.cfg.iw)).pos = 3 * s.cfg.iw := State.setIpos_toNat s (fieldPos_lt hc le_rfl)
  rw [State.recreated, hpos]
  rfl

section
variable (hc : s.cfg.valid = true) (hw : s.hostQuiet = true) (hsize : size < 2 ^ s.cfg.iw)
  (hin : s.input.drop s.cfg.iw = toBits s.cfg.iw s.cfg.selTree ++ (toBits s.cfg.iw size ++ (T.enc s.cfg.sw ++ rest)))
  (hsym : ∀ x ∈ T.symbols, x ≤ s.cfg.eofsym) (hroom : s.nodes.length + T.size ≤ s.cfg.ncap)
include hc hw hsize hin hsym hroom

/-- A tree-shape header leaves the tree at the root, its size field checked (spec/45_driver.md R220). -/
theorem readHeader_recreates : readHeader (s.setIpos s.cfg.iw) =
    (if T.bits s.cfg.sw ≠ size then raise .treeSizeMismatch else pure () : Cmd Unit)
      ((s.setIpos (3 * s.cfg.iw)).recreated T) := by
  obtain ⟨hpos, hrest⟩ := drop_header hc hin
  rw [readHeader_tree hc hw hsize hin]
  refine bind_of_ok (readTree_tree (s := s.setIpos (3 * s.cfg.iw)) hc hw ?_ (hpos.symm ▸ hrest) hsym hroom)
  rw [hpos]
  exact treeHeaderEnd_lt hc hroom

end

end Sys2Proof.Machine

end

section
/-!
PROOF. ReadNode looks at no more of port IN than it consumes (spec/43_serialize.md R172), so a fault that stops it before the end
of port IN stops it on a stream of any length.
-/

namespace Sys2Proof.Machine

variable {s t u : State} {c : Config} {f : FaultCode} {α β : Type} {b bits : List Bit} {room k : Nat}

/-! ### Rules that take no notice of what is behind the bits they read -/

/-- Port IN with more bits at its end. -/
def State.more (s : State) (b : List Bit) : State := s.setInput (s.input ++ b)

/-- A result with more bits at the end of port IN. -/
def moreIn (b : List Bit) : EStateM.Result Stop State α → EStateM.Result Stop State α
  | .ok a t => .ok a (t.more b)
  | .error e t => .error e (t.more b)

/-- Unless the end of port IN stops it, the rule does the same with more bits there. -/
def IgnoresMore (c : Cmd α) : Prop :=
  ∀ (s : State) (b : List Bit), s.hostQuiet = true → (∀ t, c s ≠ .error (.raised .inputExhausted) t) →
    c (s.more b) = moreIn b (c s)

namespace IgnoresMore

theorem pure (a : α) : IgnoresMore (Pure.pure a : Cmd α) := fun _ _ _ _ => rfl

theorem throw (e : Stop) : IgnoresMore (MonadExcept.throw e : Cmd α) := fun _ _ _ _ => rfl

theorem modify {g : State → State} (h : ∀ s b, g (s.more b) = (g s).more b) : IgnoresMore (modify g : Cmd PUnit) :=
  fun s b _ _ => congrArg (EStateM.Result.ok _) (h s b)

theorem raise (f : FaultCode) : IgnoresMore (Machine.raise f : Cmd α) := fun s b hw _ => by
  rw [raise_quiet f hw, raise_quiet (s := s.more b) f hw]
  rfl

theorem get_bind {g : State → Cmd β} (h : ∀ s, IgnoresMore (g s)) (hsame : ∀ s b, g (s.more b) = g s) :
    IgnoresMore ((get : Cmd State) >>= g) := fun s b hw hne => by
  rw [get_bind_apply, get_bind_apply, hsame]
  exact h s s b hw hne

theorem bind {x : Cmd α} {g : α → Cmd β} (hbuilt : Built true true x) (hx : IgnoresMore x) (hg : ∀ a, IgnoresMore (g a)) :
    IgnoresMore (x >>= g) := fun s b hw hne => by
  have hframe := (hbuilt.sameFrame s hw).1
  cases hxs : x s with
  | ok a t =>
    rw [hxs] at hframe
    have hmore := hx s b hw (by rw [hxs]; exact fun _ => ok_ne_error)
    rw [hxs] at hmore
    rw [bind_of_ok hxs] at hne ⊢
    rw [bind_of_ok hmore]
    exact hg a t b (hframe.hostQuiet hw) hne
  | error e t =>
    rw [bind_of_error hxs] at hne ⊢
    have hmore := hx s b hw fun u hu => by
      obtain ⟨rfl, rfl⟩ := EStateM.Result.error.inj (hxs.symm.trans hu)
      exact hne _ rfl
    rw [hxs] at hmore
    rw [bind_of_error hmore]
    rfl

/-- Reading a field and stopping at the end of port IN. -/
theorem inRead_bind {n : Nat} {g : Option Nat → Cmd β} (hnone : g none = Machine.raise .inputExhausted)
    (hsome : ∀ v, IgnoresMore (g (some v))) : IgnoresMore (inRead n >>= g) := fun s b hw hne => by
  by_cases hn : s.pos + n ≤ s.input.length
  · have hmore : inRead n (s.more b) = .ok (some (ofBits ((s.input.drop s.pos).take n))) ((s.setIpos (s.pos + n)).more b) := by
      have hlen : (s.more b).pos + n ≤ (s.more b).input.length := hn.trans (by simp [State.more])
      have hbits : ((s.more b).input.drop (s.more b).pos).take n = (s.input.drop s.pos).take n := by
        show ((s.input ++ b).drop s.pos).take n = _
        rw [List.drop_append_of_le_length (by omega), List.take_append_of_le_length (by rw [List.length_drop]; omega)]
      rw [inRead_bits (s := s.more b) hw hlen, hbits]
      rfl
    rw [bind_of_ok (inRead_bits hw hn)] at hne ⊢
    rw [bind_of_ok hmore]
    exact hsome _ (s.setIpos _) b hw hne
  · rw [bind_of_ok (inRead_eof hw (Nat.not_le.mp hn)), hnone] at hne
    exact absurd (raise_quiet _ hw) (hne s)

theorem alloc (kind : NodeKind) (sym freq : Nat) : IgnoresMore (Machine.alloc kind sym freq) := fun s b hw _ => by
  by_cases hroom : s.next < s.cfg.ncap
  · rw [alloc_room hroom, alloc_room (s := s.more b) hroom]
    rfl
  · rw [alloc_full hw (Nat.not_lt.mp hroom), alloc_full (s := s.more b) hw (Nat.not_lt.mp hroom)]
    rfl

theorem nodeWrite (r : NodeRef) (g : NodeRec → NodeRec) : IgnoresMore (Machine.nodeWrite r g) := modify fun _ _ => rfl

theorem ite {p : Prop} [Decidable p] {x y : Cmd α} (hx : IgnoresMore x) (hy : IgnoresMore y) :
    IgnoresMore (if p then x else y) := by
  split
  · exact hx
  · exact hy

theorem readNode (fuel : Nat) : IgnoresMore (Machine.readNode fuel) := by
  induction fuel with
  | zero => exact throw _
  | succ fuel ih =>
    have hread := built_readNode (planning := true) fuel
    refine inRead_bind rfl fun v => ?_
    split
    · next h => cases h
    · exact get_bind (fun s => inRead_bind rfl fun sym => ite (raise _) (alloc _ _ _)) fun _ _ => rfl
    · refine get_bind (fun s => ?_) fun _ _ => rfl
      exact bind (built_alloc _ _ _) (alloc _ _ _) fun r => bind (.modify (.stack _)) (modify fun _ _ => rfl) fun _ =>
        bind hread ih fun l => bind (built_nodeWrite _ _) (nodeWrite _ _) fun _ => bind (built_nodeWrite _ _) (nodeWrite _ _)
        fun _ => bind (.modify (.stack _)) (modify fun _ _ => rfl) fun _ => bind hread ih fun q =>
        bind (built_nodeWrite _ _) (nodeWrite _ _) fun _ => bind (built_nodeWrite _ _) (nodeWrite _ _) fun _ =>
        bind (.modify (.stack _)) (modify fun _ _ => rfl) fun _ => pure r

end IgnoresMore

/-! ### Streams of any length -/

/-- What stops ReadNode before the end of port IN stands in so many bits of it. -/
theorem Blocked.short (h : Blocked c f room bits) (hf : f ≠ .inputExhausted) :
    ∃ p q, bits = p ++ q ∧ p.length ≤ (room + 1) * (c.sw + 2) ∧ Blocked c f room p := by
  induction h with
  | noMarker | noSymbol => exact absurd rfl hf
  | @badSymbol room sym rest hbad hfit =>
    refine ⟨true :: toBits (c.sw + 1) sym, rest, rfl, ?_, ?_⟩
    · rw [List.length_cons, toBits_length]
      exact Nat.le_mul_of_pos_left _ (Nat.succ_pos _)
    · have h := Blocked.badSymbol room [] hbad hfit
      rwa [List.append_nil] at h
  | @noRoomForLeaf sym rest hsym =>
    refine ⟨true :: toBits (c.sw + 1) sym, rest, rfl, ?_, ?_⟩
    · rw [List.length_cons, toBits_length]
      exact Nat.le_mul_of_pos_left _ (Nat.succ_pos _)
    · have h := Blocked.noRoomForLeaf [] hsym
      rwa [List.append_nil] at h
  | noRoomForNode rest => exact ⟨[false], rest, rfl, by simp, .noRoomForNode []⟩
  | @left f room bits h ih =>
    obtain ⟨p, q, rfl, hlen, hp⟩ := ih hf
    refine ⟨false :: p, q, rfl, ?_, .left hp⟩
    rw [List.length_cons, Nat.succ_mul (room + 1)]
    omega
  | @right f room bits l hsym h ih =>
    obtain ⟨p, q, rfl, hlen, hp⟩ := ih hf
    refine ⟨false :: (l.enc c.sw ++ p), q, by simp, ?_, .right hsym hp⟩
    have hl := l.bits_le c.sw
    have hsum : (room + l.size + 1 + 1) * (c.sw + 2) = (room + 1) * (c.sw + 2) + l.size * (c.sw + 2) + (c.sw + 2) := by ring
    rw [List.length_cons, List.length_append, CodeTree.enc_length, hsum]
    omega

theorem ReadStopped.more (h : ReadStopped f s t) (hf : f ≠ .inputExhausted) (b : List Bit) :
    ReadStopped f (s.more b) (t.more b) := by
  refine ⟨?_, h.records_kept, h.pool_full, fun he => absurd he hf⟩
  have hapart := h.apart
  rw [ReadApart] at hapart ⊢
  rw [hapart]
  rfl

theorem blockedLength_lt (hc : c.valid = true) : 2 ^ 32 + (c.ncap + 1) * (c.sw + 2) < 2 ^ 64 := by
  have hsw := Config.sw_le hc
  have hncap := Config.ncap_le hc
  have hmul : (c.ncap + 1) * (c.sw + 2) ≤ 2 ^ 16 * 16 := Nat.mul_le_mul (by omega) (by omega)
  omega

/-- ReadTree on a stream of any length that stops ReadNode before its end (spec/43_serialize.md R172). -/
theorem readTree_stops (hc : s.cfg.valid = true) (hw : s.hostQuiet = true) (hfit : s.nodes.length ≤ s.cfg.ncap)
    (hpos : s.pos ≤ s.input.length) (hsmall : s.pos < 2 ^ 32) (hf : f ≠ .inputExhausted)
    (h : Blocked s.cfg f (s.cfg.ncap - s.nodes.length) (s.input.drop s.pos)) :
    ∃ t, readTree s = .error (.raised f) t ∧ ReadStopped f s t := by
  obtain ⟨p, q, hbits, hlen, hblocked⟩ := h.short hf
  obtain ⟨v, hv, hmore⟩ : ∃ v : State, v = s.setInput (s.input.take s.pos ++ p) ∧ s = v.more q := by
    refine ⟨_, rfl, ?_⟩
    show s = s.setInput (s.input.take s.pos ++ p ++ q)
    rw [List.append_assoc, ← hbits, List.take_append_drop]
    rfl
  have hvpos : v.pos = s.pos := by rw [hv]; rfl
  have hvcfg : v.cfg = s.cfg := by rw [hv]; rfl
  have hvnodes : v.nodes = s.nodes := by rw [hv]; rfl
  have hvquiet : v.hostQuiet = true := by rw [hv]; exact hw
  have htake : (s.input.take s.pos).length = s.pos := List.length_take_of_le hpos
  have hvin : v.input.drop v.pos = p := by
    rw [hvpos, hv]
    exact List.drop_left' htake
  have hvlen : v.input.length < 2 ^ 64 := by
    have hlong := blockedLength_lt hc
    have hroom : (s.cfg.ncap - s.nodes.length + 1) * (s.cfg.sw + 2) ≤ (s.cfg.ncap + 1) * (s.cfg.sw + 2) :=
      Nat.mul_le_mul_right _ (by omega)
    rw [hv, State.setInput_input, List.length_append, htake]
    omega
  obtain ⟨t, ht, hstop⟩ := readNode_blocked (fuel := s.cfg.ncap) hblocked hvcfg hvquiet hvin hvlen
    (by rw [hvnodes]; exact Nat.add_sub_cancel' hfit) (Config.ncap_le hc) (Nat.sub_le _ _)
  have hread := IgnoresMore.readNode (s.cfg.ncap + 1) v q hvquiet fun u hu =>
    hf (Stop.raised.inj (EStateM.Result.error.inj (ht.symm.trans hu)).1)
  rw [ht, ← hmore] at hread
  refine ⟨t.more q, ?_, ?_⟩
  · unfold readTree
    rw [get_bind_apply]
    exact bind_of_error hread
  · rw [hmore]
    exact hstop.more hf q

end Sys2Proof.Machine

end

section
/-!
PROOF. The faults of DECOMPRESS before its payload (spec/45_driver.md R220).
-/

namespace Sys2Proof.Machine

variable {s t : State} {f : FaultCode} {T : CodeTree} {rest : List Bit} {size : Nat}

theorem drop_magic (hin : s.input = toBits s.cfg.iw s.cfg.magic ++ rest) : s.input.drop s.cfg.iw = rest := by
  rw [hin]
  exact List.drop_left' (toBits_length _ _)

/-- T_RECREATE faults where ReadTree does (spec/43_serialize.md R172). -/
theorem readTree_of_execTRecreate (hw : s.hostQuiet = true) (h : exec .tRecreate s = .next (takeFault f t)) :
    ∃ u, readTree s = .error (.raised f) u ∧ takeFault f u = takeFault f t := by
  replace h := (runCmd_quiet _ hw).symm.trans h
  cases hread : readTree s with
  | ok n u =>
    have hframe := (built_readTree (planning := true).sameFrame s hw).1
    rw [hread, reached_ok] at hframe
    rw [bind_of_ok hread, get_bind_apply, setRes0_setRes1_doneUsed _ _ (hframe.hostQuiet hw), settle_ok] at h
    have houtcome := congrArg State.outcome (Host.Outcome.next.inj h)
    cases houtcome
  | error e u =>
    rw [bind_of_error hread] at h
    cases e with
    | raised g =>
      have hstate : takeFault g u = takeFault f t := Host.Outcome.next.inj h
      obtain rfl : g = f := Option.some.inj (congrArg State.fault hstate)
      exact ⟨u, rfl, hstate⟩
    | resetInput =>
      have houtcome := congrArg State.outcome (Host.Outcome.next.inj h)
      cases houtcome
    | stuck g => cases h
    | refuse r => cases h

section
variable (hc : s.cfg.valid = true) (hw : s.hostQuiet = true) (hd : s.dstate = .clean)
include hc hw hd

/-- Fewer counts than natural symbols on port IN (spec/45_driver.md R220). -/
theorem execDecompress_cutCounts (hin : s.input = toBits s.cfg.iw s.cfg.magic ++ (toBits s.cfg.iw s.cfg.selCounts ++ rest))
    (hshort : rest.length < s.cfg.alph * s.cfg.iw) :
    ∃ t, exec .decompress s = .next (takeFault .inputExhausted t) ∧ t.olog = s.olog ∧ t.nodes = s.nodes ∧
      t.rootRef = s.rootRef ∧ t.dstate = .clean ∧ t.pos = (2 + rest.length / s.cfg.iw) * s.cfg.iw := by
  have hiw := Config.iw_pos hc
  obtain ⟨hlen, hread⟩ := readHeader_cutTable hc hw (drop_magic hin) hshort
  refine ⟨_, execDecompress_headerStops hc hw hd hin hread, rfl, rfl, rfl, hd, ?_⟩
  rw [Nat.add_mul, ← symbolsOf_length hiw]
  exact State.setIpos_toNat s (tableEnd_lt hc hlen.le)

section
variable (hsize : size < 2 ^ s.cfg.iw)
  (hin : s.input = toBits s.cfg.iw s.cfg.magic ++ (toBits s.cfg.iw s.cfg.selTree ++ (toBits s.cfg.iw size ++ rest)))
include hsize hin

/-- DECOMPRESS faults where ReadTree does (spec/45_driver.md R220). -/
theorem execDecompress_treeStops (hstop : readTree (s.setIpos (3 * s.cfg.iw)) = .error (.raised f) t) :
    exec .decompress s = .next (takeFault f t) :=
  execDecompress_headerStops hc hw hd hin (readHeader_treeStops hc hw hsize (drop_magic hin) hstop)

omit hw hd hsize in
/-- Port IN behind the size field. -/
theorem treeField : (s.setIpos (3 * s.cfg.iw)).pos = 3 * s.cfg.iw ∧ s.input.drop (s.setIpos (3 * s.cfg.iw)).pos = rest ∧
    s.input.length = 3 * s.cfg.iw + rest.length := by
  obtain ⟨hpos, hrest⟩ := drop_header hc (drop_magic hin)
  refine ⟨hpos, by rw [hpos, hrest], ?_⟩
  rw [hin]
  simp only [List.length_append, toBits_length]
  omega

/-- A stream that stops ReadNode before the end of port IN stops DECOMPRESS. -/
theorem execDecompress_blocked (hf : f ≠ .inputExhausted) (hfit : s.nodes.length ≤ s.cfg.ncap)
    (hblocked : Blocked s.cfg f (s.cfg.ncap - s.nodes.length) rest) :
    ∃ t, exec .decompress s = .next (takeFault f t) ∧ ReadStopped f (s.setIpos (3 * s.cfg.iw)) t := by
  obtain ⟨hpos, hrest, hlen⟩ := treeField hc hin
  have hiw := Config.iw_le hc
  obtain ⟨t, ht, hstop⟩ := readTree_stops (s := s.setIpos (3 * s.cfg.iw)) (f := f) hc hw hfit
    (by rw [hpos]; exact hlen.symm ▸ Nat.le_add_right _ _) (by rw [hpos]; omega) hf (by rw [← hrest] at hblocked; exact hblocked)
  exact ⟨t, execDecompress_treeStops hc hw hd hsize hin ht, hstop⟩

end

end

/-- Settles O54: the fields of the header in their order, ReadTree's faults as streams that stop ReadNode, and the size field. -/
theorem decompressHeaderFaults : Obligations.DecompressHeaderFaults := by
  intro s rest hc hw
  simp only [List.append_assoc]
  refine ⟨execDecompress_notClean hw, fun hd hin hshort => ?selector, fun sel hd hsel hcounts htree hin => ?unknown,
    fun hd hin hshort => ?size, fun hd hin hshort => execDecompress_cutCounts hc hw hd hin hshort,
    fun size f t hd hsize hin hfault => ?recreate, fun T size k hd hroom hsym hsize hk hin => ?cut,
    fun T size hd hroom hbad hfits hsize hin => ?badSymbol, fun T size hd hfit hfull hsym hsize hin => ?poolFull,
    fun T size hd hroom hsym hsize hne hin => ?mismatch⟩
  case selector =>
    exact execDecompress_headerStops hc hw hd hin (readHeader_noSelector hc hw (drop_magic hin ▸ hshort))
  case unknown =>
    exact execDecompress_headerStops hc hw hd hin (readHeader_badFormat hc hw hsel hcounts htree (drop_magic hin))
  case size =>
    have hrest : s.input.drop (2 * s.cfg.iw) = rest := by
      rw [Nat.two_mul]
      exact drop_field (toBits_length _ _) (drop_magic hin)
    exact execDecompress_headerStops hc hw hd hin (readHeader_noSize hc hw (drop_magic hin) (hrest ▸ hshort))
  case recreate =>
    obtain ⟨u, hread, hstate⟩ := readTree_of_execTRecreate (s := s.setIpos (3 * s.cfg.iw)) hw hfault
    rw [execDecompress_treeStops hc hw hd hsize hin hread, hstate]
  case cut =>
    obtain ⟨hpos, hrest, hlen⟩ := treeField hc hin
    have hend := treeHeaderEnd_lt hc hroom
    rw [List.length_take, CodeTree.enc_length, Nat.min_eq_left hk.le] at hlen
    obtain ⟨t, ht, hstop⟩ := readTree_blocked (s := s.setIpos (3 * s.cfg.iw)) hc hw (by simp; omega) (by simp; omega)
      (hrest ▸ blocked_of_cut hk hsym (by simp; omega))
    obtain ⟨hle, hge⟩ := hstop.exhausted rfl (by rw [hpos]; simp; omega)
    have ha := hstop.apart
    refine ⟨t, execDecompress_treeStops hc hw hd hsize hin ht, ha.rootRef_eq, hstop.records_kept, ha.olog_eq,
      ha.dstate_eq.trans hd, hlen ▸ hle, hlen ▸ hge⟩
  case badSymbol =>
    obtain ⟨t, ht, hstop⟩ := execDecompress_blocked hc hw hd hsize hin (by decide) (by omega)
      (blocked_of_bad_symbol hbad hfits (by omega))
    have ha := hstop.apart
    exact ⟨t, ht, ha.rootRef_eq, hstop.records_kept, ha.olog_eq, ha.dstate_eq.trans hd⟩
  case poolFull =>
    obtain ⟨t, ht, hstop⟩ := execDecompress_blocked hc hw hd hsize hin (by decide) hfit
      (blocked_of_full hsym (by omega))
    have ha := hstop.apart
    exact ⟨t, ht, ha.rootRef_eq, hstop.records_kept, hstop.pool_full rfl, ha.olog_eq, ha.dstate_eq.trans hd⟩
  case mismatch =>
    have hhead := readHeader_recreates hc hw hsize (drop_magic hin) hsym hroom
    have hquiet : ((s.setIpos (3 * s.cfg.iw)).recreated T).hostQuiet = true := (recreated_hostQuiet _ _).trans hw
    rw [if_pos hne.symm] at hhead
    rw [← recreated_header hc]
    exact execDecompress_headerStops hc hw hd hin (hhead.trans (raise_quiet _ hquiet))

end Sys2Proof.Machine

end

section
/-!
PROOF. DECOMPRESS behind a header it can read (spec/45_driver.md R220): the decode of its payload, from
the tree the header leaves.
-/

namespace Sys2Proof.Machine

variable {s t : State} {T l r : CodeTree} {syms cs : List Nat} {rest q : List Bit} {k n x sym : Nat}

/-! ### A header that has been read -/

/-- DECOMPRESS in `s` has read its header of `n` bits: in `t` the root stands for `T`, and `rest` is left of port IN. -/
structure HeaderRead (s t : State) (T : CodeTree) (n : Nat) (rest : List Bit) : Prop where
  magic : ∃ bits, s.input = toBits s.cfg.iw s.cfg.magic ++ bits
  read : readHeader (s.setIpos s.cfg.iw) = .ok () t
  cfg_eq : t.cfg = s.cfg
  input_eq : t.input = s.input
  fault_eq : t.fault = s.fault
  olog_eq : t.olog = s.olog
  host_eq : t.host = s.host
  quiet : t.hostQuiet = true
  nodes_le : t.nodes.length ≤ 0xFFFE
  tree : t.tree? t.rootRef = some T
  pos_eq : t.pos = n
  length_le : n ≤ s.input.length
  payload : s.input.drop n = rest

namespace HeaderRead

theorem standsAt (h : HeaderRead s t T n rest) : t.decodeStarted.StandsAt t.decodeStarted.rootRef T :=
  decodeStarted_standsAt h.quiet h.nodes_le h.tree

theorem exec_eq (h : HeaderRead s t T n rest) (hc : s.cfg.valid = true) (hw : s.hostQuiet = true) (hd : s.dstate = .clean) :
    exec .decompress s = settle (decodeAndEnd false t.decodeStarted) := by
  obtain ⟨bits, hin⟩ := h.magic
  exact execDecompress_payload hc hw hd hin h.read h.quiet

theorem decodeStarted_drop (h : HeaderRead s t T n rest) : t.decodeStarted.input.drop t.decodeStarted.pos = rest := by
  have hpos : t.decodeStarted.pos = n := h.pos_eq
  have hinput : t.decodeStarted.input = s.input := h.input_eq
  rw [hpos, hinput, h.payload]

theorem decodeStarted_pos_le (h : HeaderRead s t T n rest) : t.decodeStarted.pos ≤ t.decodeStarted.input.length := by
  have hpos : t.decodeStarted.pos = n := h.pos_eq
  have hinput : t.decodeStarted.input = s.input := h.input_eq
  rw [hpos, hinput]
  exact h.length_le

end HeaderRead

theorem headerOf_tree_length (c : Config) (cs : List Nat) (T : CodeTree) :
    (headerOf c .tree cs T).length = 3 * c.iw + T.bits c.sw := by
  simp only [headerOf, List.length_append, toBits_length, CodeTree.enc_length]
  omega

theorem headerOf_counts_length (c : Config) (cs : List Nat) (T : CodeTree) :
    (headerOf c .counts cs T).length = 2 * c.iw + cs.length * c.iw := by
  simp only [headerOf, List.length_append, toBits_length, symbolBits_length]
  omega

section
variable (hc : s.cfg.valid = true) (hw : s.hostQuiet = true)
include hc hw

/-- A tree-shape header (spec/45_driver.md R220). -/
theorem headerRead_tree (hin : s.input = headerOf s.cfg .tree cs T ++ rest) (hsym : ∀ x ∈ T.symbols, x ≤ s.cfg.eofsym)
    (hroom : s.nodes.length + T.size ≤ s.cfg.ncap) : 
      HeaderRead s ((s.setIpos (3 * s.cfg.iw)).recreated T) T (3 * s.cfg.iw + T.bits s.cfg.sw) rest := by
  have hcap := Config.ncap_le hc
  have hbits := CodeTree.bits_lt hc (T := T) (by omega)
  have hfields : s.input = toBits s.cfg.iw s.cfg.magic ++ (toBits s.cfg.iw s.cfg.selTree ++
      (toBits s.cfg.iw (T.bits s.cfg.sw) ++ (T.enc s.cfg.sw ++ rest))) := by
    rw [hin]
    simp [headerOf]
  have hread := readHeader_recreates hc hw hbits (drop_magic hfields) hsym hroom
  rw [if_neg (not_not.mpr rfl)] at hread
  refine ⟨⟨_, hfields⟩, hread, recreated_cfg _ _, recreated_input _ _, recreated_fault _ _,
    recreated_olog _ _, recreated_host _ _, (recreated_hostQuiet _ _).trans hw, ?_,
    recreated_tree? (s := s.setIpos _) ?_, ?_, ?_, ?_⟩
  · rw [recreated_header hc, List.length_append, CodeTree.pool_length]
    omega
  · exact hroom.trans (by omega)
  · rw [recreated_header hc]
    exact State.setIpos_toNat s (treeHeaderEnd_lt hc hroom)
  · rw [hin, ← headerOf_tree_length s.cfg cs T, List.length_append]
    exact Nat.le_add_right _ _
  · rw [hin, ← headerOf_tree_length s.cfg cs T, List.drop_left]

/-- A flat-table header, on an empty pool and queue (spec/45_driver.md R220). -/
theorem headerRead_counts (hn : s.nodes = []) (hq : s.queue = []) (hcs : ∀ n ∈ cs, n < 2 ^ s.cfg.iw)
    (hlen : cs.length = s.cfg.alph) (hin : s.input = headerOf s.cfg .counts cs T ++ rest) :
    ∃ ns root U, huffTree s.cfg (s.entered cs) = some U ∧ HeaderRead s
      ((((s.setIpos (2 * s.cfg.iw + s.cfg.alph * s.cfg.iw)).setFreq (s.entered cs)).setNodes ns).setRoot root) U
      (2 * s.cfg.iw + s.cfg.alph * s.cfg.iw) rest := by
  have hfields : s.input = toBits s.cfg.iw s.cfg.magic ++ (toBits s.cfg.iw s.cfg.selCounts ++
      (symbolBits s.cfg.iw cs ++ rest)) := by
    rw [hin]
    simp [headerOf]
  obtain ⟨ns, root, U, hU, hread, htree, hns⟩ := readHeader_table hc hw hcs (drop_magic hfields) hlen hn hq
  -- the table is opaque from here on: comparing states by unfolding it is slow
  generalize s.entered cs = freq at hU hread htree ⊢
  refine ⟨ns, root, U, hU, ⟨_, hfields⟩, hread, by simp, by simp, by simp, by simp, by simp, by simpa using hw,
    by simpa using hns, by simpa using htree, ?_, ?_, ?_⟩
  · exact State.setIpos_toNat s (tableEnd_lt hc le_rfl)
  · rw [hin, ← hlen, ← headerOf_counts_length s.cfg cs T, List.length_append]
    exact Nat.le_add_right _ _
  · rw [hin, ← hlen, ← headerOf_counts_length s.cfg cs T, List.drop_left]

end

/-! ### The payload -/

/-- The state that the end of DECOMPRESS leaves (spec/45_driver.md R220). -/
theorem decodeEnded_emitted_driver (s : State) (k : Nat) (syms : List Nat) :
    (s.decodeStarted.emitted k syms).decodeEnded false = { s with
      ipos := BitVec.ofNat 64 (s.pos + k)
      olog := s.olog ++ symbolBits s.cfg.sw syms
      bitsWritten := BitVec.ofNat 64 (s.cfg.sw * syms.length)
      cursor := none
      decoded := 0
      dstate := .used
      outcome := .ok
      busy := false } := by
  simp [State.decodeEnded, State.emitted, State.decodeStarted, State.setIpos, State.send, State.setDecode,
    State.setBitsWritten, State.setDState, State.endWith]

section
variable (hc : s.cfg.valid = true) (hw : s.hostQuiet = true) (hd : s.dstate = .clean) (hlen : s.input.length < 2 ^ 64)
include hc hw hd hlen

/-- Behind its header the codes of natural symbols and EOFSYM end DECOMPRESS (spec/45_driver.md R220). -/
theorem execDecompress_decodes (h : HeaderRead s t T n (codesOf T (syms ++ [s.cfg.eofsym]) ++ rest))
    (hsyms : ∀ y ∈ syms, y < s.cfg.eofsym ∧ y ∈ T.symbols) (heof : s.cfg.eofsym ∈ T.symbols) :
    exec .decompress s = .next { t with
      ipos := BitVec.ofNat 64 (n + (codesOf T (syms ++ [s.cfg.eofsym])).length)
      olog := t.olog ++ symbolBits t.cfg.sw syms
      bitsWritten := BitVec.ofNat 64 (t.cfg.sw * syms.length)
      cursor := none
      decoded := 0
      dstate := .used
      outcome := .ok
      busy := false } := by
  have hcfg : t.decodeStarted.cfg = s.cfg := h.cfg_eq
  have hdecode := decodeAndEnd_codes (rest := rest) (syms := syms) false h.standsAt (h.input_eq.symm ▸ hlen)
    (hcfg.symm ▸ hsyms) (hcfg.symm ▸ heof) (hcfg.symm ▸ h.decodeStarted_drop)
  rw [hcfg] at hdecode
  rw [h.exec_eq hc hw hd, hdecode, settle_ok, decodeEnded_emitted_driver, h.pos_eq]

/-- Behind its header codes cut short stop DECOMPRESS at the end of port IN (spec/44_decode.md R192). -/
theorem execDecompress_cut (h : HeaderRead s t (.node l r) n (codesOf (.node l r) syms ++ q.take k))
    (hsyms : ∀ y ∈ syms, y < s.cfg.eofsym ∧ y ∈ (CodeTree.node l r).symbols)
    (hq : (CodeTree.node l r).path x = some q) (hk : k < q.length) :
    exec .decompress s = .next (takeFault .inputExhausted { t with
      ipos := BitVec.ofNat 64 s.input.length
      olog := t.olog ++ symbolBits t.cfg.sw syms }) := by
  have hcfg : t.decodeStarted.cfg = s.cfg := h.cfg_eq
  have hinput : t.decodeStarted.input = s.input := h.input_eq
  have hpos : t.pos ≤ s.input.length := h.pos_eq.trans_le h.length_le
  obtain ⟨ref, m, hstop⟩ := decodeAndEnd_cut false h.standsAt (hinput.symm ▸ hpos) (hinput.symm ▸ hlen) (hcfg.symm ▸ hsyms) hq hk
    h.decodeStarted_drop
  have hend : t.pos + (t.decodeStarted.input.length - t.decodeStarted.pos) = s.input.length := by
    rw [hinput]
    exact Nat.add_sub_of_le hpos
  rw [h.exec_eq hc hw hd, hstop, settle_raised, takeFault_setDecode, takeFault_emitted, hend]

end

/-! ### Whole streams -/

/-- Settles O51: the header leaves the tree, whose codes the payload is. -/
theorem decompressTreeShapeStream : Obligations.DecompressTreeShapeStream := by
  intro s T syms rest hc hw hd hroom hsym hsyms heof hin hlen
  rw [streamOf_eq, List.append_assoc] at hin
  rw [execDecompress_decodes hc hw hd hlen (headerRead_tree hc hw hin hsym hroom) hsyms heof, recreated_header hc, streamOf_eq,
    List.length_append, headerOf_tree_length]

/-- Settles O52: the header leaves the tree of its counts, whose codes the payload is. -/
theorem decompressFlatTableStream : Obligations.DecompressFlatTableStream := by
  intro s cs T syms rest hc hw hd hn hq hfreq hcs hfit hT hsyms hin hlen
  rw [streamOf_eq, List.append_assoc, List.take_left' hcs] at hin
  obtain ⟨ns, root, U, hU, hhead⟩ := headerRead_counts hc hw hn hq hfit hcs hin
  rw [entered_all hfreq hcs] at hU hhead
  obtain rfl := Option.some.inj (hU.symm.trans hT)
  refine ⟨_, execDecompress_decodes hc hw hd hlen hhead hsyms (eofsym_mem_huffTree hT), ?_, ?_⟩
  · exact hhead.tree
  · rw [streamOf_eq, List.length_append, List.take_left' hcs, headerOf_counts_length, hcs]
    simp only [State.setIpos, State.setFreq, State.setNodes, State.setRoot, Config.alph]

end Sys2Proof.Machine

end

section
/-!
PROOF. DECOMPRESS whose payload does not end it (spec/45_driver.md R220): codes cut short, a single natural leaf, and that no
port IN makes it fault with NULL_CHILD.
-/

namespace Sys2Proof.Machine

variable {s t : State} {c : Config} {f : FaultCode} {T l r : CodeTree} {syms cs : List Nat} {bits rest q : List Bit}
  {k n x sym room : Nat}

/-! ### What a bit sequence is to ReadNode -/

/-- The faults of ReadNode (spec/43_serialize.md R172). -/
theorem Blocked.ne_nullChild (h : Blocked c f room bits) : f ≠ .nullChild := by
  induction h with
  | noMarker | noSymbol | badSymbol | noRoomForLeaf | noRoomForNode => decide
  | left _ ih => exact ih
  | right _ _ ih => exact ih

/-- A bit sequence starts with the encoding of a tree that there is room for. -/
def Encodes (c : Config) (room : Nat) (bits : List Bit) : Prop :=
  ∃ (T : CodeTree) (rest : List Bit), bits = T.enc c.sw ++ rest ∧ (∀ x ∈ T.symbols, x ≤ c.eofsym) ∧ T.size ≤ room

/-- A bit sequence starts with an encoding, or stops ReadNode. -/
theorem encodes_or_blocked (c : Config) (room : Nat) (bits : List Bit) :
    Encodes c room bits ∨ ∃ f, Blocked c f room bits := by
  induction room using Nat.strong_induction_on generalizing bits with
  | _ room ih =>
    match bits, room with
    | [], _ => exact .inr ⟨_, .noMarker _⟩
    | true :: bits, room =>
      by_cases hshort : bits.length < c.sw + 1
      · exact .inr ⟨_, .noSymbol _ hshort⟩
      · obtain ⟨sym, rest, hfit, rfl⟩ := exists_field (Nat.not_lt.mp hshort)
        by_cases hbad : c.eofsym < sym
        · exact .inr ⟨_, .badSymbol _ _ hbad hfit⟩
        · have hsym := Nat.not_lt.mp hbad
          cases room with
          | zero => exact .inr ⟨_, .noRoomForLeaf _ hsym⟩
          | succ room =>
            exact .inl ⟨.leaf sym, rest, rfl, by simpa [CodeTree.symbols] using hsym, by simp [CodeTree.size]⟩
    | false :: bits, 0 => exact .inr ⟨_, .noRoomForNode _⟩
    | false :: bits, room + 1 =>
      obtain ⟨l, rest, rfl, hl, hroomL⟩ | ⟨f, hf⟩ := ih room (Nat.lt_succ_self _) bits
      · obtain ⟨room, rfl⟩ := Nat.exists_eq_add_of_le' hroomL
        obtain ⟨r, rest', rfl, hr, hroomR⟩ | ⟨f, hf⟩ := ih room (by have := l.size_pos; omega) rest
        · exact .inl ⟨.node l r, rest', by simp [CodeTree.enc], List.forall_mem_append.mpr ⟨hl, hr⟩, by
            simp only [CodeTree.size]; omega⟩
        · exact .inr ⟨f, .right hl hf⟩
      · exact .inr ⟨f, .left hf⟩

/-! ### What a header leads to -/

/-- DECOMPRESS faults in its header, but not with NULL_CHILD, or reads a header. -/
def HeaderEnds (s : State) : Prop :=
  (∃ f t, readHeader (s.setIpos s.cfg.iw) = .error (.raised f) t ∧ f ≠ .nullChild) ∨ ∃ t T n rest, HeaderRead s t T n rest

section
variable (hc : s.cfg.valid = true) (hw : s.hostQuiet = true) (hlen : s.input.length < 2 ^ 64)
include hc hw

/-- Behind the selector of the flat table. -/
theorem headerEnds_counts (hn : s.nodes = []) (hq : s.queue = [])
    (hin : s.input = toBits s.cfg.iw s.cfg.magic ++ (toBits s.cfg.iw s.cfg.selCounts ++ rest)) : HeaderEnds s := by
  by_cases hshort : rest.length < s.cfg.alph * s.cfg.iw
  · obtain ⟨-, hread⟩ := readHeader_cutTable hc hw (drop_magic hin) hshort
    exact .inl ⟨_, _, hread, by decide⟩
  · have hiw := Config.iw_pos hc
    have htake : (rest.take (s.cfg.alph * s.cfg.iw)).length = s.cfg.alph * s.cfg.iw :=
      List.length_take_of_le (Nat.not_lt.mp hshort)
    have hcounts := symbolBits_symbolsOf (bits := rest.take (s.cfg.alph * s.cfg.iw)) hiw (by rw [htake, Nat.mul_mod_left])
    have hcs := symbolsOf_length hiw (rest.take (s.cfg.alph * s.cfg.iw))
    rw [htake, Nat.mul_div_cancel _ hiw] at hcs
    obtain ⟨ns, root, U, -, hread⟩ := headerRead_counts (T := .leaf 0) (rest := rest.drop (s.cfg.alph * s.cfg.iw)) hc hw hn hq
      (fun n hn => symbolsOf_lt hiw hn) hcs (by simp only [headerOf, hcounts, List.append_assoc, List.take_append_drop, hin])
    exact .inr ⟨_, _, _, _, hread⟩

include hlen

/-- Behind the selector of the tree-shape header. -/
theorem headerEnds_tree (hfit : s.nodes.length ≤ s.cfg.ncap)
    (hin : s.input = toBits s.cfg.iw s.cfg.magic ++ (toBits s.cfg.iw s.cfg.selTree ++ rest)) : HeaderEnds s := by
  by_cases hshort : rest.length < s.cfg.iw
  · have hrest : s.input.drop (2 * s.cfg.iw) = rest := by
      rw [Nat.two_mul]
      exact drop_field (toBits_length _ _) (drop_magic hin)
    exact .inl ⟨_, _, readHeader_noSize hc hw (drop_magic hin) (hrest ▸ hshort), by decide⟩
  · obtain ⟨size, rest, hsize, rfl⟩ := exists_field (Nat.not_lt.mp hshort)
    obtain ⟨hpos, hrest, -⟩ := treeField hc hin
    obtain ⟨T, rest, rfl, hsym, hroom⟩ | ⟨f, hf⟩ := encodes_or_blocked s.cfg (s.cfg.ncap - s.nodes.length) rest
    · by_cases hne : T.bits s.cfg.sw = size
      · subst hne
        have hstream : s.input = headerOf s.cfg .tree [] T ++ rest := by simp only [headerOf, List.append_assoc, hin]
        exact .inr ⟨_, _, _, _, headerRead_tree hc hw hstream hsym (by omega)⟩
      · have hread := readHeader_recreates hc hw hsize (drop_magic hin) hsym (by omega)
        have hquiet : ((s.setIpos (3 * s.cfg.iw)).recreated T).hostQuiet = true := (recreated_hostQuiet _ _).trans hw
        rw [if_pos hne] at hread
        exact .inl ⟨_, _, hread.trans (raise_quiet _ hquiet), by decide⟩
    · obtain ⟨t, ht, -⟩ := readTree_blocked (s := s.setIpos (3 * s.cfg.iw)) hc hw hfit hlen (hrest.symm ▸ hf)
      exact .inl ⟨_, _, readHeader_treeStops hc hw hsize (drop_magic hin) ht, hf.ne_nullChild⟩

/-- Behind a magic number. -/
theorem headerEnds (hn : s.nodes = []) (hq : s.queue = []) (hin : s.input = toBits s.cfg.iw s.cfg.magic ++ rest) :
    HeaderEnds s := by
  by_cases hshort : rest.length < s.cfg.iw
  · exact .inl ⟨_, _, readHeader_noSelector hc hw (drop_magic hin ▸ hshort), by decide⟩
  · obtain ⟨sel, rest, hsel, rfl⟩ := exists_field (Nat.not_lt.mp hshort)
    by_cases hcounts : sel = s.cfg.selCounts
    · exact headerEnds_counts hc hw hn hq (hcounts ▸ hin)
    · by_cases htree : sel = s.cfg.selTree
      · exact headerEnds_tree hc hw hlen (by simp [hn]) (htree ▸ hin)
      · exact .inl ⟨_, _, readHeader_badFormat hc hw hsel hcounts htree (drop_magic hin), by decide⟩

end

/-! ### NULL_CHILD -/

/-- A decode of a whole tree does not fault with NULL_CHILD (spec/10_state.md R53). -/
theorem decodeAndEnd_ne_nullChild (h : s.StandsAt s.rootRef T) (hle : s.pos ≤ s.input.length) (hlen : s.input.length < 2 ^ 64)
    (hfault : s.fault = none) (ht : settle (decodeAndEnd false s) = .next t) : t.fault ≠ some .nullChild := by
  cases T with
  | leaf x =>
    by_cases hx : x = s.cfg.eofsym
    · rw [decodeAndEnd_ended false (h.turns_eof hx _) h.quiet, settle_ok] at ht
      obtain rfl := Host.Outcome.next.inj ht
      rw [State.decodeEnded]
      simp [hfault]
    · rw [decodeAndEnd_goes_on false (decodeTurns_leaf h hx _), settle_ok] at ht
      obtain rfl := Host.Outcome.next.inj ht
      simp [hfault]
  | node l r =>
    obtain ⟨u, hreturns, hapart, -, -⟩ := decodeTurns_returns h hle hlen (fuel := decodeFuel s) (Nat.lt_succ_self _)
    obtain hend | hstop := hreturns
    · rw [decodeAndEnd_ended false hend (hapart.hostQuiet_eq.trans h.quiet), settle_ok] at ht
      obtain rfl := Host.Outcome.next.inj ht
      rw [State.decodeEnded]
      simp [hapart.fault_eq, hfault]
    · rw [decodeAndEnd_stopped false hstop, settle_raised] at ht
      obtain rfl := Host.Outcome.next.inj ht
      simp

/-- DECOMPRESS on an empty pool and queue does not fault with NULL_CHILD, whatever port IN presents (spec/10_state.md R53). -/
theorem execDecompress_ne_nullChild (hc : s.cfg.valid = true) (hw : s.hostQuiet = true) (hd : s.dstate = .clean)
    (hlen : s.input.length < 2 ^ 64) (hn : s.nodes = []) (hq : s.queue = []) (hfault : s.fault = none)
    (ht : exec .decompress s = .next t) : t.fault ≠ some .nullChild := by
  by_cases hshort : s.input.length < s.cfg.iw
  · rw [execDecompress_shortMagic hw hd hshort] at ht
    obtain rfl := Host.Outcome.next.inj ht
    simp [hfault]
  obtain ⟨v, rest, hv, hin⟩ := exists_field (Nat.not_lt.mp hshort)
  by_cases hmagic : v = s.cfg.magic
  · subst hmagic
    obtain ⟨f, u, hstop, hf⟩ | ⟨u, T, n, rest, hread⟩ := headerEnds hc hw hlen hn hq hin
    · rw [execDecompress_headerStops hc hw hd hin hstop] at ht
      obtain rfl := Host.Outcome.next.inj ht
      simpa using hf
    · rw [hread.exec_eq hc hw hd] at ht
      exact decodeAndEnd_ne_nullChild hread.standsAt (hread.decodeStarted_pos_le) (hread.input_eq.symm ▸ hlen)
        (hread.fault_eq.trans hfault) ht
  · have htake : ofBits (s.input.take s.cfg.iw) = v := by
      rw [hin, List.take_left' (toBits_length _ _), ofBits_toBits, Nat.mod_eq_of_lt hv]
    rw [execDecompress_wrongMagic hw hd (Nat.not_lt.mp hshort) (htake.trans_ne hmagic)] at ht
    obtain rfl := Host.Outcome.next.inj ht
    simp [hfault]

/-- Settles O55: the codes cut short behind either header, and the NULL_CHILD that no header leads to. -/
theorem decompressPayloadFaults : Obligations.DecompressPayloadFaults := by
  intro s l r syms x k q hc hw hd hlen
  refine ⟨fun hsyms hq hk => ⟨fun hroom hsym hin => ?tree, fun cs hn hqueue hfreq hcs hfit hT hin => ?table⟩,
    fun t hn hqueue ht hfault => execDecompress_ne_nullChild hc hw hd hlen hn hqueue hfault ht⟩
  case tree =>
    have hhead := headerRead_tree (cs := []) (rest := codesOf (.node l r) syms ++ q.take k) hc hw
      (by simp only [headerOf, List.append_assoc, hin]) hsym hroom
    rw [execDecompress_cut hc hw hd hlen hhead hsyms hq hk, recreated_header hc]
  case table =>
    obtain ⟨ns, root, U, hU, hhead⟩ := headerRead_counts (T := .node l r) (rest := codesOf (.node l r) syms ++ q.take k)
      hc hw hn hqueue hfit hcs (by simp only [headerOf, symbolBits, List.append_assoc, hin])
    rw [entered_all hfreq hcs] at hU hhead
    obtain rfl := Option.some.inj (hU.symm.trans hT)
    refine ⟨_, execDecompress_cut hc hw hd hlen hhead hsyms hq hk, ?_, ?_⟩
    · exact hhead.tree
    · simp only [State.setIpos, State.setFreq, State.setNodes, State.setRoot]

/-! ### A single natural leaf -/

/-- A decode entered at a natural leaf goes on however many steps the core makes (spec/44_decode.md R193). -/
theorem run_decodeEntered (h : s.StandsAt s.rootRef (.leaf x)) (hx : x ≠ s.cfg.eofsym) (hb : s.busy = true) (n : Nat) :
    ∃ m, n < m ∧ Host.Core.run core n (s.emitted 0 (List.replicate (decodeFuel s) x)) =
      .next (s.emitted 0 (List.replicate m x)) := by
  obtain ⟨m, hm, hrun⟩ := run_decodeLeaf (h.emitted 0 (List.replicate (decodeFuel s) x)) (by rwa [emitted_cfg])
    ((emitted_busy _ _ _).trans hb) n
  rw [emitted_emitted s.ipos.isLt, ← List.replicate_add] at hrun
  have hfuel : 1 ≤ decodeFuel s := Nat.le_add_left _ _
  exact ⟨decodeFuel s + m, by omega, hrun⟩

/-- Settles O56: behind the header of a natural leaf DECOMPRESS uses up its turns there, and every further step does. -/
theorem degenerateDecompressNeverEnds : Obligations.DegenerateDecompressNeverEnds := by
  intro s sym rest hc hb hw hd hroom hsym hin
  have hhead := headerRead_tree (cs := []) (T := .leaf sym) (rest := rest) hc hw
    (by simp only [headerOf, CodeTree.bits, List.append_assoc, hin])
    (by simpa [CodeTree.symbols] using hsym.le) (by simpa [CodeTree.size] using hroom)
  obtain ⟨t, ht⟩ : ∃ t, t = (s.setIpos (3 * s.cfg.iw)).recreated (.leaf sym) := ⟨_, rfl⟩
  rw [← ht] at hhead
  have hbusy : t.busy = true := by simpa [ht, State.recreated] using hb
  have holog : t.olog = s.olog := by simp [ht, State.recreated]
  have h := hhead.standsAt
  have hcfg : t.decodeStarted.cfg = s.cfg := hhead.cfg_eq
  have hne : sym ≠ t.decodeStarted.cfg.eofsym := hcfg.symm ▸ hsym.ne
  have hexec := hhead.exec_eq hc hw hd
  rw [decodeAndEnd_goes_on false (decodeTurns_leaf h hne _), settle_ok] at hexec
  refine ⟨_, hexec, (emitted_busy _ _ _).trans hbusy, ?_, fun n => ?_⟩
  · rw [tree?_congr (t := t.decodeStarted.emitted 0 _) (s := t) (emitted_nodes _ _ _), emitted_rootRef]
    exact hhead.tree
  · obtain ⟨m, hm, hrun⟩ := run_decodeEntered h hne hbusy n
    refine ⟨_, hrun, (emitted_busy _ _ _).trans hbusy, (emitted_fault _ _ _).trans hhead.fault_eq, ?_, m, hm, ?_⟩
    · exact (congrArg BitVec.toNat (emitted_zero_ipos _ _)).trans hhead.pos_eq
    · rw [emitted_olog, hcfg, ← holog]
      rfl

end Sys2Proof.Machine

end

section
/-!
PROOF. The round trip (spec/45_driver.md R223): the steps of the core that compress port IN, reset, present the bits that were
sent, and decompress them.
-/

namespace Sys2Proof.Machine

variable {s t : State} {T : CodeTree} {i : Instr} {fmt : HeaderFormat} {bits pad rest : List Bit} {syms : List Nat}
  {e : HostEvent} {hs : List HostEvent} {n : Nat}

/-! ### Steps -/

/-- The state in which a command of the host executes, the acts `hs` still to come (spec/30_encoding.md R90). -/
def State.issued (s : State) (i : Instr) (hs : List HostEvent) : State := (s.setHost hs).latch (encode i)

/-- From `s` a command has ended in `t` with OK, no fault newly recorded, and has sent `bits`. -/
structure EndsOk (s t : State) (bits : List Bit) : Prop where
  busy : t.busy = false
  outcome : t.outcome = .ok
  fault_eq : t.fault = s.fault
  olog_eq : t.olog = s.olog ++ bits
  host_eq : t.host = s.host
  cfg_eq : t.cfg = s.cfg

/-- A step on a command's word written to CMD (spec/30_encoding.md R90). -/
theorem step_command (hb : s.busy = false) (hf : s.fault = none) (hh : s.host = cmdWrite s.cfg (encode i) :: hs) :
    step s = exec i (s.issued i hs) :=
  (step_cmd hb hh).trans (onCmdWrite_ok (s := s.setHost hs) hf (decode_encode i))

theorem hostQuiet_of_waiting (hh : s.host = e :: hs) (he : e.gap = none) : s.hostQuiet = true := by
  rw [State.hostQuiet, hh]
  exact Option.isNone_iff_eq_none.mpr he

/-! ### Compressing -/

/-- PLAN ends with the plan (spec/45_driver.md R212). -/
theorem execPlan_endsOk (hc : s.cfg.valid = true) (hw : s.hostQuiet = true) (hd : s.dstate = .clean) (hn : s.nodes = [])
    (hq : s.queue = []) (hlen : s.input.length < 2 ^ 64) (hfit : ∀ n ∈ countsOf s.cfg s.input, n < 2 ^ s.cfg.iw)
    (fmt : HeaderFormat) : ∃ T p, exec (.plan fmt) s = .next p ∧ EndsOk s p [] ∧ p.HoldsPlan T ∧ p.pfmt = fmt ∧
      p.input = s.input := by
  obtain ⟨ns, root, T, hplan, hholds⟩ := execPlan_holdsPlan hc hw hd hn hq hlen hfit fmt
  exact ⟨T, _, hplan, ⟨rfl, rfl, rfl, (List.append_nil _).symm, rfl, rfl⟩, hholds, rfl, rfl⟩

theorem State.HoldsPlan.issued (h : s.HoldsPlan T) (i : Instr) (hs : List HostEvent) : (s.issued i hs).HoldsPlan T :=
  ⟨h.valid, h.planned, h.input_fits, h.nodes_le, h.tree, h.table, h.counts, h.tree_of_counts⟩

/-- COMPRESS.OVR of a plan ends with its stream sent (spec/45_driver.md R216). -/
theorem State.HoldsPlan.compress_endsOk (h : s.HoldsPlan T) (hw : s.hostQuiet = true) : ∃ c,
    exec (.compress true) s = .next c ∧
      EndsOk s c (streamOf s.cfg s.pfmt (countsOf s.cfg s.input) T (symbolsOf s.cfg.sw s.input)) :=
  ⟨_, h.compress hw (.inr rfl), rfl, rfl, rfl, rfl, rfl, rfl⟩

/-- What a reset leaves of the session, the faults and the stores (spec/70_reset_and_hazards.md R280). -/
structure State.Fresh (s : State) : Prop where
  valid : s.cfg.valid = true
  faultless : s.fault = none
  clean : s.dstate = .clean
  nodes_nil : s.nodes = []
  queue_nil : s.queue = []

/-- The steps of PLAN and COMPRESS.OVR on a freshly reset core (spec/45_driver.md R212, R216). -/
theorem steps_compress (h : s.Fresh) (hb : s.busy = false) (hlen : s.input.length < 2 ^ 64)
    (hfit : ∀ n ∈ countsOf s.cfg s.input, n < 2 ^ s.cfg.iw)
    (hh : s.host = cmdWrite s.cfg (encode (.plan fmt)) :: cmdWrite s.cfg (encode (.compress true)) :: e :: hs)
    (he : e.gap = none) : ∃ T p c, huffTree s.cfg (countsOf s.cfg s.input) = some T ∧ step s = .next p ∧ step p = .next c ∧
      EndsOk (s.setHost (e :: hs)) c (streamOf s.cfg fmt (countsOf s.cfg s.input) T (symbolsOf s.cfg.sw s.input)) := by
  obtain ⟨T, p, hplan, hp, hholds, hfmt, hin⟩ := execPlan_endsOk (fmt := fmt)
    (s := s.issued (.plan fmt) (cmdWrite s.cfg (encode (.compress true)) :: e :: hs)) h.valid (hostQuiet_of_waiting rfl rfl)
    h.clean h.nodes_nil h.queue_nil hlen hfit
  obtain ⟨c, hcompress, hc⟩ := (hholds.issued (.compress true) (e :: hs)).compress_endsOk (hostQuiet_of_waiting rfl he)
  have hcfg : p.cfg = s.cfg := hp.cfg_eq
  have hinput : p.input = s.input := hin
  have holog : p.olog = s.olog := hp.olog_eq.trans (List.append_nil _)
  have hhost : p.host = cmdWrite p.cfg (encode (.compress true)) :: e :: hs := by
    rw [hcfg]
    exact hp.host_eq
  have hstep := step_command hp.busy (hp.fault_eq.trans h.faultless) hhost
  refine ⟨T, p, c, ?_, (step_command hb h.faultless hh).trans hplan, hstep.trans hcompress, ?_⟩
  · rw [← hcfg, ← hinput]
    exact hholds.tree_of_counts
  · refine ⟨hc.busy, hc.outcome, hc.fault_eq.trans hp.fault_eq, hc.olog_eq.trans ?_, hc.host_eq, hc.cfg_eq.trans hp.cfg_eq⟩
    show p.olog ++ streamOf p.cfg p.pfmt (countsOf p.cfg p.input) T (symbolsOf p.cfg.sw p.input) = _
    rw [holog, hcfg, hfmt, hinput]
    rfl

/-! ### Reset and the bits that were sent -/

/-- The steps of SOFT_RESET and of a new port IN (spec/45_driver.md R226, spec/70_reset_and_hazards.md R280). -/
theorem steps_present (hc : s.cfg.valid = true) (hb : s.busy = false) (hf : s.fault = none) (hlen : bits.length < 2 ^ 64)
    (hh : s.host = cmdWrite s.cfg (encode .softReset) :: ⟨none, .attach bits⟩ :: hs) :
    ∃ r d, step s = .next r ∧ step r = .next d ∧ d.Fresh ∧ d.busy = false ∧ d.freq.length = d.cfg.alph + 1 ∧
      d.input = bits ∧ d.olog = s.olog ∧ d.host = hs ∧ d.cfg = s.cfg := by
  obtain ⟨u, hu⟩ : ∃ u, u = s.issued .softReset (⟨none, .attach bits⟩ :: hs) := ⟨_, rfl⟩
  have hw : u.hostQuiet = true := hu ▸ hostQuiet_of_waiting rfl rfl
  have hreset : step s = .next (resetHcc u) :=
    (step_command hb hf hh).trans (hu ▸ runCmd_ok hw (change_quiet _ hw))
  have hattach : step (resetHcc u) = .next (((resetHcc u).setHost hs).setInput bits) := by
    have hhost : (resetHcc u).host = ⟨none, .attach bits⟩ :: hs := by rw [hu]; rfl
    exact (step_idle rfl hhost).trans (if_pos (decide_eq_true hlen))
  refine ⟨_, _, hreset, hattach, ⟨?_, rfl, rfl, rfl, rfl⟩, rfl, List.length_replicate, rfl, ?_, rfl, ?_⟩
  · rw [hu]
    exact hc
  · rw [hu]
    rfl
  · rw [hu]
    rfl

/-! ### Decompressing -/

/-- The header of a stream that COMPRESS sent. -/
theorem State.Fresh.headerRead (h : s.Fresh) (hw : s.hostQuiet = true) (hfreq : s.freq.length = s.cfg.alph + 1)
    (hT : huffTree s.cfg (countsOf s.cfg bits) = some T) (hfit : ∀ n ∈ countsOf s.cfg bits, n < 2 ^ s.cfg.iw)
    (hin : s.input = headerOf s.cfg fmt ((countsOf s.cfg bits).take s.cfg.alph) T ++ rest) :
    ∃ t n, HeaderRead s t T n rest := by
  cases fmt with
  | tree =>
    have hroom : s.nodes.length + T.size ≤ s.cfg.ncap := by
      rw [h.nodes_nil, List.length_nil, Nat.zero_add]
      exact size_huffTree_le h.valid hT
    exact ⟨_, _, headerRead_tree h.valid hw hin (symbols_huffTree_le hT) hroom⟩
  | counts =>
    have hlen : ((countsOf s.cfg bits).take s.cfg.alph).length = s.cfg.alph :=
      List.length_take_of_le ((Nat.le_succ _).trans_eq (countsOf_length _ _).symm)
    have hcounts : (countsOf s.cfg bits).take s.cfg.alph ++ [1] = countsOf s.cfg bits := by
      rw [countsOf, List.take_left' (by simp)]
    obtain ⟨ns, root, U, hU, hread⟩ := headerRead_counts h.valid hw h.nodes_nil h.queue_nil
      (fun n hn => hfit n (List.mem_of_mem_take hn)) hlen hin
    rw [entered_all hfreq hlen, hcounts] at hU
    obtain rfl := Option.some.inj (hU.symm.trans hT)
    exact ⟨_, _, hread⟩

/-- DECOMPRESS of a stream that COMPRESS sent ends with its symbols sent (spec/45_driver.md R223). -/
theorem State.Fresh.decompress_endsOk (h : s.Fresh) (hw : s.hostQuiet = true) (hfreq : s.freq.length = s.cfg.alph + 1)
    (hT : huffTree s.cfg (countsOf s.cfg bits) = some T) (hfit : ∀ n ∈ countsOf s.cfg bits, n < 2 ^ s.cfg.iw)
    (hin : s.input = streamOf s.cfg fmt (countsOf s.cfg bits) T (symbolsOf s.cfg.sw bits) ++ pad)
    (hlen : s.input.length < 2 ^ 64) :
    ∃ t, exec .decompress s = .next t ∧ EndsOk s t (symbolBits s.cfg.sw (symbolsOf s.cfg.sw bits)) := by
  rw [streamOf_eq, List.append_assoc] at hin
  obtain ⟨t, n, hread⟩ := h.headerRead hw hfreq hT hfit hin
  have hsyms : ∀ y ∈ symbolsOf s.cfg.sw bits, y < s.cfg.eofsym ∧ y ∈ T.symbols := fun y hy =>
    ⟨symbolsOf_lt (Config.sw_pos h.valid) hy, mem_huffTree_countsOf h.valid hT y (List.mem_append_left _ hy)⟩
  refine ⟨_, execDecompress_decodes h.valid hw h.clean hlen hread hsyms (eofsym_mem_huffTree hT),
    rfl, rfl, hread.fault_eq, ?_, hread.host_eq, hread.cfg_eq⟩
  show t.olog ++ symbolBits t.cfg.sw _ = _
  rw [hread.olog_eq, hread.cfg_eq]

/-- The host's acts of a round trip (spec/45_driver.md R223). -/
def roundTripActs (c : Config) (fmt : HeaderFormat) (bits : List Bit) : List HostEvent :=
  [cmdWrite c (encode (.plan fmt)), cmdWrite c (encode (.compress true)), cmdWrite c (encode .softReset),
    ⟨none, .attach bits⟩, cmdWrite c (encode .decompress)]

/-- Settles O57: the stream that COMPRESS sends is one that DECOMPRESS, after a reset, sends the symbols of. -/
theorem roundTripReturnsTheInput : Obligations.RoundTripReturnsTheInput := by
  intro s fmt hc hb hf hd hn hq hlen hwhole hfit
  obtain ⟨_, _, T, -, hholds⟩ := execPlan_holdsPlan (s := s.setHost []) hc rfl hd hn hq hlen hfit fmt
  have hT : huffTree s.cfg (countsOf s.cfg s.input) = some T := hholds.tree_of_counts
  refine ⟨streamOf s.cfg fmt (countsOf s.cfg s.input) T (symbolsOf s.cfg.sw s.input), fun pad start hbits hstart => ?_⟩
  subst hstart
  obtain ⟨U, p, c, hU, hplan, hcompress, hsent⟩ := steps_compress (s := s.setHost (roundTripActs s.cfg fmt
    (streamOf s.cfg fmt (countsOf s.cfg s.input) T (symbolsOf s.cfg.sw s.input) ++ pad)))
    ⟨hc, hf, hd, hn, hq⟩ hb hlen hfit rfl rfl
  obtain rfl := Option.some.inj (hU.symm.trans hT)
  have hccfg : c.cfg = s.cfg := hsent.cfg_eq
  have hcf : c.fault = none := hsent.fault_eq.trans hf
  obtain ⟨r, d, hreset, hattach, hfresh, hdb, hdfreq, hdin, hdolog, hdhost, hdcfg⟩ := steps_present (hccfg.symm ▸ hc)
    hsent.busy hcf hbits (hsent.host_eq.trans (by rw [hccfg]; rfl))
  have hcfg : (d.issued .decompress []).cfg = s.cfg := hdcfg.trans hccfg
  obtain ⟨t, hdecompress, ht⟩ := State.Fresh.decompress_endsOk (s := d.issued .decompress []) (T := U) (fmt := fmt)
    (bits := s.input) (pad := pad) ⟨hfresh.valid, hfresh.faultless, hfresh.clean, hfresh.nodes_nil, hfresh.queue_nil⟩ rfl
    hdfreq (by rw [hcfg]; exact hT) (by rw [hcfg]; exact hfit) (by rw [hcfg]; exact hdin) (hdin.symm ▸ hbits)
  have hlast := (step_command hdb hfresh.faultless (hdhost.trans (by rw [hdcfg, hccfg]))).trans hdecompress
  refine ⟨c, t, ?_, hsent.busy, hcf, hsent.outcome, hsent.olog_eq, ?_, ht.busy, ht.fault_eq.trans hfresh.faultless,
    ht.outcome, ?_⟩
  · exact (run_succ core 1 hplan).trans (run_succ core 0 hcompress)
  · exact (run_succ core 4 hplan).trans ((run_succ core 3 hcompress).trans ((run_succ core 2 hreset).trans
      ((run_succ core 1 hattach).trans (run_succ core 0 hlast))))
  · rw [ht.olog_eq, hcfg, symbolBits_symbolsOf (Config.sw_pos hc) hwhole]
    exact congrArg (· ++ s.input) (hdolog.trans hsent.olog_eq)

end Sys2Proof.Machine

end

section
/-!
PROOF. Faults: their codes, what a raise and a CMD write inside a command do, the entry checks of a CMD write, and the state
that a recorded fault leaves until a reset (spec/60_exceptions.md R252 to R259).
-/

namespace Sys2Proof.Machine

variable {s : State}

/-- Settles O10: the codes are the table's, one by one. -/
theorem faultCodesOfTheTable : Obligations.FaultCodesOfTheTable := by
  refine ⟨rfl, fun f => ?_⟩
  cases f <;> exact ⟨by decide, by decide⟩

/-- Settles O11: with nothing to land a raise stops the rule, and so all that follows it. -/
theorem raiseStopsTheCommandAndRecordsTheFault : Obligations.RaiseStopsTheCommandAndRecordsTheFault := by
  intro f s hw
  refine ⟨fun k => ?_, rfl, rfl, rfl, rfl⟩
  rw [bind_of_error (raise_quiet f hw), settle_raised]

/-- A CMD write that lands at the first point of a rule stops it there (spec/60_exceptions.md R256). -/
theorem runCmd_cmdWrite {w : Word} {rest : List HostEvent} (c : Cmd Unit) (hb : s.busy = true)
    (hh : s.host = ⟨some 0, .write s.cfg.hccBase 4 w⟩ :: rest) :
    runCmd c s = .next (takeFault .cmdWhileBusy (s.setHost rest)) := by
  have hland : landBusy (.write s.cfg.hccBase 4 w) (s.setHost rest) = .error (.raised .cmdWhileBusy) (s.setHost rest) := by
    simp [landBusy, offsetOf_cmd]
  rw [runCmd_stops c hb hh hland, settle_raised]

/-- Settles O12: whatever is executing is the run of a rule, and a CMD write stops every rule at its point. -/
theorem cmdWriteWhileBusyIsAFault : Obligations.CmdWriteWhileBusyIsAFault := by
  intro s w rest hb hh
  refine ⟨fun c => runCmd_cmdWrite c hb hh, fun i => ?_, ?_⟩
  · obtain ⟨c, hc⟩ := exec_eq_runCmd i s
    exact hc.trans (runCmd_cmdWrite c hb hh)
  · exact (step_busy hb).trans (runCmd_cmdWrite _ hb hh)

/-! ### While a fault is recorded -/

/-- On an idle core nothing lands inside SOFT_RESET. -/
theorem exec_softReset_idle (hb : s.busy = false) : exec .softReset s = .next (resetHcc s) := by
  show settle _ = _
  rw [bind_of_ok (point_idle hb), change, bind_of_ok (point_idle hb), modify_apply, settle_ok]

/-- The word of SOFT_RESET resets (spec/60_exceptions.md R258). -/
theorem onCmdWrite_faulted_reset (hb : s.busy = false) (hf : s.fault ≠ none) :
    onCmdWrite 0x00000004 s = .next (resetHcc s) := by
  rw [onCmdWrite, if_pos (Option.isSome_iff_ne_none.mpr hf), if_pos rfl, exec_softReset_idle hb]

/-- Any other word has no effect. -/
theorem onCmdWrite_faulted_other {w : Word} (hf : s.fault ≠ none) (hw : w ≠ 0x00000004) : onCmdWrite w s = .next s := by
  rw [onCmdWrite, if_pos (Option.isSome_iff_ne_none.mpr hf), if_neg hw]

/-- Settles O6: the checks of `onCmdWrite`, one lemma each. -/
theorem entryChecksOfACmdWrite : Obligations.EntryChecksOfACmdWrite := by
  intro s w gap rest hb hh
  rw [step_cmd hb hh]
  refine ⟨?_, fun hf hw => onCmdWrite_faulted_other (s := s.setHost rest) hf hw,
    fun hf hw hq => onCmdWrite_illegal (s := s.setHost rest) hf hw hq,
    fun i hf hw => onCmdWrite_ok (s := s.setHost rest) hf hw⟩
  rintro hf rfl
  exact onCmdWrite_faulted_reset (s := s.setHost rest) hb hf

/-- Only the word at HCC_BASE is CMD. -/
theorem eq_cmd_of_offsetOf {c : Config} {addr size : Nat} (h : offsetOf c addr size = some 0) :
    addr = c.hccBase ∧ size = 4 := by
  simp only [offsetOf, Config.accessOk, Bool.and_eq_true, decide_eq_true_eq, Option.ite_none_right_eq_some,
    Option.some.injEq] at h
  omega

/-- `t` is `s` but for what the host changes while a fault is recorded. -/
def FaultedApart (s t : State) : Prop :=
  t = { s with host := t.host, seen := t.seen, arg0 := t.arg0, arg1 := t.arg1, input := t.input }

/-- What an act of the host does on an idle core with a fault recorded (spec/60_exceptions.md R255). -/
theorem hostAct_faulted {act : HostAct} {t : State} (hb : s.busy = false) (hf : s.fault ≠ none)
    (ht : hostAct act s = .next t) :
    (t = resetHcc s ∧ (act = .hardReset ∨ act = .write s.cfg.hccBase 4 0x00000004)) ∨ FaultedApart s t := by
  cases act with
  | hardReset => exact .inl ⟨(Host.Outcome.next.inj ht).symm, .inl rfl⟩
  | attach bits =>
    simp only [hostAct] at ht
    split at ht
    · exact .inr (Host.Outcome.next.inj ht ▸ rfl)
    · cases ht
  | read addr size =>
    simp only [hostAct] at ht
    split at ht
    · cases ht
    · exact .inr (Host.Outcome.next.inj ht ▸ rfl)
  | write addr size w =>
    simp only [hostAct] at ht
    split at ht
    · cases ht
    · next hoff =>
      obtain ⟨rfl, rfl⟩ := eq_cmd_of_offsetOf hoff
      by_cases hw : w = 0x00000004
      · subst hw
        rw [onCmdWrite_faulted_reset hb hf] at ht
        exact .inl ⟨(Host.Outcome.next.inj ht).symm, .inr rfl⟩
      · rw [onCmdWrite_faulted_other hf hw] at ht
        exact .inr (Host.Outcome.next.inj ht ▸ rfl)
    · rw [regWrite_eq] at ht
      exact .inr (Host.Outcome.next.inj ht ▸ rfl)

/-- Settles O24: an idle step is nothing or the host's next act, which `hostAct_faulted` describes. -/
theorem faultIsStickyUntilReset : Obligations.FaultIsStickyUntilReset := by
  intro s t f hb hf ht
  cases hh : s.host with
  | nil =>
    simp only [step, stepMachine, hb, hh] at ht
    exact .inr (Host.Outcome.next.inj ht ▸ rfl)
  | cons e rest =>
    rw [step_idle hb hh] at ht
    have hfault : (s.setHost rest).fault ≠ none := by simp [State.setHost, hf]
    obtain ⟨hreset, hact⟩ | hapart := hostAct_faulted (s := s.setHost rest) hb hfault ht
    · exact .inl ⟨e, rest, rfl, hreset, hact⟩
    · exact .inr hapart

end Sys2Proof.Machine

end

section
/-!
PROOF. How a rule may stop (`Unstuck`): by a fault, by the reset input, or on what the host did (spec/60_exceptions.md R250),
but not by a stop of the model's own; and the rules that follow no reference, which stop so from every state.
-/

namespace Sys2Proof.Machine

variable {α β : Type} {P : State → Prop}

/-! ### Stops that are not the model's own -/

/-- A fault of the HCC, the reset input, or one of the two refusals that an act of the host inside a command meets. -/
def Stop.Lawful : Stop → Prop
  | .raised _ => True
  | .resetInput => True
  | .stuck _ => False
  | .refuse r => r = .unsupportedAccess ∨ r = .unstableInput

/-- From a state of `P` the rule `x` stops lawfully, if it stops. -/
def Unstuck (P : State → Prop) (x : Cmd α) : Prop := ∀ s, P s → ∀ e t, x s = .error e t → e.Lawful

namespace Unstuck

theorem mono {P' : State → Prop} {x : Cmd α} (h : Unstuck P x) (hP : ∀ s, P' s → P s) : Unstuck P' x :=
  fun s hs => h s (hP s hs)

theorem of_ok {x : Cmd α} (h : ∀ s, P s → ∃ a t, x s = .ok a t) : Unstuck P x := by
  intro s hs e t he
  obtain ⟨a, u, hok⟩ := h s hs
  exact absurd (hok.symm.trans he) ok_ne_error

theorem pure (a : α) : Unstuck P (Pure.pure a : Cmd α) := of_ok fun s _ => ⟨a, s, rfl⟩

theorem modify (f : State → State) : Unstuck P (modify f : Cmd PUnit) := of_ok fun s _ => ⟨⟨⟩, f s, rfl⟩

theorem set (t : State) : Unstuck P (MonadStateOf.set t : Cmd PUnit) := of_ok fun _ _ => ⟨⟨⟩, t, rfl⟩

theorem throw {e : Stop} (he : e.Lawful) : Unstuck P (MonadExcept.throw e : Cmd α) := by
  intro s _ e' t h
  obtain ⟨rfl, -⟩ := EStateM.Result.error.inj h
  exact he

theorem bind {Q : α → State → Prop} {x : Cmd α} {f : α → Cmd β} (hx : Unstuck P x)
    (hQ : ∀ s, P s → ∀ a t, x s = .ok a t → Q a t) (hf : ∀ a, Unstuck (Q a) (f a)) : Unstuck P (x >>= f) := by
  intro s hs e t he
  cases hr : x s with
  | ok a u =>
    rw [bind_of_ok hr] at he
    exact hf a u (hQ s hs a u hr) e t he
  | error e' u =>
    rw [bind_of_error hr] at he
    obtain ⟨rfl, -⟩ := EStateM.Result.error.inj he
    exact hx s hs _ u hr

/-- A rule, and what follows it and is never stuck. -/
theorem thenAny {x : Cmd α} {f : α → Cmd β} (hx : Unstuck P x) (hf : ∀ a, Unstuck (fun _ => True) (f a)) :
    Unstuck P (x >>= f) := hx.bind (Q := fun _ _ => True) (fun _ _ _ _ _ => trivial) hf

/-- A rule that keeps `R`, and what follows it from what `R` carries over. -/
theorem keeping {R : State → State → Prop} {Q : State → Prop} {x : Cmd α} {f : α → Cmd β} (hx : Unstuck P x)
    (hk : Keeps R x) (hQ : ∀ s t, R s t → P s → Q t) (hf : ∀ a, Unstuck Q (f a)) : Unstuck P (x >>= f) := by
  refine hx.bind (Q := fun _ => Q) (fun s hs a t hok => ?_) hf
  have h := hk s
  rw [hok] at h
  exact hQ s t h hs

theorem get_bind {f : State → Cmd β} (h : ∀ s, P s → Unstuck (fun t => t = s) (f s)) :
    Unstuck P ((get : Cmd State) >>= f) := fun s hs => h s hs s rfl

theorem ite {p : Prop} [Decidable p] {x y : Cmd α} (hx : p → Unstuck P x) (hy : ¬ p → Unstuck P y) :
    Unstuck P (if p then x else y) := by
  split
  · next h => exact hx h
  · next h => exact hy h

/-- A host act that lands at a point stops the rule lawfully, if it stops it. -/
theorem point : Unstuck P Machine.point := by
  intro s _ e t h
  unfold Machine.point at h
  split at h
  · split at h
    · next act rest _ =>
      cases act with
      | hardReset =>
        cases h
        trivial
      | attach bits =>
        cases h
        exact .inr rfl
      | read addr size =>
        simp only [landBusy] at h
        split at h
        · cases h
          exact .inl rfl
        · cases h
      | write addr size v =>
        simp only [landBusy] at h
        split at h
        · cases h
          exact .inl rfl
        · cases h
          trivial
        · cases h
    · cases h
    · cases h
    · cases h
  · cases h

theorem raise (f : FaultCode) : Unstuck P (Machine.raise f : Cmd α) := point.thenAny fun _ => throw trivial

theorem change (f : State → State) : Unstuck P (Machine.change f) := point.thenAny fun _ => modify f

theorem changeThen {f : State → State} {g : Unit → Cmd β} (hg : ∀ a, Unstuck (fun _ => True) (g a)) :
    Unstuck P (Machine.change f >>= g) := (change f).thenAny hg

end Unstuck

/-! ### Rules that follow no reference -/

theorem unstuck_done (o : CmdOutcome) : Unstuck P (done o) := .change _

theorem unstuck_doneUsed : Unstuck P doneUsed := .changeThen fun _ => unstuck_done _

theorem unstuck_inRead (n : Nat) : Unstuck P (inRead n) :=
  Unstuck.point.thenAny fun _ => .get_bind fun _ _ => .ite (fun _ => .pure _) fun _ =>
    (Unstuck.set _).thenAny fun _ => .pure _

theorem unstuck_outWrite (n v : Nat) : Unstuck P (outWrite n v) := .change _

theorem unstuck_alloc (kind : NodeKind) (sym freq : Nat) : Unstuck P (alloc kind sym freq) :=
  .get_bind fun _ _ => .ite (fun _ => (Unstuck.set _).thenAny fun _ => .pure _) fun _ => .raise _

theorem unstuck_nodeWrite (r : NodeRef) (f : NodeRec → NodeRec) : Unstuck P (nodeWrite r f) := .modify _

theorem unstuck_dequeue : Unstuck P dequeue := by
  refine .get_bind fun s _ => ?_
  split
  · exact .raise _
  · exact .changeThen fun _ => .pure _

theorem unstuck_takeSymbol : Unstuck P takeSymbol := .get_bind fun _ _ => .ite (fun _ => .raise _) fun _ => .pure _

theorem unstuck_takeNode : Unstuck P takeNode :=
  .get_bind fun _ _ => .ite (fun _ => .raise _) fun _ => .ite (fun _ => .raise _) fun _ => .pure _

theorem unstuck_sendPath (p : List Bit) : Unstuck P (sendPath p) := by
  induction p generalizing P with
  | nil => exact .pure _
  | cons b p ih => exact (unstuck_outWrite _ _).thenAny fun _ => ih

theorem unstuck_emitPath (sym : Nat) : Unstuck P (emitPath sym) := by
  refine .get_bind fun s _ => ?_
  split
  · exact .raise _
  · exact (unstuck_sendPath _).thenAny fun _ => .pure _

theorem unstuck_sendCounts (count sym : Nat) : Unstuck P (sendCounts count sym) := by
  induction count generalizing sym P with
  | zero => exact .pure _
  | succ count ih => exact .get_bind fun _ _ => (unstuck_outWrite _ _).thenAny fun _ => ih _

theorem unstuck_readCounts (count sym : Nat) : Unstuck P (readCounts count sym) := by
  induction count generalizing sym P with
  | zero => exact .pure _
  | succ count ih =>
    refine .get_bind fun s _ => (unstuck_inRead _).thenAny fun o => ?_
    split
    · exact .raise _
    · exact (Unstuck.modify _).thenAny fun _ => ih _

theorem unstuck_decodeEnd (withRes0 : Bool) : Unstuck P (decodeEnd withRes0) := by
  refine .get_bind fun s _ => .changeThen fun _ => ?_
  have hend : Unstuck (fun _ => True) (do
      Machine.change (·.setDecode none 0)
      doneUsed) := .changeThen fun _ => unstuck_doneUsed
  exact .ite (fun _ => .changeThen fun _ => hend) fun _ => hend

theorem unstuck_endBadMagic : Unstuck P endBadMagic := .changeThen fun _ => .changeThen fun _ => unstuck_done _

end Sys2Proof.Machine

end

section
/-!
PROOF. The loops over port IN and ReadNode are given turns enough: each turn consumes bits of port IN
(spec/45_driver.md R211, R216), each level of ReadNode a free record (spec/43_serialize.md R172).
-/

namespace Sys2Proof.Machine

variable {α β : Type} {P : State → Prop} {s t u : State}

/-! ### Loops over port IN -/

/-- `t` has the parameters of `s` and what port IN presents, at the same position. -/
def SameStream (s t : State) : Prop := t.cfg = s.cfg ∧ t.input = s.input ∧ t.ipos = s.ipos

theorem SameStream.refl (s : State) : SameStream s s := ⟨rfl, rfl, rfl⟩

theorem SameStream.trans {s t u : State} : SameStream s t → SameStream t u → SameStream s u :=
  fun ⟨hcfg, hin, hpos⟩ ⟨hcfg', hin', hpos'⟩ => ⟨hcfg'.trans hcfg, hin'.trans hin, hpos'.trans hpos⟩

theorem keepsStream_point : Keeps SameStream point := keeps_point .refl fun _ _ _ _ _ _ => ⟨rfl, rfl, rfl⟩

theorem keepsStream_bind {x : Cmd α} {f : α → Cmd β} (hx : Keeps SameStream x) (hf : ∀ a, Keeps SameStream (f a)) :
    Keeps SameStream (x >>= f) := keeps_bind (fun _ _ _ => .trans) hx hf

theorem keepsStream_sendPath (p : List Bit) : Keeps SameStream (sendPath p) := by
  induction p with
  | nil => exact keeps_pure .refl _
  | cons b p ih =>
    have hsend : Keeps SameStream (outWrite 1 b.toNat) :=
      keepsStream_bind keepsStream_point fun _ => keeps_modify fun _ => ⟨rfl, rfl, rfl⟩
    exact keepsStream_bind hsend fun _ => ih

theorem keepsStream_emitPath (sym : Nat) : Keeps SameStream (emitPath sym) := by
  refine keepsStream_bind (keeps_get .refl) fun s => ?_
  split
  · exact keepsStream_bind keepsStream_point fun _ => keeps_throw .refl _
  · exact keepsStream_bind (keepsStream_sendPath _) fun _ => keeps_pure .refl _

/-- Fewer than `fuel` bits of port IN are left, and IPOS can count them (spec/10_state.md R63). -/
structure State.Within (fuel : Nat) (s : State) : Prop where
  valid : s.cfg.valid = true
  input_fits : s.input.length < 2 ^ 64
  left : s.input.length - s.ipos.toNat < fuel

theorem State.Within.keep {fuel : Nat} (h : s.Within fuel) (hk : SameStream s t) : t.Within fuel := by
  obtain ⟨hcfg, hin, hpos⟩ := hk
  exact ⟨hcfg ▸ h.valid, hin ▸ h.input_fits, by rw [hin, hpos]; exact h.left⟩

/-- A symbol read leaves fewer bits, since SW is positive (spec/00_scope.md R9). -/
theorem State.Within.read {fuel v : Nat} (h : s.Within (fuel + 1)) (hr : inRead s.cfg.sw s = .ok (some v) t) :
    t.Within fuel := by
  have hsw := Config.sw_pos h.valid
  cases hp : Machine.point s with
  | error e w =>
    rw [inRead, bind_of_error hp] at hr
    cases hr
  | ok a w =>
    have hk := keepsStream_point s
    rw [hp] at hk
    have hw : w.Within (fuel + 1) := h.keep hk
    obtain ⟨hvalid, hfits, hleft⟩ := hw
    rw [inRead, bind_of_ok hp, get_bind_apply] at hr
    split at hr
    · cases hr
    · next hroom =>
      obtain ⟨-, rfl⟩ := EStateM.Result.ok.inj hr
      rw [State.pos_eq] at hroom
      refine ⟨hvalid, hfits, ?_⟩
      have hpos := w.setIpos_toNat (n := w.ipos.toNat + s.cfg.sw) (by omega)
      rw [State.pos_eq, hpos, State.setIpos_input]
      omega

/-- A symbol is read, and the rule goes on from fewer bits when there was one. -/
theorem unstuck_readSymbol {fuel : Nat} {f : Option Nat → Cmd β} (hnone : Unstuck (fun _ => True) (f none))
    (hsome : ∀ v, Unstuck (State.Within fuel) (f (some v))) : Unstuck (State.Within (fuel + 1)) (do
      let s ← get
      let o ← inRead s.cfg.sw
      f o) := by
  refine .get_bind fun s hs => (unstuck_inRead _).bind (Q := fun o t => ∀ v, o = some v → t.Within fuel) ?_ fun o => ?_
  · rintro _ rfl o t hr v rfl
    exact hs.read hr
  · cases o with
    | none => exact hnone.mono fun _ _ => trivial
    | some v => exact (hsome v).mono fun _ ht => ht v rfl

theorem unstuck_scanLoop (fuel : Nat) : Unstuck (State.Within fuel) (scanLoop fuel) := by
  induction fuel with
  | zero => exact fun s h => absurd h.left (Nat.not_lt_zero _)
  | succ fuel ih =>
    refine unstuck_readSymbol (.pure _) fun v => .get_bind fun t ht => .ite (fun _ => .raise _) fun _ =>
      (Unstuck.set _).bind (Q := fun _ => State.Within fuel) ?_ fun _ => ih
    rintro _ rfl _ w hw
    obtain ⟨-, rfl⟩ := EStateM.Result.ok.inj hw
    exact ht.keep ⟨rfl, rfl, rfl⟩

theorem unstuck_emitLoop (fuel : Nat) : Unstuck (State.Within fuel) (emitLoop fuel) := by
  induction fuel with
  | zero => exact fun s h => absurd h.left (Nat.not_lt_zero _)
  | succ fuel ih =>
    exact unstuck_readSymbol (.pure _) fun v =>
      (unstuck_emitPath v).keeping (keepsStream_emitPath v) (fun _ _ hk hs => hs.keep hk) fun _ => ih

/-! ### Reconstruction -/

/-- `t` has the parameters of `s` and at least its records. -/
def GrowsPool (s t : State) : Prop := t.cfg = s.cfg ∧ s.nodes.length ≤ t.nodes.length

theorem GrowsPool.trans {s t u : State} (h : GrowsPool s t) (h' : GrowsPool t u) : GrowsPool s u :=
  ⟨h'.1.trans h.1, h.2.trans h'.2⟩

theorem Built.keeps_pool {x : Cmd α} (hx : Built false true x) : Keeps GrowsPool x := fun s =>
  have h : (reached (x s)).stores = s.stores := hx.keeps_stores s
  ⟨(congrArg State.cfg h :), (congrArg (fun u : State => u.nodes.length) h).ge⟩

theorem keepsPool_nodeWrite (r : NodeRef) (f : NodeRec → NodeRec) : Keeps GrowsPool (nodeWrite r f) :=
  keeps_modify fun _ => ⟨rfl, by simp⟩

theorem keepsPool_setStack (f : State → List (NodeRef × AwaitSide)) :
    Keeps GrowsPool (modify fun s => s.setStack (f s) : Cmd PUnit) := keeps_modify fun _ => ⟨rfl, le_rfl⟩

theorem keepsPool_alloc (kind : NodeKind) (sym freq : Nat) : Keeps GrowsPool (alloc kind sym freq) := by
  intro s
  by_cases hroom : s.next < s.cfg.ncap
  · rw [alloc_room hroom]
    exact ⟨rfl, by simp⟩
  · rw [alloc, get_bind_apply, if_neg hroom]
    exact (Built.raise _).keeps_pool s

theorem keepsPool_readNode (fuel : Nat) : Keeps GrowsPool (readNode fuel) := by
  have hseq {α β : Type} {x : Cmd α} {f : α → Cmd β} (hx : Keeps GrowsPool x) (hf : ∀ a, Keeps GrowsPool (f a)) :
      Keeps GrowsPool (x >>= f) := keeps_bind (fun _ _ _ => .trans) hx hf
  have hget : Keeps GrowsPool (get : Cmd State) := keeps_get fun _ => ⟨rfl, le_rfl⟩
  induction fuel with
  | zero => exact (Built.throw (.stuck .runaway) nofun).keeps_pool
  | succ fuel ih =>
    refine hseq (built_inRead 1).keeps_pool fun o => ?_
    split
    · exact (Built.raise _).keeps_pool
    · refine hseq hget fun s => hseq (built_inRead _).keeps_pool fun o => ?_
      split
      · exact (Built.raise _).keeps_pool
      · exact keeps_ite (Built.raise _).keeps_pool (keepsPool_alloc _ _ _)
    · exact hseq hget fun s => hseq (keepsPool_alloc _ _ _) fun r => hseq (keepsPool_setStack _) fun _ =>
        hseq ih fun l => hseq (keepsPool_nodeWrite _ _) fun _ => hseq (keepsPool_nodeWrite _ _) fun _ =>
        hseq (keepsPool_setStack _) fun _ => hseq ih fun q => hseq (keepsPool_nodeWrite _ _) fun _ =>
        hseq (keepsPool_nodeWrite _ _) fun _ => hseq (keepsPool_setStack _) fun _ => (Built.pure r).keeps_pool

/-- Fewer than `fuel` records are free (spec/10_state.md R52). -/
def State.FreeWithin (fuel : Nat) (s : State) : Prop := s.cfg.ncap - s.nodes.length < fuel

/-- A record allocated leaves fewer free. -/
theorem State.FreeWithin.alloc {fuel sym freq : Nat} {kind : NodeKind} {r : NodeRef} (h : s.FreeWithin (fuel + 1))
    (ha : alloc kind sym freq s = .ok r t) : t.FreeWithin fuel := by
  by_cases hroom : s.next < s.cfg.ncap
  · rw [alloc_room hroom] at ha
    obtain ⟨-, rfl⟩ := EStateM.Result.ok.inj ha
    simp only [State.FreeWithin, State.next_eq, State.setNodes_cfg, State.setNodes_nodes, List.length_append,
      List.length_singleton] at *
    omega
  · rw [Machine.alloc, get_bind_apply, if_neg hroom, Machine.raise] at ha
    cases hp : Machine.point s with
    | ok a w => rw [bind_of_ok hp] at ha; cases ha
    | error e w => rw [bind_of_error hp] at ha; cases ha

theorem Unstuck.growing {fuel : Nat} {x : Cmd α} {f : α → Cmd β} (hx : Unstuck (State.FreeWithin fuel) x)
    (hk : Keeps GrowsPool x) (hf : ∀ a, Unstuck (State.FreeWithin fuel) (f a)) :
    Unstuck (State.FreeWithin fuel) (x >>= f) := by
  refine hx.keeping hk (fun s t hgrow hs => ?_) hf
  obtain ⟨hcfg, hlen⟩ := hgrow
  rw [State.FreeWithin, hcfg]
  exact (Nat.sub_le_sub_left hlen _).trans_lt hs

/-- Each level of the recursion allocates a record first, so the levels are no more than the free records. -/
theorem unstuck_readNode (fuel : Nat) : Unstuck (State.FreeWithin fuel) (readNode fuel) := by
  induction fuel with
  | zero => exact fun s h => absurd h (Nat.not_lt_zero _)
  | succ fuel ih =>
    refine (unstuck_inRead 1).growing (built_inRead 1).keeps_pool fun o => ?_
    split
    · exact .raise _
    · refine .get_bind fun s _ => (unstuck_inRead _).thenAny fun o => ?_
      split
      · exact .raise _
      · exact .ite (fun _ => .raise _) fun _ => unstuck_alloc _ _ _
    · refine .get_bind fun s hs => (unstuck_alloc _ _ _).bind (Q := fun _ => State.FreeWithin fuel) ?_ fun r => ?_
      · rintro _ rfl r t ha
        exact hs.alloc ha
      exact (Unstuck.modify _).growing (keepsPool_setStack _) fun _ =>
        ih.growing (keepsPool_readNode _) fun l => (unstuck_nodeWrite _ _).growing (keepsPool_nodeWrite _ _) fun _ =>
        (unstuck_nodeWrite _ _).growing (keepsPool_nodeWrite _ _) fun _ =>
        (Unstuck.modify _).growing (keepsPool_setStack _) fun _ => ih.thenAny fun q =>
        (unstuck_nodeWrite _ _).thenAny fun _ => (unstuck_nodeWrite _ _).thenAny fun _ =>
        (Unstuck.modify _).thenAny fun _ => .pure r

theorem unstuck_readTree : Unstuck P readTree := by
  refine .get_bind fun s _ => Unstuck.thenAny ((unstuck_readNode _).mono ?_) fun _ =>
    .changeThen fun _ => .get_bind fun _ _ => .pure _
  rintro _ rfl
  exact Nat.lt_succ_of_le (Nat.sub_le _ _)

end Sys2Proof.Machine

end

section
/-!
PROOF. From stores that meet the invariant no reference a rule follows is free and no tree it walks is endless, so every piece
of a command is unstuck (spec/10_state.md R53 to R55, R59, R60).
-/

namespace Sys2Proof.Machine

variable {α β : Type} {s u : State} {c : Config} {d : DState}

/-! ### From given stores -/

/-- `s` has the stores `u`, which are in order. -/
def State.From (u s : State) : Prop := u.StoresOk ∧ s.stores = u

namespace Unstuck

/-- A rule, and what follows it from the stores that it leaves. -/
theorem ends {Q : α → State → Prop} {x : Cmd α} {f : α → Cmd β} (hx : Unstuck u.From x) (he : Ends u x Q)
    (hf : ∀ a v, Q a v → Unstuck v.From (f a)) : Unstuck u.From (x >>= f) := by
  refine hx.bind (Q := fun a t => t.stores.StoresOk ∧ Q a t.stores) (fun s hs a t hok => ?_) fun a s hs => ?_
  · obtain ⟨hu, hs⟩ := hs
    have h := he hu s hs
    rwa [hok] at h
  · obtain ⟨hs, hq⟩ := hs
    exact hf a _ hq s ⟨hs, rfl⟩

/-- A rule without store updates, and what follows it. -/
theorem after {x : Cmd α} {f : α → Cmd β} (hx : Unstuck u.From x) (hb : Built false true x)
    (hf : ∀ a, Unstuck u.From (f a)) : Unstuck u.From (x >>= f) :=
  hx.ends (.of_built hb) fun a _ hv => hv ▸ hf a

theorem of_storesOk {x : Cmd α} (h : u.StoresOk → Unstuck u.From x) : Unstuck u.From x := fun s hs => h hs.1 s hs

/-- The state read has the stores. -/
theorem get_from {f : State → Cmd β} (h : ∀ s : State, s.stores = u → Unstuck u.From (f s)) :
    Unstuck u.From ((get : Cmd State) >>= f) := fun s hs => h s hs.2 s hs

end Unstuck

theorem unstuck_nodeRead {r : NodeRef} (hr : r.toNat < u.nodes.length) : Unstuck u.From (nodeRead r) := by
  refine .of_ok fun s hs => ?_
  obtain ⟨-, rfl⟩ := hs
  exact ⟨_, s, nodeRead_some (List.getElem?_eq_getElem hr)⟩

/-! ### Building -/

/-- A reference fit for the queue goes into a queue in order. -/
theorem unstuck_enqueue {r : NodeRef} (h : u.Working c d) (hr : u.Loose r) : Unstuck u.From (enqueue r) := by
  obtain ⟨n, hn, -⟩ := hr
  have hlt := (List.getElem?_eq_some_iff.mp hn).1
  refine (unstuck_nodeRead hlt).after (built_nodeRead r) fun n => .get_from fun s hs => ?_
  have hq : s.queue = u.queue := by rw [← hs]; rfl
  refine Unstuck.thenAny (.of_ok fun t ht => ⟨_, t, insertByFreq_valid r _ _ fun x hx => ?_⟩) fun _ => .change _
  obtain ⟨-, rfl⟩ := ht
  exact h.queue_valid (hq ▸ hx)

theorem unstuck_mkInternal {a b : NodeRef} (ha : u.Loose a) (hb : u.Loose b) : Unstuck u.From (mkInternal a b) := by
  obtain ⟨na, hna, -⟩ := ha
  obtain ⟨nb, hnb, -⟩ := hb
  refine (unstuck_nodeRead (List.getElem?_eq_some_iff.mp hna).1).after (built_nodeRead a) fun _ =>
    (unstuck_nodeRead (List.getElem?_eq_some_iff.mp hnb).1).after (built_nodeRead b) fun _ =>
    .get_bind fun _ _ => .ite (fun _ => .raise _) fun _ => ?_
  exact (unstuck_alloc _ _ _).thenAny fun r => (unstuck_nodeWrite _ _).thenAny fun _ =>
    (unstuck_nodeWrite _ _).thenAny fun _ => (unstuck_nodeWrite _ _).thenAny fun _ => .pure r

/-- A reference fit for the queue is not the queue's front, and stays fit when the front is taken off. -/
theorem State.Loose.of_front {a b : NodeRef} {q : List NodeRef} (ha : u.Loose a) (hq : u.queue = b :: q) :
    a ≠ b ∧ (u.setQueue q).Loose a := by
  obtain ⟨n, hn, ho, hnot⟩ := ha
  rw [hq, List.mem_cons, not_or] at hnot
  exact ⟨hnot.1, n, hn, ho, hnot.2⟩

theorem unstuck_combineLoop (fuel : Nat) (h : u.Working c d) : Unstuck u.From (combineLoop fuel) := by
  induction fuel generalizing u with
  | zero => exact .pure _
  | succ fuel ih =>
    refine .get_from fun s _ => .ite (fun _ => unstuck_dequeue.ends (ends_dequeue h) ?_) fun _ => .pure _
    rintro a v ⟨q, -, -, hv, ha⟩
    refine unstuck_dequeue.ends (ends_dequeue hv) ?_
    rintro b w ⟨q', hq', rfl, hw, hb⟩
    obtain ⟨hab, ha'⟩ := ha.of_front hq'
    refine (unstuck_mkInternal ha' hb).ends (ends_mkInternal hw ha' hb hab) ?_
    rintro r x ⟨hx, hr⟩
    exact (unstuck_enqueue hx hr).ends (ends_enqueue hx hr) fun _ _ hy => ih hy

theorem unstuck_createTree (h : u.Working c d) : Unstuck u.From createTree :=
  .get_from fun _ _ => .ite (fun _ => .raise _) fun _ => (unstuck_combineLoop _ h).thenAny fun _ =>
    unstuck_dequeue.thenAny fun _ => .change _

theorem unstuck_leavesLoop (count sym : Nat) (h : u.Working c d) (hsym : sym + count ≤ c.alph) :
    Unstuck u.From (leavesLoop count sym) := by
  induction count generalizing u sym with
  | zero => exact .pure _
  | succ count ih =>
    refine .of_storesOk fun hu => .get_from fun s hs => .ite (fun _ => ?_) fun _ => ih _ h (by omega)
    subst hs
    have hfreq : s.freqAt sym < 2 ^ c.fw := (h.cfg_eq ▸ hu.freqAt_lt sym).trans_le c.two_pow_iw_le
    refine (unstuck_alloc _ _ _).ends (ends_alloc_leaf h (show sym ≤ c.alph by omega) hfreq) ?_
    rintro r v ⟨hv, hr⟩
    exact (unstuck_enqueue hv hr).ends (ends_enqueue hv hr) fun _ _ hw => ih _ hw (by omega)

theorem unstuck_buildFromFreq (h : u.Working c d) : Unstuck u.From buildFromFreq := by
  refine .of_storesOk fun hu => .get_from fun s hs => ?_
  have hcfg : s.cfg = c := by
    rw [← h.cfg_eq, ← hs]
    rfl
  have hone : 1 < 2 ^ c.fw := (Config.one_lt_two_pow_iw (h.cfg_eq ▸ hu.cfg_valid)).trans_le c.two_pow_iw_le
  rw [hcfg]
  refine (unstuck_leavesLoop _ _ h (by omega)).ends (ends_leavesLoop c.alph 0 h (by omega)) fun _ v hv =>
    (unstuck_alloc _ _ _).ends (ends_alloc_leaf hv le_rfl hone) ?_
  rintro r w ⟨hw, hr⟩
  exact (unstuck_enqueue hw hr).ends (ends_enqueue hw hr) fun _ _ hx => unstuck_createTree hx

theorem unstuck_scanInput : Unstuck u.From scanInput := by
  refine Unstuck.after (.change _) built_inRewind fun _ => ?_
  refine (Unstuck.modify _).keeping (R := fun s t => t.cfg = s.cfg ∧ t.input = s.input)
    (Q := fun s => s.cfg.valid = true ∧ s.input.length < 2 ^ 64) (keeps_modify fun _ => ⟨rfl, rfl⟩) ?_ fun _ => ?_
  · rintro s t ⟨hcfg, hin⟩ ⟨hu, rfl⟩
    rw [hcfg, hin]
    exact ⟨hu.cfg_valid, hu.input_fits⟩
  · refine .get_bind fun s hs => Unstuck.thenAny ((unstuck_scanLoop _).mono ?_) fun _ => .modify _
    rintro _ rfl
    exact ⟨hs.1, hs.2, Nat.lt_succ_of_le (Nat.sub_le _ _)⟩

/-! ### Trees -/

theorem unstuck_buildTable (h : u.Working c d) : Unstuck u.From buildTable := by
  rintro s ⟨hu, rfl⟩
  have hcap := Config.ncap_le hu.cfg_valid
  have hfit := hu.pool_fits
  obtain hnil | hroot := hu.root_ok
  · rw [buildTable, get_bind_apply, if_pos (show s.rootRef = NIL from hnil)]
    exact Unstuck.raise (P := fun _ => True) _ s trivial
  · obtain ⟨t, ht⟩ := h.root_tree hroot
    rw [buildTable_tree (s := s) (t := t) (by exact hfit.trans (by omega)) ht]
    exact fun _ _ he => absurd he ok_ne_error

/-- Count of a tree of the pool. -/
theorem unstuck_countTree {r : NodeRef} {T : CodeTree} (hT : u.tree? r = some T) : Unstuck u.From (countTree r) := by
  refine .of_ok fun s hs => ?_
  obtain ⟨hu, rfl⟩ := hs
  have hcap := Config.ncap_le hu.cfg_valid
  exact ⟨_, s, countTree_tree (s := s) (hu.pool_fits.trans (by omega)) hT⟩

theorem unstuck_writeTree {fuel : Nat} {r : NodeRef} {T : CodeTree} (hT : treeAt u.nodes fuel r = some T) :
    Unstuck u.From (writeTree fuel r) := by
  induction fuel generalizing r T with
  | zero => cases hT
  | succ fuel ih =>
    refine Unstuck.ends (unstuck_nodeRead (treeAt_lt hT)) (ends_nodeRead r) ?_
    rintro n v ⟨rfl, hn⟩
    refine .get_from fun s _ => ?_
    obtain ⟨n', hn', hcase⟩ := treeAt_succ hT
    obtain rfl := Option.some.inj (hn.symm.trans hn')
    split
    · exact (unstuck_outWrite _ _).thenAny fun _ => (unstuck_outWrite _ _).thenAny fun _ => .pure _
    · next hk =>
      obtain ⟨hleaf, -⟩ | ⟨-, a, b, ha, hb, -⟩ := hcase
      · simp [hk] at hleaf
      · exact Unstuck.after (unstuck_outWrite _ _) (built_outWrite _ _) fun _ =>
          (ih ha).after (built_writeTree _ _) fun _ => (ih hb).thenAny fun _ => .pure _

theorem unstuck_bitsAfter (fmt : HeaderFormat) {T : CodeTree} (hT : u.tree? u.rootRef = some T) :
    Unstuck u.From (bitsAfter fmt) := by
  have hheader : Unstuck u.From (headerBits fmt) := by
    refine .get_from fun s hs => ?_
    subst hs
    split
    · exact .pure _
    · exact (unstuck_countTree hT).thenAny fun _ => .pure _
  exact hheader.thenAny fun _ => .get_bind fun _ _ => .pure _

theorem unstuck_sendHeader {T : CodeTree} (hT : u.tree? u.rootRef = some T) : Unstuck u.From sendHeader := by
  refine .get_from fun s hs => Unstuck.after (unstuck_outWrite _ _) (built_outWrite _ _) fun _ => ?_
  subst hs
  split
  · exact (unstuck_outWrite _ _).thenAny fun _ => unstuck_sendCounts _ _
  · exact Unstuck.after (unstuck_outWrite _ _) (built_outWrite _ _) fun _ =>
      (unstuck_countTree hT).after (built_countTree _) fun _ =>
      Unstuck.after (unstuck_outWrite _ _) (built_outWrite _ _) fun _ =>
      (unstuck_writeTree (u := s.stores) hT).thenAny fun _ => .pure _

/-! ### Decoding -/

theorem unstuck_decodeTurn (h : u.Decoding) : Unstuck u.From decodeTurn := by
  refine Unstuck.point.after .point fun _ => .get_from fun s hs => ?_
  subst hs
  obtain ⟨cur, hcur, hlt⟩ := h.cursor_valid
  split
  · next hnone => exact absurd (hnone.symm.trans hcur) nofun
  · next cur' hcur' =>
    obtain rfl := Option.some.inj (hcur'.symm.trans hcur)
    refine (unstuck_nodeRead hlt).thenAny fun n => ?_
    split
    · exact .ite (fun _ => .pure _) fun _ => (unstuck_outWrite _ _).thenAny fun _ => .changeThen fun _ => .pure _
    · refine (unstuck_inRead 1).thenAny fun o => ?_
      split
      · exact .raise _
      · exact .ite (fun _ => .raise _) fun _ => .changeThen fun _ => .pure _

theorem unstuck_decodeTurns (fuel : Nat) (h : u.Decoding) : Unstuck u.From (decodeTurns fuel) := by
  induction fuel generalizing u with
  | zero => exact .pure _
  | succ fuel ih =>
    exact (unstuck_decodeTurn h).ends (ends_decodeTurn h) fun _ _ hv => .ite (fun _ => .pure _) fun _ => ih hv

theorem unstuck_decodeAndEnd (withRes0 : Bool) (h : u.Decoding) : Unstuck u.From (decodeAndEnd withRes0) :=
  Unstuck.thenAny (.get_from fun _ _ => unstuck_decodeTurns _ h) fun _ =>
    .ite (fun _ => unstuck_decodeEnd _) fun _ => .pure _

/-- A decode from the root. -/
theorem unstuck_decode (withRes0 : Bool) (h : u.Working c d) (hroot : u.rootRef.toNat < u.nodes.length)
    (hplanned : d = .planned → u.plannedOk) :
    Unstuck u.From (do
      decodeStart
      decodeAndEnd withRes0) := by
  have hdecoding : (u.setDecode (some u.rootRef) 0).Decoding :=
    ⟨h.busy, h.no_fault, h.forest, h.queue_ok, h.stack_nil, hroot, ⟨_, rfl, hroot⟩, fun hd => hplanned (h.dstate_eq ▸ hd)⟩
  refine .of_storesOk fun hu => Unstuck.ends (Q := fun _ v => v = u.setDecode (some u.rootRef) 0) (.change _)
    (.change (g := fun s => s.setDecode (some s.rootRef) 0) (fun _ => rfl) (hu.setDecode _ _) rfl) ?_
  rintro - v rfl
  exact unstuck_decodeAndEnd _ hdecoding

end Sys2Proof.Machine

end

section
/-!
PROOF. No command is ever stuck, and so no step from a state of the invariant (spec/60_exceptions.md R250,
spec/20_memory.md R71, spec/70_reset_and_hazards.md R288).
-/

namespace Sys2Proof.Machine

variable {s u : State} {c : Config} {d : DState}

/-! ### The commands -/

theorem execPlan_unstuck (fmt : HeaderFormat) (h : s.stores.Working c d) :
    ∃ x, execPlan fmt s = runCmd x s ∧ Unstuck s.stores.From x := by
  refine ⟨_, rfl, .ite (fun _ => .raise _) fun _ => ?_⟩
  refine unstuck_scanInput.ends (ends_scanInput h) fun _ v hv => (unstuck_buildFromFreq hv).ends (ends_buildFromFreq hv) ?_
  rintro - w ⟨hw, -⟩
  refine (unstuck_buildTable hw).ends (ends_buildTable hw) ?_
  rintro - x ⟨T, hT, rfl⟩
  exact .get_from fun _ _ => (unstuck_bitsAfter (u := w.setPt (T.table c.eofsym)) fmt hT).thenAny fun _ =>
    .changeThen fun _ => .changeThen fun _ => .changeThen fun _ => unstuck_done _

theorem execCompress_unstuck (ovr : Bool) (hs : s.stores.Session) :
    ∃ x, execCompress ovr s = runCmd x s ∧ Unstuck s.stores.From x := by
  refine ⟨_, rfl, .ite (fun _ => .raise _) fun hd => Unstuck.after (.change _) built_inRewind fun _ =>
    .ite (fun _ => ?_) fun _ => ?_⟩
  · exact .changeThen fun _ => unstuck_done _
  · obtain ⟨T, hT, -⟩ := hs.planned_ok (not_not.mp hd)
    refine (unstuck_sendHeader hT).after built_sendHeader fun _ =>
      Unstuck.thenAny ((unstuck_emitLoop _).mono ?_) fun _ => (unstuck_emitPath _).thenAny fun _ =>
      .get_bind fun _ _ => .changeThen fun _ => unstuck_done _
    rintro t ⟨hu, ht⟩
    have hin : t.input = s.input := (congrArg State.input ht :)
    have hcfg : t.cfg = s.cfg := (congrArg State.cfg ht :)
    exact ⟨hcfg ▸ hu.cfg_valid, hin ▸ hu.input_fits, by rw [hin]; exact Nat.lt_succ_of_le (Nat.sub_le _ _)⟩

theorem unstuck_readHeader (h : u.Working c d) : Unstuck u.From readHeader := by
  refine .get_from fun s _ => (unstuck_inRead _).after (built_inRead _) fun o => ?_
  split
  · exact .raise _
  · refine .ite (fun _ => ?_) fun _ => .ite (fun _ => (unstuck_inRead _).thenAny fun o => ?_) fun _ => .raise _
    · exact (unstuck_readCounts _ _).ends (ends_readCounts _ _ h) fun _ _ hv =>
        (Unstuck.modify _).ends (ends_setEof hv) fun _ _ hw => unstuck_buildFromFreq hw
    · split
      · exact .raise _
      · exact unstuck_readTree.thenAny fun _ => .ite (fun _ => .raise _) fun _ => .pure _

theorem execDecompress_unstuck (h : s.stores.Working c d) :
    ∃ x, execDecompress s = runCmd x s ∧ Unstuck s.stores.From x := by
  refine ⟨_, rfl, .ite (fun _ => .raise _) fun hclean => Unstuck.after (.change _) built_inRewind fun _ =>
    (unstuck_inRead _).after (built_inRead _) fun o => ?_⟩
  have hd : d = .clean := h.dstate_eq.symm.trans (not_not.mp hclean)
  split
  · exact unstuck_endBadMagic
  · refine .ite (fun _ => unstuck_endBadMagic) fun _ => (unstuck_readHeader h).ends (ends_readHeader h) ?_
    rintro - v ⟨hv, hroot⟩
    exact unstuck_decode false hv hroot fun hp => by simp [hd] at hp

/-- A checked node operand is below NEXT. -/
theorem ends_takeNode : Ends u takeNode fun r v => v = u ∧ r.toNat < u.nodes.length := by
  refine .get_bind fun s hs => .ite (fun _ => .raise _) fun _ => .ite (fun _ => .raise _) fun hv => .pure ⟨rfl, ?_⟩
  have hlt : s.refOperand.toNat < s.nodes.length := by simpa [State.validRef] using hv
  exact hs ▸ hlt

theorem execQEnqueue_unstuck (h : s.stores.Working c d) :
    ∃ x, execQEnqueue s = runCmd x s ∧ Unstuck s.stores.From x := by
  refine ⟨_, rfl, unstuck_takeNode.ends ends_takeNode ?_⟩
  rintro r v ⟨rfl, hr⟩
  refine (unstuck_nodeRead hr).ends (ends_nodeRead r) ?_
  rintro n v ⟨rfl, hn⟩
  refine .ite (fun _ => .raise _) fun hfree => ?_
  simp only [State.inQueue, Bool.or_eq_true, List.contains_iff_mem, not_or, Bool.not_eq_true] at hfree
  obtain ⟨hq, ho⟩ := hfree
  exact (unstuck_enqueue h ⟨n, hn, ho, hq⟩).thenAny fun _ => unstuck_doneUsed

theorem execNodeInfo_unstuck (s : State) : ∃ x, execNodeInfo s = runCmd x s ∧ Unstuck s.stores.From x := by
  refine ⟨_, rfl, unstuck_takeNode.ends ends_takeNode ?_⟩
  rintro r v ⟨rfl, hr⟩
  exact (unstuck_nodeRead hr).thenAny fun _ => .changeThen fun _ => .changeThen fun _ => .changeThen fun _ =>
    .changeThen fun _ => unstuck_done _

theorem execQFront_unstuck (s : State) : ∃ x, execQFront s = runCmd x s ∧ Unstuck s.stores.From x := by
  refine ⟨_, rfl, ?_⟩
  split
  · exact .raise _
  · exact .changeThen fun _ => unstuck_done _

theorem execTCountBits_unstuck (h : s.stores.Working c d) :
    ∃ x, execTCountBits s = runCmd x s ∧ Unstuck s.stores.From x := by
  refine ⟨_, rfl, .ite (fun _ => .raise _) fun hop => Unstuck.thenAny ?_ fun _ => .changeThen fun _ => unstuck_done _⟩
  by_cases hnil : s.refOperand = NIL
  · rw [hnil]
    exact .of_ok fun t _ => ⟨0, t, countTree_nil⟩
  · have hr : s.refOperand.toNat < s.nodes.length := by simpa [hnil, State.validRef] using hop
    obtain ⟨T, hT⟩ := h.forest.tree hr
    exact unstuck_countTree hT

theorem execTWrite_unstuck (h : s.stores.Working c d) : ∃ x, execTWrite s = runCmd x s ∧ Unstuck s.stores.From x := by
  refine ⟨_, rfl, .ite (fun _ => .raise _) fun hne => .of_storesOk fun hu => ?_⟩
  obtain ⟨T, hT⟩ := h.root_tree (hu.root_ok.resolve_left hne)
  exact (unstuck_writeTree (u := s.stores) hT).thenAny fun _ => .changeThen fun _ => unstuck_doneUsed

theorem execTDecode_unstuck (h : s.stores.Working c d) (hs : s.stores.Session) :
    ∃ x, execTDecode s = runCmd x s ∧ Unstuck s.stores.From x := by
  refine ⟨_, rfl, .ite (fun _ => .raise _) fun hne => .of_storesOk fun hu => ?_⟩
  exact unstuck_decode true h (hu.root_ok.resolve_left hne) fun hd => hs.planned_ok (h.dstate_eq.trans hd)

/-- No command, from the stores it starts with, is ever stuck. -/
theorem exec_unstuck (i : Instr) (h : s.stores.Working c d) (hs : s.stores.Session) :
    ∃ x, exec i s = runCmd x s ∧ Unstuck s.stores.From x := by
  cases i with
  | plan fmt => exact execPlan_unstuck fmt h
  | compress ovr => exact execCompress_unstuck ovr hs
  | decompress => exact execDecompress_unstuck h
  | softReset => exact ⟨_, rfl, .change _⟩
  | nodeLeaf =>
    exact ⟨_, rfl, unstuck_takeSymbol.thenAny fun _ => (unstuck_alloc _ _ _).thenAny fun _ => .changeThen fun _ =>
      unstuck_doneUsed⟩
  | nodeInfo => exact execNodeInfo_unstuck s
  | qEnqueue => exact execQEnqueue_unstuck h
  | qDequeue => exact ⟨_, rfl, unstuck_dequeue.thenAny fun _ => .changeThen fun _ => unstuck_doneUsed⟩
  | qFront => exact execQFront_unstuck s
  | qIsEmpty => exact ⟨_, rfl, .changeThen fun _ => unstuck_done _⟩
  | qSize => exact ⟨_, rfl, .changeThen fun _ => unstuck_done _⟩
  | tCreate =>
    exact ⟨_, rfl, (unstuck_createTree h).thenAny fun _ => .get_bind fun _ _ => .changeThen fun _ => unstuck_doneUsed⟩
  | tTravel => exact ⟨_, rfl, (unstuck_buildTable h).thenAny fun _ => unstuck_doneUsed⟩
  | pathRead =>
    exact ⟨_, rfl, unstuck_takeSymbol.thenAny fun _ => .changeThen fun _ => .changeThen fun _ => unstuck_done _⟩
  | tEmit =>
    exact ⟨_, rfl, unstuck_takeSymbol.thenAny fun _ => (unstuck_emitPath _).thenAny fun _ => .changeThen fun _ =>
      unstuck_doneUsed⟩
  | tCountBits => exact execTCountBits_unstuck h
  | tWrite => exact execTWrite_unstuck h
  | tRecreate =>
    exact ⟨_, rfl, unstuck_readTree.thenAny fun _ => .get_bind fun _ _ => .changeThen fun _ => .changeThen fun _ =>
      unstuck_doneUsed⟩
  | tDecode => exact execTDecode_unstuck h hs
  | freqRead => exact ⟨_, rfl, unstuck_takeSymbol.thenAny fun _ => .changeThen fun _ => unstuck_done _⟩
  | inRewind => exact ⟨_, rfl, .changeThen fun _ => unstuck_doneUsed⟩

/-! ### The step -/

/-- A next state, or a refusal of what the host did. -/
def GoesOn (o : Host.Outcome State Fault Refusal) : Prop :=
  (∃ t, o = .next t) ∨ o = .refused .unsupportedAccess ∨ o = .refused .unstableInput ∨ o = .refused .streamTooLong

theorem goesOn_next (t : State) : GoesOn (.next t) := .inl ⟨t, rfl⟩

theorem goesOn_runCmd {x : Cmd Unit} (hs : s.stores.StoresOk) (hx : Unstuck s.stores.From x) : GoesOn (runCmd x s) := by
  have h : Unstuck s.stores.From (do
      point
      x) := Unstuck.point.after .point fun _ => hx
  unfold runCmd
  cases hr : (do
      point
      x : Cmd Unit) s with
  | ok a t => exact goesOn_next t
  | error e t =>
    have he := h s ⟨hs, rfl⟩ e t hr
    cases e with
    | raised f => exact goesOn_next _
    | resetInput => exact goesOn_next _
    | stuck f => exact he.elim
    | refuse r =>
      obtain rfl | rfl := he
      · exact .inr (.inl rfl)
      · exact .inr (.inr (.inl rfl))

theorem goesOn_onCmdWrite (w : Word) (h : s.Inv) (hb : s.busy = false) : GoesOn (onCmdWrite w s) := by
  have hok := h.basic.storesOk
  by_cases hf : s.fault = none
  · have hlatch : (s.latch w).stores.StoresOk :=
      ⟨hok.cfg_valid, hok.pool_fits, hok.records_ok, hok.tables_ok, hok.root_ok, hok.input_fits⟩
    cases hw : decode w with
    | error e =>
      simp only [onCmdWrite, hf, hw, Option.isSome_none, Bool.false_eq_true, if_false]
      exact goesOn_runCmd hlatch (.raise _)
    | ok i =>
      obtain ⟨x, hx, hunstuck⟩ := exec_unstuck i (working_latch h hb hf w) ⟨h.clean_empty hf hb, h.planned_ok hf⟩
      rw [onCmdWrite_ok hf hw, hx]
      exact goesOn_runCmd hlatch hunstuck
  · by_cases hw : w = 0x00000004
    · rw [hw, onCmdWrite_faulted_reset hb hf]
      exact goesOn_next _
    · rw [onCmdWrite_faulted_other hf hw]
      exact goesOn_next _

theorem goesOn_hostAct (act : HostAct) (h : s.Inv) (hb : s.busy = false) : GoesOn (hostAct act s) := by
  cases act with
  | hardReset => exact goesOn_next _
  | attach bits =>
    simp only [hostAct]
    split
    · exact goesOn_next _
    · exact .inr (.inr (.inr rfl))
  | read addr size =>
    simp only [hostAct]
    split
    · exact .inr (.inl rfl)
    · exact goesOn_next _
  | write addr size v =>
    simp only [hostAct]
    split
    · exact .inr (.inl rfl)
    · exact goesOn_onCmdWrite v h hb
    · exact goesOn_next _

/-- Settles O22: a step is a host act, a command from the stores it latches, or more of a decode, and no rule of these is
ever stuck. -/
theorem stepStopsOnlyOnHostMisuse : Obligations.StepStopsOnlyOnHostMisuse := by
  intro s h
  by_cases hb : s.busy = true
  · rw [step_busy hb]
    exact goesOn_runCmd h.basic.storesOk (unstuck_decodeAndEnd _ (decoding_of_busy h hb))
  · rw [Bool.not_eq_true] at hb
    cases hh : s.host with
    | nil =>
      simp only [step, stepMachine, hb, hh]
      exact goesOn_next s
    | cons e rest =>
      rw [step_idle hb hh]
      exact goesOn_hostAct (s := s.setHost rest) e.act (inv_congr (s := s) rfl h) hb

end Sys2Proof.Machine

end

section
/-!
PROOF. The reset input, SOFT_RESET and the reset state (spec/70_reset_and_hazards.md R280 to R283, R290).
-/

namespace Sys2Proof.Machine

variable {s : State}

/-! ### The reset input inside a command -/

/-- The reset input that lands at the first point of a rule stops it there, with no fault (spec/70_reset_and_hazards.md R282). -/
theorem runCmd_hardReset {rest : List HostEvent} (c : Cmd Unit) (hb : s.busy = true)
    (hh : s.host = ⟨some 0, .hardReset⟩ :: rest) : runCmd c s = .next (resetHcc (s.setHost rest)) := by
  rw [runCmd_stops (e := .resetInput) c hb hh rfl, settle_resetInput]

/-- Settles O13: whatever is executing is the run of a rule, which the reset input stops at its point; and the word of
SOFT_RESET lands there as any other. -/
theorem hardResetStopsTheCommand : Obligations.HardResetStopsTheCommand := by
  intro s rest hb
  refine ⟨fun hh => ⟨fun c => runCmd_hardReset c hb hh, fun i => ?_, ?_, rfl, rfl⟩, fun hh => ?_⟩
  · obtain ⟨c, hc⟩ := exec_eq_runCmd i s
    exact hc.trans (runCmd_hardReset c hb hh)
  · exact (step_busy hb).trans (runCmd_hardReset _ hb hh)
  · obtain ⟨hpoint, hexec, -⟩ := cmdWriteWhileBusyIsAFault s 0x00000004 rest hb hh
    exact ⟨hpoint, hexec⟩

/-! ### The reset values -/

/-- With nothing to land, SOFT_RESET is the reset (spec/45_driver.md R226). -/
theorem exec_softReset_quiet (hw : s.hostQuiet = true) : exec .softReset s = .next (resetHcc s) := by
  show runCmd (change resetHcc) s = _
  rw [runCmd_quiet _ hw, change_quiet _ hw, settle_ok]

/-- After a reset every register before CONFIG but ROOT reads 0. -/
theorem regRead_resetHcc_zero {off : Nat} (hlt : off < 0x3C) (hroot : off ≠ 0x30) : regRead (resetHcc s) off = 0 := by
  unfold regRead
  split
  case h_13 => exact absurd rfl hroot
  case h_16 => exact absurd hlt (by decide)
  case h_2 => exact statusWordLayout.2
  all_goals simp

/-- Settles O18: the state in question is `resetHcc s`, with the latch fields 0, and both resets answer it. -/
theorem resetValuesAfterEitherReset : Obligations.ResetValuesAfterEitherReset := by
  intro s
  refine ⟨0, 0, 0, fun r hr => ?_⟩
  obtain rfl : r = resetHcc s := hr
  refine ⟨exec_softReset_quiet, fun gap rest hb hh => ?_, fun off => regRead_resetHcc_zero, rfl, rfl⟩
  rw [step_idle hb hh]
  rfl

/-! ### The idle core and the reset state -/

theorem step_idle_nil (hb : s.busy = false) (hh : s.host = []) : step s = .next s := by
  simp [step, stepMachine, hb, hh]

/-- Settles O19. -/
theorem idleCoreWaits : Obligations.IdleCoreWaits := fun _ hb hh => step_idle_nil hb hh

/-- The default parameters are valid: the two free ones are cut to their widths. -/
theorem config_default_valid : Config.default.valid = true := by
  simp [Config.valid, Config.default, Config.fw, Nat.mod_lt]

theorem resetHcc_reset : resetHcc State.reset = State.reset := rfl

/-- Settles O20: the reset state is its own reset, and a reset meets the invariant. -/
theorem resetStateIsCleanAndMeetsTheInvariant : Obligations.ResetStateIsCleanAndMeetsTheInvariant :=
  ⟨⟨resetHcc_reset, rfl⟩, resetHcc_reset ▸ resetHcc_inv (s := State.reset) config_default_valid (by decide)⟩

end Sys2Proof.Machine

end

section
/-!
PROOF. Rules blind to what the host does inside them (`Blind`): no command's rule reads what the host's own acts change, and
none raises CMD_WHILE_BUSY by itself (spec/10_state.md R40, R49, spec/60_exceptions.md R256, spec/70_reset_and_hazards.md R286).
-/

namespace Sys2Proof.Machine

variable {α β : Type}

/-! ### What the host's acts change -/

/-- `s` with the host's side of `h`: its coming acts, what it has seen, the draws, ARG0 and ARG1. -/
def State.aside (s h : State) : State :=
  { s with host := h.host, seen := h.seen, draws := h.draws, arg0 := h.arg0, arg1 := h.arg1 }

/-- `HostApart` says that the second state is the first with a host's side of its own. -/
theorem hostApart_iff {s t : State} : HostApart s t ↔ t = s.aside t := .rfl

theorem State.aside_aside (s h k : State) : (s.aside h).aside k = s.aside k := rfl

/-- The host's list is on the host's side. -/
theorem State.setHost_aside_self (s : State) (hs : List HostEvent) : (s.setHost hs).aside s = s := rfl

/-! ### Blind rules -/

/-- A rule whose updates and cases on the state leave the host's side out, and that stops by no CMD_WHILE_BUSY of its own:
what `Built` does not say, whose cases and updates may read any field and whose stops may be any fault. -/
inductive Blind : {α : Type} → Cmd α → Prop
  | pure {α : Type} (a : α) : Blind (Pure.pure a : Cmd α)
  | point : Blind Machine.point
  | throw {α : Type} (e : Stop) (he : e ≠ .raised .cmdWhileBusy) : Blind (MonadExcept.throw e : Cmd α)
  | modify {f : State → State} (hf : Update true true f)
      (hside : ∀ s h, f (s.aside h) = (f s).aside h := by intros; rfl) : Blind (modify f : Cmd PUnit)
  | bind {α β : Type} {x : Cmd α} {f : α → Cmd β} (hx : Blind x) (hf : ∀ a, Blind (f a)) : Blind (x >>= f)
  | byState {α : Type} {c : Cmd α} (c' : State → Cmd α) (heq : ∀ s, c s = c' s s) (h : ∀ s, Blind (c' s))
      (hside : ∀ s h, c' (s.aside h) = c' s := by intros; rfl) : Blind c

namespace Blind

theorem get_bind {f : State → Cmd β} (h : ∀ s, Blind (f s)) (hside : ∀ s h, f (s.aside h) = f s := by intros; rfl) :
    Blind ((get : Cmd State) >>= f) :=
  .byState f (fun _ => rfl) h hside

theorem ite {p : Prop} [Decidable p] {x y : Cmd α} (hx : Blind x) (hy : Blind y) : Blind (if p then x else y) := by
  split
  · exact hx
  · exact hy

theorem change {f : State → State} (hf : Update true true f)
    (hside : ∀ s h, f (s.aside h) = (f s).aside h := by intros; rfl) : Blind (Machine.change f) :=
  .bind .point fun _ => .modify hf hside

theorem raise {f : FaultCode} (hf : f ≠ .cmdWhileBusy) : Blind (Machine.raise f : Cmd α) :=
  .bind .point fun _ => .throw _ fun h => hf (Stop.raised.inj h)

end Blind

theorem blind_done (o : CmdOutcome) : Blind (done o) := .change (.outcome o)

theorem blind_doneUsed : Blind doneUsed := .bind (.change (.dstate _)) fun _ => blind_done _

/-! The ports and the pool. -/

theorem blind_inRead (n : Nat) : Blind (inRead n) := by
  refine .bind .point fun _ => .byState (fun s => if s.pos + n > s.input.length then pure none else do
    modify fun t => t.setIpos (s.pos + n)
    pure (some (ofBits ((s.input.drop s.pos).take n)))) (fun s => ?_) fun s => ?_
  · simp only [get_bind_apply]
    split <;> rfl
  · exact .ite (.pure _) (.bind (.modify (.ipos _)) fun _ => .pure _)

theorem blind_inRewind : Blind inRewind := .change (.ipos _)

theorem blind_outWrite (n v : Nat) : Blind (outWrite n v) := .change (.send _)

theorem blind_nodeRead (r : NodeRef) : Blind (nodeRead r) := by
  refine .byState (fun s => match s.nodes[r.toNat]? with
    | some n => pure n
    | none => throw (.refuse .freeRecord)) (fun s => ?_) fun s => ?_
  · unfold nodeRead
    cases s.nodes[r.toNat]? <;> rfl
  · split
    · exact .pure _
    · exact .throw _ nofun

theorem blind_nodeWrite (r : NodeRef) (f : NodeRec → NodeRec) : Blind (nodeWrite r f) := .modify (.nodes _)

theorem blind_alloc (kind : NodeKind) (sym freq : Nat) : Blind (alloc kind sym freq) := by
  refine .byState (fun s => if s.next < s.cfg.ncap then do
      modify fun t => t.setNodes (s.nodes ++ [⟨kind, sym, freq, NIL, NIL, false⟩])
      pure (BitVec.ofNat 16 s.next)
    else raise .poolFull) (fun s => ?_) fun s => ?_
  · simp only [alloc, get_bind_apply]
    split <;> rfl
  · exact .ite (.bind (.modify (.nodes _)) fun _ => .pure _) (.raise nofun)

theorem blind_mkInternal (a b : NodeRef) : Blind (mkInternal a b) :=
  .bind (blind_nodeRead a) fun _ => .bind (blind_nodeRead b) fun _ => .get_bind fun _ =>
    .ite (.raise nofun) (.bind (blind_alloc _ _ _) fun r => .bind (blind_nodeWrite r _) fun _ =>
      .bind (blind_nodeWrite a _) fun _ => .bind (blind_nodeWrite b _) fun _ => .pure r)

/-! The queue and the operands. -/

theorem blind_insertByFreq (r : NodeRef) (f : Nat) (q : List NodeRef) : Blind (insertByFreq r f q) := by
  induction q with
  | nil => exact .pure _
  | cons x xs ih => exact .bind (blind_nodeRead x) fun _ => .ite (.pure _) (.bind ih fun _ => .pure _)

theorem blind_enqueue (r : NodeRef) : Blind (enqueue r) :=
  .bind (blind_nodeRead r) fun _ => .get_bind fun _ => .bind (blind_insertByFreq _ _ _) fun _ =>
    .change (.queue _)

theorem blind_dequeue : Blind dequeue := by
  refine .get_bind fun s => ?_
  split
  · exact .raise nofun
  · exact .bind (.change (.queue _)) fun _ => .pure _

theorem blind_takeSymbol : Blind takeSymbol := .get_bind fun _ => .ite (.raise nofun) (.pure _)

theorem blind_takeNode : Blind takeNode :=
  .get_bind fun _ => .ite (.raise nofun) (.ite (.raise nofun) (.pure _))

/-! Trees and paths. -/

theorem blind_travel (fuel : Nat) (r : NodeRef) (p : List Bit) : Blind (travel fuel r p) := by
  induction fuel generalizing r p with
  | zero => exact .throw _ nofun
  | succ fuel ih =>
    refine .bind (blind_nodeRead r) fun n => ?_
    split
    · exact .modify (.pt _)
    · exact .bind (ih _ _) fun _ => ih _ _

theorem blind_buildTable : Blind buildTable :=
  .get_bind fun _ => .ite (.raise nofun) (.bind (.modify (.pt _)) fun _ => blind_travel _ _ _)

theorem blind_sendPath (p : List Bit) : Blind (sendPath p) := by
  induction p with
  | nil => exact .pure _
  | cons b p ih => exact .bind (blind_outWrite _ _) fun _ => ih

theorem blind_emitPath (sym : Nat) : Blind (emitPath sym) := by
  refine .get_bind fun s => ?_
  split
  · exact .raise nofun
  · exact .bind (blind_sendPath _) fun _ => .pure _

theorem blind_count (fuel : Nat) (r : NodeRef) : Blind (count fuel r) := by
  induction fuel generalizing r with
  | zero => exact .ite (.pure _) (.throw _ nofun)
  | succ fuel ih =>
    refine .ite (.pure _) (.bind (blind_nodeRead r) fun n => .get_bind fun s => ?_)
    split
    · exact .pure _
    · exact .bind (ih _) fun _ => .bind (ih _) fun _ => .pure _

theorem blind_countTree (r : NodeRef) : Blind (countTree r) := .get_bind fun _ => blind_count _ _

theorem blind_writeTree (fuel : Nat) (r : NodeRef) : Blind (writeTree fuel r) := by
  induction fuel generalizing r with
  | zero => exact .throw _ nofun
  | succ fuel ih =>
    refine .bind (blind_nodeRead r) fun n => .get_bind fun s => ?_
    split
    · exact .bind (blind_outWrite _ _) fun _ => .bind (blind_outWrite _ _) fun _ => .pure _
    · exact .bind (blind_outWrite _ _) fun _ => .bind (ih _) fun _ => .bind (ih _) fun _ => .pure _

theorem blind_readNode (fuel : Nat) : Blind (readNode fuel) := by
  induction fuel with
  | zero => exact .throw _ nofun
  | succ fuel ih =>
    refine .bind (blind_inRead 1) fun o => ?_
    split
    · exact .raise nofun
    · refine .get_bind fun s => .bind (blind_inRead _) fun o => ?_
      split
      · exact .raise nofun
      · exact .ite (.raise nofun) (blind_alloc _ _ _)
    · exact .get_bind fun s => .bind (blind_alloc _ _ _) fun r => .bind (.modify (.stack _)) fun _ =>
        .bind ih fun l => .bind (blind_nodeWrite _ _) fun _ => .bind (blind_nodeWrite _ _) fun _ =>
        .bind (.modify (.stack _)) fun _ => .bind ih fun q => .bind (blind_nodeWrite _ _) fun _ =>
        .bind (blind_nodeWrite _ _) fun _ => .bind (.modify (.stack _)) fun _ => .pure r

theorem blind_combineLoop (fuel : Nat) : Blind (combineLoop fuel) := by
  induction fuel with
  | zero => exact .pure _
  | succ fuel ih =>
    exact .get_bind fun _ => .ite (.bind blind_dequeue fun _ => .bind blind_dequeue fun _ =>
      .bind (blind_mkInternal _ _) fun _ => .bind (blind_enqueue _) fun _ => ih) (.pure _)

theorem blind_createTree : Blind createTree :=
  .get_bind fun _ => .ite (.raise nofun) (.bind (blind_combineLoop _) fun _ => .bind blind_dequeue fun _ =>
    .change (.root _))

theorem blind_leavesLoop (count sym : Nat) : Blind (leavesLoop count sym) := by
  induction count generalizing sym with
  | zero => exact .pure _
  | succ count ih =>
    exact .get_bind fun _ => .ite (.bind (blind_alloc _ _ _) fun _ => .bind (blind_enqueue _) fun _ => ih _)
      (ih _)

theorem blind_buildFromFreq : Blind buildFromFreq :=
  .get_bind fun _ => .bind (blind_leavesLoop _ _) fun _ => .bind (blind_alloc _ _ _) fun _ =>
    .bind (blind_enqueue _) fun _ => blind_createTree

/-! The decoder and the Driver. -/

theorem blind_decodeTurn : Blind decodeTurn := by
  refine .bind .point fun _ => .get_bind fun s => ?_
  split
  · exact .throw _ nofun
  · refine .bind (blind_nodeRead _) fun n => ?_
    split
    · exact .ite (.pure _) (.bind (blind_outWrite _ _) fun _ => .bind (.change (.decode _ _)) fun _ => .pure _)
    · refine .bind (blind_inRead 1) fun o => ?_
      split
      · exact .raise nofun
      · exact .ite (.raise nofun) (.bind (.change (.decode _ _)) fun _ => .pure _)

theorem blind_decodeTurns (fuel : Nat) : Blind (decodeTurns fuel) := by
  induction fuel with
  | zero => exact .pure _
  | succ fuel ih => exact .bind blind_decodeTurn fun _ => .ite (.pure _) ih

theorem blind_decodeEnd (withRes0 : Bool) : Blind (decodeEnd withRes0) := by
  have hend : Blind (do
      change (·.setDecode none 0)
      doneUsed) := .bind (.change (.decode _ _)) fun _ => blind_doneUsed
  exact .get_bind fun _ => .bind (.change (.bitsWritten _)) fun _ =>
    .ite (.bind (.change (.res0 _)) fun _ => hend) hend

theorem blind_decodeAndEnd (withRes0 : Bool) : Blind (decodeAndEnd withRes0) :=
  .bind (.get_bind fun _ => blind_decodeTurns _) fun _ => .ite (blind_decodeEnd _) (.pure _)

theorem blind_decode (withRes0 : Bool) : Blind (do
    decodeStart
    decodeAndEnd withRes0) :=
  .bind (.change (.decode _ _)) fun _ => blind_decodeAndEnd _

theorem blind_scanLoop (fuel : Nat) : Blind (scanLoop fuel) := by
  induction fuel with
  | zero => exact .throw _ nofun
  | succ fuel ih =>
    refine .get_bind fun s => .bind (blind_inRead _) fun o => ?_
    split
    · exact .pure _
    · next v =>
      refine .byState (fun t => if t.freqAt v = 2 ^ t.cfg.iw - 1 then raise .inputTooLong else do
        modify fun u => u.setFreq (t.freq.set v (t.freqAt v + 1))
        scanLoop fuel) (fun t => ?_) fun t => ?_
      · simp only [get_bind_apply]
        split <;> rfl
      · exact .ite (.raise nofun) (.bind (.modify (.freq _)) fun _ => ih)

theorem blind_scanInput : Blind scanInput :=
  .bind blind_inRewind fun _ => .bind (.modify (.freq _)) fun _ => .get_bind fun _ =>
    .bind (blind_scanLoop _) fun _ => .modify (.freq _)

theorem blind_bitsAfter (fmt : HeaderFormat) : Blind (bitsAfter fmt) := by
  have hheader : Blind (headerBits fmt) := by
    refine .get_bind fun s => ?_
    split
    · exact .pure _
    · exact .bind (blind_countTree _) fun _ => .pure _
  exact .bind hheader fun _ => .get_bind fun _ => .pure _

theorem blind_sendCounts (count sym : Nat) : Blind (sendCounts count sym) := by
  induction count generalizing sym with
  | zero => exact .pure _
  | succ count ih => exact .get_bind fun _ => .bind (blind_outWrite _ _) fun _ => ih _

theorem blind_sendHeader : Blind sendHeader := by
  refine .get_bind fun s => .bind (blind_outWrite _ _) fun _ => ?_
  split
  · exact .bind (blind_outWrite _ _) fun _ => blind_sendCounts _ _
  · exact .bind (blind_outWrite _ _) fun _ => .bind (blind_countTree _) fun _ => .bind (blind_outWrite _ _) fun _ =>
      .bind (blind_writeTree _ _) fun _ => .pure _

theorem blind_emitLoop (fuel : Nat) : Blind (emitLoop fuel) := by
  induction fuel with
  | zero => exact .throw _ nofun
  | succ fuel ih =>
    refine .get_bind fun s => .bind (blind_inRead _) fun o => ?_
    split
    · exact .pure _
    · exact .bind (blind_emitPath _) fun _ => ih

theorem blind_readTree : Blind readTree :=
  .get_bind fun _ => .bind (blind_readNode _) fun _ => .bind (.change (.root _)) fun _ =>
    .get_bind fun _ => .pure _

theorem blind_readCounts (count sym : Nat) : Blind (readCounts count sym) := by
  induction count generalizing sym with
  | zero => exact .pure _
  | succ count ih =>
    refine .get_bind fun s => .bind (blind_inRead _) fun o => ?_
    split
    · exact .raise nofun
    · exact .bind (.modify (.freq _)) fun _ => ih _

theorem blind_readHeader : Blind readHeader := by
  refine .get_bind fun s => .bind (blind_inRead _) fun o => ?_
  split
  · exact .raise nofun
  · refine .ite (.bind (blind_readCounts _ _) fun _ => .bind (.modify (.freq _)) fun _ => blind_buildFromFreq)
      (.ite (.bind (blind_inRead _) fun o => ?_) (.raise nofun))
    split
    · exact .raise nofun
    · exact .bind blind_readTree fun _ => .ite (.raise nofun) (.pure _)

theorem blind_endBadMagic : Blind endBadMagic :=
  .bind (.change (.bitsWritten _)) fun _ => .bind (.change (.dstate _)) fun _ => blind_done _

/-! ### The commands -/

/-- SOFT_RESET answers as if the reset input came at its end: both are `resetHcc` (spec/70_reset_and_hazards.md R280). -/
theorem execSoftReset_eq (s : State) : execSoftReset s = runCmd (do
    point
    throw .resetInput) s := by
  unfold execSoftReset runCmd
  cases h : point s with
  | error e t => rw [bind_of_error h, bind_of_error h]
  | ok _ t =>
    rw [bind_of_ok h, bind_of_ok h, change]
    cases h' : point t with
    | error e u => rw [bind_of_error h', bind_of_error h']
    | ok _ u => rw [bind_of_ok h', bind_of_ok h', modify_apply, throw_apply, settle_ok, settle_resetInput]

/-- Every command runs a blind rule, the same whatever the host's side of the state. -/
theorem exec_blind (i : Instr) (s : State) :
    ∃ c, exec i s = runCmd c s ∧ (∀ h, exec i (s.aside h) = runCmd c (s.aside h)) ∧ Blind c := by
  cases i with
  | plan fmt =>
    exact ⟨_, rfl, fun _ => rfl, .ite (.raise nofun) (.bind blind_scanInput fun _ => .bind blind_buildFromFreq fun _ =>
      .bind blind_buildTable fun _ => .get_bind fun _ => .bind (blind_bitsAfter fmt) fun _ =>
      .bind (.change (.bitsSaved _)) fun _ => .bind (.change (.pfmt _)) fun _ => .bind (.change (.dstate _)) fun _ =>
      blind_done _)⟩
  | compress ovr =>
    exact ⟨_, rfl, fun _ => rfl, .ite (.raise nofun) (.bind blind_inRewind fun _ => .ite
      (.bind (.change (.bitsWritten _)) fun _ => blind_done _) (.bind blind_sendHeader fun _ => .bind (blind_emitLoop _) fun _ =>
      .bind (blind_emitPath _) fun _ => .get_bind fun _ => .bind (.change (.bitsWritten _)) fun _ => blind_done _))⟩
  | decompress =>
    refine ⟨_, rfl, fun _ => rfl, .ite (.raise nofun) (.bind blind_inRewind fun _ => .bind (blind_inRead _) fun o => ?_)⟩
    split
    · exact blind_endBadMagic
    · exact .ite blind_endBadMagic (.bind blind_readHeader fun _ => .bind (.change (.decode _ _)) fun _ => blind_decodeAndEnd _)
  | softReset =>
    exact ⟨_, execSoftReset_eq s, fun h => execSoftReset_eq (s.aside h), .bind .point fun _ => .throw _ nofun⟩
  | nodeLeaf =>
    exact ⟨_, rfl, fun _ => rfl, .bind blind_takeSymbol fun _ => .bind (blind_alloc _ _ _) fun _ =>
      .bind (.change (.res0 _)) fun _ => blind_doneUsed⟩
  | nodeInfo =>
    exact ⟨_, rfl, fun _ => rfl, .bind blind_takeNode fun _ => .bind (blind_nodeRead _) fun _ =>
      .bind (.change (.res0 _)) fun _ => .bind (.change (.res1 _)) fun _ => .bind (.change (.res2 _)) fun _ =>
      .bind (.change (.res3 _)) fun _ => blind_done _⟩
  | qEnqueue =>
    exact ⟨_, rfl, fun _ => rfl, .bind blind_takeNode fun _ => .bind (blind_nodeRead _) fun _ => .ite (.raise nofun)
      (.bind (blind_enqueue _) fun _ => blind_doneUsed)⟩
  | qDequeue =>
    exact ⟨_, rfl, fun _ => rfl, .bind blind_dequeue fun _ => .bind (.change (.res0 _)) fun _ => blind_doneUsed⟩
  | qFront =>
    refine ⟨_, rfl, fun _ => rfl, ?_⟩
    split
    · exact .raise nofun
    · exact .bind (.change (.res0 _)) fun _ => blind_done _
  | qIsEmpty => exact ⟨_, rfl, fun _ => rfl, .bind (.change (.res0 _)) fun _ => blind_done _⟩
  | qSize => exact ⟨_, rfl, fun _ => rfl, .bind (.change (.res0 _)) fun _ => blind_done _⟩
  | tCreate =>
    exact ⟨_, rfl, fun _ => rfl, .bind blind_createTree fun _ => .get_bind fun _ => .bind (.change (.res0 _)) fun _ =>
      blind_doneUsed⟩
  | tTravel => exact ⟨_, rfl, fun _ => rfl, .bind blind_buildTable fun _ => blind_doneUsed⟩
  | pathRead =>
    exact ⟨_, rfl, fun _ => rfl, .bind blind_takeSymbol fun _ => .bind (.change (.res0 _)) fun _ =>
      .bind (.change (.res1 _)) fun _ => blind_done _⟩
  | tEmit =>
    exact ⟨_, rfl, fun _ => rfl, .bind blind_takeSymbol fun _ => .bind (blind_emitPath _) fun _ =>
      .bind (.change (.bitsWritten _)) fun _ => blind_doneUsed⟩
  | tCountBits =>
    exact ⟨_, rfl, fun _ => rfl, .ite (.raise nofun) (.bind (blind_countTree _) fun _ => .bind (.change (.res0 _)) fun _ =>
      blind_done _)⟩
  | tWrite =>
    exact ⟨_, rfl, fun _ => rfl, .ite (.raise nofun) (.bind (blind_writeTree _ _) fun _ =>
      .bind (.change (.bitsWritten _)) fun _ => blind_doneUsed)⟩
  | tRecreate =>
    exact ⟨_, rfl, fun _ => rfl, .bind blind_readTree fun _ => .get_bind fun _ => .bind (.change (.res0 _)) fun _ =>
      .bind (.change (.res1 _)) fun _ => blind_doneUsed⟩
  | tDecode =>
    exact ⟨_, rfl, fun _ => rfl, .ite (.raise nofun) (.bind (.change (.decode _ _)) fun _ => blind_decodeAndEnd _)⟩
  | freqRead =>
    exact ⟨_, rfl, fun _ => rfl, .bind blind_takeSymbol fun _ => .bind (.change (.res0 _)) fun _ => blind_done _⟩
  | inRewind => exact ⟨_, rfl, fun _ => rfl, .bind blind_inRewind fun _ => blind_doneUsed⟩

end Sys2Proof.Machine

end

section
/-!
PROOF. A host that polls and writes operands inside a command does not disturb it, and one that waits with its CMD writes never
meets CMD_WHILE_BUSY (spec/70_reset_and_hazards.md R286, R287, R290).
-/

namespace Sys2Proof.Machine

variable {α : Type} {s t : State}

/-! ### A host that passes -/

/-- How a rule ended, with the host's side of `h` in the state reached. -/
def asideOf (h : State) (r : EStateM.Result Stop State α) : EStateM.Result Stop State α :=
  match r with
  | .ok a t => .ok a (t.aside h)
  | .error e t => .error e (t.aside h)

/-- Whether a host passes depends on its list and the parameters only. -/
theorem hostPasses_congr (hhost : t.host = s.host) (hcfg : t.cfg = s.cfg) : t.hostPasses = s.hostPasses := by
  rw [State.hostPasses, State.hostPasses, hhost, hcfg]

/-- Noninterference: under a host that passes, a blind rule ends as with nothing to land, but for the host's side. -/
theorem Blind.undisturbed {c : Cmd α} (hc : Blind c) (s h : State) (hw : s.hostQuiet = true)
    (hp : (s.aside h).hostPasses = true) :
    ∃ k, c (s.aside h) = asideOf k (c s) ∧ (reached (c s)).hostQuiet = true ∧ ((reached (c s)).aside k).hostPasses = true := by
  induction hc generalizing s h with
  | pure a => exact ⟨h, rfl, hw, hp⟩
  | throw e _ => exact ⟨h, rfl, hw, hp⟩
  | point =>
    obtain ⟨t, ht, htp, ha⟩ := point_passes hp
    rw [hostApart_iff, State.aside_aside] at ha
    rw [point_quiet hw]
    exact ⟨t, ht.trans (congrArg _ ha), hw, ha ▸ htp⟩
  | @modify f hf hside =>
    have hcfg : (f s).cfg = s.cfg := congrArg (·.2.2.1) (hf.sameFrame s).1
    exact ⟨h, congrArg (EStateM.Result.ok _) (hside s h), (hf.sameFrame s).hostQuiet hw,
      (hostPasses_congr (s := s.aside h) (t := (f s).aside h) rfl hcfg).trans hp⟩
  | byState c' heq _ hside ih =>
    rw [heq, heq, hside]
    exact ih s s h hw hp
  | @bind _ _ x f _ _ ihx ihf =>
    obtain ⟨k, hx, hxw, hxp⟩ := ihx s h hw hp
    cases hr : x s with
    | ok a t =>
      rw [hr] at hx hxw hxp
      rw [bind_of_ok hx, bind_of_ok hr]
      exact ihf a t k hxw hxp
    | error e t =>
      rw [hr] at hx hxw hxp
      rw [bind_of_error hx, bind_of_error hr]
      exact ⟨k, rfl, hxw, hxp⟩

/-- `u` answers as `t`, but for the host's side and, where a fault is recorded, the registers a fault leaves unspecified. -/
def SameAnswer (t u : State) : Prop :=
  u = { t with
    host := u.host
    seen := u.seen
    draws := u.draws
    arg0 := u.arg0
    arg1 := u.arg1
    res0 := if t.fault = none then t.res0 else u.res0
    res1 := if t.fault = none then t.res1 else u.res1
    res2 := if t.fault = none then t.res2 else u.res2
    res3 := if t.fault = none then t.res3 else u.res3
    bitsWritten := if t.fault = none then t.bitsWritten else u.bitsWritten }

theorem sameAnswer_aside (t h : State) : SameAnswer t (t.aside h) := by
  simp [SameAnswer, State.aside]

/-- Ends that differ on the host's side are settled to the same answer. -/
theorem settle_asideOf {r : EStateM.Result Stop State Unit} (h : State) (ht : settle r = .next t) :
    ∃ u, settle (asideOf h r) = .next u ∧ SameAnswer t u := by
  obtain rfl | ⟨f, v, rfl, rfl⟩ | ⟨v, rfl, rfl⟩ := settle_next ht
  · exact ⟨t.aside h, rfl, sameAnswer_aside t h⟩
  · exact ⟨takeFault f (v.aside h), rfl, rfl⟩
  · exact ⟨resetHcc (v.aside h), rfl, rfl⟩

/-- Settles O16: a command runs a blind rule, which ends as with nothing to land but for the host's side. -/
theorem waitingHostDoesNotDisturbTheCommand : Obligations.WaitingHostDoesNotDisturbTheCommand := by
  intro i s t _ hp ht
  obtain ⟨c, hquiet, hside, hblind⟩ := exec_blind i (s.setHost [])
  have hrule := hside s
  rw [State.setHost_aside_self] at hrule
  have hpoint : Blind (do
    point
    c) := .bind .point fun _ => hblind
  obtain ⟨k, hk, -⟩ := hpoint.undisturbed (s.setHost []) s rfl hp
  obtain ⟨u, hu, hanswer⟩ := settle_asideOf k (hquiet.symm.trans ht)
  exact ⟨u, hrule.trans ((congrArg settle hk).trans hu), hanswer⟩

/-! ### A host that waits -/

/-- A host that waits goes on to wait, and CMD_WHILE_BUSY is recorded only if it was. -/
def WaitsOn (s t : State) : Prop :=
  t.hostWaits = true ∧ (t.fault = some .cmdWhileBusy → s.fault = some .cmdWhileBusy)

theorem WaitsOn.trans {s t u : State} (h : WaitsOn s t) (h' : WaitsOn t u) : WaitsOn s u :=
  ⟨h'.1, fun hf => h.2 (h'.2 hf)⟩

/-- HOST_WAITS speaks of the host's list and the parameters only. -/
theorem WaitsOn.of_eq (hw : s.hostWaits = true) (hhost : t.host = s.host) (hcfg : t.cfg = s.cfg)
    (hfault : t.fault = s.fault) : WaitsOn s t :=
  ⟨by rwa [State.hostWaits, hhost, hcfg], fun hf => hfault ▸ hf⟩

theorem hostWaits_cons {e : HostEvent} {rest : List HostEvent} (hh : s.host = e :: rest) : s.hostWaits = true ↔
    (e.act.isCmdWrite s.cfg = false ∨ e.gap = none) ∧ (s.setHost rest).hostWaits = true := by
  simp [State.hostWaits, State.setHost, hh]

theorem error_ne {e e' : Stop} {u : State} (he : e ≠ e') : (.error e s : EStateM.Result Stop State α) ≠ .error e' u :=
  fun h => he (EStateM.Result.error.inj h).1

/-- An act other than a CMD write leaves the host waiting, and is no CMD_WHILE_BUSY. -/
theorem landBusy_waits {act : HostAct} (hact : act.isCmdWrite s.cfg = false) (hw : s.hostWaits = true) :
    WaitsOn s (reached (landBusy act s)) ∧ ∀ t, landBusy act s ≠ .error (.raised .cmdWhileBusy) t := by
  have hsame : WaitsOn s s := .of_eq hw rfl rfl rfl
  cases act with
  | hardReset => exact ⟨hsame, fun _ => error_ne nofun⟩
  | attach bits => exact ⟨hsame, fun _ => error_ne nofun⟩
  | read addr size =>
    simp only [landBusy]
    split
    · exact ⟨hsame, fun _ => error_ne nofun⟩
    · exact ⟨.of_eq hw rfl rfl rfl, fun _ => ok_ne_error⟩
  | write addr size v =>
    simp only [landBusy]
    split
    · exact ⟨hsame, fun _ => error_ne nofun⟩
    · next hoff => simp [HostAct.isCmdWrite, hoff] at hact
    · rw [regWrite_eq]
      exact ⟨.of_eq hw rfl rfl rfl, fun _ => ok_ne_error⟩

theorem point_waits (hw : s.hostWaits = true) :
    WaitsOn s (reached (point s)) ∧ ∀ t, point s ≠ .error (.raised .cmdWhileBusy) t := by
  have hsame : WaitsOn s s := .of_eq hw rfl rfl rfl
  unfold point
  split
  · split
    · next act rest hh =>
      obtain ⟨hact, hrest⟩ := (hostWaits_cons hh).mp hw
      exact landBusy_waits (s := s.setHost rest) (hact.resolve_right nofun) hrest
    · next k act rest hh =>
      obtain ⟨hact, hrest⟩ := (hostWaits_cons hh).mp hw
      exact ⟨⟨(hostWaits_cons (s := s.setHost (⟨some k, act⟩ :: rest)) rfl).mpr ⟨.inl (hact.resolve_right nofun), hrest⟩,
        id⟩, fun _ => ok_ne_error⟩
    · exact ⟨hsame, fun _ => ok_ne_error⟩
    · exact ⟨hsame, fun _ => ok_ne_error⟩
  · exact ⟨hsame, fun _ => ok_ne_error⟩

theorem Update.fault_eq {stores planning : Bool} {f : State → State} (hf : Update stores planning f) (s : State) :
    (f s).fault = s.fault := by
  cases hf <;> rfl

/-- A blind rule leaves the host waiting wherever it stops, and does not stop by CMD_WHILE_BUSY. -/
theorem Blind.waits {c : Cmd α} (hc : Blind c) (s : State) (hw : s.hostWaits = true) :
    WaitsOn s (reached (c s)) ∧ ∀ t, c s ≠ .error (.raised .cmdWhileBusy) t := by
  induction hc generalizing s with
  | pure a => exact ⟨.of_eq hw rfl rfl rfl, fun _ => ok_ne_error⟩
  | throw e he => exact ⟨.of_eq hw rfl rfl rfl, fun _ => error_ne he⟩
  | point => exact point_waits hw
  | modify hf _ =>
    have hframe := (hf.sameFrame s).1
    exact ⟨.of_eq hw (congrArg (·.1) hframe) (congrArg (·.2.2.1) hframe) (hf.fault_eq s), fun _ => ok_ne_error⟩
  | byState c' heq _ _ ih =>
    rw [heq]
    exact ih s s hw
  | @bind _ _ x f _ _ ihx ihf =>
    obtain ⟨hs, hr⟩ := ihx s hw
    cases hx : x s with
    | ok a t =>
      rw [hx] at hs
      obtain ⟨ht, hr'⟩ := ihf a t hs.1
      rw [bind_of_ok hx]
      exact ⟨hs.trans ht, hr'⟩
    | error e t =>
      rw [hx] at hs hr
      rw [bind_of_error hx]
      exact ⟨hs, fun u hu => hr t (by rw [(EStateM.Result.error.inj hu).1])⟩

theorem resetHcc_waits (hw : s.hostWaits = true) : WaitsOn s (resetHcc s) := ⟨hw, nofun⟩

theorem runCmd_waits {c : Cmd Unit} (hc : Blind c) (hw : s.hostWaits = true) (ht : runCmd c s = .next t) : WaitsOn s t := by
  have hpoint : Blind (do
    point
    c) := .bind .point fun _ => hc
  obtain ⟨hs, hr⟩ := hpoint.waits s hw
  obtain hok | ⟨f, u, hfault, rfl⟩ | ⟨u, hreset, rfl⟩ := settle_next ht
  · rwa [hok] at hs
  · rw [hfault] at hs
    refine hs.trans ⟨hs.1, fun hf => absurd hfault ?_⟩
    obtain rfl : f = .cmdWhileBusy := Option.some.inj hf
    exact hr u
  · rw [hreset] at hs
    exact hs.trans (resetHcc_waits hs.1)

theorem exec_waits {i : Instr} (hw : s.hostWaits = true) (ht : exec i s = .next t) : WaitsOn s t := by
  obtain ⟨c, hc, -, hblind⟩ := exec_blind i s
  exact runCmd_waits hblind hw (hc ▸ ht)

theorem onCmdWrite_waits {w : Word} (hw : s.hostWaits = true) (ht : onCmdWrite w s = .next t) : WaitsOn s t := by
  have hlatch : WaitsOn s (s.latch w) := .of_eq hw rfl rfl rfl
  unfold onCmdWrite at ht
  split at ht
  · split at ht
    · exact exec_waits hw ht
    · exact Host.Outcome.next.inj ht ▸ .of_eq hw rfl rfl rfl
  · split at ht
    · exact hlatch.trans (runCmd_waits (.raise (f := .illegalCmd) nofun) hlatch.1 ht)
    · exact hlatch.trans (exec_waits hlatch.1 ht)

theorem hostAct_waits {act : HostAct} (hw : s.hostWaits = true) (ht : hostAct act s = .next t) : WaitsOn s t := by
  cases act with
  | hardReset => exact Host.Outcome.next.inj ht ▸ resetHcc_waits hw
  | attach bits =>
    simp only [hostAct] at ht
    split at ht
    · exact Host.Outcome.next.inj ht ▸ .of_eq hw rfl rfl rfl
    · cases ht
  | read addr size =>
    simp only [hostAct] at ht
    split at ht
    · cases ht
    · exact Host.Outcome.next.inj ht ▸ .of_eq hw rfl rfl rfl
  | write addr size v =>
    simp only [hostAct] at ht
    split at ht
    · cases ht
    · exact onCmdWrite_waits hw ht
    · rw [regWrite_eq] at ht
      exact Host.Outcome.next.inj ht ▸ .of_eq hw rfl rfl rfl

/-- Settles O17: a step is more of a decode, nothing, or the host's next act, and each leaves the host waiting. -/
theorem hostThatWaitsNeverMeetsCmdWhileBusy : Obligations.HostThatWaitsNeverMeetsCmdWhileBusy := by
  intro s t hw ht
  by_cases hb : s.busy = true
  · rw [step_busy hb] at ht
    exact runCmd_waits (blind_decodeAndEnd _) hw ht
  · rw [Bool.not_eq_true] at hb
    cases hh : s.host with
    | nil =>
      rw [step_idle_nil hb hh] at ht
      exact Host.Outcome.next.inj ht ▸ WaitsOn.of_eq hw rfl rfl rfl
    | cons e rest =>
      rw [step_idle hb hh] at ht
      exact hostAct_waits (s := s.setHost rest) ((hostWaits_cons hh).mp hw).2 ht

end Sys2Proof.Machine

end
